-- ==== Sys2Proof/Word.lean ====
section
/-! DEFINITION. The word types of Zeleus (R3, R4): bytes, words, virtual addresses, vectors. -/

namespace Sys2Proof

/-- A byte (R4). -/
abbrev Byte := BitVec 8

/-- A 64-bit doubleword, the width of a scalar register (R4, R72). -/
abbrev W64 := BitVec 64

/-- A 48-bit virtual address, as `pc`, `epc`, `evec`, `msgvec` and `nt0` to `nt3` hold it (R82). -/
abbrev VA := BitVec 48

/-- A 512-bit vector (R4). -/
abbrev V512 := BitVec 512

end Sys2Proof
end

