-- ==== Sys2Proof/Machine/Fields.lean ====
section
/-! DEFINITION. The named values of instruction fields and of event arguments: dispositions, sizes, orders, lane types,
conditions, modes (R25, R65 to R69, R74, R75, R94, R149, R197, R204), and their bit codes in both directions. -/

namespace Sys2Proof.Machine

/-- What a new partition asks for of ports: Salden ports, and shares of the CXL ports' bandwidth in percent (R262, R264). -/
structure PortGrant where
  salden : List Nat
  cxl : List (Nat × Nat)
deriving DecidableEq, Repr

/-- An entry of a Salden port's route table (R263): a subscription number, or a reduction identity, with its peer device and
peer port. -/
structure Route where
  reduction : Bool
  id : Nat
  device : Nat
  port : Nat
deriving DecidableEq, Repr, Inhabited

/-- The disposition of a not-ready outcome: field `nr` (Table 2.2). 010 and 011 have no name: they are ILLEGAL. -/
inductive Disp where
  | flag | park | nt0 | nt1 | nt2 | nt3
deriving DecidableEq, Repr, Inhabited

/-- Code of `nr` (Table 2.2). -/
def Disp.code : Disp → Nat
  | .flag => 0 | .park => 1 | .nt0 => 4 | .nt1 => 5 | .nt2 => 6 | .nt3 => 7

/-- `nr` read back; the reserved values 010 and 011 give none (R25, R78). -/
def Disp.ofCode : Nat → Option Disp
  | 0 => some .flag | 1 => some .park | 4 => some .nt0 | 5 => some .nt1 | 6 => some .nt2 | 7 => some .nt3
  | _ => none

/-- Access size, field `sz` (Table 4.3). -/
inductive Size where
  | b | h | w | d | v | bz | hz | wz
deriving DecidableEq, Repr, Inhabited

/-- Code of `sz` (Table 4.3). -/
def Size.code : Size → Nat
  | .b => 0 | .h => 1 | .w => 2 | .d => 3 | .v => 4 | .bz => 5 | .hz => 6 | .wz => 7

/-- `sz` read back. -/
def Size.ofCode : Nat → Option Size
  | 0 => some .b | 1 => some .h | 2 => some .w | 3 => some .d | 4 => some .v | 5 => some .bz | 6 => some .hz
  | 7 => some .wz | _ => none

/-- Access size in bytes (Table 4.3). -/
def Size.bytes : Size → Nat
  | .b => 1 | .h => 2 | .w => 4 | .d => 8 | .v => 64 | .bz => 1 | .hz => 2 | .wz => 4

/-- Whether a store accepts the size (Table 4.3: 101 to 111 are ILLEGAL for stores). -/
def Size.storable : Size → Bool
  | .bz | .hz | .wz => false
  | _ => true

/-- Order field `ord` of formats M and MD (Table 4.4). `strong` is acquire for a load and release for a store. -/
inductive Ord2 where
  | rlx | strongDev | strongDie | strongSys
deriving DecidableEq, Repr, Inhabited

/-- Code of `ord` (Table 4.4). -/
def Ord2.code : Ord2 → Nat
  | .rlx => 0 | .strongDev => 1 | .strongDie => 2 | .strongSys => 3

/-- `ord` read back. -/
def Ord2.ofCode : Nat → Option Ord2
  | 0 => some .rlx | 1 => some .strongDev | 2 => some .strongDie | 3 => some .strongSys | _ => none

/-- Shift kind of SHI (R67); 11 is ILLEGAL. -/
inductive ShKind where
  | l | r | ra
deriving DecidableEq, Repr, Inhabited

/-- Code of the shift kind (R67). -/
def ShKind.code : ShKind → Nat
  | .l => 0 | .r => 1 | .ra => 2

/-- Shift kind read back. -/
def ShKind.ofCode : Nat → Option ShKind
  | 0 => some .l | 1 => some .r | 2 => some .ra | _ => none

/-- Branch condition `cc` (Table 4.5a); 0110 to 1111 are ILLEGAL. -/
inductive Cond where
  | eq | ne | lt | ge | ltz | gez
deriving DecidableEq, Repr, Inhabited

/-- Code of `cc` (Table 4.5a). -/
def Cond.code : Cond → Nat
  | .eq => 0 | .ne => 1 | .lt => 2 | .ge => 3 | .ltz => 4 | .gez => 5

/-- `cc` read back. -/
def Cond.ofCode : Nat → Option Cond
  | 0 => some .eq | 1 => some .ne | 2 => some .lt | 3 => some .ge | 4 => some .ltz | 5 => some .gez | _ => none

/-- FENCE kind (R149); 11 is ILLEGAL. -/
inductive FenceKind where
  | full | ld | st
deriving DecidableEq, Repr, Inhabited

/-- Code of the fence kind (R149). -/
def FenceKind.code : FenceKind → Nat
  | .full => 0 | .ld => 1 | .st => 2

/-- Fence kind read back. -/
def FenceKind.ofCode : Nat → Option FenceKind
  | 0 => some .full | 1 => some .ld | 2 => some .st | _ => none

/-- Scopes (R147). -/
inductive Scope where
  | core | die | dev | sys
deriving DecidableEq, Repr, Inhabited

/-- Code of a fence's scope (R149). -/
def Scope.code : Scope → Nat
  | .core => 0 | .die => 1 | .dev => 2 | .sys => 3

/-- Fence scope read back. -/
def Scope.ofCode : Nat → Option Scope
  | 0 => some .core | 1 => some .die | 2 => some .dev | 3 => some .sys | _ => none

/-- XLINV kind (R375); 10 and 11 are ILLEGAL. -/
inductive InvKind where
  | page | all
deriving DecidableEq, Repr, Inhabited

/-- Code of the XLINV kind (R375). -/
def InvKind.code : InvKind → Nat
  | .page => 0 | .all => 1

/-- XLINV kind read back. -/
def InvKind.ofCode : Nat → Option InvKind
  | 0 => some .page | 1 => some .all | _ => none

/-- Lane type (R74); 110 and 111 are ILLEGAL. -/
inductive LaneTy where
  | i32 | i16 | i8 | f32 | f16 | bf16
deriving DecidableEq, Repr, Inhabited

/-- Code of the lane type (R74). -/
def LaneTy.code : LaneTy → Nat
  | .i32 => 0 | .i16 => 1 | .i8 => 2 | .f32 => 3 | .f16 => 4 | .bf16 => 5

/-- Lane type read back. -/
def LaneTy.ofCode : Nat → Option LaneTy
  | 0 => some .i32 | 1 => some .i16 | 2 => some .i8 | 3 => some .f32 | 4 => some .f16 | 5 => some .bf16 | _ => none

/-- Lane width in bits (R368). -/
def LaneTy.width : LaneTy → Nat
  | .i32 | .f32 => 32
  | .i16 | .f16 | .bf16 => 16
  | .i8 => 8

/-- Number of lanes (R368). -/
def LaneTy.lanes : LaneTy → Nat
  | .i32 | .f32 => 16
  | .i16 | .f16 | .bf16 => 32
  | .i8 => 64

/-- Integer types are 000 to 010 (R74). -/
def LaneTy.isInt : LaneTy → Bool
  | .i32 | .i16 | .i8 => true
  | _ => false

/-- FCMP condition (R300); 101 to 111 are ILLEGAL. -/
inductive FCond where
  | eq | ne | lt | le | un
deriving DecidableEq, Repr, Inhabited

/-- Code of the FCMP condition (R300). -/
def FCond.code : FCond → Nat
  | .eq => 0 | .ne => 1 | .lt => 2 | .le => 3 | .un => 4

/-- FCMP condition read back. -/
def FCond.ofCode : Nat → Option FCond
  | 0 => some .eq | 1 => some .ne | 2 => some .lt | 3 => some .le | 4 => some .un | _ => none

/-- FCVT kind (Table 22.3); 0x09 to 0x1F are ILLEGAL. -/
inductive CvtKind where
  | toi | toz | fromi | fromz | toh | tobh | fromh | frombh | tow
deriving DecidableEq, Repr, Inhabited

/-- Code of the FCVT kind (Table 22.3). -/
def CvtKind.code : CvtKind → Nat
  | .toi => 0 | .toz => 1 | .fromi => 2 | .fromz => 3 | .toh => 4 | .tobh => 5 | .fromh => 6 | .frombh => 7 | .tow => 8

/-- FCVT kind read back. -/
def CvtKind.ofCode : Nat → Option CvtKind
  | 0 => some .toi | 1 => some .toz | 2 => some .fromi | 3 => some .fromz | 4 => some .toh | 5 => some .tobh
  | 6 => some .fromh | 7 => some .frombh | 8 => some .tow | _ => none

/-- VRED function (Table 24.6). -/
inductive RedFn where
  | add | min | max | minz | maxz | and | or | xor
deriving DecidableEq, Repr, Inhabited

/-- Code of the VRED function (Table 24.6). -/
def RedFn.code : RedFn → Nat
  | .add => 0 | .min => 1 | .max => 2 | .minz => 3 | .maxz => 4 | .and => 5 | .or => 6 | .xor => 7

/-- VRED function read back. -/
def RedFn.ofCode : Nat → Option RedFn
  | 0 => some .add | 1 => some .min | 2 => some .max | 3 => some .minz | 4 => some .maxz | 5 => some .and
  | 6 => some .or | 7 => some .xor | _ => none

/-- VCMP condition (Table 4.11). -/
inductive VCond where
  | eq | ne | lt | le | ltz | lez | un
deriving DecidableEq, Repr, Inhabited

/-- Code of the VCMP condition (Table 4.11). -/
def VCond.code : VCond → Nat
  | .eq => 0 | .ne => 1 | .lt => 2 | .le => 3 | .ltz => 4 | .lez => 5 | .un => 6

/-- VCMP condition read back; 0x07 is ILLEGAL. -/
def VCond.ofCode : Nat → Option VCond
  | 0 => some .eq | 1 => some .ne | 2 => some .lt | 3 => some .le | 4 => some .ltz | 5 => some .lez | 6 => some .un
  | _ => none

/-- Press mode, field `md` (R68). -/
inductive PMode where
  | ovw | add | dec | sub
deriving DecidableEq, Repr, Inhabited

/-- Code of `md` (R68). -/
def PMode.code : PMode → Nat
  | .ovw => 0 | .add => 1 | .dec => 2 | .sub => 3

/-- `md` read back. -/
def PMode.ofCode : Nat → Option PMode
  | 0 => some .ovw | 1 => some .add | 2 => some .dec | 3 => some .sub | _ => none

/-- ACCST destination (Table 13.3); 111 is ILLEGAL. -/
inductive AccDest where
  | raw | dxb8a | dxb8b | dxb4a | dxb4b | i8a | i8b
deriving DecidableEq, Repr, Inhabited

/-- Code of `dest` (Table 13.3). -/
def AccDest.code : AccDest → Nat
  | .raw => 0 | .dxb8a => 1 | .dxb8b => 2 | .dxb4a => 3 | .dxb4b => 4 | .i8a => 5 | .i8b => 6

/-- `dest` read back. -/
def AccDest.ofCode : Nat → Option AccDest
  | 0 => some .raw | 1 => some .dxb8a | 2 => some .dxb8b | 3 => some .dxb4a | 4 => some .dxb4b | 5 => some .i8a
  | 6 => some .i8b | _ => none

/-- Bytes an ACCST destination writes (Table 13.3). -/
def AccDest.bytes : AccDest → Nat
  | .raw => 4096 | .dxb8a | .dxb8b => 1088 | .dxb4a | .dxb4b => 576 | .i8a | .i8b => 1024

/-- SEAM role (R204); 11 is ILLEGAL. -/
inductive Role where
  | head | link | tail
deriving DecidableEq, Repr, Inhabited

/-- Code of `role` (R204). -/
def Role.code : Role → Nat
  | .head => 0 | .link => 1 | .tail => 2

/-- `role` read back. -/
def Role.ofCode : Nat → Option Role
  | 0 => some .head | 1 => some .link | 2 => some .tail | _ => none

/-- MON space, field `sp` (R41); 11 is ILLEGAL. -/
inductive MonSpace where
  | dev | sp | off
deriving DecidableEq, Repr, Inhabited

/-- Code of `sp` (R41). -/
def MonSpace.code : MonSpace → Nat
  | .dev => 0 | .sp => 1 | .off => 2

/-- `sp` read back. -/
def MonSpace.ofCode : Nat → Option MonSpace
  | 0 => some .dev | 1 => some .sp | 2 => some .off | _ => none

/-- Order of an atomic, x[2:1] (R276). -/
inductive AmOrd where
  | rlx | acq | rel | ar
deriving DecidableEq, Repr, Inhabited

/-- Code of an atomic's order (R276). -/
def AmOrd.code : AmOrd → Nat
  | .rlx => 0 | .acq => 1 | .rel => 2 | .ar => 3

/-- Order of an atomic read back. -/
def AmOrd.ofCode : Nat → Option AmOrd
  | 0 => some .rlx | 1 => some .acq | 2 => some .rel | 3 => some .ar | _ => none

/-- The two link directions of a core (R109). -/
inductive Dir where
  | east | west
deriving DecidableEq, Repr, Inhabited

/-- Code of a link direction (R110). -/
def Dir.code : Dir → Nat
  | .east => 0 | .west => 1

/-- Direction read back. -/
def Dir.ofCode : Nat → Option Dir
  | 0 => some .east | 1 => some .west | _ => none

/-- The other direction. -/
def Dir.flip : Dir → Dir
  | .east => .west | .west => .east

/-- One-bit field as a Bool, in both directions. -/
def boolCode (b : Bool) : Nat := if b then 1 else 0

/-- A one-bit field read back. -/
def boolOfCode : Nat → Option Bool
  | 0 => some false | 1 => some true | _ => none

/-- Lifecycle states (Table 20.3). -/
inductive Lifecycle where
  | manufacture | provisioned | deployed | debug | retired
deriving DecidableEq, Repr, Inhabited

/-- Causes of the bleach alarm (R267). -/
inductive BleachCause where
  | glitch | temperature | tamperMesh | lifecycleViolation
deriving DecidableEq, Repr, Inhabited

/-- A register of a partition's control page or of the debug port that a write sets without further behaviour
(R251, R257, R261). `freeze`, `commit` and the doorbell have events of their own. -/
inductive CtlPageReg where
  | window (n : Nat)                 -- HW0 to HW3, 128 bits (Table 20.2)
  | intakeOverflow                   -- W1C bit 8 of the intake status
  | eventBase | eventTail            -- event ring base, tail
  | config (off : Nat)               -- staged configuration field at 0x200 to 0x228 (Table 20.4)
  | catchBit (lcn slot : Nat)        -- debug port: catch bit for BKPT (R251)
  | stepMode (lcn slot : Nat)        -- debug port: step mode, 1 is `trap` (R251)
  | coreFreeze (lcn : Nat)           -- debug port: freeze bit of a core (R251)
deriving DecidableEq, Repr, Inhabited

/-- Where a byte lives once its address is translated: a memory by physical address, a leased L2 range, or a unit of a
core's window map (R128, R130, R138, R143). Scratchpad of core `c` is `win c 0`. -/
inductive Space where
  | dev | far | host
  | lease (part idx gen : Nat)
  | win (core unit : Nat)
deriving DecidableEq, Repr, Inhabited

/-- The structures whose two ends are claim resources of their own (R92). -/
inductive StructKind where
  | dataQueue | outcomeQueue | link | channel | mailbox | deque
deriving DecidableEq, Repr, Inhabited

/-- Refusing resources, with their identities (Table 2.4, R92). -/
inductive Resource where
  | struct (core : Nat) (k : StructKind) (idx : Nat) (filling : Bool)
  | steal (core slot : Nat)
  | feWord (core word : Nat) (filling : Bool)
  | barrier (part handle : Nat)
  | count (core addr : Nat)
  | credit (core target chan : Nat)
  | pressCredit (core target : Nat)
  | iron (part launch region : Nat)
  | reply (core block : Nat)
  | line (sp : Space) (line : Nat)
  | acc (core n : Nat)
  | engine (core : Nat)
  | row (v : Nat)
  | slices (part first count : Nat)
  | intake (part : Nat)
deriving DecidableEq, Repr, Inhabited

/-- Not-ready causes (Table 2.3). -/
inductive Cause where
  | fill | qempty | qfull | fewait | phase | count | credit | busy | admission | token | lease | stale | reply
deriving DecidableEq, Repr, Inhabited

/-- Code of a cause in `status.ncause` (Table 2.3). -/
def Cause.code : Cause → BitVec 4
  | .fill => 1 | .qempty => 2 | .qfull => 3 | .fewait => 4 | .phase => 5 | .count => 6 | .credit => 7 | .busy => 8
  | .admission => 9 | .token => 10 | .lease => 11 | .stale => 12 | .reply => 13

/-- State causes are decided by architectural state alone (Table 2.3, R31). -/
def Cause.isState : Cause → Bool
  | .fill | .busy | .admission | .lease | .stale => false
  | _ => true

/-- Trap causes (R83, Table 19.1). -/
inductive TrapCause where
  | illegal | priv | align | pfr | pfw | pfx | prot | capref | bounds | memue | deadlock | bkpt | step | trap
deriving DecidableEq, Repr, Inhabited

/-- Code of a trap cause in `ecause` bits 4:0 (R83). -/
def TrapCause.code : TrapCause → Nat
  | .illegal => 1 | .priv => 2 | .align => 3 | .pfr => 4 | .pfw => 5 | .pfx => 6 | .prot => 7 | .capref => 8
  | .bounds => 9 | .memue => 10 | .deadlock => 11 | .bkpt => 12 | .step => 13 | .trap => 14

/-- Operations a home applies for AM* and RED* (Tables 21.3 and 23.5). -/
inductive AtomOp where
  | add | and | or | xor | min | max | minz | maxz | swp | cas | fadd
deriving DecidableEq, Repr, Inhabited

/-- The three memories reached by physical address (Table 8.6 `target`). -/
inductive Target where
  | dev | far | host
deriving DecidableEq, Repr, Inhabited

/-- The copy instructions (R210). -/
inductive CopyKind where
  | copy | gath | slice
deriving DecidableEq, Repr, Inhabited

/-- Press formats (R85). -/
inductive Fmt where
  | dxb4 | dxb8 | int8
deriving DecidableEq, Repr, Inhabited

end Sys2Proof.Machine
end

