-- ==== Sys2Proof/Syntax.lean ====
section
/-! DEFINITION. The instructions and events of Zeleus: one constructor for each row of the opcode table (R70 to R77; the
rows without an encoding are the steps of spec/95_what_each_step_holds.md). The fields of an encoded row are those of its
encoding; the arguments of an event name the item it acts on (`c` core, `k` slot, `i` index of an item, `p` partition, `q`
launch sequence, `n` node or region) and whatever the spec leaves to the hardware or the outside (assumption 1). -/

namespace Sys2Proof

open Sys2Proof.Machine

/-- A scalar register number s0 to s31 (R64). -/
abbrev SReg := Fin 32

/-- A vector register number v0 to v15 (R64). -/
abbrev VReg := Fin 16

/-- A mask register number m0 to m7 (R64). -/
abbrev MReg := Fin 8

/-- An accumulator number a0 to a7 (R64). -/
abbrev Acc := Fin 8

/-- One constructor per row of spec/opcode_table.json. -/
inductive Instr where
  | nop
  | trap (code : BitVec 5)
  | eret
  | halt
  | bkpt (code : BitVec 5)
  | ctlr (d : SReg) (n : BitVec 10)
  | ctlw (a : SReg) (n : BitVec 10)
  | fence (sc : Scope) (k : FenceKind)
  | dcfence (a b : SReg)
  | xlinv (a : SReg) (k : InvKind)
  | dictld (a : SReg) (lo : BitVec 5) (hi : BitVec 1)
  | ltrd (d a : SReg)
  | stamp (d : SReg)
  | add (d a b : SReg)
  | sub (d a b : SReg)
  | and_ (d a b : SReg)
  | or_ (d a b : SReg)
  | xor (d a b : SReg)
  | shl (d a b : SReg)
  | shr (d a b : SReg)
  | sra (d a b : SReg)
  | mul (d a b : SReg)
  | mulh (d a b : SReg)
  | mulhz (d a b : SReg)
  | div (d a b : SReg)
  | divz (d a b : SReg)
  | rem (d a b : SReg)
  | remz (d a b : SReg)
  | min (d a b : SReg)
  | max (d a b : SReg)
  | minz (d a b : SReg)
  | maxz (d a b : SReg)
  | slt (d a b : SReg)
  | sltz (d a b : SReg)
  | seq (d a b : SReg)
  | sel (d a b e : SReg)
  | clz (d a : SReg)
  | popc (d a : SReg)
  | addi (d a : SReg) (imm : BitVec 16)
  | andi (d a : SReg) (imm : BitVec 16)
  | ori (d a : SReg) (imm : BitVec 16)
  | xori (d a : SReg) (imm : BitVec 16)
  | shi (d a : SReg) (k : ShKind) (n : BitVec 6)
  | lui (d : SReg) (imm : BitVec 21)
  | slti (d a : SReg) (imm : BitVec 16)
  | muli (d a : SReg) (imm : BitVec 16)
  | brc (c : Cond) (a b : SReg) (off : BitVec 12)
  | brci (c : Cond) (a : SReg) (imm : BitVec 5) (off : BitVec 12)
  | j (off : BitVec 26)
  | call (off : BitVec 26)
  | jr (a : SReg)
  | callr (d a : SReg)
  | bnr (off : BitVec 26)
  | rpt (count : BitVec 8) (len : BitVec 4) (sd sa sb sx : BitVec 3)
  | fadd (d a b : SReg)
  | fsub (d a b : SReg)
  | fmul (d a b : SReg)
  | ffma (d a b e : SReg)
  | fdiv (d a b : SReg)
  | fsqrt (d a : SReg)
  | fmin (d a b : SReg)
  | fmax (d a b : SReg)
  | fcmp (d a b : SReg) (c : FCond)
  | fcvt (d a : SReg) (k : CvtKind)
  | fclass (d a : SReg)
  | vadd (d a b : VReg) (m : MReg) (t : LaneTy)
  | vsub (d a b : VReg) (m : MReg) (t : LaneTy)
  | vmul (d a b : VReg) (m : MReg) (t : LaneTy)
  | vfma (d a b : VReg) (m : MReg) (t : LaneTy)
  | vmin (d a b : VReg) (m : MReg) (t : LaneTy)
  | vmax (d a b : VReg) (m : MReg) (t : LaneTy)
  | vminz (d a b : VReg) (m : MReg) (t : LaneTy)
  | vmaxz (d a b : VReg) (m : MReg) (t : LaneTy)
  | vabs (d a : VReg) (m : MReg) (t : LaneTy)
  | vneg (d a : VReg) (m : MReg) (t : LaneTy)
  | vadds (d a b : VReg) (m : MReg) (t : LaneTy)
  | vsubs (d a b : VReg) (m : MReg) (t : LaneTy)
  | vmulh (d a b : VReg) (m : MReg) (t : LaneTy)
  | vand (d a b : VReg) (m : MReg) (t : LaneTy)
  | vor (d a b : VReg) (m : MReg) (t : LaneTy)
  | vxor (d a b : VReg) (m : MReg) (t : LaneTy)
  | vshl (d a b : VReg) (m : MReg) (t : LaneTy)
  | vshr (d a b : VReg) (m : MReg) (t : LaneTy)
  | vsra (d a b : VReg) (m : MReg) (t : LaneTy)
  | vcvt (d a : VReg) (dt : LaneTy) (m : MReg) (t : LaneTy)
  | vperm (d a b : VReg) (m : MReg) (t : LaneTy)
  | vred (d : SReg) (a : VReg) (f : RedFn) (m : MReg) (t : LaneTy)
  | vbcst (d : VReg) (a : SReg) (m : MReg) (t : LaneTy)
  | vmovs (d : SReg) (a : VReg) (lane : BitVec 5) (t : LaneTy)
  | vrcp (d a : VReg) (m : MReg)
  | vrsq (d a : VReg) (m : MReg)
  | vexp2 (d a : VReg) (m : MReg)
  | vlog2 (d a : VReg) (m : MReg)
  | vcmp (d : MReg) (a b : VReg) (m : MReg) (t : LaneTy) (c : VCond)
  | mand (d a b : MReg)
  | mor (d a b : MReg)
  | mnot (d a : MReg)
  | mcnt (d : SReg) (a : MReg)
  | pmac (x : Acc) (a b : SReg) (nr : Disp) (md : PMode) (pl : BitVec 3)
  | pgrp (x : Acc) (a b : SReg) (nr : Disp) (md : PMode) (pl : BitVec 3)
  | pcmd (x : Acc) (a b : SReg) (nr : Disp) (md : PMode) (pl : BitVec 3)
  | accz (x : Acc) (nr : Disp)
  | accrd (x : Acc) (a : VReg) (b : SReg) (nr : Disp)
  | accwr (x : Acc) (a : VReg) (b : SReg) (nr : Disp)
  | accst (x : Acc) (a : SReg) (fill : Bool) (nr : Disp) (dest : AccDest)
  | accld (x : Acc) (a : SReg) (nr : Disp)
  | seam (x : Acc) (a : SReg) (b : Acc) (nr : Disp) (role : Role)
  | baddq (d a b : VReg) (dxb4 : Bool)
  | dxbpk (d a b : VReg) (dxb4 : Bool)
  | dxbun (d a : VReg) (hi dxb4 : Bool)
  | lds (d a : SReg) (sz : Size) (imm : BitVec 13)
  | sts (d a : SReg) (sz : Size) (imm : BitVec 13)
  | ldw (d a : SReg) (nr : Disp) (sz : Size) (ord : Ord2) (off : BitVec 8)
  | stw (d a : SReg) (nr : Disp) (sz : Size) (ord : Ord2) (off : BitVec 8)
  | ldl (d a : SReg) (nr : Disp) (sz : Size) (ord : Ord2) (off : BitVec 8)
  | stl (d a : SReg) (nr : Disp) (sz : Size) (ord : Ord2) (off : BitVec 8)
  | ldd (d a : SReg) (nr : Disp) (sz : Size) (ord : Ord2) (st : BitVec 3) (off : BitVec 5)
  | std (d a : SReg) (nr : Disp) (sz : Size) (ord : Ord2) (off : BitVec 5)
  | ldf (d a : SReg) (nr : Disp) (sz : Size) (ord : Ord2) (off : BitVec 8)
  | stf (d a : SReg) (nr : Disp) (sz : Size) (ord : Ord2) (off : BitVec 8)
  | ldh (d a : SReg) (nr : Disp) (sz : Size) (ord : Ord2) (off : BitVec 8)
  | sth (d a : SReg) (nr : Disp) (sz : Size) (ord : Ord2) (off : BitVec 8)
  | ldc (d a : SReg) (nr : Disp) (sz : Size) (peek : Bool) (off : BitVec 8)
  | stp (d a : SReg) (nr : Disp) (sz : Size) (off : BitVec 8)
  | feset (a : SReg) (nr : Disp) (x : BitVec 8)
  | feclr (a : SReg) (nr : Disp) (x : BitVec 8)
  | fepeek (d a : SReg) (nr : Disp) (x : BitVec 8)
  | amadd (d a : SReg) (nr : Disp) (w : Bool) (b : SReg) (ord : AmOrd) (sys : Bool)
  | amand (d a : SReg) (nr : Disp) (w : Bool) (b : SReg) (ord : AmOrd) (sys : Bool)
  | amor (d a : SReg) (nr : Disp) (w : Bool) (b : SReg) (ord : AmOrd) (sys : Bool)
  | amxor (d a : SReg) (nr : Disp) (w : Bool) (b : SReg) (ord : AmOrd) (sys : Bool)
  | ammin (d a : SReg) (nr : Disp) (w : Bool) (b : SReg) (ord : AmOrd) (sys : Bool)
  | ammax (d a : SReg) (nr : Disp) (w : Bool) (b : SReg) (ord : AmOrd) (sys : Bool)
  | amminz (d a : SReg) (nr : Disp) (w : Bool) (b : SReg) (ord : AmOrd) (sys : Bool)
  | ammaxz (d a : SReg) (nr : Disp) (w : Bool) (b : SReg) (ord : AmOrd) (sys : Bool)
  | amswp (d a : SReg) (nr : Disp) (w : Bool) (b : SReg) (ord : AmOrd) (sys : Bool)
  | amcas (d a : SReg) (nr : Disp) (w : Bool) (b : SReg) (ord : AmOrd) (sys : Bool)
  | redadd (a : SReg) (nr : Disp) (w : Bool) (b : SReg)
  | redfadd (a : SReg) (nr : Disp) (b : SReg)
  | redmin (a : SReg) (nr : Disp) (w : Bool) (b : SReg)
  | redmax (a : SReg) (nr : Disp) (w : Bool) (b : SReg)
  | redand (a : SReg) (nr : Disp) (w : Bool) (b : SReg)
  | redor (a : SReg) (nr : Disp) (w : Bool) (b : SReg)
  | redxor (a : SReg) (nr : Disp) (w : Bool) (b : SReg)
  | send (d : VReg) (a : SReg) (nr : Disp) (ch : BitVec 3) (rel : Bool)
  | recv (d : VReg) (a : SReg) (nr : Disp) (ch : BitVec 3) (probe acq : Bool)
  | recvReply (d : VReg) (a : SReg) (nr : Disp) (probe acq : Bool)
  | rcall (d a : SReg) (nr : Disp) (v : VReg) (rel : Bool) (ch : BitVec 3)
  | rret (d : VReg) (a : SReg)
  | mmask (a : SReg)
  | munmask
  | mvec
  | qpush (a : VReg) (nr : Disp) (q : BitVec 2)
  | qpop (d : VReg) (nr : Disp) (q : BitVec 2)
  | boq (a : SReg) (nr : Disp) (q : BitVec 1)
  | brq (nr : Disp) (q : BitVec 1) (off : BitVec 8)
  | lnkp (d : VReg) (nr : Disp) (dir : Dir)
  | lnkpForward (d : VReg) (nr : Disp) (dir : Dir)
  | lnkw (a : VReg) (nr : Disp) (dir : Dir)
  | garr (a : SReg) (rel : Bool)
  | garrr (a b : SReg) (rel : Bool)
  | gwait (d a : SReg) (nr : Disp)
  | mon (a : SReg) (nr : Disp) (sp : MonSpace) (e : BitVec 2)
  | park (d a : SReg)
  | spawn (a : VReg) (nr : Disp)
  | take (d : VReg) (nr : Disp)
  | steal (d a : SReg) (nr : Disp)
  | xpost (a : VReg) (nr : Disp) (b : BitVec 2)
  | xtake (d : VReg) (nr : Disp) (b : BitVec 2)
  | copy (a : VReg) (nr : Disp)
  | gath (a : VReg) (nr : Disp)
  | slice (a : VReg) (nr : Disp)
  | lease (d a : SReg) (nr : Disp)
  | unlease (a : SReg)
  | cwait (d a : SReg) (nr : Disp)
  | cwset (d a : SReg)
  | round (a : SReg) (nr : Disp)
  | rview (d a : SReg) (acq : Bool)
  | irget (a : SReg) (nr : Disp)
  | irpass (a t : SReg)
  | gear (nr : Disp) (spin : Bool)
  | launch (d a : SReg) (nr : Disp)
  | done
  | claimExpiry (c k : Nat)
  | parkTimeout (c k : Nat)
  | mmaskExpiry (c k : Nat)
  | messageInterrupt (c k : Nat)
  | postedStorePerform (c i : Nat)
  | loadReadAtTarget (c k : Nat)
  | pageWalkComplete (c i : Nat) (ev : List Nat)
  | lineFillComplete (c i : Nat) (ev : List Nat)
  | atomicAtHome (c k : Nat)
  | reductionAtHome (c i : Nat)
  | windowAccessPerform (c k : Nat)
  | mailboxStoreDeliver (c i : Nat)
  | messageArrival (i : Nat)
  | creditRequestArrival (i : Nat)
  | creditGrantArrival (i : Nat)
  | creditReturnArrival (i : Nat)
  | replyArrival (i : Nat)
  | linkWordArrival (i : Nat)
  | linkCreditReturn (i : Nat)
  | probeSend (c k : Nat)
  | probeArrival (i : Nat)
  | deadlockConfirm (i : Nat)
  | stealRequestArrival (i : Nat)
  | stealAnswerLanding (i : Nat)
  | launchIntake (p : Nat)
  | nodePlacement (p : Nat)
  | placementStarvation (p q n : Nat)
  | coreCompletionSignal (c : Nat)
  | nodeCompletion (p q n : Nat)
  | watchdogExpiry (p q n : Nat)
  | nodeFault (p : Nat)
  | copyDestWrite (c i off : Nat)
  | copyRecordWrite (c i : Nat)
  | pressOpStart (c : Nat)
  | pressPlaneRead (c : Nat)
  | pressOpComplete (c : Nat)
  | engineTrapDelivery (c i : Nat)
  | pgrpShareArrival (i : Nat)
  | pgrpShareEnd (c i : Nat)
  | pcmdStepArrival (i : Nat)
  | pcmdStepEnd (i : Nat)
  | accEngineComplete (c i : Nat)
  | seamForwardArrival (i : Nat)
  | roundIncrement (p q n : Nat)
  | ironPassComplete (p q n : Nat)
  | roundNoticeArrival (i : Nat)
  | viewInstall (c i : Nat)
  | publishWriteArrival (p q n off : Nat) (data : List Byte)
  | publishRoundArrival (p q n : Nat) (val : BitVec 32)
  | subscriptionLost (p q n : Nat)
  | barrierArrival (i : Nat)
  | barrierNoticeArrival (i : Nat)
  | gearChangeEffect (c : Nat)
  | restoreRequestGrant (c : Nat)
  | transitionWindowClose (die : Nat)
  | unitLimitSet (die n : Nat)
  | autosoakDrop (c : Nat)
  | vent (c : Nat) (temps : List (Nat × Nat))
  | ventForceSoak (c : Nat) (temps : List (Nat × Nat))
  | marginReplan (row : Nat)
  | sramRailStep (row : Nat) (bad : List (Nat × Nat))
  | rowUncorrectableError (c k : Nat)
  | lpddrThermalThreshold (stack temp : Nat)
  | preempt (c : Nat)
  | saveCancel (c : Nat)
  | restore (c : Nat)
  | leaseExpiry (p i : Nat)
  | leaseEnd (p i : Nat)
  | paletteReload (p : Nat)
  | xlinvComplete (p : Nat)
  | dcfenceWriteback (c k : Nat)
  | gatewayBlockArrival (port idx : Nat) (red : BitVec 64) (blk : V512)
  | debugStop (c k : Nat)
  | debugResume (c k : Nat)
  | debugStep (c k : Nat)
  | hostWindowAccess (p win off len : Nat) (wdata : Option (List Byte))
  | launchDoorbell (p : Nat) (addr : BitVec 64)
  | windowErrorCountRead (p : Nat)
  | traceDropCountRead (p : Nat)
  | configCommit (p : Nat) (val : BitVec 64)
  | controlPageWrite (p : Nat) (reg : CtlPageReg) (val : BitVec 128)
  | partitionCreate (p : Nat) (bays slices chans : List Nat) (ports : PortGrant)
  | partitionTeardown (p : Nat)
  | boot (imageOk : Bool) (version : Nat) (meas : BitVec 384)
  | lifecycleTransition (dest : Lifecycle)
  | bleachAlarm (cause : BleachCause)
  | attestationReport (nonce : BitVec 256)
  | debugUnlock (tokenOk : Bool) (hash : BitVec 384)
  | reset
  | illegalInstruction
  | fetchFault
  | seamOwnBusyEnd (c i : Nat)
  | freezeClear (p : Nat) (mask : BitVec 3)
  | junctionCooled (c temp : Nat)
  | expanderReportsThrottling (port share : Nat)
  | routeTableWrite (port : Nat) (routes : List Route) (ring : Option (Nat × Nat × Nat))
deriving DecidableEq, Repr, Inhabited

end Sys2Proof
end

