-- ==== Sys2Proof/Machine/Turn.lean ====
section
/-! DEFINITION. What a step of the whole device performs: one turn (assumption 1). -/

namespace Sys2Proof.Machine

/-- A turn of the device: the next core cycle of one core (R21), a tick of the mesh clock (R18, R126), one step of
spec/opcode_table.json, or what the table names no step for: a debugger's access through the window map (R253), a Salden port that
tries the block it holds again (R263), an expander's poison (R262), the attestation key provisioned again (R267). A step that
belongs to a slot's own core cycle does nothing as a turn of its own. -/
inductive Turn where
  | coreCycle (lcn : Nat)
  | meshTick
  | act (i : Instr)
  | debugWrite (c unit off : Nat) (d : List Byte)
  | debugRead (c unit off n : Nat)
  | portRetry (j : Nat)
  | farPoison (line : Nat)
  | keyProvision
deriving DecidableEq, Repr, Inhabited

end Sys2Proof.Machine
end

