-- ==== Sys2Proof/Config.lean ====
section
/-! DEFINITION. What the spec leaves open, as constants without a body: nothing can evaluate them, so what is proved holds
for every value (assumptions 1, 4 and 5). -/

namespace Sys2Proof.Config

open Sys2Proof.Machine

/-- The turn the device takes when the agenda lists none, by the number of turns performed (assumption 1). -/
opaque freeTurn : Nat → Turn

/-- The n-th free value drawn, of `w` bits (assumption 4). -/
opaque freeBits (w : Nat) : Nat → BitVec w

/-- The hash of a line of device memory, by its number (R138; assumption 8). -/
opaque sliceHash : Nat → Nat

/-- The hash of a barrier handle (R305; assumption 8). -/
opaque barrierHash : Nat → Nat

/-- Where on its die a Salden port lies: the bay that holds it (R263; assumption 9). -/
opaque portBay : Nat → Nat

/-- Where in that bay gateway core n mod 4 of port n div 4 lies, before places already taken are passed over (R14; assumption
9). -/
opaque gatewayPlace : Nat → Nat

/-- Where among its die's channel pairs those of an LPDDR stack lie, before places already taken are passed over (R14; assumption
9). -/
opaque pairPlace : Nat → Nat

/-- The 64-bit encoding of a resource identity in a saved claim entry (R87, Table 2.4; assumption 6). -/
opaque resourceId : Resource → BitVec 64

/-- The resource that such an encoding names, where software has edited a saved image (assumption 6). -/
opaque resourceOf : BitVec 64 → Resource

/-- The 64-bit encoding of a part of a saved context whose layout is open: the part, and the numbers it holds (Tables 5.6 and
5.7; assumption 17). -/
opaque contextBits : Nat → List Nat → BitVec 64

/-- The numbers that such an encoding names, where software has edited a saved image (assumption 17). -/
opaque contextOf : Nat → BitVec 64 → List Nat

/-- Entries that a hamper of a size in 64 KiB units holds (R249; assumption 62). -/
opaque hamperEntries : Nat → Nat

/-- The byte that stands at an address of memory which has been given to a new partition: its contents as decrypted with a key that
did not encrypt them, by the number of the key that decrypts them (R265; assumption 57). -/
opaque cipherByte : Nat → Nat → BitVec 8

/-- What a byte of far memory adds when it is decrypted with a key that did not encrypt its line: by the number of the key that
wrote it, that of the key that reads it, and the address (R265; assumption 57). -/
opaque farCipher : Nat → Nat → Nat → BitVec 8

/-- What a byte of device memory adds when a partition reads it whose key is not the one of its channel pair: by the numbers of the
two keys and the address (R265; assumption 57). -/
opaque pairCipher : Nat → Nat → Nat → BitVec 8

/-- The byte that stands at an address of a memory beyond what its packages or expanders hold, device memory for `false`, far memory
for `true` (R14; assumption 111). -/
opaque absentByte : Bool → Nat → BitVec 8

/-- The channel pair that serves a line of device memory, by its number (assumption 9). -/
opaque homePair : Nat → Nat

/-- The payload of a gateway message: reduction identity, block index and landing address, whose places in it are open
(R205; assumption 19). -/
opaque gatewayPayload : BitVec 64 → Nat → Nat → BitVec 512

/-- The sender word of a Salden port's messages (R93, R205; assumption 19). -/
opaque portWord : Nat → BitVec 64

/-- The device identifier (R268; assumption 20). -/
opaque deviceId : BitVec 128

/-- The hash of the partition configuration, by its numbers (R268; assumption 20). -/
opaque configHash : List (List Nat) → BitVec 384

/-- A measurement extended with a hash (R269; assumption 20). -/
opaque extendMeas : BitVec 384 → BitVec 384 → BitVec 384

end Sys2Proof.Config
end

