-- ==== Sys2Proof/Machine/Sparse.lean ====
section
/-! DEFINITION. Sparse tables: lists of (key, value) pairs, keys strictly rising, absent keys holding a default. They hold
register files, bit arrays, memories and the 40,960 cores. -/

namespace Sys2Proof.Machine

/-- A sparse table. -/
abbrev Sparse (α : Type) := List (Nat × α)

/-- Value at key `k`, or the default. -/
def sget {α : Type} (d : α) : Sparse α → Nat → α
  | [], _ => d
  | (k, v) :: r, n => if k = n then v else sget d r n

/-- Write at key `n`, keeping the keys in order. -/
def sput {α : Type} : Sparse α → Nat → α → Sparse α
  | [], n, v => [(n, v)]
  | (k, w) :: r, n, v =>
    if n < k then (n, v) :: (k, w) :: r
    else if n = k then (n, v) :: r
    else (k, w) :: sput r n v

/-- Remove key `n`. -/
def sdel {α : Type} : Sparse α → Nat → Sparse α
  | [], _ => []
  | (k, w) :: r, n => if k = n then sdel r n else (k, w) :: sdel r n

/-- Canonical write: a write of the default removes the entry, so equal tables are equal lists. -/
def sset {α : Type} [DecidableEq α] (d : α) (m : Sparse α) (n : Nat) (v : α) : Sparse α :=
  if v = d then sdel m n else sput m n v

/-- Keys rise strictly from above `lo` (none: no bound) and no value is the default. -/
def sparseWfFrom {α : Type} [DecidableEq α] (d : α) : Option Nat → Sparse α → Bool
  | _, [] => true
  | lo, (k, v) :: r =>
    (match lo with | none => true | some b => decide (b < k)) && decide (v ≠ d) && sparseWfFrom d (some k) r

/-- Canonical form of a sparse table. -/
def sparseWf {α : Type} [DecidableEq α] (d : α) (m : Sparse α) : Bool := sparseWfFrom d none m

/-- The first `n` keys' values from key `k` on, in order. -/
def sgetRange {α : Type} (d : α) (m : Sparse α) (k : Nat) : Nat → List α
  | 0 => []
  | n + 1 => sget d m k :: sgetRange d m (k + 1) n

/-- Canonical writes at consecutive keys. -/
def ssetRange {α : Type} [DecidableEq α] (d : α) (m : Sparse α) (k : Nat) : List α → Sparse α
  | [] => m
  | v :: vs => ssetRange d (sset d m k v) (k + 1) vs

end Sys2Proof.Machine
end

