-- ==== Sys2Proof/Machine/State.lean ====
section
/-! DEFINITION. The state of Zeleus as plain data (R10 to R14, R20, R81 to R91 and the chapters' own structures), the
state after reset, and the ways a step can stop. Absent entries of a sparse table hold the default named at the field. -/

namespace Sys2Proof.Machine

/-! ## One slot -/

/-- A claim entry (R34, R87); `stamp` is the die cycle at which its ticket arrived at its counter (R230). -/
structure Claim where
  pc : VA
  res : Resource
  ticket : BitVec 32
  age : Nat
  cause : BitVec 4
  stamp : Nat
deriving DecidableEq, Repr

/-- How a slot is parked (R40): by PARK with its destination and remaining timeout in rotations (0: none), or by a
not-ready outcome on a resource; `edge` is the wait-for edge of a probing RECV (R111). -/
inductive Park where
  | park (d : SReg) (left : Nat)
  | res (r : Resource) (edge : Option Nat)
deriving DecidableEq, Repr

/-- Slot states (Table 2.1); a stopped slot keeps its park (R44). -/
inductive SlotState where
  | empty | runnable
  | parked (p : Park)
  | stopped (under : Option Park)
deriving DecidableEq, Repr

/-- A monitor entry (R41): the 64-byte line it watches and its hit bit. -/
structure Mon where
  scratch : Bool
  line : Nat
  hit : Bool
deriving DecidableEq, Repr

/-- A live repeat frame (R198, R199): address of its first member, length, replay count and index, strides, the members' words
fetched so far, and whether a restore has emptied its buffer. -/
structure Frame where
  start : VA
  len : Nat
  count : Nat
  rep : Nat
  sd : Nat
  sa : Nat
  sb : Nat
  sx : Nat
  words : List (BitVec 32)
  again : Bool                      -- a restored frame whose members are to be fetched again (R90)
deriving DecidableEq, Repr

/-- What a window access asks of its target word (R130, R134, R135). -/
inductive WinOp where
  | load (len : Nat)
  | ldc (len : Nat) (consume : Bool)
  | stp (data : List Byte)
  | feset (n : Nat)
  | feclr (n : Nat)
  | fepeek (n : Nat)
deriving DecidableEq, Repr

/-- Progress of an access that its slot retries: not yet performed; performed with its bytes (and poison); or met at its
target by a refusal that the retry reports (R133). -/
inductive Answer where
  | pending
  | got (data : List Byte) (poison : Bool)
  | wait (cause : Cause) (r : Resource)
  | denied (t : TrapCause)
deriving DecidableEq, Repr

/-- A value held for a retry at the same PC and address (R129), or a window access under way (R133). -/
structure Hold where
  pc : VA
  sp : Space
  addr : Nat
  view : Bool                       -- compressed view (R218)
  slotOfDict : Nat                  -- dictionary slot of a compressed page
  comp : Bool                       -- page marked compressed
  op : WinOp
  ans : Answer
deriving DecidableEq, Repr

/-- An atomic in flight, or its held result (R277, R278). -/
structure Atom where
  pc : VA
  va : Nat
  addr : Nat
  op : AtomOp
  wide : Bool
  val : W64
  cmp : W64
  comp : Option Nat                 -- dictionary slot, on a compressed page
  acq : Bool
  rel : Bool
  sys : Bool
  ans : Answer
deriving DecidableEq, Repr

/-- A fault found by a walk and held for the claim of its PC on the walk's line `res` (R144): `true` an invalid entry, `false` a
PROT. -/
structure WalkFault where
  pc : VA
  page : Nat
  res : Resource
  invalid : Bool
deriving DecidableEq, Repr

/-- A translation held by a TLB (R143, R144). -/
structure TlbEntry where
  vbase : Nat
  size : Nat
  pbase : Nat
  tgt : Target
  comp : Bool
  dslot : Nat
  x : Bool
  w : Bool
  r : Bool
  dirty : Bool
deriving DecidableEq, Repr

/-- A slot (R20, Table 5.6). -/
structure Slot where
  regs : Sparse W64                 -- s1 to s31, default 0
  vregs : Sparse V512               -- v0 to v15, default 0
  mregs : Sparse W64                -- m1 to m7, default 0
  pc : VA
  nr : Bool
  ncause : BitVec 4
  sys : Bool                        -- status.mode
  epc : VA
  ecause : W64
  evec : VA
  msgvec : VA
  msgEn : BitVec 8
  msgMasked : Bool
  msgLeft : Nat
  pfmt : BitVec 3
  pgam : BitVec 32
  rnd : BitVec 2
  nt : Sparse VA                    -- nt0 to nt3, default 0
  claims : List (Option Claim)      -- k0 to k3
  st : SlotState
  wake : Option (Nat × Nat)         -- lowest reason so far and core cycle of the first wake (R40, R42)
  mons : Sparse (Option Mon)        -- entries 0 to 3, default none
  frame : Option Frame
  inHandler : Bool                  -- in a message handler (R100)
  hold : Option Hold
  atom : Option Atom
  walkFaults : List WalkFault       -- each held for the claim at its PC (R144)
  gathered : List (VA × TlbEntry)   -- pages translated for the copy instruction at a PC (R210)
  stealFly : Bool                   -- a steal of this slot is in flight (R123)
  stealOut : Nat                    -- outcome of the last steal sent (R123)
  refused : Bool                    -- the last TAKE or STEAL was refused (R126)
  ldMark : Nat                      -- posted work up to this number is ordered before later reads (R149, R150)
  stMark : Nat                      -- and before later writes
  passed : Nat                      -- and ahead of work up to this one a local full/empty access has gone on (R150)
  dcf : List (Nat × Nat × Nat)      -- DCFENCE ranges under way: base, length, number among the core's work (R219, R293)
  parkedAt : Nat × Nat              -- turn and die cycle of the last park on a resource (R111, R113)
  stopReq : Bool                    -- debug: stop at the next cycle (R251)
  stepping : Bool                   -- debug: one issue, then stop
  catchBkpt : Bool                  -- debug: catch bit
  stepTrap : Bool                   -- debug: step mode `trap`
deriving DecidableEq, Repr

/-! ## One core -/

/-- A message with its sender word (R93), its sender (a core, or a Salden port: R205) and the core cycle of its arrival
(R100). -/
structure Msg where
  pay : V512
  word : W64
  from_ : Nat
  stamp : Nat
deriving DecidableEq, Repr

/-- A send-credit entry (R97); the list of them is ordered by recency, most recent first (Table 6.4). -/
structure CreditEntry where
  tgt : Nat
  ch : Nat
  n : Nat
deriving DecidableEq, Repr

/-- An L1 copy of a line (R141): tagged with its view and, for a region line, with the region (launch, index) and round; there
`missed` is the region's counter when another core first wrote the line after the fill (R160, R169). -/
structure L1Line where
  sp : Space
  line : Nat
  view : Bool
  data : List Byte
  poison : Bool
  tag : Option (Nat × Nat × BitVec 32)
  missed : Option (BitVec 32) := none
deriving DecidableEq, Repr

/-- An entry of a core's round view (R167): launch, region and value; most recently used first. -/
structure ViewEntry where
  q : Nat
  n : Nat
  val : BitVec 32
deriving DecidableEq, Repr

/-- A page walk under way for a slot's access (R144); `seq` orders the walks of the device, since a die runs 512 at once. -/
structure Walk where
  seq : Nat
  slot : Nat
  pc : VA
  page : Nat
  write : Bool
deriving DecidableEq, Repr

/-- A line fill or refetch under way (R141, R169). -/
structure Fill where
  sp : Space
  line : Nat
  view : Bool
  comp : Bool
  dslot : Nat
deriving DecidableEq, Repr

/-- The read of an RMW whose slot has discarded its result (R278, R279): a plain one, or an acquire, at system scope or not. -/
inductive LostRead where
  | plain
  | acquire (sys : Bool)
deriving DecidableEq, Repr

/-- A posted store, a reduction, or an RMW whose result is discarded, in the posted-store buffer (R129, R278, R342). -/
structure Posted where
  id : Nat
  slot : Nat
  sp : Space
  addr : Nat
  data : List Byte
  rel : Bool
  red : Option (AtomOp × Bool)      -- reduction and whether it is 64 bits wide
  comp : Option Nat                 -- dictionary slot, on a compressed page
  cmp : W64 := 0                    -- comparand of an AMCAS whose slot has discarded its result (R278)
  am : Option LostRead := none      -- an RMW whose slot has discarded its result, with its read (R278)
deriving DecidableEq, Repr

/-- An increment under way, of a ROUND (R166) or of a pass of an iron (R174): its number among the core's posted work, the slot
that issued it (8: the end of a part, R175), launch and region. -/
structure RoundInc where
  id : Nat
  slot : Nat
  q : Nat
  n : Nat
deriving DecidableEq, Repr

/-- Where a press operation came from, hence what its end reports (R191, R202, R203). -/
inductive PressSrc where
  | loc (slot : Nat)
  | share (issuer id rank : Nat)
  | cmd (issuer cw : Nat)
deriving DecidableEq, Repr

/-- A press operation in a position, with its sampled values (R193) and what it has read so far (R194). -/
structure PressOp where
  id : Nat
  src : PressSrc
  acc : Nat
  a : Nat
  b : Nat
  fmt : Fmt
  md : PMode
  planes : Nat
  gam : BitVec 32
  heads : Option (List Byte × List Byte)   -- header, selector and sign planes of A and B
  mags : List (List Byte × List Byte)      -- magnitude planes read, newest first
  bad : Bool                               -- an operand word was uncorrectable
deriving DecidableEq, Repr

/-- A PGRP share at a member (R201): rank r takes tiles r·tpm + u into accumulator acc + u. -/
structure Share where
  issuer : Nat
  id : Nat                          -- the issuer's number for its PGRP
  slot : Nat
  rcd : Nat
  rank : Nat
  acc : Nat
  mt : Nat
  nt : Nat
  tpm : Nat
  abase : Nat
  bbase : Nat
  fmt : Fmt
  md : PMode
  planes : Nat
  gam : BitVec 32
  next : Nat                        -- next u to enter a position
  failed : Bool
deriving DecidableEq, Repr

/-- A PCMD step at its target (R203, R331). -/
structure PcmdStep where
  issuer : Nat
  cw : Nat
  acc : Nat
  a : Nat
  b : Nat
  fmt : Fmt
  md : PMode
  planes : Nat
  gam : BitVec 32
deriving DecidableEq, Repr

/-- Bytes at one place: within one line, or one block of a compressed view (R211, R218). -/
structure Piece where
  sp : Space
  addr : Nat
  len : Nat
  comp : Option Nat                 -- dictionary slot, on a compressed page
  view : Bool
deriving DecidableEq, Repr

/-- A destination write that an accepted copy has still to perform: at most 64 bytes of one line, or one block between
compressed views (R211, R218). -/
structure Segment where
  dst : Space
  daddr : Nat
  dcomp : Option Nat
  dview : Bool
  src : List Piece                  -- where its bytes come from, in order; none: the GATH pad byte
  pad : Byte
  len : Nat
  ctl : Option Nat                  -- core whose control block counts the bytes
deriving DecidableEq, Repr

/-- An accepted copy request (R209 to R214). -/
structure CopyReq where
  id : Nat
  kind : CopyKind
  fill : Bool
  count : Bool
  record : Bool
  cblk : Nat
  segs : List Segment
  written : Nat
  padded : Nat
  poison : Bool
  xdMarks : List (Nat × Nat)        -- slots and marks of posted work that precedes the reads (R208)
  source : List Piece               -- the source range, when it overlaps the destination range
deriving DecidableEq, Repr

/-- An ACCST or ACCLD under way (R197, R272): accumulator, destination or source window, and the bytes in hand. -/
structure AccOp where
  id : Nat
  acc : Nat
  load : Bool
  core : Nat
  addr : Nat
  data : List Byte
  fill : Bool
deriving DecidableEq, Repr

/-- The own accumulator of a SEAM until its 32 core cycles and its forward are over (R204). -/
structure SeamBusy where
  acc : Nat
  slot : Nat
  after : Nat                       -- posted work that the forward follows (0: no forward)
deriving DecidableEq, Repr

/-- A forward held at its successor (R204, R350): sender, accumulator, tile. -/
structure Forward where
  src : Nat
  acc : Nat
  tile : List (BitVec 32)
deriving DecidableEq, Repr

/-- A core's barrier record for a group it holds (R306). -/
structure BarRec where
  group : Nat
  handle : Nat
  p : Nat
  own : Nat
deriving DecidableEq, Repr

/-- The task part a core runs (R119, R121). -/
structure Task where
  q : Nat
  node : Nat
  rank : Nat
  size : Nat
  groups : List Nat
deriving DecidableEq, Repr

/-- Progress of a save (R246). -/
inductive SaveState where
  | no | saving | saved
deriving DecidableEq, Repr

/-- A core (R13, R88) under its logical number. -/
structure Core where
  cyc : Nat
  slots : Sparse Slot
  sp : Sparse Byte                  -- scratchpad, default 0
  fe : Sparse Bool                  -- full/empty bits, default empty
  spBad : List Nat                  -- uncorrectable scratchpad words (R236, R318)
  acc : Sparse (BitVec 32)          -- element (i, j) of an at 1024·n + 32·i + j, default 0
  l1 : List L1Line
  l1Gone : List Nat                 -- device lines whose copies a host window has made stale (R177, R258)
  dq : Sparse (List V512)
  bq : Sparse (List Bool)
  link : Sparse (List V512)         -- 0 east buffer, 1 west buffer
  linkCr : Sparse Nat               -- credits of the outgoing directions, default 2
  chans : Sparse (List Msg)
  chFree : Sparse Nat               -- free credits of own channels, default 4
  chHeld : Sparse (List Nat)        -- requests held at own channels, oldest first
  credits : List CreditEntry
  creditAsked : List (Nat × Nat)    -- requests outstanding: target core and channel
  pressCr : List (Nat × Nat)        -- credits for remote presses: target core and count (R203)
  pressAsked : List Nat
  cmdFree : Nat                     -- free credits of the own PCMD places
  cmdHeld : List Nat
  mb : Sparse (BitVec 256)
  mbFull : Sparse Bool
  mbRel : Sparse (Nat × Nat)        -- slot and posted mark of the request in a full mailbox (R208)
  dqHead : Nat                      -- deque indices (R122)
  dqTail : Nat
  landings : Nat
  failedSteals : Nat
  search : Nat                      -- mesh cycles in which every slot's last TAKE or STEAL was refused (R126)
  xdMarks : List (Nat × Nat)        -- slots and posted marks taken over by XTAKE (R208)
  shadow : Sparse W64               -- message shadow bank, default 0
  view : List ViewEntry
  viewAsk : List (Nat × Nat)        -- view installs under way
  viewNeed : List (Nat × Nat × BitVec 32)   -- values an acquire still waits for (R171)
  utlb : List TlbEntry
  walks : List Walk
  fills : List Fill
  leaseAt : List (Nat × Nat)        -- lease descriptors at hand: index and generation (R139)
  psb : List Posted
  rounds : List RoundInc            -- increments of ROUND still to take place (R166)
  passes : List RoundInc            -- and of passes of irons (R173, R174)
  nextId : Nat
  pressEnd : Option PressOp         -- the operation in its last 8 core cycles, while the next one sets up (R192)
  pressRun : Option PressOp
  pressWait : Option PressOp
  cmdQ : List PcmdStep
  shareQ : List Share
  copies : List CopyReq
  accOps : List AccOp
  seamBusy : List SeamBusy
  engTraps : List (Option Nat × TrapCause)   -- engine traps to deliver, with the issuing slot (R202, R335)
  spin : Bool                       -- gear.spin
  gearEff : Bool                    -- status.gear
  autosoak : Bool
  calm : Nat                        -- mesh cycles for which the conditions of an autosoak drop have held (R232)
  restoreReq : Option Claim         -- restore request (R91)
  task : Option Task
  ended : Bool                      -- the part of the task has ended, its signal is held (R125)
  endMark : Nat
  bars : List BarRec
  lamport : W64
  pressLam : W64
  copyLam : W64
  vents : BitVec 32
  tick : BitVec 32                  -- ticket counter of the core's structures (R35)
  creditTick : BitVec 32            -- ticket counter for CREDIT (R98)
  save : SaveState
  missed : List Nat                 -- device lines written while the core was saved (R41, R248)
  preReq : Bool                     -- a pre-emption message has arrived
  freeze : Bool                     -- debug freeze bit
  halted : Bool                     -- engines halted by a stop under the freeze bit (R252)
deriving DecidableEq, Repr

/-! ## The mesh -/

/-- What a save spills to the hamper (R89, R98, R206): a word of a data queue, of the east or west link, a message of a
receive channel, a credit request held there, a step of a PCMD command or a PGRP share not yet in a position, a held atomic
result (R278). -/
inductive Spill where
  | queue (i : Nat) (w : V512)
  | link (i : Nat) (w : V512)
  | chan (ch : Nat) (m : Msg)
  | held (ch asker : Nat)
  | cmd (st : PcmdStep)
  | cmdHeld (asker : Nat)
  | share (sh : Share)
  | atom (slot : Nat) (a : Atom)
deriving DecidableEq, Repr

/-- What a carrier on the mesh holds. -/
inductive Body where
  | msg (tgt ch : Nat) (pay : V512) (word : W64)
  | creditReq (tgt ch asker : Nat)
  | creditGrant (asker tgt ch n : Nat)
  | creditReturn (tgt ch n : Nat)
  | creditBack (sender tgt ch : Nat)
  | cmdReq (tgt asker : Nat)
  | cmdGrant (asker tgt n : Nat)
  | cmdReturn (tgt n : Nat)
  | cmdBack (issuer tgt : Nat)
  | reply (tgt blk : Nat) (pay : V512)
  | linkWord (tgt : Nat) (side : Dir) (w : V512)
  | linkCredit (tgt : Nat) (dir : Dir)
  | probe (tgt : Nat) (path : List (Nat × Nat × Nat))   -- core, slot and the turn at which it parked
  | stealReq (victim thief slot : Nat)
  | stealAns (thief slot : Nat) (r : Option (BitVec 256))
  | notice (tgt q n : Nat) (val : BitVec 32)
  | share (tgt : Nat) (sh : Share)
  | shareReport (tgt rcd rank : Nat) (failed : Bool)
  | pcmd (tgt : Nat) (st : PcmdStep)
  | countInc (tgt addr n : Nat)
  | forward (tgt : Nat) (f : Forward)
  | barArrive (part handle q node group rank : Nat) (remote : Bool)
  | barNotice (tgt q node group handle p : Nat) (arrivals : Nat)
  | winWrite (tgt unit addr : Nat) (data : List Byte) (fill : Bool)
  | spill (tgt : Nat) (x : Spill)
deriving DecidableEq, Repr

/-- A carrier on the mesh: its sending core and slot, the posted work it must follow (R150), the Lamport value it carries
(R255). -/
structure Packet where
  src : Nat
  slot : Nat
  after : Nat
  lam : W64
  body : Body
deriving DecidableEq, Repr

/-! ## Partitions and launches -/

/-- A group rectangle (Table 7.3). -/
structure Rect where
  col : Nat
  line : Nat
  width : Nat
  height : Nat
deriving DecidableEq, Repr

/-- States of a node (R114 to R127). -/
inductive NodeState where
  | waiting | ready | running | done | cancelled | faulted | watchdog
deriving DecidableEq, Repr

/-- A node of a launch (Table 7.2) and its progress. -/
structure Node where
  group : Nat
  deps : Nat
  succs : List Nat
  mask : Nat
  text : Nat
  entries : List Nat
  imgLen : Nat
  imgAddr : Nat
  args : Nat                        -- address of argument 0
  st : NodeState
  since : Nat                       -- die cycle at which it became ready
  starved : Bool                    -- has waited 1 ms (R114)
  cores : List Nat                  -- its cores in ascending LCN, once placed
  order : Nat                       -- placement order (R305)
  signals : List Nat                -- cores whose completion signal has arrived
  placed : Nat × W64                -- placement stamps
  fin : Nat × W64                   -- stamps of the last completion signal, of cancellation or of the fault
  by_ : Nat                         -- node whose fault cancelled it
  fault : Option (Nat × Nat × Nat)  -- slot, LCN, cause of the first fault
  search : Nat
  failed : Nat
  written : Bool                    -- completion record written
deriving DecidableEq, Repr

/-- The iron of a region (R172); while passing: the core and slot that pass it, the target, and the mark of their work that
the pass follows (R174). -/
inductive Iron where
  | rest
  | held (c : Nat)
  | passing (c : Nat) (slot : Nat) (t : Nat) (after : Nat)
  | offered (c : Nat)
deriving DecidableEq, Repr

/-- A region of a live launch (R164 to R176): `pages` gives the physical page of each virtual page of its range. -/
structure Region where
  base : Nat
  lines : Nat
  mode : Nat
  r : Bool
  w : Bool
  sub : Nat
  pages : Sparse Nat
  counter : BitVec 32
  iron : Iron
  lost : Bool
deriving DecidableEq, Repr

/-- A launch the scheduler has read (R115), under its sequence number. -/
structure Launch where
  q : Nat
  addr : Nat
  prio : Nat
  tag : W64
  watchdog : Nat
  comp : Nat
  groups : List (List Rect)
  nodes : List Node
  regions : List Region
  enq : Nat × W64
  begun : Bool
  live : Bool
deriving DecidableEq, Repr

/-- A barrier instance at its home (R305, R306). -/
structure BarInst where
  handle : Nat
  q : Nat
  node : Nat
  group : Nat
  p : Nat
  arr : Sparse Nat
deriving DecidableEq, Repr

/-- A lease-table entry (R138 to R140, R319). -/
structure LeaseEnt where
  gen : Nat
  live : Bool
  first : Nat
  count : Nat
  size : Nat
  store : Sparse Byte
  ending : List (Nat × Nat)         -- UNLEASEs waiting for posted stores: core and mark
  until_ : Nat                      -- die cycle at which the lifetime has run out
deriving DecidableEq, Repr

/-- A palette slot (R216, R221): bytes 0 to 15 as one vector each. -/
structure Palette where
  gen : Nat
  cur : BitVec 128
  prev : BitVec 128
deriving DecidableEq, Repr

/-- A DICTLD handed to the controllers (R294): address, palette slot, issuer and its posted mark. -/
structure DictReq where
  addr : Nat
  slot : Nat
  core : Nat
  cslot : Nat
  after : Nat
deriving DecidableEq, Repr

/-- An XLINV handed to the TLBs (R375); `page` none drops everything. -/
structure InvReq where
  page : Option Nat
  core : Nat
  cslot : Nat
deriving DecidableEq, Repr

/-- Configuration block fields (Table 20.4), each as the 64-bit value written. -/
structure Config64 where
  root : W64
  trap : W64
  handles : W64
  save : W64
  hamper : W64
  trace : W64
deriving DecidableEq, Repr

/-- A host window register (Table 20.2), 128 bits. -/
abbrev WinReg := BitVec 128

/-- An intake entry (R114): launch address, sequence number, Lamport value carried, and for LAUNCH its core, slot and
posted mark. -/
structure IntakeEnt where
  addr : Nat
  q : Nat
  lam : W64
  src : Option (Nat × Nat × Nat)
deriving DecidableEq, Repr

/-- A fault of a node that its scheduler has still to act on (R127): `task` is the launch and node of the core at the fault. -/
structure FaultReq where
  task : Option (Nat × Nat)
  core : Nat
  slot : Nat
  cause : Nat
  at_ : Nat                         -- die cycle of the fault
deriving DecidableEq, Repr

/-- A partition (R264). -/
structure Partition where
  live : Bool
  bays : List Nat
  slices : List Nat
  chans : List Nat
  ports : List Nat
  cxl : Sparse Nat                  -- bandwidth shares of the CXL ports in percent (R262, R264)
  key : Bool
  keyNo : Nat                       -- number of the partition's key (R265)
  pcn : Sparse Nat                  -- logical-to-physical core table, listed where it differs from the identity
  intake : List IntakeEnt
  overflow : Bool
  seq : Nat
  launches : List Launch
  frozen : List Bool                -- freeze bits of the three queues
  faults : List FaultReq
  bars : List BarInst
  kept : List (Nat × Nat × W64 × W64)   -- handle entries kept for a launch: launch, index, doublewords (R261)
  leases : Sparse LeaseEnt
  pal : Sparse Palette
  dicts : List DictReq
  invs : List InvReq
  wins : Sparse WinReg
  winErrs : Nat
  winLog : List (W64 × W64)
  evBase : W64
  evHead : BitVec 32                -- the two halves of the register at 0x060 (Table 20.1)
  evTail : BitVec 32
  staged : Config64
  conf : Config64
  committed : Bool
  refusedCommit : Nat
  drops : Nat
  tracePos : Nat
  lamport : W64
  homeTick : BitVec 32
  hamper : List Packet
  orders : Nat                      -- nodes placed so far
  moves : List (Nat × Nat)          -- vents under way: LCN and target PCN (R233, R321)
deriving DecidableEq, Repr

/-- A die's current governor (R229, R230). -/
structure Governor where
  limit : Nat
  window : List (Nat × Nat)         -- grants of the last 1,500 mesh cycles: row and cycle
  tick : BitVec 32
deriving DecidableEq, Repr

/-- A Salden port (R205, R263). -/
structure Port where
  routes : List Route
  rings : Sparse (Nat × Nat)        -- per gateway core: ring base, slots
  next : Sparse Nat
  held : List (Nat × BitVec 64 × V512)
  credits : List CreditEntry
  lamport : W64
deriving DecidableEq, Repr

/-- A voltage row's gauges (R235, R236). -/
structure RowGauge where
  pinned : Bool
  rail : Nat
deriving DecidableEq, Repr

/-- A write or counter value that a published region sends to its subscribers (R176): `peers` lists the ports it leaves
through, with the peer device and peer port of the route table (R263), and `lam` is its Lamport value (R255). -/
inductive PubItem where
  | write (peers : List (Nat × Route)) (lam : W64) (sub off : Nat) (data : List Byte)
  | round (peers : List (Nat × Route)) (lam : W64) (sub : Nat) (val : BitVec 32)
deriving DecidableEq, Repr

/-- An attestation report (R268). The device identifier is 128 bits wide (assumption 20). -/
structure Report where
  device : BitVec 128
  life : Lifecycle
  meas : BitVec 384
  rollback : Nat
  opened : Bool
  config : BitVec 384
  nonce : BitVec 256
  sig : BitVec 768
deriving DecidableEq, Repr

/-- The Kazcia controller and the fuses (R266 to R269). -/
structure Kazcia where
  life : Lifecycle
  booted : Bool
  failed : Bool
  meas : BitVec 384
  rollback : Nat
  debugOpened : Bool
  attKey : Bool
  keysLost : Bool
  reports : List Report
  mgmtEvents : List (W64 × W64 × W64 × W64)   -- event records sent to the management function (R260, R264)
deriving DecidableEq, Repr

/-! ## The device -/

/-- The whole device. -/
structure State where
  agenda : List Turn                -- turns to come (assumption 1)
  turns : Nat                       -- turns performed
  walkSeq : Nat                     -- page walks started
  free : Nat                        -- free values drawn (assumption 4)
  curCore : Nat                     -- core and slot of the instruction being performed
  curSlot : Nat
  cycle : Nat                       -- die cycle counter (R126)
  cores : Sparse Core
  dm : List Host.Cell               -- device memory by physical address
  fm : List Host.Cell               -- far memory
  hm : List Host.Cell               -- host memory
  badLines : List (Target × Nat)    -- poisoned or uncorrectable lines
  gran : Sparse Nat                 -- granule counts of compressed blocks by block number, default 0
  pairKeys : Sparse Nat             -- number of the key that a channel pair was given last, default 0 (R265)
  keys : Nat                        -- partition keys generated so far
  farMark : Sparse Nat              -- number of the key that last wrote a far line, default 0
  rowTlb : Sparse (List TlbEntry)
  net : List Packet
  parts : Sparse Partition
  govs : Sparse Governor
  junction : Sparse Nat             -- junction readings by PCN in °C
  barred : List Nat                 -- PCNs barred as vent targets (R233)
  forced : List Nat                 -- PCNs forced to SOAK (R234)
  rows : Sparse RowGauge
  lpddr : Sparse (Bool × Bool)     -- LPDDR stacks: at or above 85 °C, 95 °C
  cxlShare : Sparse Nat             -- throttled share of each CXL port in percent, default 100
  ports : Sparse Port
  kaz : Kazcia
  hostLam : W64
  sliceLam : Sparse W64             -- Lamport clocks of the L2 slices (R255)
  hostReply : List Byte             -- bytes of the last host read
  pubOut : List PubItem             -- what published regions have sent
deriving DecidableEq, Repr

/-! ## After reset -/

/-- An empty slot: Table 5.1's values; registers without a reset value are 0 (assumption 2). -/
def Slot.reset : Slot :=
  { regs := [], vregs := [], mregs := [], pc := 0, nr := false, ncause := 0, sys := false, epc := 0, ecause := 0,
    evec := 0, msgvec := 0, msgEn := 0, msgMasked := false, msgLeft := 0, pfmt := 0, pgam := 0x3F800000, rnd := 0,
    nt := [], claims := [none, none, none, none], st := .empty, wake := none, mons := [], frame := none,
    inHandler := false, hold := none, atom := none, walkFaults := [], gathered := [], stealFly := false, stealOut := 0, refused := false, ldMark := 0,
    stMark := 0, passed := 0, dcf := [], parkedAt := (0, 0), stopReq := false, stepping := false, catchBkpt := false,
    stepTrap := false }

/-- A core at reset: slots empty, structures empty, credits home (R97, R109), gear SOAK (Table 5.1). -/
def Core.reset : Core :=
  { cyc := 0, slots := [], sp := [], fe := [], spBad := [], acc := [], l1 := [], l1Gone := [], dq := [], bq := [],
    link := [], linkCr := [], chans := [], chFree := [], chHeld := [], credits := [], creditAsked := [], pressCr := [],
    pressAsked := [], cmdFree := 2, cmdHeld := [], mb := [], mbFull := [], mbRel := [], dqHead := 0, dqTail := 0,
    landings := 0, failedSteals := 0, search := 0, xdMarks := [], shadow := [], view := [], viewAsk := [], viewNeed := [], utlb := [], walks := [],
    fills := [], leaseAt := [], psb := [], rounds := [], passes := [], nextId := 1,
    pressEnd := none, pressRun := none, pressWait := none, cmdQ := [], shareQ := [], copies := [],
    accOps := [], seamBusy := [], engTraps := [], spin := false, gearEff := false, autosoak := false,
    calm := 0, restoreReq := none, task := none, ended := false, endMark := 0, bars := [], lamport := 0,
    pressLam := 0, copyLam := 0, vents := 0, tick := 0, creditTick := 0, save := .no, missed := [], preReq := false,
    freeze := false, halted := false }

/-- An unconfigured block (R261). -/
def Config64.zero : Config64 := { root := 0, trap := 0, handles := 0, save := 0, hamper := 0, trace := 0 }

/-- A partition that does not exist. -/
def Partition.none_ : Partition :=
  { live := false, bays := [], slices := [], chans := [], ports := [], cxl := [], key := false, keyNo := 0, pcn := [], intake := [],
    overflow := false, seq := 0, launches := [], frozen := [false, false, false], faults := [], bars := [], kept := [],
    leases := [], pal := [], dicts := [], invs := [], wins := [], winErrs := 0, winLog := [], evBase := 0, evHead := 0,
    evTail := 0, staged := Config64.zero, conf := Config64.zero, committed := false, refusedCommit := 0, drops := 0,
    tracePos := 0, lamport := 0, homeTick := 0, hamper := [], orders := 0, moves := [] }

/-- A governor at reset: 7,372 units (R229). -/
def Governor.reset : Governor := { limit := 7372, window := [], tick := 0 }

/-- A palette slot at reset (assumption 2). -/
def Palette.reset : Palette := { gen := 0, cur := 0, prev := 0 }

/-- A lease-table entry at reset. -/
def LeaseEnt.reset : LeaseEnt := { gen := 0, live := false, first := 0, count := 0, size := 0, store := [], ending := [], until_ := 0 }

/-- A port at reset: no route. -/
def Port.reset : Port := { routes := [], rings := [], next := [], held := [], credits := [], lamport := 0 }

/-- A voltage row at reset. -/
def RowGauge.reset : RowGauge := { pinned := false, rail := 0 }

/-- The device right after reset: every slot empty (Table 2.1), cycle counters 0 (R126), no partition. -/
def State.reset : State :=
  { agenda := [], turns := 0, walkSeq := 0, free := 0, curCore := 0, curSlot := 0, cycle := 0, cores := [], dm := [], fm := [],
    hm := [], badLines := [], gran := [], pairKeys := [], keys := 0, farMark := [], rowTlb := [],
    net := [], parts := [], govs := [], junction := [], barred := [], forced := [],
    rows := [], lpddr := [], cxlShare := [], ports := [],
    kaz := { life := .manufacture, booted := false, failed := false, meas := 0, rollback := 0, debugOpened := false,
             attKey := true, keysLost := false, reports := [], mgmtEvents := [] },
    hostLam := 0, sliceLam := [], hostReply := [], pubOut := [] }

/-! ## Memory's canonical form -/

/-- Canonical form of a memory: addresses strictly rising, no byte equal to what an unlisted address reads as, 0
(assumption 3). -/
def Memory.wf (m : List Host.Cell) : Bool := sparseWf (0 : Byte) m

/-! ## Ways a step can stop -/

/-- Faults. No instruction or event of Zeleus stops the device: every trap is a next state (R243) and every undefined
access raises one. The type has no constructor; safe. -/
inductive Fault where
deriving DecidableEq, Repr

/-- Refusals. -/
inductive Refusal where
  /-- Raised by an arm of `exec` for an instruction that has no meaning yet, under the mnemonic of its row; safe. -/
  | notModelled (mnemonic : String)
deriving DecidableEq, Repr

end Sys2Proof.Machine
end

