-- ==== Sys2Proof/Machine/Ops.lean ====
section
/-! DEFINITION. The named operations over State: registers, the PC and repeat frames, taking a trap and returning from one,
claims and not-ready outcomes, parking and waking, monitors, carriers. -/

namespace Sys2Proof.Machine

/-- The outcomes of a step. -/
abbrev Out := Host.Outcome State Fault Refusal

/-! ## Byte strings -/

/-- Value of a byte string, first byte lowest. -/
def leNat : List Byte → Nat
  | [] => 0
  | b :: bs => b.toNat + 256 * leNat bs

/-- The `n` bytes of a value, lowest first. -/
def toBytes : Nat → Nat → List Byte
  | 0, _ => []
  | n + 1, v => BitVec.ofNat 8 v :: toBytes n (v / 256)

/-! ## Cores and slots -/

/-- Core `c`. -/
def getCore (s : State) (c : Nat) : Core := sget Core.reset s.cores c

/-- Replace core `c`. -/
def setCore (s : State) (c : Nat) (k : Core) : State := { s with cores := sput s.cores c k }

/-- Change core `c`. -/
def modCore (s : State) (c : Nat) (f : Core → Core) : State := setCore s c (f (getCore s c))

/-- Slot `n` of a core. -/
def Core.slot (k : Core) (n : Nat) : Slot := sget Slot.reset k.slots n

/-- Change slot `n` of a core. -/
def Core.modSlot (k : Core) (n : Nat) (f : Slot → Slot) : Core := { k with slots := sput k.slots n (f (k.slot n)) }

/-- Slot `n` of core `c`. -/
def getSlot (s : State) (c n : Nat) : Slot := (getCore s c).slot n

/-- Change slot `n` of core `c`. -/
def modSlotAt (s : State) (c n : Nat) (f : Slot → Slot) : State := modCore s c (fun k => k.modSlot n f)

/-- The core of the instruction being performed. -/
def cur (s : State) : Core := getCore s s.curCore

/-- The slot of the instruction being performed. -/
def slot (s : State) : Slot := getSlot s s.curCore s.curSlot

/-- Change the current core. -/
def modCur (s : State) (f : Core → Core) : State := modCore s s.curCore f

/-- Change the current slot. -/
def modSlot (s : State) (f : Slot → Slot) : State := modSlotAt s s.curCore s.curSlot f

/-- The eight slot numbers of a core (R13). -/
def slotNums : List Nat := [0, 1, 2, 3, 4, 5, 6, 7]

/-- Change every listed slot of a core; a slot that is not listed is empty. -/
def Core.mapSlots (k : Core) (f : Nat → Slot → Slot) : Core :=
  { k with slots := k.slots.map (fun e => (e.1, f e.1 e.2)) }

/-- Change every listed core. -/
def mapCores (s : State) (f : Nat → Core → Core) : State :=
  { s with cores := s.cores.map (fun e => (e.1, f e.1 e.2)) }

/-! ## Registers (R64, R79) -/

/-- Scalar register; s0 reads 0 (R79). -/
def Slot.getS (l : Slot) (r : SReg) : W64 := if r = 0 then 0 else sget 0 l.regs r.val

/-- Write a scalar register; a write to s0 is discarded (R79). -/
def Slot.setS (l : Slot) (r : SReg) (v : W64) : Slot := if r = 0 then l else { l with regs := sset 0 l.regs r.val v }

/-- Vector register. -/
def Slot.getV (l : Slot) (r : VReg) : V512 := sget 0 l.vregs r.val

/-- Write a vector register. -/
def Slot.setV (l : Slot) (r : VReg) (v : V512) : Slot := { l with vregs := sset 0 l.vregs r.val v }

/-- Mask register; m0 reads all ones (R79). -/
def Slot.getM (l : Slot) (r : MReg) : W64 := if r = 0 then BitVec.allOnes 64 else sget 0 l.mregs r.val

/-- Write a mask register; a write to m0 is discarded (R79). -/
def Slot.setM (l : Slot) (r : MReg) (v : W64) : Slot := if r = 0 then l else { l with mregs := sset 0 l.mregs r.val v }

/-- Scalar register of the current slot. -/
def rdS (s : State) (r : SReg) : W64 := (slot s).getS r
/-- Write a scalar register of the current slot. -/
def wrS (s : State) (r : SReg) (v : W64) : State := modSlot s (fun l => l.setS r v)
/-- Vector register of the current slot. -/
def rdV (s : State) (r : VReg) : V512 := (slot s).getV r
/-- Write a vector register of the current slot. -/
def wrV (s : State) (r : VReg) (v : V512) : State := modSlot s (fun l => l.setV r v)
/-- Mask register of the current slot. -/
def rdM (s : State) (r : MReg) : W64 := (slot s).getM r
/-- Write a mask register of the current slot. -/
def wrM (s : State) (r : MReg) (v : W64) : State := modSlot s (fun l => l.setM r v)

/-- An LCN as a register writes it: bits 15:0 of a value (R95). -/
def lo16 (v : W64) : Nat := v.toNat % 65536

/-! ## The PC and repeat frames (R198, R199) -/

/-- Whether `pc` is a member of the frame. -/
def Frame.covers (f : Frame) (pc : VA) : Bool := decide ((pc - f.start).toNat < 4 * f.len)

/-- Index of the member at `pc`. -/
def Frame.index (f : Frame) (pc : VA) : Nat := (pc - f.start).toNat / 4

/-- The PC after the instruction at `pc` completes: PC + 4, or the frame's next member, its next replay, or its end. -/
def Slot.advance (l : Slot) : Slot :=
  match l.frame with
  | none => { l with pc := l.pc + 4 }
  | some f =>
    if f.covers l.pc then
      if f.index l.pc + 1 < f.len then { l with pc := l.pc + 4 }
      else if f.rep + 1 < f.count then { l with pc := f.start, frame := some { f with rep := f.rep + 1 } }
      else { l with pc := f.start + BitVec.ofNat 48 (4 * f.len), frame := none }
    else { l with pc := l.pc + 4 }

/-- Complete the current instruction: the PC moves on. -/
def advance (s : State) : State := modSlot s Slot.advance

/-- Continue at `t`. -/
def jumpTo (s : State) (t : VA) : State := modSlot s (fun l => { l with pc := t })

/-! ## Partitions -/

/-- Partition `p`. -/
def getPart (s : State) (p : Nat) : Partition := sget Partition.none_ s.parts p

/-- Change partition `p`. -/
def modPart (s : State) (p : Nat) (f : Partition → Partition) : State :=
  { s with parts := sput s.parts p (f (getPart s p)) }

/-- Bay of a core: four mesh lines, 256 cores (R12). -/
def bayOf (lcn : Nat) : Nat := lcn / 256

/-- Whether a core belongs to the partition (R12, R264). -/
def Partition.owns (p : Partition) (lcn : Nat) : Bool := p.live && decide (lcn < 40960) && p.bays.contains (bayOf lcn)

/-- The partition that owns a core. -/
def partOf (s : State) (lcn : Nat) : Option Nat := (s.parts.find? (fun e => e.2.owns lcn)).map (·.1)

/-- The current core's partition, 0 when it has none. -/
def curPart (s : State) : Nat := (partOf s s.curCore).getD 0

/-- Whether `t` is a core of the current core's partition. -/
def inPart (s : State) (t : Nat) : Bool := (getPart s (curPart s)).owns t

/-- The slice of a partition that a hash picks (R138, R305). -/
def Partition.sliceAt (p : Partition) (h : Nat) : Nat := p.slices.getD (h % p.slices.length) 0

/-- Home slice of a line of device memory of partition `p` (R138). -/
def homeSlice (s : State) (p line : Nat) : Nat := (getPart s p).sliceAt (Config.sliceHash line)

/-- Home slice of a barrier of partition `p`, by its handle (R305). -/
def barrierSlice (s : State) (p h : Nat) : Nat := (getPart s p).sliceAt (Config.barrierHash h)

/-- The first core of a bay, from place `a` on, that is not in the list. -/
def freePlace (xs : List Nat) (bay a : Nat) : Nat :=
  (((List.range 256).map (fun i => 256 * bay + (a + i) % 256)).find? (fun c => !xs.contains c)).getD 0

/-- The bay that holds a Salden port: six ports lie on each die of 40 bays (R12, R14; assumption 9). -/
def portBay (j : Nat) : Nat := 40 * (j / 6) + Config.portBay j % 40

/-- The first `n` gateway cores of the device, as physical cores: four for each port, in the bay that holds it, and no core
twice (R14, R263). -/
def gatewayCores : Nat → List Nat
  | 0 => []
  | n + 1 => gatewayCores n ++ [freePlace (gatewayCores n) (portBay (n / 4)) (Config.gatewayPlace n)]

/-- Gateway core `i` of Salden port `j`, as a physical core. -/
def gatewayCore (j i : Nat) : Nat := (gatewayCores 96).getD (4 * j + i) 0

/-- The first of 16 places, from place `a` on, that is not in the list. -/
def freePair (xs : List Nat) (a : Nat) : Nat :=
  (((List.range 16).map (fun i => (a + i) % 16)).find? (fun c => !xs.contains c)).getD 0

/-- The places of the first `n` channel pairs that die `d`'s LPDDR packages serve, two for each package and no pair twice (R14). -/
def pairPlaces (d : Nat) : Nat → List Nat
  | 0 => []
  | n + 1 => pairPlaces d n ++ [freePair (pairPlaces d n) (Config.pairPlace (16 * d + n))]

/-- The channel pairs of an LPDDR package: eight packages on a die serve its 16 pairs (R14; assumption 9). -/
def stackPairs (stack : Nat) : List Nat :=
  [0, 1].map (fun i => 16 * (stack / 8) + (pairPlaces (stack / 8) 16).getD (2 * (stack % 8) + i) 0)

/-- The channel pair of the device's 64 that serves a line of device memory, by its number (R14; assumption 9). -/
def pairOf (line : Nat) : Nat := Config.homePair line % 64

/-- Physical core number of a core (R11): the table's entry, or the core's own number. -/
def pcnOf (s : State) (lcn : Nat) : Nat :=
  match partOf s lcn with
  | some p => sget lcn (getPart s p).pcn lcn
  | none => lcn

/-- Voltage row of a physical core, numbered 4 × mesh line + v (R12, R230). -/
def rowOf (pcn : Nat) : Nat := pcn / 16

/-- Die of a core (R11). -/
def dieOf (lcn : Nat) : Nat := lcn / 10240

/-- Voltage row of core `c`. -/
def coreRow (s : State) (c : Nat) : Nat := rowOf (pcnOf s c)

/-- Governor of a die. -/
def getGov (s : State) (d : Nat) : Governor := sget Governor.reset s.govs d

/-- Change a governor. -/
def modGov (s : State) (d : Nat) (f : Governor → Governor) : State :=
  { s with govs := sput s.govs d (f (getGov s d)) }

/-! ## Waking (R40, R43) -/

/-- Record a wake condition of a slot with its reason (Table 2.5): the lowest reason stands, with the core cycle of the
first. A slot that is not parked ignores it. -/
def Slot.wakeBy (l : Slot) (reason at_ : Nat) : Slot :=
  let w := match l.wake with
    | none => some (reason, at_)
    | some (r, t) => some (min r reason, t)
  match l.st with
  | .parked _ => { l with wake := w }
  | .stopped (some _) => { l with wake := w }
  | _ => l

/-- The park of a slot, stopped or not. -/
def Slot.park? (l : Slot) : Option Park :=
  match l.st with
  | .parked p => some p
  | .stopped u => u
  | _ => none

/-- Whether the slot is parked on a resource that `p` selects. -/
def Slot.parkedOn (l : Slot) (p : Resource → Bool) : Bool :=
  match l.park? with
  | some (.res r _) => p r
  | _ => false

/-- Wake every slot parked on a resource that `p` selects (R43). -/
def wakeWhere (s : State) (p : Resource → Bool) : State :=
  mapCores s (fun _ k => k.mapSlots (fun _ l => if l.parkedOn p then l.wakeBy 7 k.cyc else l))

/-- Wake every slot parked on `r`. -/
def wakeRes (s : State) (r : Resource) : State := wakeWhere s (fun x => x == r)

/-! ## Monitors (R41) -/

/-- A write to a line: armed entries are hit, and a parked slot wakes with reason 1. -/
def Slot.monWrite (l : Slot) (scratch : Bool) (line cyc : Nat) : Slot :=
  if l.mons.any (fun e => match e.2 with | some m => m.scratch == scratch && m.line == line | none => false) then
    let hit := fun (m : Mon) => if m.scratch == scratch && m.line == line then { m with hit := true } else m
    Slot.wakeBy { l with mons := l.mons.map (fun (e : Nat × Option Mon) => (e.1, e.2.map hit)) } 1 cyc
  else l

/-- A scratchpad line of a core is written. -/
def Core.monScratch (k : Core) (line : Nat) : Core := k.mapSlots (fun _ l => l.monWrite true line k.cyc)

/-- A device line is written at its home. The monitors of a saved core see it at the restore (R41, R248; assumption 92). -/
def monDevice (s : State) (line : Nat) : State :=
  mapCores s (fun _ k =>
    if k.save == .saved then { k with missed := if k.missed.contains line then k.missed else line :: k.missed }
    else k.mapSlots (fun _ l => l.monWrite false line k.cyc))

/-- Hit bits of a slot, entry e at bit e. -/
def Slot.hits (l : Slot) : Nat :=
  [0, 1, 2, 3].foldl (fun a e => match sget none l.mons e with
    | some m => if m.hit then a + 2 ^ e else a
    | none => a) 0

/-- Clear all hit bits. -/
def Slot.clearHits (l : Slot) : Slot :=
  { l with mons := l.mons.map (fun (e : Nat × Option Mon) => (e.1, e.2.map (fun m => { m with hit := false }))) }

/-! ## Traps (R243) and node faults (R127) -/

/-- Claims that stop holding others back change their resources, and wake the slots parked there (R31, R38, R43). -/
def wakeFreed (s : State) (cs : List Claim) : State :=
  if cs.isEmpty then s else wakeWhere s (fun r => cs.any (fun c => c.res == r))

/-- Hand a fault of a core's node to its scheduler; the faulting slot is empty and its claims hold nobody back (R127,
R239). -/
def nodeFaultAt (s : State) (c n cause : Nat) : State :=
  let s := wakeFreed (modSlotAt s c n (fun l => { l with st := .empty, claims := [none, none, none, none] }))
    ((getSlot s c n).claims.filterMap id)
  match partOf s c with
  | some p => modPart s p (fun t => { t with faults := t.faults ++
      [{ task := (getCore s c).task.map (fun t => (t.q, t.node)), core := c, slot := n, cause := cause,
          at_ := s.cycle }] })
  | none => s

/-- A value held for a retry on a line is discarded. -/
def Slot.dropOn (l : Slot) (sp : Space) (line : Nat) : Slot :=
  match l.hold with
  | some h => if h.sp == sp && h.addr / 64 == line then { l with hold := none } else l
  | none => l

/-- The counters that a core's views of partition `p`'s regions have not reached: bounded loads after an acquire wait for them
(R171). -/
def Core.owed (k : Core) (t : Partition) : List (Nat × Nat × BitVec 32) :=
  k.view.filterMap (fun v =>
    (t.launches.find? (fun l => l.live && l.q == v.q)).bind (fun l =>
      (l.regions[v.n]?).bind (fun r => if r.counter = v.val then none else some (v.q, v.n, r.counter))))

/-- The effects of an acquire by slot `n` of a core of partition `t` beyond its read: a held value is discarded (R150), at system
scope the core's host lines leave L1 (R141), and bounded loads of every region in the view wait for the counters as they stand
(R171). -/
def Core.acquire (k : Core) (t : Partition) (n : Nat) (sys : Bool) : Core :=
  { k.modSlot n (fun l => { l with hold := none }) with
    l1 := if sys then k.l1.filter (fun e => e.sp != .host) else k.l1, viewNeed := k.viewNeed ++ k.owed t }

/-- The partition of core `c`. -/
def homePart (s : State) (c : Nat) : Partition := getPart s ((partOf s c).getD 0)

/-- Slot `n` of core `c` acquires. -/
def acquireAt (s : State) (c n : Nat) (sys : Bool) : State := modCore s c (fun k => k.acquire (homePart s c) n sys)

/-- What an RMW without a result is behind in the posted-store buffer (R278): it has the place in program order of the instruction
that discarded the result, after all earlier work of its slot. -/
def Atom.lost (a : Atom) (n id : Nat) : Posted :=
  { id := id, slot := n, sp := .dev, addr := a.addr, data := toBytes (if a.wide then 8 else 4) a.val.toNat, rel := true,
    red := some (a.op, a.wide), comp := a.comp, cmp := a.cmp, am := some (if a.acq then .acquire a.sys else .plain) }

/-- Slot `n` discards its atomic (R278), and with it a value held for a retry that the RMW's write outdates (R156), or any where it
acquires (R150). One still in flight is performed at its home all the same, from the posted-store buffer; the slot's later writes
follow its read, and so does every later access where it acquires (R148; assumption 27). -/
def Core.loseAtom (k : Core) (n : Nat) : Core :=
  match (k.slot n).atom with
  | some a =>
    let drop := fun (l : Slot) => { (if a.acq then { l with hold := none } else l.dropOn .dev (a.addr / 64)) with atom := none }
    if a.ans == .pending then
      let m := k.nextId + 1
      Core.modSlot { k with psb := k.psb ++ [a.lost n k.nextId], nextId := m } n (fun l =>
        { drop l with stMark := m, ldMark := if a.acq then m else l.ldMark })
    else k.modSlot n drop
  | none => k

/-- Whether slot `n` discards a result whose read acquires. -/
def Core.losesAcquire (k : Core) (n : Nat) : Option Bool :=
  match (k.slot n).atom with
  | some a => match a.acq, a.ans with
    | true, .got _ false => some a.sys
    | _, _ => none
  | none => none

/-- Slot `n` of a core of partition `t` discards its atomic (R278); one already applied acquires at this moment, where it does. -/
def Core.discardAtom (k : Core) (t : Partition) (n : Nat) : Core :=
  match k.losesAcquire n with
  | some sys => (k.loseAtom n).acquire t n sys
  | none => k.loseAtom n

/-- Slot `n` of core `c` discards its atomic. -/
def loseAtomAt (s : State) (c n : Nat) : State := modCore s c (fun k => k.discardAtom (homePart s c) n)

/-- Trap entry of slot `n` of core `c` (R243): in system mode the node faults; otherwise `epc` and `ecause` are written,
system mode is entered and the PC becomes `evec`. An atomic is discarded (R278). -/
def takeTrap (s : State) (c n : Nat) (cause : TrapCause) (code : Nat) (epc : VA) : State :=
  if (getSlot s c n).sys then nodeFaultAt s c n cause.code
  else modSlotAt (loseAtomAt s c n) c n (fun l =>
    { l with epc := epc, ecause := BitVec.ofNat 64 (code * 256 + cause.code), sys := true, pc := l.evec })

/-- A trap of the current instruction with `epc` at it. -/
def raise (s : State) (cause : TrapCause) : State := takeTrap s s.curCore s.curSlot cause 0 (slot s).pc

/-- Return from a trap (R244): PC from `epc`, user mode. -/
def trapReturn (s : State) : State := modSlot s (fun l => { l with pc := l.epc, sys := false })

/-! ## Claims (R34 to R39) -/

/-- Whether ticket `t` is older than `u`, modulo 2^32 (R35). -/
def older (t u : BitVec 32) : Bool := decide (t ≠ u) && decide ((u - t).toNat < 2 ^ 31)

/-- A core's slots' claims with their places. -/
def Core.claims (k : Core) (c : Nat) : List (Nat × Nat × Claim) :=
  k.slots.flatMap (fun (e : Nat × Slot) => e.2.claims.filterMap (fun x => x.map (fun cl => (c, e.1, cl))))

/-- Claims of every core that is not saved: a saved slot's claims count as inactive (R248), and hold back no younger one (R256, Table
19.4). -/
def claimsOf (s : State) : List (Nat × Nat × Claim) :=
  s.cores.flatMap (fun (e : Nat × Core) => if e.2.save == .saved then [] else e.2.claims e.1)

/-- Whether a claim is active: presented within 64 rotations (R37). -/
def Claim.active (c : Claim) : Bool := decide (c.age < 64)

/-- The claim of a slot at a PC on a resource. -/
def Slot.claimAt (l : Slot) (pc : VA) (r : Resource) : Option Claim :=
  (l.claims.filterMap id).find? (fun c => c.pc == pc && c.res == r)

/-- A fault that a walk found is held no longer than its claim (R144). -/
def Slot.tidy (l : Slot) : Slot := { l with walkFaults := l.walkFaults.filter (fun f => (l.claimAt f.pc f.res).isSome) }

/-- Whether an older active claim whose own condition holds keeps slot `n` of core `c` from being served on `r` (R38). -/
def heldBackAt (s : State) (c n : Nat) (pc : VA) (r : Resource) (own : Nat → Nat → Claim → Bool) : Bool :=
  let mine := (getSlot s c n).claimAt pc r
  (claimsOf s).any (fun e =>
    e.2.2.res == r && e.2.2.active &&
    (match mine with | some m => older e.2.2.ticket m.ticket | none => true) &&
    own e.1 e.2.1 e.2.2)

/-- `heldBackAt` for the current instruction. -/
def heldBackBy (s : State) (r : Resource) (own : Nat → Nat → Claim → Bool) : Bool :=
  heldBackAt s s.curCore s.curSlot (slot s).pc r own

/-- `heldBackBy` at a resource whose instructions all meet one condition. -/
def heldBack (s : State) (r : Resource) : Bool := heldBackBy s r (fun _ _ _ => true)

/-- Draw a ticket from the counter that serves the resource (R35, Table 2.4). -/
def drawTicket (s : State) (r : Resource) : BitVec 32 × State :=
  let home := fun p => ((getPart s p).homeTick, modPart s p (fun t => { t with homeTick := t.homeTick + 1 }))
  let local_ := fun c => ((getCore s c).tick, modCore s c (fun k => { k with tick := k.tick + 1 }))
  match r with
  | .struct c _ _ _ | .steal c _ | .feWord c _ _ | .count c _ | .reply c _ | .acc c _ | .engine c => local_ c
  | .credit c _ _ | .pressCredit c _ =>
    ((getCore s c).creditTick, modCore s c (fun k => { k with creditTick := k.creditTick + 1 }))
  | .row v =>
    let d := dieOf (v * 16)
    ((getGov s d).tick, modGov s d (fun g => { g with tick := g.tick + 1 }))
  | .barrier p _ | .iron p _ _ | .slices p _ _ | .intake p => home p
  | .line _ _ => home (curPart s)

/-- Index of the entry a new claim takes: an invalid one, else the least recently presented (R36). -/
def claimVictim (cs : List (Option Claim)) : Nat :=
  match cs.findIdx? (·.isNone) with
  | some i => i
  | none =>
    let ages := cs.map (fun c => (c.map (·.age)).getD 0)
    let top := ages.foldl max 0
    (ages.findIdx? (· == top)).getD 0

/-- Put a claim in the entry it takes (R36). -/
def putClaim (cs : List (Option Claim)) (c : Claim) : List (Option Claim) :=
  cs.take (claimVictim cs) ++ some c :: cs.drop (claimVictim cs + 1)

/-- Record a claim of the current slot, or refresh it (R36, R37). Its claims at the same PC on other resources are not presented
(assumption 104). -/
def recordClaim (s : State) (cause : Cause) (r : Resource) : State :=
  let pc := (slot s).pc
  match (slot s).claimAt pc r with
  | some _ => modSlot s (fun l => { l with claims := l.claims.map (fun x => x.map (fun c =>
      if c.pc == pc && c.res == r then { c with age := 0, cause := cause.code } else c)) })
  | none =>
    let (t, s) := drawTicket s r
    let new : Claim := { pc := pc, res := r, ticket := t, age := 0, cause := cause.code, stamp := s.cycle }
    let old := ((slot s).claims[claimVictim (slot s).claims]?).getD none
    wakeFreed (modSlot s (fun l => Slot.tidy { l with claims := putClaim l.claims new })) old.toList

/-- Disposition of a not-ready outcome (Table 2.2). -/
def dispose (s : State) (nr : Disp) (r : Resource) (edge : Option Nat) : State :=
  match nr with
  | .flag => advance s
  | .park => modSlot s (fun l => { l with
      st := .parked (.res r edge), wake := none, parkedAt := (s.turns, s.cycle) })
  | .nt0 => modSlot s (fun l => { l with pc := sget 0 l.nt 0 })
  | .nt1 => modSlot s (fun l => { l with pc := sget 0 l.nt 1 })
  | .nt2 => modSlot s (fun l => { l with pc := sget 0 l.nt 2 })
  | .nt3 => modSlot s (fun l => { l with pc := sget 0 l.nt 3 })

/-- A not-ready outcome (R26) of an instruction whose park has a wait-for edge. -/
def notReadyEdge (s : State) (nr : Disp) (cause : Cause) (r : Resource) (edge : Option Nat) : State :=
  let s := modSlot s (fun l => { l with nr := true, ncause := cause.code })
  dispose (recordClaim s cause r) nr r edge

/-- A not-ready outcome (R26). -/
def notReady (s : State) (nr : Disp) (cause : Cause) (r : Resource) : State := notReadyEdge s nr cause r none

/-- A ready outcome (R28, R37): `status.nr` and `ncause` clear, and claims at this PC are freed, with the faults held for
them. -/
def Slot.ready (l : Slot) : Slot :=
  Slot.tidy { l with
    nr := false, ncause := 0,
    claims := l.claims.map (fun x => match x with
      | some c => if c.pc == l.pc then none else some c
      | none => none) }

/-- Claims of a slot at its PC. -/
def Slot.claimsHere (l : Slot) : List Claim := (l.claims.filterMap id).filter (fun c => c.pc == l.pc)

/-- Mark the current instruction ready. -/
def ready (s : State) : State := wakeFreed (modSlot s Slot.ready) (slot s).claimsHere

/-- A ready outcome that falls through. -/
def readyNext (s : State) : State := advance (ready s)

/-! ## Carriers and logical time (R150, R255) -/

/-- Number of the last work the slot has posted: everything up to it precedes a release made now. -/
def postMark (s : State) : Nat := (cur s).nextId

/-- Whether an increment, of a round or of a pass, that slot `n` issued before the mark has still to take place (R150, R153), or a
DCFENCE of it has still to write back (R293). -/
def Core.eventsBefore (k : Core) (n mark : Nat) : Bool :=
  k.rounds.any (fun r => r.slot == n && decide (r.id < mark)) || k.passes.any (fun r => r.slot == n && decide (r.id < mark)) ||
  (k.slot n).dcf.any (fun e => decide (e.2.2 < mark))

/-- Whether work that slot `n` of a core issued before the mark is still unperformed: posted stores, reductions, and the events
above. -/
def Core.workBefore (k : Core) (n mark : Nat) : Bool :=
  k.psb.any (fun p => p.slot == n && decide (p.id < mark)) || k.eventsBefore n mark

/-- Whether work that a release of slot `n` at the mark covers is still unperformed (R150, R153): its own, and for slot 7 the
work of the slots whose requests it has taken (R207). -/
def Core.openBefore (k : Core) (n mark : Nat) : Bool :=
  k.workBefore n mark || (n == 7 && mark != 0 && k.xdMarks.any (fun m => k.workBefore m.1 m.2))

/-- The carriers that step their sender's Lamport clock and their receiver's (R255). -/
def Body.stamped : Body → Bool
  | .msg _ _ _ _ | .stealReq _ _ _ | .stealAns _ _ _ | .notice _ _ _ _ | .pcmd _ _ => true
  | .barArrive _ _ _ _ _ _ _ | .barNotice _ _ _ _ _ _ _ => true
  | _ => false

/-- Send a carrier from core `c`, slot `n`, following its work up to `after`; a stamped one steps the core's Lamport clock
and takes its value (R255). -/
def sendFrom (s : State) (c n after : Nat) (b : Body) : State :=
  if b.stamped then
    let l := (getCore s c).lamport + 1
    let s1 := modCore s c (fun k => { k with lamport := l })
    { s1 with net := s1.net ++ [{ src := c, slot := n, after := after, lam := l, body := b }] }
  else { s with net := s.net ++ [{ src := c, slot := n, after := after, lam := 0, body := b }] }

/-- The core number that stands for a sender or writer that is no core: a home, a scheduler, the host. -/
def noCore : Nat := 65536

/-- The slot number that stands for a core's engines, whose work is no slot's. -/
def engineSlot : Nat := 9

/-- The number that stands for a Salden port as a sender. -/
def portId (j : Nat) : Nat := noCore + 1 + j

/-- The port that a sender number stands for (R263: 24 ports). -/
def portOf (n : Nat) : Option Nat := if noCore < n ∧ n < portId 24 then some (n - (noCore + 1)) else none

/-- Port `j`. -/
def getPort (s : State) (j : Nat) : Port := sget Port.reset s.ports j

/-- Change port `j`. -/
def modPort (s : State) (j : Nat) (f : Port → Port) : State := { s with ports := sput s.ports j (f (getPort s j)) }

/-- Send a stamped carrier from a home slice (R255). -/
def sendSlice (s : State) (sl : Nat) (b : Body) : State :=
  let l := sget 0 s.sliceLam sl + 1
  { s with sliceLam := sset 0 s.sliceLam sl l,
           net := s.net ++ [{ src := noCore, slot := 0, after := 0, lam := l, body := b }] }

/-- The Lamport value after a receipt (R255): above the carried one, so that the receipt's record sorts after the sending's (R256, Table
19.4). -/
def lamMax (own carried : W64) : W64 := (if own.toNat < carried.toNat then carried else own) + 1

/-- A home slice receives a carrier. -/
def recvSlice (s : State) (sl : Nat) (l : W64) : State :=
  { s with sliceLam := sset 0 s.sliceLam sl (lamMax (sget 0 s.sliceLam sl) l) }

/-- Send a carrier from the current slot: behind the work that an earlier FENCE covers, and with `rel` behind all posted work (R150). -/
def send (s : State) (rel : Bool) (b : Body) : State :=
  sendFrom s s.curCore s.curSlot (if rel then postMark s else max (slot s).ldMark (slot s).stMark) b

/-- Core `c` receives a carrier: the receipt rule, for a stamped one (R255). -/
def recvPk (s : State) (c : Nat) (p : Packet) : State :=
  if p.body.stamped then modCore s c (fun k => { k with lamport := lamMax k.lamport p.lam }) else s

/-- The Lamport clocks of a core: its own, its press's and its copy engine's (R255). -/
inductive Clock where
  | core | press | copy
deriving DecidableEq, Repr

/-- A clock's value. -/
def Core.clock (k : Core) : Clock → W64
  | .core => k.lamport
  | .press => k.pressLam
  | .copy => k.copyLam

/-- A core with one of its clocks set. -/
def Core.setClock (k : Core) (e : Clock) (v : W64) : Core :=
  match e with
  | .core => { k with lamport := v }
  | .press => { k with pressLam := v }
  | .copy => { k with copyLam := v }

/-- A carrier of core `c`, slot `n` for core `t` joins the hamper of `t`'s partition as an entry; the clock of the engine that
sends it steps (R248, R255). No byte of the hamper's area of device memory is written (assumption 62). -/
def hamperFrom (s : State) (e : Clock) (c n t : Nat) (b : Body) : State :=
  let l := (getCore s c).clock e + 1
  let s1 := modCore s c (fun k => k.setClock e l)
  modPart s1 ((partOf s t).getD 0) (fun x => { x with
    hamper := x.hamper ++ [{ src := c, slot := n, after := 0, lam := l, body := b }] })

/-- Draw a free value of `w` bits (assumption 4). -/
def drawFree (s : State) (w : Nat) : BitVec w × State := (Config.freeBits w s.free, { s with free := s.free + 1 })

end Sys2Proof.Machine
end

