-- ==== Sys2Proof/Machine/Mem.lean ====
section
/-! DEFINITION. Bytes and byte order, the three memories, compressed blocks and their two views, regions' lines, writes at
the home, and the scratchpad with its full/empty bits and count words (R3, R133 to R143, R152, R164, R216 to R221). -/

namespace Sys2Proof.Machine

/-! ## Bytes (R3: little-endian) -/

/-- Bytes of a list from offset `o` on replaced by `d`. -/
def patch (l : List Byte) (o : Nat) (d : List Byte) : List Byte := l.take o ++ d ++ l.drop (o + d.length)

/-! ## The three memories -/

/-- The memory of a target (Table 8.6). -/
def memOf (s : State) : Target → List Host.Cell
  | .dev => s.dm | .far => s.fm | .host => s.hm

/-- Replace the memory of a target. -/
def setMem (s : State) (t : Target) (m : List Host.Cell) : State :=
  match t with
  | .dev => { s with dm := m } | .far => { s with fm := m } | .host => { s with hm := m }

/-- Whether a memory holds an address: the device's 32 LPDDR packages of 48 GiB, and CXL expanders of 16 TiB in all (R14, R262). The
physical addresses of each run from 0 on (assumption 111). -/
def memHolds (t : Target) (a : Nat) : Bool :=
  match t with
  | .dev => decide (a < 32 * 48 * 2 ^ 30)
  | .far => decide (a < 2 ^ 44)
  | .host => true

/-- The number of the key of the partition that the channel pair of an address of device memory was given to last (R265). -/
def keyOf (s : State) (t : Target) (a : Nat) : Nat :=
  match t with
  | .dev => sget 0 s.pairKeys (pairOf (a / 64))
  | .far | .host => 0

/-- What a change of key adds to the byte at an address; nothing before the first (R265). -/
def keyByte (s : State) (t : Target) (a : Nat) : Byte := if keyOf s t a = 0 then 0 else Config.cipherByte (keyOf s t a) a

/-- One byte of a memory; an unlisted byte stands for 0 until the memory is given to a partition (assumption 3). Where the memory holds
no such address the byte is a free value (assumption 111). -/
def readByte (s : State) (t : Target) (a : Nat) : Byte :=
  if memHolds t a then sget 0 (memOf s t) a + keyByte s t a else Config.absentByte (t == .far) a

/-- `n` bytes of a memory. -/
def memRead (s : State) (t : Target) (a n : Nat) : List Byte := (List.range n).map (fun i => readByte s t (a + i))

/-- The bytes that stand for `d` at address `a`. -/
def underKey (s : State) (t : Target) : Nat → List Byte → List Byte
  | _, [] => []
  | a, b :: bs => (b - keyByte s t a) :: underKey s t (a + 1) bs

/-- Write bytes of a memory, in canonical form; where it holds no such address nothing changes (assumption 111). -/
def memWrite (s : State) (t : Target) (a : Nat) (d : List Byte) : State :=
  if memHolds t a then setMem s t (ssetRange 0 (memOf s t) a (underKey s t a d)) else s

/-! ## Memory under the partitions' keys (R2, R262, R265) -/

/-- Whether partition `p` may change a byte: the memory holds it (R14; assumption 111), and device memory has the partition's key (R2,
R265; assumption 70). -/
def holdsKey (s : State) (p : Nat) (t : Target) (a : Nat) : Bool :=
  memHolds t a && (t != .dev || keyOf s .dev a == (getPart s p).keyNo)

/-- A byte of device memory as partition `p` reads it: under another key than its own, what decryption makes of it. -/
def devByte (s : State) (p a : Nat) : Byte :=
  let k := (getPart s p).keyNo
  readByte s .dev a + (if keyOf s .dev a = k then 0 else Config.pairCipher (keyOf s .dev a) k a)

/-- Device memory as partition `p` reads it. -/
def devRead (s : State) (p a n : Nat) : List Byte := (List.range n).map (fun i => devByte s p (a + i))

/-- What the key of partition `p` makes of the far byte at an address, whose line the key of its mark encrypted: nothing where they
are the same. -/
def farByte (s : State) (p a : Nat) : Byte :=
  let m := sget 0 s.farMark (a / 64)
  let k := (getPart s p).keyNo
  readByte s .far a + (if m = k then 0 else Config.farCipher m k a)

/-- Far memory as partition `p` reads it. -/
def farRead (s : State) (p a n : Nat) : List Byte := (List.range n).map (fun i => farByte s p (a + i))

/-- A line of far memory encrypted with the key of partition `p`, its bytes as `p` reads them. -/
def farTake (s : State) (p line : Nat) : State :=
  let k := (getPart s p).keyNo
  if sget 0 s.farMark line = k then s
  else { memWrite s .far (64 * line) (farRead s p (64 * line) 64) with farMark := sset 0 s.farMark line k }

/-- Far memory written by partition `p`, inside one line: the whole line is encrypted anew. -/
def farWrite (s : State) (p a : Nat) (d : List Byte) : State := memWrite (farTake s p (a / 64)) .far a d

/-- A memory as partition `p` reads it. -/
def readFor (s : State) (p : Nat) (t : Target) (a n : Nat) : List Byte :=
  match t with
  | .dev => devRead s p a n
  | .far => farRead s p a n
  | .host => memRead s .host a n

/-- Whether a line holds poisoned or uncorrectable data. -/
def lineBad (s : State) (t : Target) (a : Nat) : Bool := s.badLines.contains (t, a / 64)

/-- Poison a line. -/
def poisonLine (s : State) (t : Target) (a : Nat) : State :=
  if s.badLines.contains (t, a / 64) then s else { s with badLines := (t, a / 64) :: s.badLines }

/-! ## Compressed blocks (R216, R217) -/

/-- The four lines of a block. -/
def blockLines (blk : Nat) : List Nat := [0, 1, 2, 3].map (fun i => 4 * blk + i)

/-- Byte `i` of a palette generation. -/
def palByte (v : BitVec 128) (i : Nat) : Byte := BitVec.ofNat 8 (v.toNat / 256 ^ i)

/-- Lowest palette position that holds a byte (R217). -/
def palIndex (v : BitVec 128) (b : Byte) : Option Nat := (List.range 16).find? (fun i => palByte v i == b)

/-- Plane `p` of a block: byte p of each of its 32 doublewords. -/
def planeOf (blk : List Byte) (p : Nat) : List Byte := (List.range 32).map (fun i => blk.getD (8 * i + p) 0)

/-- Pairs of nibbles packed low nibble first. -/
def packNibbles : List Nat → List Byte
  | a :: b :: r => BitVec.ofNat 8 (a % 16 + 16 * (b % 16)) :: packNibbles r
  | [a] => [BitVec.ofNat 8 (a % 16)]
  | [] => []

/-- Mode and bytes of a plane: the first of ZERO, CONST, GPAL, RAW that applies (R217). -/
def encodePlane (pal : BitVec 128) (pl : List Byte) : Nat × List Byte :=
  if pl.all (· == 0) then (0, [])
  else if pl.all (· == pl.headD 0) then (1, [pl.headD 0])
  else
    let ix := pl.map (palIndex pal)
    if ix.all (·.isSome) then (2, packNibbles (ix.map (·.getD 0))) else (3, pl)

/-- Encode a block under a palette slot: granule count and the 256 stored bytes (R217). -/
def encodeBlock (dslot : Nat) (pal : Palette) (blk : List Byte) : Nat × List Byte :=
  if blk.all (· == 0) then (0, List.replicate 256 0)
  else
    let pls := (List.range 8).map (fun p => encodePlane pal.cur (planeOf blk p))
    let modes := (pls.map (·.1)).foldr (fun m a => m + 4 * a) 0
    let body := pls.flatMap (·.2)
    let g := (4 + body.length + 31) / 32
    if 7 < g then (8, blk)
    else
      let hdr := modes + 65536 * (dslot % 64) + 65536 * 64 * (pal.gen % 4)
      let st := toBytes 4 hdr ++ body
      (g, st ++ List.replicate (256 - st.length) 0)

/-- Take the planes of an encoded block apart: one byte list per plane. -/
def decodePlanes (pal : BitVec 128) : Nat → Nat → List Byte → List (List Byte)
  | 0, _, _ => []
  | n + 1, modes, body =>
    match modes % 4 with
    | 0 => List.replicate 32 0 :: decodePlanes pal n (modes / 4) body
    | 1 => List.replicate 32 (body.headD 0) :: decodePlanes pal n (modes / 4) (body.drop 1)
    | 2 =>
      let bytes := (List.range 32).map (fun i =>
        let b := (body.getD (i / 2) 0).toNat
        palByte pal (if i % 2 = 0 then b % 16 else b / 16))
      bytes :: decodePlanes pal n (modes / 4) (body.drop 16)
    | _ => body.take 32 :: decodePlanes pal n (modes / 4) (body.drop 32)

/-- Decode stored bytes; `none` when the block is poisoned (R216). -/
def decodeBlock (pals : Nat → Palette) (g : Nat) (st : List Byte) : Option (List Byte) :=
  if g = 0 then some (List.replicate 256 0)
  else if 8 ≤ g then some st
  else
    let hdr := leNat (st.take 4)
    let gen := hdr / 2 ^ 22 % 4
    let pal := pals (hdr / 2 ^ 16 % 64)
    if hdr / 2 ^ 24 ≠ 0 then none
    else
      let sel := if gen = pal.gen % 4 then some pal.cur
        else if (gen + 1) % 4 = pal.gen % 4 then some pal.prev else none
      sel.map (fun v =>
        let pls := decodePlanes v 8 (hdr % 65536) (st.drop 4)
        (List.range 256).map (fun i => (pls.getD (i % 8) []).getD (i / 8) 0))

/-- Palette slots of a partition. -/
def palOf (s : State) (p : Nat) (i : Nat) : Palette := sget Palette.reset (getPart s p).pal i

/-- Granule count of a block. Memory given to a partition reads as raw blocks (R265). -/
def granOf (s : State) (blk : Nat) : Nat := (sget 0 s.gran blk + if keyOf s .dev (256 * blk) = 0 then 0 else 8) % 9

/-- Set the granule count of a block. -/
def setGran (s : State) (blk g : Nat) : State :=
  { s with gran := sset 0 s.gran blk ((g + if keyOf s .dev (256 * blk) = 0 then 0 else 1) % 9) }

/-- Stored bytes of a block as partition `p` reads them, zero from byte 32·g on (R218). -/
def storedBlock (s : State) (p blk : Nat) : List Byte :=
  let g := granOf s blk
  (devRead s p (256 * blk) (32 * min g 8)) ++ List.replicate (256 - 32 * min g 8) 0

/-- Store a block's granules and their count. -/
def putBlock (s : State) (blk g : Nat) (st : List Byte) : State :=
  setGran (memWrite s .dev (256 * blk) st) blk g

/-- Decoded block of a partition's compressed page. -/
def plainBlock (s : State) (p blk : Nat) : Option (List Byte) :=
  decodeBlock (palOf s p) (granOf s blk) (storedBlock s p blk)

/-- Read of `n` bytes at physical address `a` by partition `p`: through the plain or the compressed view of a compressed
page (`comp`), with a poison flag. -/
def homeRead (s : State) (p : Nat) (t : Target) (comp view : Bool) (a n : Nat) : List Byte × Bool :=
  if comp && t == .dev then
    if view then (((storedBlock s p (a / 256)).drop (a % 256)).take n, lineBad s t a)
    else match plainBlock s p (a / 256) with
      | some b => ((b.drop (a % 256)).take n, lineBad s t a)
      | none => (List.replicate n 0, true)
  else (readFor s p t a n, lineBad s t a)

/-- The memory change of a write at the home. A write to a compressed block is one read-modify-write (R220). A partial
store into a poisoned line or block is discarded, and a store of a whole line replaces the poison (R360); the rest of a
poisoned block so mended is a free value (assumption 14). -/
def homeStore (s : State) (p : Nat) (t : Target) (comp : Option Nat) (a : Nat) (d : List Byte) : State :=
  let whole := d.length == 64
  let mend := fun (s : State) => { s with badLines := s.badLines.filter (fun e => e ≠ (t, a / 64)) }
  if lineBad s t a && !whole then s
  else match comp, t with
  | some dslot, .dev =>
    match plainBlock s p (a / 256) with
    | some b =>
      let e := encodeBlock dslot (palOf s p dslot) (patch b (a % 256) d)
      mend (putBlock s (a / 256) e.1 e.2)
    | none =>
      if whole then
        let (v, s) := drawFree s 2048
        let e := encodeBlock dslot (palOf s p dslot) (patch (toBytes 256 v.toNat) (a % 256) d)
        mend (putBlock s (a / 256) e.1 e.2)
      else s
  | _, .far => mend (farWrite s p a d)
  | _, _ => mend (memWrite s t a d)

/-! ## Regions' lines (R164) -/

/-- Virtual line of a physical line inside a region. -/
def Region.vline (r : Region) (pline : Nat) : Option Nat :=
  (r.pages.find? (fun e => e.2 == pline / 64 &&
      decide (r.base / 64 ≤ e.1 * 64 + pline % 64 ∧ e.1 * 64 + pline % 64 < r.base / 64 + r.lines))).map
    (fun e => e.1 * 64 + pline % 64)

/-- The region of a live launch that holds a physical line: launch, index and region. -/
def regionOf (s : State) (p pline : Nat) : Option (Nat × Nat × Region) :=
  (getPart s p).launches.findSome? (fun l =>
    if l.live then
      (l.regions.zipIdx.find? (fun e => (e.1.vline pline).isSome)).map (fun e => (l.q, e.2, e.1))
    else none)

/-- Whether core `c` may write a line (R172): no region, or its iron held and the w right. -/
def mayWriteLine (s : State) (p c pline : Nat) : Bool :=
  match regionOf s p pline with
  | none => true
  | some (_, _, r) => r.w && r.iron == .held c

/-- Whether a write that core `c` has posted may be performed on a line (R172): no region, or the w right and the iron held, or
passing from the core, whose earlier writes the pass follows (R173). -/
def performsLine (s : State) (p c pline : Nat) : Bool :=
  match regionOf s p pline with
  | none => true
  | some (_, _, r) => r.w && (match r.iron with | .held x | .passing x _ _ _ => x == c | _ => false)

/-- Whether a line may be read (R172). -/
def mayReadLine (s : State) (p pline : Nat) : Bool :=
  match regionOf s p pline with
  | none => true
  | some (_, _, r) => r.r

/-- The space of a memory target. -/
def spaceOf : Target → Space
  | .dev => .dev | .far => .far | .host => .host

/-- Whether a write is discarded: of memory under another partition's key (R2; assumption 70) or that is not there (assumption 111), or
partial, into a poisoned line or a compressed block that decodes as poisoned (R360). -/
def storeDropped (s : State) (p : Nat) (t : Target) (comp : Option Nat) (a : Nat) (d : List Byte) : Bool :=
  !(if comp.isSome && t == .dev then (blockLines (a / 256)).all (fun l => holdsKey s p t (64 * l)) else holdsKey s p t a) ||
  d.length != 64 && (lineBad s t a || (comp.isSome && t == .dev && (plainBlock s p (a / 256)).isNone))

/-- The ports of a partition that its route tables give a subscription, with the peer (R263). -/
def peersOf (s : State) (p sub : Nat) : List (Nat × Route) :=
  (getPart s p).ports.flatMap (fun j => ((getPort s j).routes.filter (fun r => !r.reduction && r.id == sub)).map (fun r => (j, r)))

/-- What a home slice sends for a published region; its clock steps (R176, R255), once for all the peers, also where no route names the
subscription (assumption 112). -/
def publish (s : State) (p line sub : Nat) (f : List (Nat × Route) → W64 → PubItem) : State :=
  let sl := homeSlice s p line
  let l := sget 0 s.sliceLam sl + 1
  { s with sliceLam := sset 0 s.sliceLam sl l, pubOut := s.pubOut ++ [f (peersOf s p sub) l] }

/-- A write at the home as published: a region of mode 1 sends it to its subscribers (R176). -/
def publishWrite (s : State) (p a : Nat) (d : List Byte) : State :=
  match regionOf s p (a / 64) with
  | some (_, _, r) =>
    if r.mode = 1 then
      publish s p (a / 64) r.sub (fun ps l => .write ps l r.sub (((r.vline (a / 64)).getD 0 - r.base / 64) * 64 + a % 64) d)
    else s
  | none => s

/-- A write at the line's home: memory, monitors and publication (R41, R176). -/
def homeEffect (s : State) (p : Nat) (t : Target) (comp : Option Nat) (a : Nat) (d : List Byte) : State :=
  let s1 := homeStore s p t comp a d
  if t == .dev then publishWrite (monDevice s1 (a / 64)) p a d else s1

/-- What a write at the home by core `c` does to L1 copies (R141, R152, R169): the writer's is updated; other cores' of a line
outside regions are dropped, and those of a region's line note the round of the first write they have missed (R160; assumption
91). -/
def homeL1 (s : State) (p c : Nat) (t : Target) (a : Nat) (d : List Byte) : State :=
  let reg := if t == .dev then regionOf s p (a / 64) else none
  mapCores s (fun n k => { k with l1 := k.l1.filterMap (fun e =>
    if e.sp == spaceOf t && e.line == a / 64 && !e.view then
      if n == c then some { e with data := patch e.data (a % 64) d, poison := e.poison && d.length != 64 }
      else match reg, e.tag with
        | some (_, _, r), some _ => some { e with missed := e.missed <|> some r.counter }
        | _, _ => none
    else some e) })

/-- The plain L1 copy of a line that core `c` holds is poisoned with it (R141, R211). -/
def poisonCopy (s : State) (c : Nat) (sp : Space) (line : Nat) : State :=
  modCore s c (fun k => { k with l1 := k.l1.map (fun (e : L1Line) =>
    if e.sp == sp && e.line == line && !e.view then { e with poison := true } else e) })

/-- A host window has written a line: the copies of it in L1s stand but serve no load any more (R177, R258; assumption 90). -/
def staleCopies (s : State) (line : Nat) : State :=
  mapCores s (fun _ k =>
    if k.l1.any (fun e => e.sp == .dev && e.line == line && !e.view) && !k.l1Gone.contains line then
      { k with l1Gone := line :: k.l1Gone }
    else k)

/-- A write performed at the line's home by core `c` of partition `p` (R141, R152, R169, R176). -/
def homeWrite (s : State) (p c : Nat) (t : Target) (comp : Option Nat) (a : Nat) (d : List Byte) : State :=
  if storeDropped s p t comp a d then s else homeEffect (homeL1 s p c t a d) p t comp a d

/-! ## Scratchpad, full/empty bits and count words (R133 to R137) -/

/-- `n` scratchpad bytes of a core. -/
def Core.spRead (k : Core) (a n : Nat) : List Byte := sgetRange 0 k.sp a n

/-- Lines that bytes `a` to `a + n − 1` touch. -/
def linesOf (a n : Nat) : List Nat := (List.range ((a + n + 63) / 64 - a / 64)).map (· + a / 64)

/-- Write scratchpad bytes: monitors see it, and a word written whole is correctable again. -/
def Core.spWrite (k : Core) (a : Nat) (d : List Byte) : Core :=
  let k := { k with sp := ssetRange 0 k.sp a d,
                    spBad := k.spBad.filter (fun w => !decide (a ≤ 8 * w ∧ 8 * w + 8 ≤ a + d.length)) }
  if d.isEmpty then k else (linesOf a d.length).foldl Core.monScratch k

/-- Whether a range holds an uncorrectable word (R236). -/
def Core.spBadIn (k : Core) (a n : Nat) : Bool := k.spBad.any (fun w => decide (8 * w < a + n ∧ a < 8 * w + 8))

/-- Write scratchpad of core `c`; count words it touches change (R137). -/
def spWrite (s : State) (c a : Nat) (d : List Byte) : State :=
  wakeWhere (modCore s c (fun k => k.spWrite a d)) (fun r => match r with
    | .count x w => x == c && decide (w < a + d.length ∧ a < w + 16)
    | _ => false)

/-- Full/empty bit of a scratchpad word. -/
def Core.feBit (k : Core) (w : Nat) : Bool := sget false k.fe w

/-- FE bits of `n` words of a core, the first lowest (R135). -/
def Core.feBits (k : Core) (w n : Nat) : Nat :=
  (List.range n).foldl (fun v i => if k.feBit (w + i) then v + 2 ^ i else v) 0

/-- Set one full/empty bit; a change counts as a write for monitors (R41). -/
def Core.feSet (k : Core) (w : Nat) (b : Bool) : Core :=
  if k.feBit w = b then k else Core.monScratch { k with fe := sset false k.fe w b } (w / 8)

/-- Set the bits of `n` words of core `c` as one event, waking slots parked on them (R135). -/
def feFill (s : State) (c w n : Nat) (b : Bool) : State :=
  wakeWhere (modCore s c (fun k => (List.range n).foldl (fun k i => k.feSet (w + i) b) k)) (fun r => match r with
    | .feWord x v _ => x == c && decide (w ≤ v ∧ v < w + n)
    | .reply x blk => x == c && decide (w ≤ 8 * blk ∧ 8 * blk < w + n)
    | _ => false)

/-- First scratchpad byte of the deque area (R122). -/
def dequeBase : Nat := 0xF800

/-- First scratchpad byte of the seam guards (R204). -/
def guardBase : Nat := 0xF7C0

/-- Add `n` bytes to the count word at `a` of core `c`, saturating (R137). -/
def countAdd (s : State) (c a n : Nat) : State :=
  let k := getCore s c
  let cnt := leNat (k.spRead a 4)
  let new := min (cnt + n) (2 ^ 32 - 1)
  let s := spWrite s c a (toBytes 4 new)
  if cnt + n < 2 ^ 32 then s
  else
    let f := leNat ((getCore s c).spRead (a + 8) 1)
    spWrite s c (a + 8) (toBytes 1 (if f % 2 = 0 then f + 1 else f))

/-! ## Accumulators' busy bits (R195) -/

/-- Busy with press operations (R195, R332): those of a share that a member holds until the share ends, that of a PCMD step from its
position on (assumption 99). -/
def Core.accPressBusy (k : Core) (n : Nat) : Bool :=
  (match k.pressEnd with | some o => o.acc == n | none => false) ||
  (match k.pressRun with | some o => o.acc == n | none => false) ||
  (match k.pressWait with | some o => o.acc == n | none => false) ||
  k.shareQ.any (fun h => decide (h.acc ≤ n ∧ n < h.acc + h.tpm))

/-- Busy with any other operation (R197, R204). -/
def Core.accOtherBusy (k : Core) (n : Nat) : Bool :=
  k.accOps.any (fun o => o.acc == n) || k.seamBusy.any (fun b => b.acc == n)

/-- The busy bit (R195). -/
def Core.accBusy (k : Core) (n : Nat) : Bool := k.accPressBusy n || k.accOtherBusy n

/-- Element e = 32·i + j of accumulator `n`. -/
def Core.accElt (k : Core) (n e : Nat) : BitVec 32 := sget 0 k.acc (1024 * n + e)

/-- Replace the tile of an accumulator by 1,024 elements. -/
def Core.setTile (k : Core) (n : Nat) (t : List (BitVec 32)) : Core := { k with acc := ssetRange 0 k.acc (1024 * n) t }

/-- Tile of an accumulator. -/
def Core.tile (k : Core) (n : Nat) : List (BitVec 32) := sgetRange 0 k.acc (1024 * n) 1024

end Sys2Proof.Machine
end

