-- ==== Sys2Proof/Machine/Operands.lean ====
section
/-! DEFINITION. Operand forms: effective addresses of every space, window and lease addresses, translation through the
page tables and the TLBs, the window units, and the orders an access must meet (R128 to R132, R138 to R144, R149, R150). -/

namespace Sys2Proof.Machine

/-! ## Immediates (R72, R128) -/

/-- A 16-bit immediate, sign-extended. -/
def sext16 (v : BitVec 16) : W64 := v.signExtend 64

/-- Base register plus a sign-extended offset. -/
def eaOf (s : State) (a : SReg) {w : Nat} (off : BitVec w) : W64 := rdS s a + off.signExtend 64

/-- Bits `hi` to `lo` of a value. -/
def bitsOf (v : W64) (hi lo : Nat) : Nat := v.toNat / 2 ^ lo % 2 ^ (hi + 1 - lo)

/-- One bit of a value. -/
def bitOf (v : W64) (i : Nat) : Bool := v.toNat / 2 ^ i % 2 == 1

/-- Value of `sz` bytes extended to 64 bits as the size says (Table 4.3): b, h, w sign-extend, bz, hz, wz zero-extend. -/
def extend (sz : Size) (bytes : List Byte) : W64 :=
  let v := leNat bytes
  match sz with
  | .b => (BitVec.ofNat 8 v).signExtend 64
  | .h => (BitVec.ofNat 16 v).signExtend 64
  | .w => (BitVec.ofNat 32 v).signExtend 64
  | _ => BitVec.ofNat 64 v

/-! ## Page tables (R142, R143) -/

/-- What a walk finds. -/
inductive WalkRes where
  | invalid | prot
  | ok (e : TlbEntry) (pte : Nat)
deriving DecidableEq, Repr

/-- A page-table entry as partition `p` reads it. -/
def pteAt (s : State) (p a : Nat) : Nat := leNat (devRead s p a 8)

/-- A bit of an entry. -/
def pteBit (pte i : Nat) : Bool := pte / 2 ^ i % 2 == 1

/-- Reserved bits 56:52, 8 and 1 set, the reserved target, or `cmp` with a target that is not LPDDR (Table 8.6). A pointer entry is held
to the last two as a page is (assumption 88). -/
def pteReserved (pte : Nat) : Bool :=
  pte / 2 ^ 52 % 32 != 0 || pteBit pte 8 || pteBit pte 1 || pte / 2 ^ 10 % 4 == 3 ||
  (pteBit pte 63 && pte / 2 ^ 10 % 4 != 0)

/-- An entry without its accessed and dirty bits. -/
def pteCore (pte : Nat) : Nat := pte - pte / 64 % 4 * 64

/-- The translation a leaf gives for a page of `size` bytes. Which partition owns the memory it names no walk checks (R143); an
access meets that partition's key there (assumption 70). -/
def leafEntry (pte va size : Nat) : TlbEntry :=
  { vbase := va / size * size, size := size, pbase := pte / 4096 % 2 ^ 40 * 4096,
    tgt := (match pte / 2 ^ 10 % 4 with | 0 => .dev | 1 => .far | _ => .host),
    comp := pteBit pte 63, dslot := pte / 2 ^ 57 % 64, x := pteBit pte 5, w := pteBit pte 4, r := pteBit pte 3,
    dirty := pteBit pte 6 }

/-- Walk `n` levels down from the table at `tbl` (level 4 − n); every entry is checked as R143 lists. Bit 9 counts in level-3
leaves only (assumption 76), and every table is read from device memory, whatever target its pointer entry names (assumption
88). -/
def walkLevels (s : State) (p va : Nat) : Nat → Nat → WalkRes
  | 0, _ => .prot
  | n + 1, tbl =>
    let shift := 12 + 9 * n
    let ix := va / 2 ^ shift % 512
    let pte := pteAt s p (tbl + 8 * ix)
    if !pteBit pte 0 then .invalid
    else if pteReserved pte then .prot
    else if pteBit pte 2 then
      if n = 3 then .prot
      else
        let c64 := n = 0 && pteBit pte 9
        let size := if c64 then 65536 else 2 ^ shift
        if pte / 4096 % 2 ^ 40 * 4096 % size ≠ 0 then .prot
        else if c64 && !((List.range 16).all (fun i => pteCore (pteAt s p (tbl + 8 * (ix / 16 * 16 + i))) == pteCore pte))
        then .prot
        else .ok (leafEntry pte va size) (tbl + 8 * ix)
    else walkLevels s p va n (pte / 4096 % 2 ^ 40 * 4096)

/-- Page-table root of a partition (Table 20.4). -/
def rootOf (s : State) (p : Nat) : Nat := (getPart s p).conf.root.toNat / 4096 % 2 ^ 40 * 4096

/-- Walk the partition's tables for a 48-bit address with bit 46 clear; without a valid root nothing is mapped. -/
def walkTables (s : State) (p va : Nat) : WalkRes :=
  if bitOf (getPart s p).conf.root 0 then walkLevels s p va 4 (rootOf s p) else .invalid

/-- An address without bit 46, which only selects the view (R142). -/
def plainVa (va : Nat) : Nat := if va / 2 ^ 46 % 2 = 1 then va - 2 ^ 46 else va

/-- Whether an address selects the compressed view (R142). -/
def viewBit (va : Nat) : Bool := va / 2 ^ 46 % 2 == 1

/-- Whether a translation covers an address. -/
def TlbEntry.covers (e : TlbEntry) (va : Nat) : Bool := decide (e.vbase ≤ va ∧ va < e.vbase + e.size)

/-- Physical address through a translation. -/
def TlbEntry.phys (e : TlbEntry) (va : Nat) : Nat := e.pbase + (va - e.vbase)

/-- Set the accessed bit, and on a write the dirty bit, of an entry (Table 8.6): a write at its line's home where one of them
changes (R41, R141). -/
def markPte (s : State) (p pte : Nat) (write : Bool) : State :=
  let v := leNat (devRead s p pte 1)
  let v1 := if v / 128 % 2 = 0 then v + 128 else v
  let v2 := if write && v1 / 64 % 2 == 0 then v1 + 64 else v1
  if v2 = v then s else homeWrite s p noCore .dev none pte (toBytes 1 v2)

/-! ## The TLBs (R144) -/

/-- The translation a core's micro-TLB or its row's TLB holds. -/
def tlbFind (s : State) (c va : Nat) : Option TlbEntry :=
  ((getCore s c).utlb ++ sget [] s.rowTlb (coreRow s c)).find? (·.covers va)

/-- Outcome of translating a data access. -/
inductive Xlat where
  | ok (pa : Nat) (e : TlbEntry)
  | miss
  | bad (t : TrapCause)
deriving DecidableEq, Repr

/-- Rights, target and view of a translation against an access (R142, R143). -/
def TlbEntry.allows (e : TlbEntry) (want : Target) (read write view : Bool) : Bool :=
  e.tgt == want && (!read || e.r) && (!write || e.w) && (!view || e.comp)

/-- The line of a walk's level-0 entry, which stands for the walk (R144), in partition `p`. -/
def walkLineOf (s : State) (p va : Nat) : Resource := .line .dev ((rootOf s p + 8 * (plainVa va / 2 ^ 39 % 512)) / 64)

/-- The fault that a walk found for an access at `pc`, while the slot keeps the claim it is held for (R144). -/
def faultHeld (s : State) (c n : Nat) (pc : VA) (va : Nat) : Option WalkFault :=
  let l := getSlot s c n
  l.walkFaults.find? (fun f => f.pc == pc && f.page == plainVa va / 4096 && (l.claimAt pc f.res).isSome)

/-- Translate a data access of slot `n` of core `c` at `pc`: a fault that a walk found for it, a page gathered for a copy
there, a TLB entry, or a miss. A write through an entry whose page is not yet dirty walks again (assumption 12). -/
def xlateFor (s : State) (c n : Nat) (pc : VA) (va : Nat) (want : Target) (read write : Bool) : Xlat :=
  let pva := plainVa va
  let had := ((getSlot s c n).gathered.find? (fun e => e.1 == pc && e.2.covers pva && (!write || e.2.dirty))).map (·.2)
  match faultHeld s c n pc va with
  | some f => .bad (if f.invalid then (if write then .pfw else .pfr) else .prot)
  | none =>
    match had <|> tlbFind s c pva with
    | none => .miss
    | some e =>
      if !e.allows want read write (viewBit va) then .bad .prot
      else if write && !e.dirty then .miss
      else .ok (e.phys pva) e

/-- `xlateFor` for the current instruction. -/
def xlate (s : State) (va : Nat) (want : Target) (read write : Bool) : Xlat :=
  xlateFor s s.curCore s.curSlot (slot s).pc va want read write

/-- The line that stands for a walk of the current instruction (R144). -/
def walkLine (s : State) (va : Nat) : Resource := walkLineOf s (curPart s) va

/-- Start a walk for the current instruction, unless one is under way for it (R27, R144). -/
def startWalk (s : State) (va : Nat) (write : Bool) : State :=
  let same := fun (w : Walk) =>
    w.slot == s.curSlot && w.pc == (slot s).pc && w.page == plainVa va / 4096 && w.write == write
  if (cur s).walks.any same then s
  else
    let w : Walk := { seq := s.walkSeq, slot := s.curSlot, pc := (slot s).pc, page := plainVa va / 4096, write := write }
    { modCur s (fun k => { k with walks := k.walks ++ [w] }) with walkSeq := s.walkSeq + 1 }

/-- Not-ready FILL for a walk. -/
def walkMiss (s : State) (nr : Disp) (va : Nat) (write : Bool) : State :=
  notReady (startWalk s va write) nr .fill (walkLine s va)

/-- A trap that translation found; the held fault is spent (R144). -/
def raiseXlat (s : State) (t : TrapCause) : State :=
  raise (modSlot s (fun l => { l with
    walkFaults := l.walkFaults.filter (fun f => f.pc != l.pc), gathered := l.gathered.filter (fun e => e.1 != l.pc) })) t

/-! ## Window and lease addresses (R130, R138) -/

/-- A window address: target core, unit, offset. -/
structure WinAddr where
  core : Nat
  unit : Nat
  off : Nat
deriving DecidableEq, Repr

/-- Offsets of a window unit that are assigned, for `n` bytes (Table 8.3). -/
def winAssigned (unit off n : Nat) : Bool :=
  match unit with
  | 0 => decide (off + n ≤ dequeBase)
  | 1 => decide (off % 0x800 + n ≤ 0x560 ∧ off / 0x800 < 8)
  | 2 => decide (off + n ≤ 0x8000)
  | 3 => decide (off + n ≤ 0x404)
  | 4 => decide (off + n ≤ 0x100)
  | _ => false

/-- Decode a window address of `n` bytes; none when malformed (R130). -/
def winAddr (s : State) (ea : W64) (n : Nat) : Option WinAddr :=
  let w : WinAddr := { core := bitsOf ea 47 32, unit := bitsOf ea 31 28, off := bitsOf ea 27 0 }
  if bitsOf ea 63 49 = 0 ∧ bitOf ea 48 = true ∧ inPart s w.core = true ∧ winAssigned w.unit w.off n = true
  then some w else none

/-- The scratchpad word that LDC, STP and the FE instructions name (R133): local when bits 63:16 are zero, else unit 0x0
of a window. `n` is the length of the range. -/
def spAddr (s : State) (ea : W64) (n : Nat) : Option (Nat × Nat) :=
  if bitsOf ea 63 16 = 0 then
    if ea.toNat + n ≤ dequeBase then some (s.curCore, ea.toNat) else none
  else match winAddr s ea n with
    | some w => if w.unit = 0 then some (w.core, w.off) else none
    | none => none

/-- Whether an address takes the local form (R133). -/
def isLocal (ea : W64) : Bool := bitsOf ea 63 16 == 0

/-- A lease address's live entry for `n` bytes: index and offset; none raises BOUNDS (R138, R139). -/
def leaseAddr (s : State) (ea : W64) (n : Nat) : Option (Nat × Nat) :=
  let ix := bitsOf ea 27 20
  let off := bitsOf ea 19 0
  let e := sget LeaseEnt.reset (getPart s (curPart s)).leases ix
  if bitsOf ea 63 36 = 0 ∧ e.live = true ∧ e.gen = bitsOf ea 35 28 ∧ off + n ≤ e.size then some (ix, off) else none

/-! ## The window units (Table 8.3) -/

/-- `status` as CTLR and the window read it (Table 5.2). -/
def statusWord (k : Core) (l : Slot) : W64 :=
  BitVec.ofNat 64 ((if l.nr then 1 else 0) + 16 * l.ncause.toNat + (if l.sys then 256 else 0) +
    (if k.gearEff then 2048 else 0))

/-- Doubleword `i` of a slot context's first 0x560 bytes (Table 5.6). -/
def slotDword (k : Core) (l : Slot) (i : Nat) : W64 :=
  if i = 0 then statusWord k l
  else if h : i < 32 then l.getS ⟨i, h⟩
  else if i < 160 then
    BitVec.ofNat 64 ((sget 0 l.vregs ((i - 32) / 8)).toNat / 2 ^ (64 * ((i - 32) % 8)))
  else if i = 160 then l.pc.setWidth 64
  else if i < 168 then sget 0 l.mregs (i - 160)
  else if i < 172 then (sget 0 l.nt (i - 168)).setWidth 64
  else 0

/-- Replace doubleword `j` of a 512-bit value. -/
def setLane64 (v : V512) (j : Nat) (d : W64) : V512 :=
  BitVec.ofNat 512 (v.toNat - v.toNat / 2 ^ (64 * j) % 2 ^ 64 * 2 ^ (64 * j) + d.toNat * 2 ^ (64 * j))

/-- Write doubleword `i` of a slot context: only s1 to s31, v0 to v15, m1 to m7 and nt0 to nt3 (Table 8.3). -/
def putSlotDword (l : Slot) (i : Nat) (d : W64) : Slot :=
  if i = 0 then l
  else if h : i < 32 then l.setS ⟨i, h⟩ d
  else if i < 160 then
    { l with vregs := sset 0 l.vregs ((i - 32) / 8) (setLane64 (sget 0 l.vregs ((i - 32) / 8)) ((i - 32) % 8) d) }
  else if i = 160 then l
  else if i < 168 then { l with mregs := sset 0 l.mregs (i - 160) d }
  else if i < 172 then { l with nt := sset 0 l.nt (i - 168) (d.setWidth 48) }
  else l

/-- Byte `j` of a value. -/
def byteOf {w : Nat} (v : BitVec w) (j : Nat) : Byte := BitVec.ofNat 8 (v.toNat / 256 ^ j)

/-- A value with byte `j` replaced. -/
def setByte {w : Nat} (v : BitVec w) (j : Nat) (b : Byte) : BitVec w :=
  BitVec.ofNat w (v.toNat - v.toNat / 256 ^ j % 256 * 256 ^ j + b.toNat * 256 ^ j)

/-- One byte of a core's window unit. Queue entries beyond the occupancy and bytes 32 to 63 of a mailbox read 0 (assumption
79). -/
def Core.winByte (k : Core) (unit off : Nat) : Byte :=
  match unit with
  | 0 => sget 0 k.sp off
  | 1 => byteOf (slotDword k (k.slot (off / 0x800)) (off % 0x800 / 8)) (off % 8)
  | 2 => byteOf (sget 0 k.acc (off / 4)) (off % 4)
  | 3 =>
    if off < 0x400 then
      let q := sget [] k.dq (off / 256)
      byteOf (q.getD (off % 256 / 64) 0) (off % 64)
    else BitVec.ofNat 8 (sget [] k.dq (off - 0x400)).length
  | _ => if off % 64 < 32 then byteOf (sget 0 k.mb (off / 64)) (off % 32) else 0

/-- Bytes of a core's window unit. -/
def Core.winRead (k : Core) (unit off n : Nat) : List Byte := (List.range n).map (fun i => k.winByte unit (off + i))

/-- Store one byte of units 0x1 and 0x2; stores elsewhere are discarded (Table 8.3). -/
def Core.winPut (k : Core) (unit off : Nat) (b : Byte) : Core :=
  match unit with
  | 1 => k.modSlot (off / 0x800) (fun l =>
      putSlotDword l (off % 0x800 / 8) (setByte (slotDword k l (off % 0x800 / 8)) (off % 8) b))
  | 2 => { k with acc := sset 0 k.acc (off / 4) (setByte (sget 0 k.acc (off / 4)) (off % 4) b) }
  | _ => k

/-- A window store performed at core `c` (R130, R131): unit 0x0 is scratchpad, units 0x1 and 0x2 registers and
accumulators, unit 0x3 discards. -/
def winWrite (s : State) (c unit off : Nat) (d : List Byte) : State :=
  if unit = 0 then spWrite s c off d
  else modCore s c (fun k => (d.zipIdx).foldl (fun k e => k.winPut unit (off + e.2) e.1) k)

/-- Whether a window access to accumulators meets a busy one (R131, R195). -/
def Core.winBusy (k : Core) (unit off n : Nat) : Bool :=
  unit == 2 && (List.range ((off + n + 4095) / 4096 - off / 4096)).any (fun i => k.accBusy (off / 4096 + i))

/-! ## Orders an access must meet (R149, R150) -/

/-- The resource of a refusal for an open ordering obligation of a slot (assumption 11). -/
def orderRes (c n : Nat) : Resource := .line (.win c 16) n

/-- A later read must wait: an earlier fence covers posted work still unperformed (R149, R150). -/
def ldBarred (s : State) : Bool := (cur s).openBefore s.curSlot (slot s).ldMark

/-- A later write must wait. -/
def stBarred (s : State) : Bool := (cur s).openBefore s.curSlot (slot s).stMark

/-- XLINV or DICTLD of slot `n` of core `c` is under way (R294, R375). -/
def Partition.invOpen (t : Partition) (c n : Nat) : Bool :=
  t.invs.any (fun r => r.core == c && r.cslot == n) || t.dicts.any (fun r => r.core == c && r.cslot == n)

/-- XLINV or DICTLD of this slot is under way: every later would-block instruction is refused FILL (R294, R375). -/
def invBarred (s : State) : Bool := (getPart s (curPart s)).invOpen s.curCore s.curSlot

/-- Whether `n` bytes at an address, in one half of a view, meet a range of the plain view (R293). -/
def fenceMeets (va n : Nat) (e : Nat × Nat × Nat) : Bool := decide (e.1 < plainVa va + n ∧ plainVa va < e.1 + e.2.1)

/-- The first address past `va` where bit 46 changes. -/
def viewEdge (va : Nat) : Nat := (va / 2 ^ 46 + 1) * 2 ^ 46

/-- A DCFENCE of this slot covers one of `n` bytes at the address, through either view (R293). -/
def dcfBarred (s : State) (va n : Nat) : Bool :=
  let m := min n (viewEdge va - va)
  (slot s).dcf.any (fun e => fenceMeets va m e || (decide (m < n) && fenceMeets (viewEdge va) (n - m) e))

/-- The slot has an atomic in flight or an uncollected result (R278). -/
def atomBarred (s : State) : Bool := (slot s).atom.isSome

/-- Posted work of slot `n` on a line (R150: loads of it wait; R279). -/
def Core.lineOpen (k : Core) (n : Nat) (sp : Space) (line : Nat) : Bool :=
  k.psb.any (fun p => p.slot == n && p.sp == sp && p.addr / 64 == line)

/-- Whether the hamper of a partition holds as many entries as fit (R249; assumption 62). -/
def hamperFull (s : State) (p : Nat) : Bool :=
  decide (max 1 (Config.hamperEntries (bitsOf (getPart s p).conf.hamper 63 48)) ≤ (getPart s p).hamper.length)

/-- Whether an arrival for core `t` can be diverted now: a full hamper keeps it in the mesh (R249). -/
def mayDivert (s : State) (t : Nat) : Bool := !hamperFull s ((partOf s t).getD 0)

/-- The current slot's posted work on a line. -/
def lineOpen (s : State) (sp : Space) (line : Nat) : Bool := (cur s).lineOpen s.curSlot sp line

/-- Whether a local full/empty access of a slot of the core has gone ahead of work that an open order has it follow: until that work
is performed, the core withholds the answers to window accesses of its scratchpad (R150; assumption 67). -/
def Core.withholds (k : Core) : Bool := k.slots.any (fun e => k.openBefore e.1 e.2.passed)

/-- Work that a release made now would cover is unperformed (R150). -/
def anyOpen (s : State) : Bool := (cur s).openBefore s.curSlot (cur s).nextId

/-- An event that is not LDS or STS must wait for a fence's obligation, as a read or as a write (R149, R151; assumption 67). -/
def localBarred (s : State) : Bool := ldBarred s || stBarred s

/-- Wake slots `n` and 7 where they are parked on a line of device memory: an AM* that waits for an open order claims its line
(R279). -/
def Core.wakeLines (k : Core) (n : Nat) : Core :=
  k.mapSlots (fun m l =>
    if (m == n || m == 7) && l.parkedOn (fun r => match r with | .line .dev _ => true | _ => false) then l.wakeBy 7 k.cyc else l)

/-- Whether a resource is a line of core `c`'s scratchpad in the window, whose answer the core may withhold (R150). -/
def Resource.winLine (c : Nat) : Resource → Bool
  | .line (.win x 0) _ => x == c
  | _ => false

/-- Wake what waits for the work of slot `n` of core `c`, an event of which has taken place (R43). -/
def wakeOrders (s : State) (c n : Nat) : State :=
  modCore (wakeWhere s (fun r => r == .engine c || r == orderRes c n || r == orderRes c 7 || r.winLine c)) c
    (fun k => k.wakeLines n)

/-- The current slot acquires. -/
def acquireFx (s : State) (sys : Bool) : State := acquireAt s s.curCore s.curSlot sys

/-- A synchronising action discards the value held for a retry (R150). -/
def dropHold (s : State) : State := modSlot s (fun l => { l with hold := none })

/-- A write of the slot's own to a line discards a value of that line held for a retry: a load returns no value older than the
slot's own write (R156). -/
def dropHoldOn (s : State) (sp : Space) (line : Nat) : State := modSlot s (fun l => l.dropOn sp line)

/-- A value already read for the retry of a load is discarded, one still to be read is not. -/
def Slot.dropRead (l : Slot) : Slot :=
  match l.hold with
  | some h => match h.ans, h.op with
    | .got _ _, .load _ | .got _ _, .fepeek _ => { l with hold := none }
    | _, _ => l
  | none => l

/-- A read completes: a value held for a load's retry was read before it, and a load whose address depends on the read follows it
(R148, case 2). -/
def dropRead (s : State) : State := modSlot s Slot.dropRead

/-- Enter the posted-store buffer (R129). -/
def post (s : State) (sp : Space) (addr : Nat) (d : List Byte) (rel : Bool) (red : Option (AtomOp × Bool))
    (comp : Option Nat) : State :=
  modCur s (fun k => { k with
    psb := k.psb ++ [{ id := k.nextId, slot := s.curSlot, sp := sp, addr := addr, data := d, rel := rel, red := red,
                       comp := comp }],
    nextId := k.nextId + 1 })

/-- Entry `i` leaves the buffer; refusals that waited for it may clear (R43). -/
def dropPosted (s : State) (c i : Nat) (e : Posted) : State :=
  wakeRes (wakeOrders (modCore s c (fun k => { k with psb := k.psb.eraseIdx i })) c e.slot) (.line e.sp (e.addr / 64))

/-- Whether a posted store is one of the current slot to unit `u` of its core's own window, and not held at a busy accumulator
(R131). -/
def ownStore (s : State) (u : Nat) (e : Posted) : Bool :=
  e.slot == s.curSlot && e.sp == .win s.curCore u && !(cur s).winBusy u e.addr e.data.length

/-- At most `n` such stores are performed, oldest first. -/
def performOwn (u : Nat) : Nat → State → State
  | 0, s => s
  | n + 1, s =>
    match (cur s).psb.findIdx? (ownStore s u) with
    | none => s
    | some i =>
      match (cur s).psb[i]? with
      | none => s
      | some e => performOwn u n (winWrite (dropPosted s s.curCore i e) s.curCore u e.addr e.data)

/-- An access of the current slot, at issue, to unit `u` of its own core finds the slot's own earlier window stores there performed: they
are at this moment, as the buffer may perform them at any (R129, R131, R156; assumption 113). -/
def ownPerformed (s : State) (u : Nat) : State := performOwn u (cur s).psb.length s

/-- The buffer holds 16 stores (R129). -/
def psbFull (s : State) : Bool := decide (16 ≤ (cur s).psb.length)

end Sys2Proof.Machine
end

