-- ==== Sys2Proof/Machine/Flags.lean ====
section
/-! DEFINITION. Conditions, and the fields of the status registers that software writes: branch conditions, comparison
results, `status`, `msgmask`, `pfmt` (R69, R83 to R86, R290). -/

namespace Sys2Proof.Machine

/-- A comparison's result as a register holds it. -/
def boolWord (b : Bool) : W64 := if b then 1 else 0

/-- Branch conditions (Table 4.5a). -/
def condHolds (c : Cond) (x y : W64) : Bool :=
  match c with
  | .eq => x == y
  | .ne => x != y
  | .lt => x.slt y
  | .ge => !x.slt y
  | .ltz => x.ult y
  | .gez => !x.ult y

/-- BRCI's operand: sign-extended for `eq`, `ne`, `lt`, `ge`, zero-extended for `ltz`, `gez` (Table 4.2). -/
def brciOperand (c : Cond) (imm : BitVec 5) : W64 :=
  match c with
  | .ltz | .gez => imm.setWidth 64
  | _ => imm.signExtend 64

/-- Target of a relative branch: PC + 4 × offset, the PC being the branch's own address (R63). -/
def relTarget (pc : VA) {w : Nat} (off : BitVec w) : VA := pc + 4 * off.signExtend 48

/-- Values `ncause` takes: CTLW of 14 or 15 is ILLEGAL (R83). -/
def ncauseOk (v : W64) : Bool := decide (bitsOf v 7 4 < 14)

/-- CTLW of `status` writes `nr` and `ncause` (R83). -/
def Slot.putStatus (l : Slot) (v : W64) : Slot := { l with nr := bitOf v 0, ncause := BitVec.ofNat 4 (bitsOf v 7 4) }

/-- `msgmask` as it reads (Table 5.3). -/
def msgmaskWord (l : Slot) : W64 :=
  BitVec.ofNat 64 (l.msgEn.toNat + (if l.msgMasked then 256 else 0) + 512 * l.msgLeft)

/-- `gear` as it reads (Table 5.4, R226). -/
def gearWord (k : Core) : W64 :=
  BitVec.ofNat 64 ((if k.spin then 1 else 0) + (if k.autosoak then 2 else 0) +
    (if k.spin != k.gearEff || k.restoreReq.isSome then 4 else 0))

/-- The sampled press format (R85); 011 to 111 are no format. -/
def fmtOf (v : BitVec 3) : Option Fmt :=
  match v.toNat with
  | 0 => some .dxb4 | 1 => some .dxb8 | 2 => some .int8 | _ => none

/-- Magnitude planes of a format (R68, R184). -/
def Fmt.planes : Fmt → Nat
  | .dxb4 => 2 | .dxb8 => 6 | .int8 => 8

/-- Planes an operation reads: `pl` against the format (R68); none is ILLEGAL. -/
def planesOf (f : Fmt) (pl : BitVec 3) : Option Nat :=
  if pl = 0 then some f.planes
  else match f with
    | .int8 => none
    | _ => if pl.toNat ≤ f.planes then some pl.toNat else none

end Sys2Proof.Machine
end

