-- ==== Sys2Proof/Machine/Alu.lean ====
section
/-! DEFINITION. Scalar integer arithmetic: majors 0x01 to 0x09 (R67, R72, R178 and the entries R275 to R376). -/

namespace Sys2Proof.Machine

/-- A scalar result: s[d] ← v, and the PC advances. -/
def scalarResult (s : State) (d : SReg) (v : W64) : Out := .next (advance (wrS s d v))

/-- High half of the exact signed product (R178). -/
def mulHigh (x y : W64) : W64 := BitVec.ofInt 64 (x.toInt * y.toInt / 2 ^ 64)

/-- High half of the exact unsigned product (R178). -/
def mulHighZ (x y : W64) : W64 := BitVec.ofNat 64 (x.toNat * y.toNat / 2 ^ 64)

/-- Signed quotient (Table 12.1). -/
def divS (x y : W64) : W64 := if y = 0 then BitVec.allOnes 64 else BitVec.ofInt 64 (x.toInt.tdiv y.toInt)

/-- Unsigned quotient (Table 12.1). -/
def divZ (x y : W64) : W64 := if y = 0 then BitVec.allOnes 64 else BitVec.ofNat 64 (x.toNat / y.toNat)

/-- Signed remainder (Table 12.1). -/
def remS (x y : W64) : W64 := if y = 0 then x else BitVec.ofInt 64 (x.toInt.tmod y.toInt)

/-- Unsigned remainder (Table 12.1). -/
def remZ (x y : W64) : W64 := if y = 0 then x else BitVec.ofNat 64 (x.toNat % y.toNat)

/-- The smaller, signed (R324). -/
def minS (x y : W64) : W64 := if x.slt y then x else y
/-- The larger, signed (R324). -/
def maxS (x y : W64) : W64 := if x.slt y then y else x
/-- The smaller, unsigned (R324). -/
def minU (x y : W64) : W64 := if x.ult y then x else y
/-- The larger, unsigned (R324). -/
def maxU (x y : W64) : W64 := if x.ult y then y else x

/-- Shift amount s[b][5:0] (R355). -/
def shAmt (y : W64) : Nat := y.toNat % 64

/-- Zero bits above the most significant one of the low `n` bits of `v` (R288). -/
def leadZeros (v : Nat) : Nat → Nat
  | 0 => 0
  | n + 1 => if v / 2 ^ n % 2 = 1 then 0 else 1 + leadZeros v n

/-- Set bits among the low `n` bits of `v` (R337). -/
def popCount (v : Nat) : Nat → Nat
  | 0 => 0
  | n + 1 => v % 2 + popCount (v / 2) n

/-- A shift of one of the three kinds (R67, R355). -/
def shiftBy (k : ShKind) (x : W64) (n : Nat) : W64 :=
  match k with
  | .l => x <<< n
  | .r => x >>> n
  | .ra => x.sshiftRight n

def execAdd (d a b : SReg) (s : State) : Out := scalarResult s d (rdS s a + rdS s b)
def execSub (d a b : SReg) (s : State) : Out := scalarResult s d (rdS s a - rdS s b)
def execAnd (d a b : SReg) (s : State) : Out := scalarResult s d (rdS s a &&& rdS s b)
def execOr (d a b : SReg) (s : State) : Out := scalarResult s d (rdS s a ||| rdS s b)
def execXor (d a b : SReg) (s : State) : Out := scalarResult s d (rdS s a ^^^ rdS s b)
def execShl (d a b : SReg) (s : State) : Out := scalarResult s d (shiftBy .l (rdS s a) (shAmt (rdS s b)))
def execShr (d a b : SReg) (s : State) : Out := scalarResult s d (shiftBy .r (rdS s a) (shAmt (rdS s b)))
def execSra (d a b : SReg) (s : State) : Out := scalarResult s d (shiftBy .ra (rdS s a) (shAmt (rdS s b)))
def execMul (d a b : SReg) (s : State) : Out := scalarResult s d (rdS s a * rdS s b)
def execMulh (d a b : SReg) (s : State) : Out := scalarResult s d (mulHigh (rdS s a) (rdS s b))
def execMulhz (d a b : SReg) (s : State) : Out := scalarResult s d (mulHighZ (rdS s a) (rdS s b))
def execDiv (d a b : SReg) (s : State) : Out := scalarResult s d (divS (rdS s a) (rdS s b))
def execDivz (d a b : SReg) (s : State) : Out := scalarResult s d (divZ (rdS s a) (rdS s b))
def execRem (d a b : SReg) (s : State) : Out := scalarResult s d (remS (rdS s a) (rdS s b))
def execRemz (d a b : SReg) (s : State) : Out := scalarResult s d (remZ (rdS s a) (rdS s b))
def execMin (d a b : SReg) (s : State) : Out := scalarResult s d (minS (rdS s a) (rdS s b))
def execMax (d a b : SReg) (s : State) : Out := scalarResult s d (maxS (rdS s a) (rdS s b))
def execMinz (d a b : SReg) (s : State) : Out := scalarResult s d (minU (rdS s a) (rdS s b))
def execMaxz (d a b : SReg) (s : State) : Out := scalarResult s d (maxU (rdS s a) (rdS s b))
def execSlt (d a b : SReg) (s : State) : Out := scalarResult s d (boolWord ((rdS s a).slt (rdS s b)))
def execSltz (d a b : SReg) (s : State) : Out := scalarResult s d (boolWord ((rdS s a).ult (rdS s b)))
def execSeq (d a b : SReg) (s : State) : Out := scalarResult s d (boolWord (rdS s a == rdS s b))
def execSel (d a b e : SReg) (s : State) : Out := scalarResult s d (if rdS s e ≠ 0 then rdS s a else rdS s b)
def execClz (d a : SReg) (s : State) : Out := scalarResult s d (BitVec.ofNat 64 (leadZeros (rdS s a).toNat 64))
def execPopc (d a : SReg) (s : State) : Out := scalarResult s d (BitVec.ofNat 64 (popCount (rdS s a).toNat 64))
def execAddi (d a : SReg) (imm : BitVec 16) (s : State) : Out := scalarResult s d (rdS s a + sext16 imm)
def execAndi (d a : SReg) (imm : BitVec 16) (s : State) : Out := scalarResult s d (rdS s a &&& sext16 imm)
def execOri (d a : SReg) (imm : BitVec 16) (s : State) : Out := scalarResult s d (rdS s a ||| sext16 imm)
def execXori (d a : SReg) (imm : BitVec 16) (s : State) : Out := scalarResult s d (rdS s a ^^^ sext16 imm)
def execShi (d a : SReg) (k : ShKind) (n : BitVec 6) (s : State) : Out := scalarResult s d (shiftBy k (rdS s a) n.toNat)
def execLui (d : SReg) (imm : BitVec 21) (s : State) : Out := scalarResult s d (imm.signExtend 64 <<< 16)
def execSlti (d a : SReg) (imm : BitVec 16) (s : State) : Out :=
  scalarResult s d (boolWord ((rdS s a).slt (sext16 imm)))
def execMuli (d a : SReg) (imm : BitVec 16) (s : State) : Out := scalarResult s d (rdS s a * sext16 imm)

end Sys2Proof.Machine
end

