-- ==== Sys2Proof/Machine/Float.lean ====
section
/-! DEFINITION. Floating point: the three IEEE 754 formats, exact arithmetic with one rounding, comparisons, conversions and
the correctly rounded elementary functions (R179, R180, R299 to R302, R374). Values are exact: a sign, a natural mantissa
and an exponent; `sticky` says that the exact magnitude lies strictly between m·2^e and (m + 1)·2^e. -/

namespace Sys2Proof.Machine

/-- A binary format: exponent and fraction widths (Table 12.2). -/
structure FloatFmt where
  eb : Nat
  mb : Nat
deriving DecidableEq, Repr

/-- FP32. -/
def f32 : FloatFmt := { eb := 8, mb := 23 }
/-- FP16. -/
def f16 : FloatFmt := { eb := 5, mb := 10 }
/-- BF16. -/
def bf16 : FloatFmt := { eb := 8, mb := 7 }

/-- Exponent bias. -/
def FloatFmt.bias (f : FloatFmt) : Int := 2 ^ (f.eb - 1) - 1
/-- Exponent of the last place of a subnormal. -/
def FloatFmt.emin (f : FloatFmt) : Int := 1 - f.bias - f.mb
/-- Width in bits. -/
def FloatFmt.width (f : FloatFmt) : Nat := 1 + f.eb + f.mb
/-- The canonical NaN (Table 12.2). -/
def FloatFmt.nan (f : FloatFmt) : Nat := (2 ^ f.eb - 1) * 2 ^ f.mb + 2 ^ (f.mb - 1)
/-- An infinity. -/
def FloatFmt.inf (f : FloatFmt) (neg : Bool) : Nat := (if neg then 2 ^ (f.eb + f.mb) else 0) + (2 ^ f.eb - 1) * 2 ^ f.mb
/-- The largest finite value. -/
def FloatFmt.big (f : FloatFmt) (neg : Bool) : Nat := f.inf neg - 1

/-- A value: NaN, an infinity, or (−1)^neg · m · 2^e. -/
inductive Fv where
  | nan
  | inf (neg : Bool)
  | num (neg : Bool) (m : Nat) (e : Int)
deriving DecidableEq, Repr

/-- Value of a bit pattern; subnormals are kept. -/
def unpack (f : FloatFmt) (w : Nat) : Fv :=
  let neg := w / 2 ^ (f.eb + f.mb) % 2 == 1
  let ex := w / 2 ^ f.mb % 2 ^ f.eb
  let fr := w % 2 ^ f.mb
  if ex = 2 ^ f.eb - 1 then (if fr = 0 then .inf neg else .nan)
  else if ex = 0 then .num neg fr f.emin
  else .num neg (2 ^ f.mb + fr) (f.emin + (ex - 1 : Nat))

/-- Number of bits of a natural number. -/
def bitLen (n : Nat) : Nat := if n = 0 then 0 else n.log2 + 1

/-- Whether rounding adds one to a truncated magnitude `n` with remainder `r` of `2^sh` (R82 `rnd`): 0 nearest-even,
1 toward zero, 2 toward positive, 3 toward negative. -/
def roundUp (mode : Nat) (neg : Bool) (n r half : Nat) : Bool :=
  match mode with
  | 0 => decide (half < r) || (r == half && n % 2 == 1)
  | 1 => false
  | 2 => r != 0 && !neg
  | _ => r != 0 && neg

/-- Bit pattern of an overflow (R301). -/
def overflow (f : FloatFmt) (mode : Nat) (neg : Bool) : Nat :=
  match mode with
  | 0 => f.inf neg
  | 1 => f.big neg
  | 2 => if neg then f.big neg else f.inf neg
  | _ => if neg then f.inf neg else f.big neg

/-- Round (−1)^neg · m · 2^e, or a little more when sticky, once to the format. -/
def roundTo (f : FloatFmt) (mode : Nat) (neg : Bool) (m : Nat) (e : Int) (sticky : Bool) : Nat :=
  let sgn := if neg then 2 ^ (f.eb + f.mb) else 0
  if m = 0 ∧ sticky = false then sgn
  else
    let m2 := 2 * m + (if sticky then 1 else 0)
    let e2 := e - 1
    let q := max (e2 + bitLen m2 - (f.mb + 1 : Nat)) f.emin
    let sh := (q - e2).toNat
    let n := if q ≤ e2 then m2 * 2 ^ (e2 - q).toNat else m2 / 2 ^ sh
    let r := if q ≤ e2 then 0 else m2 % 2 ^ sh
    let half := if sh = 0 then 1 else 2 ^ (sh - 1)
    let n1 := if roundUp mode neg n r half then n + 1 else n
    let n2 := if n1 = 2 ^ (f.mb + 1) then 2 ^ f.mb else n1
    let q2 := if n1 = 2 ^ (f.mb + 1) then q + 1 else q
    if n2 < 2 ^ f.mb then sgn + n2
    else
      let ex := (q2 - f.emin).toNat + 1
      if 2 ^ f.eb - 1 ≤ ex then overflow f mode neg else sgn + ex * 2 ^ f.mb + (n2 - 2 ^ f.mb)

/-- Signed mantissa of a number over a common exponent `lo ≤ e`. -/
def scaled (neg : Bool) (m : Nat) (e lo : Int) : Int :=
  let v : Int := m * 2 ^ (e - lo).toNat
  if neg then -v else v

/-- Exact sum of two finite values, rounded once; a zero sum of unlike signs is −0 only toward negative. -/
def addNum (f : FloatFmt) (mode : Nat) (n1 : Bool) (m1 : Nat) (e1 : Int) (n2 : Bool) (m2 : Nat) (e2 : Int) : Nat :=
  let lo := min e1 e2
  let v := scaled n1 m1 e1 lo + scaled n2 m2 e2 lo
  let neg := if v = 0 then (if n1 == n2 then n1 else mode == 3) else decide (v < 0)
  roundTo f mode neg v.natAbs lo false

/-- Round(x + y). -/
def fAdd (f : FloatFmt) (mode : Nat) (x y : Fv) : Nat :=
  match x, y with
  | .nan, _ | _, .nan => f.nan
  | .inf a, .inf b => if a == b then f.inf a else f.nan
  | .inf a, .num .. => f.inf a
  | .num .., .inf b => f.inf b
  | .num n1 m1 e1, .num n2 m2 e2 => addNum f mode n1 m1 e1 n2 m2 e2

/-- The value with its sign inverted. -/
def Fv.neg : Fv → Fv
  | .nan => .nan
  | .inf n => .inf (!n)
  | .num n m e => .num (!n) m e

/-- Exact product. -/
def Fv.mul (x y : Fv) : Fv :=
  match x, y with
  | .nan, _ | _, .nan => .nan
  | .inf a, .inf b => .inf (a != b)
  | .inf a, .num n m _ => if m = 0 then .nan else .inf (a != n)
  | .num n m _, .inf b => if m = 0 then .nan else .inf (n != b)
  | .num n1 m1 e1, .num n2 m2 e2 => .num (n1 != n2) (m1 * m2) (e1 + e2)

/-- Round an exact value. -/
def fRound (f : FloatFmt) (mode : Nat) (x : Fv) : Nat :=
  match x with
  | .nan => f.nan
  | .inf n => f.inf n
  | .num n m e => roundTo f mode n m e false

/-- Round(x × y). -/
def fMul (f : FloatFmt) (mode : Nat) (x y : Fv) : Nat := fRound f mode (x.mul y)

/-- Round(x × y + z), one rounding. -/
def fFma (f : FloatFmt) (mode : Nat) (x y z : Fv) : Nat := fAdd f mode (x.mul y) z

/-- Round(x / y). -/
def fDiv (f : FloatFmt) (mode : Nat) (x y : Fv) : Nat :=
  match x, y with
  | .nan, _ | _, .nan => f.nan
  | .inf _, .inf _ => f.nan
  | .inf a, .num n _ _ => f.inf (a != n)
  | .num n _ _, .inf b => roundTo f mode (n != b) 0 0 false
  | .num n1 m1 e1, .num n2 m2 e2 =>
    if m2 = 0 then (if m1 = 0 then f.nan else f.inf (n1 != n2))
    else roundTo f mode (n1 != n2) (m1 * 2 ^ 80 / m2) (e1 - e2 - 80) (m1 * 2 ^ 80 % m2 != 0)

/-- Integer square root of a number below 2^(2·bits), bit by bit. -/
def isqrtFrom (n : Nat) : Nat → Nat → Nat
  | 0, r => r
  | k + 1, r => if (r + 2 ^ k) * (r + 2 ^ k) ≤ n then isqrtFrom n k (r + 2 ^ k) else isqrtFrom n k r

/-- Integer square root. -/
def isqrt (n : Nat) : Nat := isqrtFrom n (bitLen n / 2 + 1) 0

/-- Round(√x). -/
def fSqrt (f : FloatFmt) (mode : Nat) (x : Fv) : Nat :=
  match x with
  | .nan => f.nan
  | .inf n => if n then f.nan else f.inf false
  | .num n m e =>
    if m = 0 then roundTo f mode n 0 0 false
    else if n then f.nan
    else
      let m1 := if e % 2 = 0 then m else 2 * m
      let e1 := if e % 2 = 0 then e else e - 1
      let w := m1 * 2 ^ 80
      let r := isqrt w
      roundTo f mode false r (e1 / 2 - 40) (r * r != w)

/-- x < y for values that are no NaN, −0 equal to +0. -/
def Fv.lt (x y : Fv) : Bool :=
  match x, y with
  | .nan, _ | _, .nan => false
  | .inf a, .inf b => a && !b
  | .inf a, .num .. => a
  | .num .., .inf b => !b
  | .num n1 m1 e1, .num n2 m2 e2 =>
    let lo := min e1 e2
    decide (scaled n1 m1 e1 lo < scaled n2 m2 e2 lo)

/-- x = y, −0 equal to +0, false with a NaN. -/
def Fv.eq (x y : Fv) : Bool :=
  match x, y with
  | .nan, _ | _, .nan => false
  | _, _ => !x.lt y && !y.lt x

/-- Sign of a value. -/
def Fv.isNeg : Fv → Bool
  | .nan => false
  | .inf n => n
  | .num n _ _ => n

/-- x below y with −0 below +0 (R180). -/
def Fv.below (x y : Fv) : Bool := x.lt y || (x.eq y && x.isNeg && !y.isNeg)

/-- A NaN becomes the canonical NaN; other patterns stand. -/
def canon (f : FloatFmt) (w : Nat) : Nat := if unpack f w = .nan then f.nan else w

/-- FMIN and VMIN (R180). -/
def fMin (f : FloatFmt) (x y : Nat) : Nat :=
  let a := unpack f x; let b := unpack f y
  if a = .nan then canon f y else if b = .nan then x else if b.below a then y else x

/-- FMAX and VMAX (R180). -/
def fMax (f : FloatFmt) (x y : Nat) : Nat :=
  let a := unpack f x; let b := unpack f y
  if a = .nan then canon f y else if b = .nan then x else if a.below b then y else x

/-- Round a finite value to an integer. -/
def roundInt (mode : Nat) (neg : Bool) (m : Nat) (e : Int) : Int :=
  let n := if 0 ≤ e then m * 2 ^ e.toNat
    else
      let sh := (-e).toNat
      let q := m / 2 ^ sh
      if roundUp mode neg q (m % 2 ^ sh) (2 ^ (sh - 1)) then q + 1 else q
  if neg then -n else n

/-- Conversion to an integer in the range lo to hi: rounded, saturated, a NaN gives 0 (R180). -/
def fToInt (mode : Nat) (x : Fv) (lo hi : Int) : Int :=
  match x with
  | .nan => 0
  | .inf n => if n then lo else hi
  | .num n m e => max lo (min hi (roundInt mode n m e))

/-- Conversion from an integer. -/
def fOfInt (f : FloatFmt) (mode : Nat) (v : Int) : Nat := roundTo f mode (decide (v < 0)) v.natAbs 0 false

/-- Conditions of FCMP and VCMP on values (R300, R370). -/
def fCompare (c : FCond) (x y : Fv) : Bool :=
  match c with
  | .eq => x.eq y
  | .ne => !x.eq y
  | .lt => x.lt y
  | .le => x.lt y || x.eq y
  | .un => x == .nan || y == .nan

/-- FCLASS (Table 22.4). -/
def fClass (f : FloatFmt) (w : Nat) : Nat :=
  let neg := w / 2 ^ (f.eb + f.mb) % 2 == 1
  let ex := w / 2 ^ f.mb % 2 ^ f.eb
  let fr := w % 2 ^ f.mb
  if ex = 2 ^ f.eb - 1 then
    (if fr = 0 then (if neg then 1 else 128) else if fr < 2 ^ (f.mb - 1) then 256 else 512)
  else if ex = 0 then
    (if fr = 0 then (if neg then 8 else 16) else if neg then 4 else 32)
  else if neg then 2 else 64

/-! ## Reciprocals, powers and logarithms of FP32 (R374) -/

/-- VRCP. -/
def fRcp (mode : Nat) (x : Fv) : Nat := fDiv f32 mode (.num false 1 0) x

/-- VRSQ. -/
def fRsq (mode : Nat) (x : Fv) : Nat :=
  match x with
  | .nan => f32.nan
  | .inf n => if n then f32.nan else 0
  | .num n m e =>
    if m = 0 then f32.inf n
    else if n then f32.nan
    else
      let m1 := if e % 2 = 0 then m else 2 * m
      let e1 := if e % 2 = 0 then e else e - 1
      let r := isqrt (2 ^ 240 / m1)
      roundTo f32 mode false r (-(e1 / 2) - 120) (r * r * m1 != 2 ^ 240)

/-- Fraction bits of the fixed-point series below. -/
def serBits : Nat := 240

/-- Σ 1/(k·2^k) for k from `k` on, `n` terms: ln 2 when k starts at 1. -/
def ln2Sum : Nat → Nat → Nat
  | 0, _ => 0
  | n + 1, k => 2 ^ serBits / (k * 2 ^ k) + ln2Sum n (k + 1)

/-- ln 2 in fixed point, truncated. -/
def ln2Fix : Nat := ln2Sum serBits 1

/-- Σ y^k/k! in fixed point: `n` more terms, the last term `t` being the k-th. -/
def expSum (y : Nat) : Nat → Nat → Nat → Nat
  | 0, _, _ => 0
  | n + 1, k, t => t + expSum y n (k + 1) (t * y / (2 ^ serBits * (k + 1)))

/-- Σ z^(2k+1)/(2k+1) in fixed point: `n` more terms, `t` = z^(2k+1), z² = `zz`. -/
def atanhSum (zz : Nat) : Nat → Nat → Nat → Nat
  | 0, _, _ => 0
  | n + 1, k, t => t / (2 * k + 1) + atanhSum zz n (k + 1) (t * zz / 2 ^ serBits)

/-- VEXP2: an integer power exactly; otherwise 2^i · 2^f with 2^f from the exponential series, never exact. -/
def fExp2 (mode : Nat) (x : Fv) : Nat :=
  match x with
  | .nan => f32.nan
  | .inf n => if n then 0 else f32.inf false
  | .num n m e =>
    if m = 0 then roundTo f32 mode false 1 0 false
    else if (200 : Int) ≤ e + bitLen m then (if n then roundTo f32 mode false 0 f32.emin true else overflow f32 mode false)
    else
      let lo := min e 0
      let v := scaled n m e lo                  -- x = v · 2^lo
      let d : Int := 2 ^ (-lo).toNat
      let i := v / d
      let fr := (v % d).toNat                   -- fraction fr / d
      if 200 < i then overflow f32 mode false
      else if i < -200 then roundTo f32 mode false 0 f32.emin true
      else if fr = 0 then roundTo f32 mode false 1 i false
      else if fr * 2 ^ 60 < d.toNat then roundTo f32 mode false (2 ^ 40) (i - 40) true
      else if (d.toNat - fr) * 2 ^ 60 < d.toNat then roundTo f32 mode false (2 ^ 41 - 1) (i - 40) true
      else
        let y := fr * ln2Fix / d.toNat
        roundTo f32 mode false (expSum y 80 0 (2 ^ serBits) / 2 ^ 120) (i - (serBits - 120 : Nat)) true

/-- VLOG2: the exponent exactly for a power of two; otherwise E + ln t / ln 2 with t in (1, 2), never exact. -/
def fLog2 (mode : Nat) (x : Fv) : Nat :=
  match x with
  | .nan => f32.nan
  | .inf n => if n then f32.nan else f32.inf false
  | .num n m e =>
    if m = 0 then f32.inf true
    else if n then f32.nan
    else
      let k := bitLen m - 1
      let ex : Int := e + k
      if m = 2 ^ k then fOfInt f32 mode ex
      else
        let z := (m - 2 ^ k) * 2 ^ serBits / (m + 2 ^ k)
        let lnT := 2 * atanhSum (z * z / 2 ^ serBits) 90 0 z
        let v : Int := ex * 2 ^ serBits + (lnT * 2 ^ serBits / ln2Fix : Nat)
        if v < 0 then roundTo f32 mode true ((v.natAbs - 1) / 2 ^ 100) (-(serBits - 100 : Nat)) true
        else roundTo f32 mode false (v.natAbs / 2 ^ 100) (-(serBits - 100 : Nat)) true

end Sys2Proof.Machine
end

