-- ==== Sys2Proof/WellFormed.lean ====
section
/-! DEFINITION. Which instructions are legal beyond the ranges of their fields (R65, R66, R74, R75, R78, R96, R106, R135,
R204, R370, R372, R373, R375): any other combination is an ILLEGAL word. -/

namespace Sys2Proof

open Sys2Proof.Machine

/-- With size `v`, field d names a vector register (R65). -/
def vecOk (sz : Size) (d : SReg) : Bool := sz != .v || decide (d.val < 16)

/-- VCMP: `ltz` and `lez` for integers only, `un` for floating point only (R370). -/
def vcmpOk (t : LaneTy) (c : VCond) : Bool :=
  match c with
  | .ltz | .lez => t.isInt
  | .un => !t.isInt
  | _ => true

/-- VRED: floating point reduces by `add`, `min` and `max` alone (R373). -/
def redOk (t : LaneTy) (f : RedFn) : Bool :=
  match f with
  | .add | .min | .max => true
  | _ => t.isInt

/-- Whether an instruction has a legal word. Events have none to check. -/
def Instr.wf : Instr → Bool
  | .nop => true
  | .trap .. => true
  | .eret => true
  | .halt => true
  | .bkpt .. => true
  | .ctlr .. => true
  | .ctlw .. => true
  | .fence .. => true
  | .dcfence .. => true
  | .xlinv a k => k == .page || a == 0
  | .dictld .. => true
  | .ltrd .. => true
  | .stamp .. => true
  | .add .. => true
  | .sub .. => true
  | .and_ .. => true
  | .or_ .. => true
  | .xor .. => true
  | .shl .. => true
  | .shr .. => true
  | .sra .. => true
  | .mul .. => true
  | .mulh .. => true
  | .mulhz .. => true
  | .div .. => true
  | .divz .. => true
  | .rem .. => true
  | .remz .. => true
  | .min .. => true
  | .max .. => true
  | .minz .. => true
  | .maxz .. => true
  | .slt .. => true
  | .sltz .. => true
  | .seq .. => true
  | .sel .. => true
  | .clz .. => true
  | .popc .. => true
  | .addi .. => true
  | .andi .. => true
  | .ori .. => true
  | .xori .. => true
  | .shi .. => true
  | .lui .. => true
  | .slti .. => true
  | .muli .. => true
  | .brc .. => true
  | .brci .. => true
  | .j .. => true
  | .call .. => true
  | .jr .. => true
  | .callr .. => true
  | .bnr .. => true
  | .rpt .. => true
  | .fadd .. => true
  | .fsub .. => true
  | .fmul .. => true
  | .ffma .. => true
  | .fdiv .. => true
  | .fsqrt .. => true
  | .fmin .. => true
  | .fmax .. => true
  | .fcmp .. => true
  | .fcvt .. => true
  | .fclass .. => true
  | .vadd .. => true
  | .vsub .. => true
  | .vmul .. => true
  | .vfma _ _ _ _ t => !t.isInt
  | .vmin .. => true
  | .vmax .. => true
  | .vminz _ _ _ _ t => t.isInt
  | .vmaxz _ _ _ _ t => t.isInt
  | .vabs .. => true
  | .vneg .. => true
  | .vadds _ _ _ _ t => t.isInt
  | .vsubs _ _ _ _ t => t.isInt
  | .vmulh _ _ _ _ t => t.isInt
  | .vand _ _ _ _ t => t.isInt
  | .vor _ _ _ _ t => t.isInt
  | .vxor _ _ _ _ t => t.isInt
  | .vshl _ _ _ _ t => t.isInt
  | .vshr _ _ _ _ t => t.isInt
  | .vsra _ _ _ _ t => t.isInt
  | .vcvt .. => true
  | .vperm .. => true
  | .vred _ _ f _ t => redOk t f
  | .vbcst .. => true
  | .vmovs _ _ lane t => decide (lane.toNat < t.lanes)
  | .vrcp .. => true
  | .vrsq .. => true
  | .vexp2 .. => true
  | .vlog2 .. => true
  | .vcmp _ _ _ _ t c => vcmpOk t c
  | .mand .. => true
  | .mor .. => true
  | .mnot .. => true
  | .mcnt .. => true
  | .pmac .. => true
  | .pgrp .. => true
  | .pcmd .. => true
  | .accz .. => true
  | .accrd .. => true
  | .accwr .. => true
  | .accst .. => true
  | .accld .. => true
  | .seam x a b _ role => b != x && (role != .tail || a == 0)
  | .baddq .. => true
  | .dxbpk .. => true
  | .dxbun .. => true
  | .lds d _ sz _ => vecOk sz d
  | .sts d _ sz _ => sz.storable && vecOk sz d
  | .ldw d _ _ sz _ _ => vecOk sz d
  | .stw d _ _ sz _ _ => sz.storable && vecOk sz d
  | .ldl d _ _ sz _ _ => vecOk sz d
  | .stl d _ _ sz _ _ => sz.storable && vecOk sz d
  | .ldd d _ _ sz _ _ _ => vecOk sz d
  | .std d _ _ sz _ _ => sz.storable && vecOk sz d
  | .ldf d _ _ sz _ _ => vecOk sz d
  | .stf d _ _ sz _ _ => sz.storable && vecOk sz d
  | .ldh d _ _ sz _ _ => vecOk sz d
  | .sth d _ _ sz _ _ => sz.storable && vecOk sz d
  | .ldc _ _ _ sz _ _ => sz != .v
  | .stp _ _ _ sz _ => sz.storable && sz != .v
  | .feset .. => true
  | .feclr .. => true
  | .fepeek _ _ _ x => decide (x.toNat ≤ 63)
  | .amadd .. => true
  | .amand .. => true
  | .amor .. => true
  | .amxor .. => true
  | .ammin .. => true
  | .ammax .. => true
  | .amminz .. => true
  | .ammaxz .. => true
  | .amswp .. => true
  | .amcas .. => true
  | .redadd .. => true
  | .redfadd .. => true
  | .redmin .. => true
  | .redmax .. => true
  | .redand .. => true
  | .redor .. => true
  | .redxor .. => true
  | .send .. => true
  | .recv _ _ nr _ probe _ => !probe || nr == .park
  | .recvReply _ _ nr probe _ => !probe || nr == .park
  | .rcall .. => true
  | .rret .. => true
  | .mmask .. => true
  | .munmask => true
  | .mvec => true
  | .qpush .. => true
  | .qpop .. => true
  | .boq .. => true
  | .brq .. => true
  | .lnkp .. => true
  | .lnkpForward .. => true
  | .lnkw .. => true
  | .garr .. => true
  | .garrr .. => true
  | .gwait .. => true
  | .mon .. => true
  | .park .. => true
  | .spawn .. => true
  | .take .. => true
  | .steal .. => true
  | .xpost .. => true
  | .xtake .. => true
  | .copy .. => true
  | .gath .. => true
  | .slice .. => true
  | .lease .. => true
  | .unlease .. => true
  | .cwait .. => true
  | .cwset .. => true
  | .round .. => true
  | .rview .. => true
  | .irget .. => true
  | .irpass .. => true
  | .gear .. => true
  | .launch .. => true
  | .done => true
  | .claimExpiry .. => true
  | .parkTimeout .. => true
  | .mmaskExpiry .. => true
  | .messageInterrupt .. => true
  | .postedStorePerform .. => true
  | .loadReadAtTarget .. => true
  | .pageWalkComplete .. => true
  | .lineFillComplete .. => true
  | .atomicAtHome .. => true
  | .reductionAtHome .. => true
  | .windowAccessPerform .. => true
  | .mailboxStoreDeliver .. => true
  | .messageArrival .. => true
  | .creditRequestArrival .. => true
  | .creditGrantArrival .. => true
  | .creditReturnArrival .. => true
  | .replyArrival .. => true
  | .linkWordArrival .. => true
  | .linkCreditReturn .. => true
  | .probeSend .. => true
  | .probeArrival .. => true
  | .deadlockConfirm .. => true
  | .stealRequestArrival .. => true
  | .stealAnswerLanding .. => true
  | .launchIntake .. => true
  | .nodePlacement .. => true
  | .placementStarvation .. => true
  | .coreCompletionSignal .. => true
  | .nodeCompletion .. => true
  | .watchdogExpiry .. => true
  | .nodeFault .. => true
  | .copyDestWrite .. => true
  | .copyRecordWrite .. => true
  | .pressOpStart .. => true
  | .pressPlaneRead .. => true
  | .pressOpComplete .. => true
  | .engineTrapDelivery .. => true
  | .pgrpShareArrival .. => true
  | .pgrpShareEnd .. => true
  | .pcmdStepArrival .. => true
  | .pcmdStepEnd .. => true
  | .accEngineComplete .. => true
  | .seamForwardArrival .. => true
  | .roundIncrement .. => true
  | .ironPassComplete .. => true
  | .roundNoticeArrival .. => true
  | .viewInstall .. => true
  | .publishWriteArrival .. => true
  | .publishRoundArrival .. => true
  | .subscriptionLost .. => true
  | .barrierArrival .. => true
  | .barrierNoticeArrival .. => true
  | .gearChangeEffect .. => true
  | .restoreRequestGrant .. => true
  | .transitionWindowClose .. => true
  | .unitLimitSet .. => true
  | .autosoakDrop .. => true
  | .vent .. => true
  | .ventForceSoak .. => true
  | .marginReplan .. => true
  | .sramRailStep .. => true
  | .rowUncorrectableError .. => true
  | .lpddrThermalThreshold .. => true
  | .preempt .. => true
  | .saveCancel .. => true
  | .restore .. => true
  | .leaseExpiry .. => true
  | .leaseEnd .. => true
  | .paletteReload .. => true
  | .xlinvComplete .. => true
  | .dcfenceWriteback .. => true
  | .gatewayBlockArrival .. => true
  | .debugStop .. => true
  | .debugResume .. => true
  | .debugStep .. => true
  | .hostWindowAccess .. => true
  | .launchDoorbell .. => true
  | .windowErrorCountRead .. => true
  | .traceDropCountRead .. => true
  | .configCommit .. => true
  | .controlPageWrite .. => true
  | .partitionCreate .. => true
  | .partitionTeardown .. => true
  | .boot .. => true
  | .lifecycleTransition .. => true
  | .bleachAlarm .. => true
  | .attestationReport .. => true
  | .debugUnlock .. => true
  | .reset => true
  | .illegalInstruction => true
  | .fetchFault => true
  | .seamOwnBusyEnd .. => true
  | .freezeClear .. => true
  | .junctionCooled .. => true
  | .expanderReportsThrottling .. => true
  | .routeTableWrite .. => true

/-- Whether a constructor is an encoded instruction; the others are events without an encoding. -/
def Instr.isEncoded : Instr → Bool
  | .nop => true
  | .trap .. => true
  | .eret => true
  | .halt => true
  | .bkpt .. => true
  | .ctlr .. => true
  | .ctlw .. => true
  | .fence .. => true
  | .dcfence .. => true
  | .xlinv .. => true
  | .dictld .. => true
  | .ltrd .. => true
  | .stamp .. => true
  | .add .. => true
  | .sub .. => true
  | .and_ .. => true
  | .or_ .. => true
  | .xor .. => true
  | .shl .. => true
  | .shr .. => true
  | .sra .. => true
  | .mul .. => true
  | .mulh .. => true
  | .mulhz .. => true
  | .div .. => true
  | .divz .. => true
  | .rem .. => true
  | .remz .. => true
  | .min .. => true
  | .max .. => true
  | .minz .. => true
  | .maxz .. => true
  | .slt .. => true
  | .sltz .. => true
  | .seq .. => true
  | .sel .. => true
  | .clz .. => true
  | .popc .. => true
  | .addi .. => true
  | .andi .. => true
  | .ori .. => true
  | .xori .. => true
  | .shi .. => true
  | .lui .. => true
  | .slti .. => true
  | .muli .. => true
  | .brc .. => true
  | .brci .. => true
  | .j .. => true
  | .call .. => true
  | .jr .. => true
  | .callr .. => true
  | .bnr .. => true
  | .rpt .. => true
  | .fadd .. => true
  | .fsub .. => true
  | .fmul .. => true
  | .ffma .. => true
  | .fdiv .. => true
  | .fsqrt .. => true
  | .fmin .. => true
  | .fmax .. => true
  | .fcmp .. => true
  | .fcvt .. => true
  | .fclass .. => true
  | .vadd .. => true
  | .vsub .. => true
  | .vmul .. => true
  | .vfma .. => true
  | .vmin .. => true
  | .vmax .. => true
  | .vminz .. => true
  | .vmaxz .. => true
  | .vabs .. => true
  | .vneg .. => true
  | .vadds .. => true
  | .vsubs .. => true
  | .vmulh .. => true
  | .vand .. => true
  | .vor .. => true
  | .vxor .. => true
  | .vshl .. => true
  | .vshr .. => true
  | .vsra .. => true
  | .vcvt .. => true
  | .vperm .. => true
  | .vred .. => true
  | .vbcst .. => true
  | .vmovs .. => true
  | .vrcp .. => true
  | .vrsq .. => true
  | .vexp2 .. => true
  | .vlog2 .. => true
  | .vcmp .. => true
  | .mand .. => true
  | .mor .. => true
  | .mnot .. => true
  | .mcnt .. => true
  | .pmac .. => true
  | .pgrp .. => true
  | .pcmd .. => true
  | .accz .. => true
  | .accrd .. => true
  | .accwr .. => true
  | .accst .. => true
  | .accld .. => true
  | .seam .. => true
  | .baddq .. => true
  | .dxbpk .. => true
  | .dxbun .. => true
  | .lds .. => true
  | .sts .. => true
  | .ldw .. => true
  | .stw .. => true
  | .ldl .. => true
  | .stl .. => true
  | .ldd .. => true
  | .std .. => true
  | .ldf .. => true
  | .stf .. => true
  | .ldh .. => true
  | .sth .. => true
  | .ldc .. => true
  | .stp .. => true
  | .feset .. => true
  | .feclr .. => true
  | .fepeek .. => true
  | .amadd .. => true
  | .amand .. => true
  | .amor .. => true
  | .amxor .. => true
  | .ammin .. => true
  | .ammax .. => true
  | .amminz .. => true
  | .ammaxz .. => true
  | .amswp .. => true
  | .amcas .. => true
  | .redadd .. => true
  | .redfadd .. => true
  | .redmin .. => true
  | .redmax .. => true
  | .redand .. => true
  | .redor .. => true
  | .redxor .. => true
  | .send .. => true
  | .recv .. => true
  | .recvReply .. => true
  | .rcall .. => true
  | .rret .. => true
  | .mmask .. => true
  | .munmask => true
  | .mvec => true
  | .qpush .. => true
  | .qpop .. => true
  | .boq .. => true
  | .brq .. => true
  | .lnkp .. => true
  | .lnkpForward .. => true
  | .lnkw .. => true
  | .garr .. => true
  | .garrr .. => true
  | .gwait .. => true
  | .mon .. => true
  | .park .. => true
  | .spawn .. => true
  | .take .. => true
  | .steal .. => true
  | .xpost .. => true
  | .xtake .. => true
  | .copy .. => true
  | .gath .. => true
  | .slice .. => true
  | .lease .. => true
  | .unlease .. => true
  | .cwait .. => true
  | .cwset .. => true
  | .round .. => true
  | .rview .. => true
  | .irget .. => true
  | .irpass .. => true
  | .gear .. => true
  | .launch .. => true
  | .done => true
  | .claimExpiry .. => false
  | .parkTimeout .. => false
  | .mmaskExpiry .. => false
  | .messageInterrupt .. => false
  | .postedStorePerform .. => false
  | .loadReadAtTarget .. => false
  | .pageWalkComplete .. => false
  | .lineFillComplete .. => false
  | .atomicAtHome .. => false
  | .reductionAtHome .. => false
  | .windowAccessPerform .. => false
  | .mailboxStoreDeliver .. => false
  | .messageArrival .. => false
  | .creditRequestArrival .. => false
  | .creditGrantArrival .. => false
  | .creditReturnArrival .. => false
  | .replyArrival .. => false
  | .linkWordArrival .. => false
  | .linkCreditReturn .. => false
  | .probeSend .. => false
  | .probeArrival .. => false
  | .deadlockConfirm .. => false
  | .stealRequestArrival .. => false
  | .stealAnswerLanding .. => false
  | .launchIntake .. => false
  | .nodePlacement .. => false
  | .placementStarvation .. => false
  | .coreCompletionSignal .. => false
  | .nodeCompletion .. => false
  | .watchdogExpiry .. => false
  | .nodeFault .. => false
  | .copyDestWrite .. => false
  | .copyRecordWrite .. => false
  | .pressOpStart .. => false
  | .pressPlaneRead .. => false
  | .pressOpComplete .. => false
  | .engineTrapDelivery .. => false
  | .pgrpShareArrival .. => false
  | .pgrpShareEnd .. => false
  | .pcmdStepArrival .. => false
  | .pcmdStepEnd .. => false
  | .accEngineComplete .. => false
  | .seamForwardArrival .. => false
  | .roundIncrement .. => false
  | .ironPassComplete .. => false
  | .roundNoticeArrival .. => false
  | .viewInstall .. => false
  | .publishWriteArrival .. => false
  | .publishRoundArrival .. => false
  | .subscriptionLost .. => false
  | .barrierArrival .. => false
  | .barrierNoticeArrival .. => false
  | .gearChangeEffect .. => false
  | .restoreRequestGrant .. => false
  | .transitionWindowClose .. => false
  | .unitLimitSet .. => false
  | .autosoakDrop .. => false
  | .vent .. => false
  | .ventForceSoak .. => false
  | .marginReplan .. => false
  | .sramRailStep .. => false
  | .rowUncorrectableError .. => false
  | .lpddrThermalThreshold .. => false
  | .preempt .. => false
  | .saveCancel .. => false
  | .restore .. => false
  | .leaseExpiry .. => false
  | .leaseEnd .. => false
  | .paletteReload .. => false
  | .xlinvComplete .. => false
  | .dcfenceWriteback .. => false
  | .gatewayBlockArrival .. => false
  | .debugStop .. => false
  | .debugResume .. => false
  | .debugStep .. => false
  | .hostWindowAccess .. => false
  | .launchDoorbell .. => false
  | .windowErrorCountRead .. => false
  | .traceDropCountRead .. => false
  | .configCommit .. => false
  | .controlPageWrite .. => false
  | .partitionCreate .. => false
  | .partitionTeardown .. => false
  | .boot .. => false
  | .lifecycleTransition .. => false
  | .bleachAlarm .. => false
  | .attestationReport .. => false
  | .debugUnlock .. => false
  | .reset => false
  | .illegalInstruction => false
  | .fetchFault => false
  | .seamOwnBusyEnd .. => false
  | .freezeClear .. => false
  | .junctionCooled .. => false
  | .expanderReportsThrottling .. => false
  | .routeTableWrite .. => false

end Sys2Proof
end

