-- ==== Sys2Proof/Decode.lean ====
section
/-! DEFINITION. The decoder, total on any bytes and rejecting by name, and the encoder, both from the encoding tables of the
spec (R60 to R80). A decoded word is accepted only when the encoder gives that word back for a legal instruction, so every
field that an entry marks 0 is checked (R78). -/

namespace Sys2Proof

open Sys2Proof.Machine

/-- Bits `hi` to `lo` of a word. -/
def fld (w hi lo : Nat) : Nat := w / 2 ^ lo % 2 ^ (hi + 1 - lo)

/-- Scalar register field (R64). -/
def sReg (n : Nat) : SReg := Fin.ofNat 32 n
/-- Vector register field; the acceptance check refuses 16 to 31. -/
def vReg (n : Nat) : VReg := Fin.ofNat 16 n
/-- Mask register field. -/
def mReg (n : Nat) : MReg := Fin.ofNat 8 n
/-- Accumulator field. -/
def accReg (n : Nat) : Acc := Fin.ofNat 8 n

/-- A word from its fixed bits and its fields, each a value and the bit it starts at. -/
def pack : Nat → List (Nat × Nat) → Nat
  | b, [] => b
  | b, (v, lo) :: r => pack (b + v * 2 ^ lo) r

/-- Word of an encoded instruction as a number; events have none and give 0. -/
def encNat : Instr → Nat
  | .nop => pack 0x1 []
  | .trap code => pack 0x2 [(code.toNat, 6)]
  | .eret => pack 0x3 []
  | .halt => pack 0x4 []
  | .bkpt code => pack 0x5 [(code.toNat, 6)]
  | .ctlr d n => pack 0x8 [(d.val, 21), (n.toNat, 6)]
  | .ctlw a n => pack 0x9 [(a.val, 16), (n.toNat, 6)]
  | .fence sc k => pack 0x10 [(sc.code, 8), (k.code, 6)]
  | .dcfence a b => pack 0x11 [(a.val, 16), (b.val, 11)]
  | .xlinv a k => pack 0x12 [(a.val, 16), (k.code, 6)]
  | .dictld a lo hi => pack 0x13 [(a.val, 16), (lo.toNat, 11), (hi.toNat, 6)]
  | .ltrd d a => pack 0x18 [(d.val, 21), (a.val, 16)]
  | .stamp d => pack 0x19 [(d.val, 21)]
  | .add d a b => pack 0x4000001 [(d.val, 21), (a.val, 16), (b.val, 11)]
  | .sub d a b => pack 0x4000002 [(d.val, 21), (a.val, 16), (b.val, 11)]
  | .and_ d a b => pack 0x4000003 [(d.val, 21), (a.val, 16), (b.val, 11)]
  | .or_ d a b => pack 0x4000004 [(d.val, 21), (a.val, 16), (b.val, 11)]
  | .xor d a b => pack 0x4000005 [(d.val, 21), (a.val, 16), (b.val, 11)]
  | .shl d a b => pack 0x4000006 [(d.val, 21), (a.val, 16), (b.val, 11)]
  | .shr d a b => pack 0x4000007 [(d.val, 21), (a.val, 16), (b.val, 11)]
  | .sra d a b => pack 0x4000008 [(d.val, 21), (a.val, 16), (b.val, 11)]
  | .mul d a b => pack 0x4000010 [(d.val, 21), (a.val, 16), (b.val, 11)]
  | .mulh d a b => pack 0x4000011 [(d.val, 21), (a.val, 16), (b.val, 11)]
  | .mulhz d a b => pack 0x4000012 [(d.val, 21), (a.val, 16), (b.val, 11)]
  | .div d a b => pack 0x4000013 [(d.val, 21), (a.val, 16), (b.val, 11)]
  | .divz d a b => pack 0x4000014 [(d.val, 21), (a.val, 16), (b.val, 11)]
  | .rem d a b => pack 0x4000015 [(d.val, 21), (a.val, 16), (b.val, 11)]
  | .remz d a b => pack 0x4000016 [(d.val, 21), (a.val, 16), (b.val, 11)]
  | .min d a b => pack 0x4000018 [(d.val, 21), (a.val, 16), (b.val, 11)]
  | .max d a b => pack 0x4000019 [(d.val, 21), (a.val, 16), (b.val, 11)]
  | .minz d a b => pack 0x400001a [(d.val, 21), (a.val, 16), (b.val, 11)]
  | .maxz d a b => pack 0x400001b [(d.val, 21), (a.val, 16), (b.val, 11)]
  | .slt d a b => pack 0x4000020 [(d.val, 21), (a.val, 16), (b.val, 11)]
  | .sltz d a b => pack 0x4000021 [(d.val, 21), (a.val, 16), (b.val, 11)]
  | .seq d a b => pack 0x4000022 [(d.val, 21), (a.val, 16), (b.val, 11)]
  | .sel d a b e => pack 0x4000023 [(d.val, 21), (a.val, 16), (b.val, 11), (e.val, 6)]
  | .clz d a => pack 0x4000028 [(d.val, 21), (a.val, 16)]
  | .popc d a => pack 0x4000029 [(d.val, 21), (a.val, 16)]
  | .addi d a imm => pack 0x8000000 [(d.val, 21), (a.val, 16), (imm.toNat, 0)]
  | .andi d a imm => pack 0xc000000 [(d.val, 21), (a.val, 16), (imm.toNat, 0)]
  | .ori d a imm => pack 0x10000000 [(d.val, 21), (a.val, 16), (imm.toNat, 0)]
  | .xori d a imm => pack 0x14000000 [(d.val, 21), (a.val, 16), (imm.toNat, 0)]
  | .shi d a k n => pack 0x18000000 [(d.val, 21), (a.val, 16), (k.code, 14), (n.toNat, 0)]
  | .lui d imm => pack 0x1c000000 [(d.val, 21), (imm.toNat, 0)]
  | .slti d a imm => pack 0x20000000 [(d.val, 21), (a.val, 16), (imm.toNat, 0)]
  | .muli d a imm => pack 0x24000000 [(d.val, 21), (a.val, 16), (imm.toNat, 0)]
  | .brc c a b off => pack 0x28000000 [(c.code, 22), (a.val, 17), (b.val, 12), (off.toNat, 0)]
  | .brci c a imm off => pack 0x2c000000 [(c.code, 22), (a.val, 17), (imm.toNat, 12), (off.toNat, 0)]
  | .j off => pack 0x30000000 [(off.toNat, 0)]
  | .call off => pack 0x34000000 [(off.toNat, 0)]
  | .jr a => pack 0x38000001 [(a.val, 16)]
  | .callr d a => pack 0x38000002 [(d.val, 21), (a.val, 16)]
  | .bnr off => pack 0x3c000000 [(off.toNat, 0)]
  | .rpt count len sd sa sb sx => pack 0x40000000 [(count.toNat, 18), (len.toNat, 14), (sd.toNat, 11), (sa.toNat, 8), (sb.toNat, 5), (sx.toNat, 2)]
  | .fadd d a b => pack 0x44000001 [(d.val, 21), (a.val, 16), (b.val, 11)]
  | .fsub d a b => pack 0x44000002 [(d.val, 21), (a.val, 16), (b.val, 11)]
  | .fmul d a b => pack 0x44000003 [(d.val, 21), (a.val, 16), (b.val, 11)]
  | .ffma d a b e => pack 0x44000004 [(d.val, 21), (a.val, 16), (b.val, 11), (e.val, 6)]
  | .fdiv d a b => pack 0x44000005 [(d.val, 21), (a.val, 16), (b.val, 11)]
  | .fsqrt d a => pack 0x44000006 [(d.val, 21), (a.val, 16)]
  | .fmin d a b => pack 0x44000007 [(d.val, 21), (a.val, 16), (b.val, 11)]
  | .fmax d a b => pack 0x44000008 [(d.val, 21), (a.val, 16), (b.val, 11)]
  | .fcmp d a b c => pack 0x44000009 [(d.val, 21), (a.val, 16), (b.val, 11), (c.code, 6)]
  | .fcvt d a k => pack 0x4400000a [(d.val, 21), (a.val, 16), (k.code, 6)]
  | .fclass d a => pack 0x4400000b [(d.val, 21), (a.val, 16)]
  | .vadd d a b m t => pack 0x48000000 [(d.val, 21), (a.val, 16), (b.val, 11), (m.val, 8), (t.code, 5)]
  | .vsub d a b m t => pack 0x48000001 [(d.val, 21), (a.val, 16), (b.val, 11), (m.val, 8), (t.code, 5)]
  | .vmul d a b m t => pack 0x48000002 [(d.val, 21), (a.val, 16), (b.val, 11), (m.val, 8), (t.code, 5)]
  | .vfma d a b m t => pack 0x48000003 [(d.val, 21), (a.val, 16), (b.val, 11), (m.val, 8), (t.code, 5)]
  | .vmin d a b m t => pack 0x48000004 [(d.val, 21), (a.val, 16), (b.val, 11), (m.val, 8), (t.code, 5)]
  | .vmax d a b m t => pack 0x48000005 [(d.val, 21), (a.val, 16), (b.val, 11), (m.val, 8), (t.code, 5)]
  | .vminz d a b m t => pack 0x48000006 [(d.val, 21), (a.val, 16), (b.val, 11), (m.val, 8), (t.code, 5)]
  | .vmaxz d a b m t => pack 0x48000007 [(d.val, 21), (a.val, 16), (b.val, 11), (m.val, 8), (t.code, 5)]
  | .vabs d a m t => pack 0x48000008 [(d.val, 21), (a.val, 16), (m.val, 8), (t.code, 5)]
  | .vneg d a m t => pack 0x48000009 [(d.val, 21), (a.val, 16), (m.val, 8), (t.code, 5)]
  | .vadds d a b m t => pack 0x4800000a [(d.val, 21), (a.val, 16), (b.val, 11), (m.val, 8), (t.code, 5)]
  | .vsubs d a b m t => pack 0x4800000b [(d.val, 21), (a.val, 16), (b.val, 11), (m.val, 8), (t.code, 5)]
  | .vmulh d a b m t => pack 0x4800000c [(d.val, 21), (a.val, 16), (b.val, 11), (m.val, 8), (t.code, 5)]
  | .vand d a b m t => pack 0x4800000d [(d.val, 21), (a.val, 16), (b.val, 11), (m.val, 8), (t.code, 5)]
  | .vor d a b m t => pack 0x4800000e [(d.val, 21), (a.val, 16), (b.val, 11), (m.val, 8), (t.code, 5)]
  | .vxor d a b m t => pack 0x4800000f [(d.val, 21), (a.val, 16), (b.val, 11), (m.val, 8), (t.code, 5)]
  | .vshl d a b m t => pack 0x48000010 [(d.val, 21), (a.val, 16), (b.val, 11), (m.val, 8), (t.code, 5)]
  | .vshr d a b m t => pack 0x48000011 [(d.val, 21), (a.val, 16), (b.val, 11), (m.val, 8), (t.code, 5)]
  | .vsra d a b m t => pack 0x48000012 [(d.val, 21), (a.val, 16), (b.val, 11), (m.val, 8), (t.code, 5)]
  | .vcvt d a dt m t => pack 0x4c000000 [(d.val, 21), (a.val, 16), (dt.code, 11), (m.val, 8), (t.code, 5)]
  | .vperm d a b m t => pack 0x4c000001 [(d.val, 21), (a.val, 16), (b.val, 11), (m.val, 8), (t.code, 5)]
  | .vred d a f m t => pack 0x4c000002 [(d.val, 21), (a.val, 16), (f.code, 11), (m.val, 8), (t.code, 5)]
  | .vbcst d a m t => pack 0x4c000003 [(d.val, 21), (a.val, 16), (m.val, 8), (t.code, 5)]
  | .vmovs d a lane t => pack 0x4c000004 [(d.val, 21), (a.val, 16), (lane.toNat, 11), (t.code, 5)]
  | .vrcp d a m => pack 0x4c000065 [(d.val, 21), (a.val, 16), (m.val, 8)]
  | .vrsq d a m => pack 0x4c000066 [(d.val, 21), (a.val, 16), (m.val, 8)]
  | .vexp2 d a m => pack 0x4c000067 [(d.val, 21), (a.val, 16), (m.val, 8)]
  | .vlog2 d a m => pack 0x4c000068 [(d.val, 21), (a.val, 16), (m.val, 8)]
  | .vcmp d a b m t c => pack 0x50000000 [(d.val, 21), (a.val, 16), (b.val, 11), (m.val, 8), (t.code, 5), (c.code, 0)]
  | .mand d a b => pack 0x50000010 [(d.val, 21), (a.val, 16), (b.val, 11)]
  | .mor d a b => pack 0x50000011 [(d.val, 21), (a.val, 16), (b.val, 11)]
  | .mnot d a => pack 0x50000012 [(d.val, 21), (a.val, 16)]
  | .mcnt d a => pack 0x50000013 [(d.val, 21), (a.val, 16)]
  | .pmac x a b nr md pl => pack 0x54000000 [(x.val, 23), (a.val, 18), (b.val, 13), (nr.code, 10), (md.code, 8), (pl.toNat, 5)]
  | .pgrp x a b nr md pl => pack 0x54000001 [(x.val, 23), (a.val, 18), (b.val, 13), (nr.code, 10), (md.code, 8), (pl.toNat, 5)]
  | .pcmd x a b nr md pl => pack 0x54000002 [(x.val, 23), (a.val, 18), (b.val, 13), (nr.code, 10), (md.code, 8), (pl.toNat, 5)]
  | .accz x nr => pack 0x58000000 [(x.val, 23), (nr.code, 10)]
  | .accrd x a b nr => pack 0x58000001 [(x.val, 23), (a.val, 18), (b.val, 13), (nr.code, 10)]
  | .accwr x a b nr => pack 0x58000002 [(x.val, 23), (a.val, 18), (b.val, 13), (nr.code, 10)]
  | .accst x a fill nr dest => pack 0x58000003 [(x.val, 23), (a.val, 18), (boolCode fill, 13), (nr.code, 10), (dest.code, 5)]
  | .accld x a nr => pack 0x58000004 [(x.val, 23), (a.val, 18), (nr.code, 10)]
  | .seam x a b nr role => pack 0x58000005 [(x.val, 23), (a.val, 18), (b.val, 13), (nr.code, 10), (role.code, 8)]
  | .baddq d a b dxb4 => pack 0x5c000001 [(d.val, 21), (a.val, 16), (b.val, 11), (boolCode dxb4, 6)]
  | .dxbpk d a b dxb4 => pack 0x5c000002 [(d.val, 21), (a.val, 16), (b.val, 11), (boolCode dxb4, 6)]
  | .dxbun d a hi dxb4 => pack 0x5c000003 [(d.val, 21), (a.val, 16), (boolCode hi, 7), (boolCode dxb4, 6)]
  | .lds d a sz imm => pack 0x60000000 [(d.val, 21), (a.val, 16), (sz.code, 13), (imm.toNat, 0)]
  | .sts d a sz imm => pack 0x64000000 [(d.val, 21), (a.val, 16), (sz.code, 13), (imm.toNat, 0)]
  | .ldw d a nr sz ord off => pack 0x68000000 [(d.val, 21), (a.val, 16), (nr.code, 13), (sz.code, 10), (ord.code, 8), (off.toNat, 0)]
  | .stw d a nr sz ord off => pack 0x6c000000 [(d.val, 21), (a.val, 16), (nr.code, 13), (sz.code, 10), (ord.code, 8), (off.toNat, 0)]
  | .ldl d a nr sz ord off => pack 0x70000000 [(d.val, 21), (a.val, 16), (nr.code, 13), (sz.code, 10), (ord.code, 8), (off.toNat, 0)]
  | .stl d a nr sz ord off => pack 0x74000000 [(d.val, 21), (a.val, 16), (nr.code, 13), (sz.code, 10), (ord.code, 8), (off.toNat, 0)]
  | .ldd d a nr sz ord st off => pack 0x78000000 [(d.val, 21), (a.val, 16), (nr.code, 13), (sz.code, 10), (ord.code, 8), (st.toNat, 5), (off.toNat, 0)]
  | .std d a nr sz ord off => pack 0x7c0000e0 [(d.val, 21), (a.val, 16), (nr.code, 13), (sz.code, 10), (ord.code, 8), (off.toNat, 0)]
  | .ldf d a nr sz ord off => pack 0x80000000 [(d.val, 21), (a.val, 16), (nr.code, 13), (sz.code, 10), (ord.code, 8), (off.toNat, 0)]
  | .stf d a nr sz ord off => pack 0x84000000 [(d.val, 21), (a.val, 16), (nr.code, 13), (sz.code, 10), (ord.code, 8), (off.toNat, 0)]
  | .ldh d a nr sz ord off => pack 0x88000000 [(d.val, 21), (a.val, 16), (nr.code, 13), (sz.code, 10), (ord.code, 8), (off.toNat, 0)]
  | .sth d a nr sz ord off => pack 0x8c000000 [(d.val, 21), (a.val, 16), (nr.code, 13), (sz.code, 10), (ord.code, 8), (off.toNat, 0)]
  | .ldc d a nr sz peek off => pack 0x90000000 [(d.val, 21), (a.val, 16), (nr.code, 13), (sz.code, 10), (boolCode peek, 8), (off.toNat, 0)]
  | .stp d a nr sz off => pack 0x94000000 [(d.val, 21), (a.val, 16), (nr.code, 13), (sz.code, 10), (off.toNat, 0)]
  | .feset a nr x => pack 0x98000000 [(a.val, 16), (nr.code, 13), (x.toNat, 0)]
  | .feclr a nr x => pack 0x98000100 [(a.val, 16), (nr.code, 13), (x.toNat, 0)]
  | .fepeek d a nr x => pack 0x98000200 [(d.val, 21), (a.val, 16), (nr.code, 13), (x.toNat, 0)]
  | .amadd d a nr w b ord sys => pack 0x9c000000 [(d.val, 21), (a.val, 16), (nr.code, 13), (boolCode w, 12), (b.val, 3), (ord.code, 1), (boolCode sys, 0)]
  | .amand d a nr w b ord sys => pack 0x9c000100 [(d.val, 21), (a.val, 16), (nr.code, 13), (boolCode w, 12), (b.val, 3), (ord.code, 1), (boolCode sys, 0)]
  | .amor d a nr w b ord sys => pack 0x9c000200 [(d.val, 21), (a.val, 16), (nr.code, 13), (boolCode w, 12), (b.val, 3), (ord.code, 1), (boolCode sys, 0)]
  | .amxor d a nr w b ord sys => pack 0x9c000300 [(d.val, 21), (a.val, 16), (nr.code, 13), (boolCode w, 12), (b.val, 3), (ord.code, 1), (boolCode sys, 0)]
  | .ammin d a nr w b ord sys => pack 0x9c000400 [(d.val, 21), (a.val, 16), (nr.code, 13), (boolCode w, 12), (b.val, 3), (ord.code, 1), (boolCode sys, 0)]
  | .ammax d a nr w b ord sys => pack 0x9c000500 [(d.val, 21), (a.val, 16), (nr.code, 13), (boolCode w, 12), (b.val, 3), (ord.code, 1), (boolCode sys, 0)]
  | .amminz d a nr w b ord sys => pack 0x9c000600 [(d.val, 21), (a.val, 16), (nr.code, 13), (boolCode w, 12), (b.val, 3), (ord.code, 1), (boolCode sys, 0)]
  | .ammaxz d a nr w b ord sys => pack 0x9c000700 [(d.val, 21), (a.val, 16), (nr.code, 13), (boolCode w, 12), (b.val, 3), (ord.code, 1), (boolCode sys, 0)]
  | .amswp d a nr w b ord sys => pack 0x9c000800 [(d.val, 21), (a.val, 16), (nr.code, 13), (boolCode w, 12), (b.val, 3), (ord.code, 1), (boolCode sys, 0)]
  | .amcas d a nr w b ord sys => pack 0x9c000900 [(d.val, 21), (a.val, 16), (nr.code, 13), (boolCode w, 12), (b.val, 3), (ord.code, 1), (boolCode sys, 0)]
  | .redadd a nr w b => pack 0xa0000000 [(a.val, 16), (nr.code, 13), (boolCode w, 12), (b.val, 3)]
  | .redfadd a nr b => pack 0xa0001100 [(a.val, 16), (nr.code, 13), (b.val, 3)]
  | .redmin a nr w b => pack 0xa0000200 [(a.val, 16), (nr.code, 13), (boolCode w, 12), (b.val, 3)]
  | .redmax a nr w b => pack 0xa0000300 [(a.val, 16), (nr.code, 13), (boolCode w, 12), (b.val, 3)]
  | .redand a nr w b => pack 0xa0000400 [(a.val, 16), (nr.code, 13), (boolCode w, 12), (b.val, 3)]
  | .redor a nr w b => pack 0xa0000500 [(a.val, 16), (nr.code, 13), (boolCode w, 12), (b.val, 3)]
  | .redxor a nr w b => pack 0xa0000600 [(a.val, 16), (nr.code, 13), (boolCode w, 12), (b.val, 3)]
  | .send d a nr ch rel => pack 0xa4000000 [(d.val, 21), (a.val, 16), (nr.code, 13), (ch.toNat, 8), (boolCode rel, 0)]
  | .recv d a nr ch probe acq => pack 0xa8000000 [(d.val, 21), (a.val, 16), (nr.code, 13), (ch.toNat, 8), (boolCode probe, 1), (boolCode acq, 0)]
  | .recvReply d a nr probe acq => pack 0xa8001000 [(d.val, 21), (a.val, 16), (nr.code, 13), (boolCode probe, 1), (boolCode acq, 0)]
  | .rcall d a nr v rel ch => pack 0xac000000 [(d.val, 21), (a.val, 16), (nr.code, 13), (v.val, 4), (boolCode rel, 3), (ch.toNat, 0)]
  | .rret d a => pack 0xac000100 [(d.val, 21), (a.val, 16)]
  | .mmask a => pack 0xb0000001 [(a.val, 16)]
  | .munmask => pack 0xb0000002 []
  | .mvec => pack 0xb0000003 []
  | .qpush a nr q => pack 0xb4000000 [(a.val, 16), (nr.code, 13), (q.toNat, 8)]
  | .qpop d nr q => pack 0xb4000400 [(d.val, 21), (nr.code, 13), (q.toNat, 8)]
  | .boq a nr q => pack 0xb4000800 [(a.val, 16), (nr.code, 13), (q.toNat, 8)]
  | .brq nr q off => pack 0xb4000a00 [(nr.code, 13), (q.toNat, 8), (off.toNat, 0)]
  | .lnkp d nr dir => pack 0xb8000000 [(d.val, 21), (nr.code, 13), (dir.code, 8)]
  | .lnkpForward d nr dir => pack 0xb8000200 [(d.val, 21), (nr.code, 13), (dir.code, 8)]
  | .lnkw a nr dir => pack 0xb8000400 [(a.val, 16), (nr.code, 13), (dir.code, 8)]
  | .garr a rel => pack 0xbc000000 [(a.val, 16), (boolCode rel, 0)]
  | .garrr a b rel => pack 0xbc000100 [(a.val, 16), (b.val, 3), (boolCode rel, 0)]
  | .gwait d a nr => pack 0xbc000200 [(d.val, 21), (a.val, 16), (nr.code, 13)]
  | .mon a nr sp e => pack 0xc0000000 [(a.val, 16), (nr.code, 13), (sp.code, 2), (e.toNat, 0)]
  | .park d a => pack 0xc0000100 [(d.val, 21), (a.val, 16)]
  | .spawn a nr => pack 0xc4000000 [(a.val, 16), (nr.code, 13)]
  | .take d nr => pack 0xc4000100 [(d.val, 21), (nr.code, 13)]
  | .steal d a nr => pack 0xc4000200 [(d.val, 21), (a.val, 16), (nr.code, 13)]
  | .xpost a nr b => pack 0xc8000000 [(a.val, 16), (nr.code, 13), (b.toNat, 0)]
  | .xtake d nr b => pack 0xc8000100 [(d.val, 21), (nr.code, 13), (b.toNat, 0)]
  | .copy a nr => pack 0xcc000000 [(a.val, 16), (nr.code, 13)]
  | .gath a nr => pack 0xcc000100 [(a.val, 16), (nr.code, 13)]
  | .slice a nr => pack 0xcc000200 [(a.val, 16), (nr.code, 13)]
  | .lease d a nr => pack 0xd0000000 [(d.val, 21), (a.val, 16), (nr.code, 13)]
  | .unlease a => pack 0xd0000100 [(a.val, 16)]
  | .cwait d a nr => pack 0xd4000000 [(d.val, 21), (a.val, 16), (nr.code, 13)]
  | .cwset d a => pack 0xd4000100 [(d.val, 21), (a.val, 16)]
  | .round a nr => pack 0xd8000000 [(a.val, 16), (nr.code, 13)]
  | .rview d a acq => pack 0xd8000100 [(d.val, 21), (a.val, 16), (boolCode acq, 0)]
  | .irget a nr => pack 0xd8000200 [(a.val, 16), (nr.code, 13)]
  | .irpass a t => pack 0xd8000300 [(a.val, 16), (t.val, 0)]
  | .gear nr spin => pack 0xdc000000 [(nr.code, 13), (boolCode spin, 0)]
  | .launch d a nr => pack 0xe0000000 [(d.val, 21), (a.val, 16), (nr.code, 13)]
  | .done => pack 0xe0000100 []
  | .claimExpiry .. => 0
  | .parkTimeout .. => 0
  | .mmaskExpiry .. => 0
  | .messageInterrupt .. => 0
  | .postedStorePerform .. => 0
  | .loadReadAtTarget .. => 0
  | .pageWalkComplete .. => 0
  | .lineFillComplete .. => 0
  | .atomicAtHome .. => 0
  | .reductionAtHome .. => 0
  | .windowAccessPerform .. => 0
  | .mailboxStoreDeliver .. => 0
  | .messageArrival .. => 0
  | .creditRequestArrival .. => 0
  | .creditGrantArrival .. => 0
  | .creditReturnArrival .. => 0
  | .replyArrival .. => 0
  | .linkWordArrival .. => 0
  | .linkCreditReturn .. => 0
  | .probeSend .. => 0
  | .probeArrival .. => 0
  | .deadlockConfirm .. => 0
  | .stealRequestArrival .. => 0
  | .stealAnswerLanding .. => 0
  | .launchIntake .. => 0
  | .nodePlacement .. => 0
  | .placementStarvation .. => 0
  | .coreCompletionSignal .. => 0
  | .nodeCompletion .. => 0
  | .watchdogExpiry .. => 0
  | .nodeFault .. => 0
  | .copyDestWrite .. => 0
  | .copyRecordWrite .. => 0
  | .pressOpStart .. => 0
  | .pressPlaneRead .. => 0
  | .pressOpComplete .. => 0
  | .engineTrapDelivery .. => 0
  | .pgrpShareArrival .. => 0
  | .pgrpShareEnd .. => 0
  | .pcmdStepArrival .. => 0
  | .pcmdStepEnd .. => 0
  | .accEngineComplete .. => 0
  | .seamForwardArrival .. => 0
  | .roundIncrement .. => 0
  | .ironPassComplete .. => 0
  | .roundNoticeArrival .. => 0
  | .viewInstall .. => 0
  | .publishWriteArrival .. => 0
  | .publishRoundArrival .. => 0
  | .subscriptionLost .. => 0
  | .barrierArrival .. => 0
  | .barrierNoticeArrival .. => 0
  | .gearChangeEffect .. => 0
  | .restoreRequestGrant .. => 0
  | .transitionWindowClose .. => 0
  | .unitLimitSet .. => 0
  | .autosoakDrop .. => 0
  | .vent .. => 0
  | .ventForceSoak .. => 0
  | .marginReplan .. => 0
  | .sramRailStep .. => 0
  | .rowUncorrectableError .. => 0
  | .lpddrThermalThreshold .. => 0
  | .preempt .. => 0
  | .saveCancel .. => 0
  | .restore .. => 0
  | .leaseExpiry .. => 0
  | .leaseEnd .. => 0
  | .paletteReload .. => 0
  | .xlinvComplete .. => 0
  | .dcfenceWriteback .. => 0
  | .gatewayBlockArrival .. => 0
  | .debugStop .. => 0
  | .debugResume .. => 0
  | .debugStep .. => 0
  | .hostWindowAccess .. => 0
  | .launchDoorbell .. => 0
  | .windowErrorCountRead .. => 0
  | .traceDropCountRead .. => 0
  | .configCommit .. => 0
  | .controlPageWrite .. => 0
  | .partitionCreate .. => 0
  | .partitionTeardown .. => 0
  | .boot .. => 0
  | .lifecycleTransition .. => 0
  | .bleachAlarm .. => 0
  | .attestationReport .. => 0
  | .debugUnlock .. => 0
  | .reset => 0
  | .illegalInstruction => 0
  | .fetchFault => 0
  | .seamOwnBusyEnd .. => 0
  | .freezeClear .. => 0
  | .junctionCooled .. => 0
  | .expanderReportsThrottling .. => 0
  | .routeTableWrite .. => 0

/-- The word of a well-formed encoded instruction (R62 to R79). -/
def encode (i : Instr) : Option (BitVec 32) :=
  if i.isEncoded && i.wf then some (BitVec.ofNat 32 (encNat i)) else none

/-- Rows of major 0x0. -/
def cand00 (w : Nat) : Option Instr :=
  if fld w 4 0 = 1 then some (.nop)
  else if fld w 4 0 = 2 then some (.trap (BitVec.ofNat 5 (fld w 10 6)))
  else if fld w 4 0 = 3 then some (.eret)
  else if fld w 4 0 = 4 then some (.halt)
  else if fld w 4 0 = 5 then some (.bkpt (BitVec.ofNat 5 (fld w 10 6)))
  else if fld w 4 0 = 8 then some (.ctlr (sReg (fld w 25 21)) (BitVec.ofNat 10 (fld w 15 6)))
  else if fld w 4 0 = 9 then some (.ctlw (sReg (fld w 20 16)) (BitVec.ofNat 10 (fld w 15 6)))
  else if fld w 4 0 = 16 then (Scope.ofCode (fld w 9 8)).bind fun sc => (FenceKind.ofCode (fld w 7 6)).bind fun k => some (.fence sc k)
  else if fld w 4 0 = 17 then some (.dcfence (sReg (fld w 20 16)) (sReg (fld w 15 11)))
  else if fld w 4 0 = 18 then (InvKind.ofCode (fld w 7 6)).bind fun k => some (.xlinv (sReg (fld w 20 16)) k)
  else if fld w 4 0 = 19 then some (.dictld (sReg (fld w 20 16)) (BitVec.ofNat 5 (fld w 15 11)) (BitVec.ofNat 1 (fld w 6 6)))
  else if fld w 4 0 = 24 then some (.ltrd (sReg (fld w 25 21)) (sReg (fld w 20 16)))
  else if fld w 4 0 = 25 then some (.stamp (sReg (fld w 25 21)))
  else none

/-- Rows of major 0x1. -/
def cand01 (w : Nat) : Option Instr :=
  if fld w 5 0 = 1 then some (.add (sReg (fld w 25 21)) (sReg (fld w 20 16)) (sReg (fld w 15 11)))
  else if fld w 5 0 = 2 then some (.sub (sReg (fld w 25 21)) (sReg (fld w 20 16)) (sReg (fld w 15 11)))
  else if fld w 5 0 = 3 then some (.and_ (sReg (fld w 25 21)) (sReg (fld w 20 16)) (sReg (fld w 15 11)))
  else if fld w 5 0 = 4 then some (.or_ (sReg (fld w 25 21)) (sReg (fld w 20 16)) (sReg (fld w 15 11)))
  else if fld w 5 0 = 5 then some (.xor (sReg (fld w 25 21)) (sReg (fld w 20 16)) (sReg (fld w 15 11)))
  else if fld w 5 0 = 6 then some (.shl (sReg (fld w 25 21)) (sReg (fld w 20 16)) (sReg (fld w 15 11)))
  else if fld w 5 0 = 7 then some (.shr (sReg (fld w 25 21)) (sReg (fld w 20 16)) (sReg (fld w 15 11)))
  else if fld w 5 0 = 8 then some (.sra (sReg (fld w 25 21)) (sReg (fld w 20 16)) (sReg (fld w 15 11)))
  else if fld w 5 0 = 16 then some (.mul (sReg (fld w 25 21)) (sReg (fld w 20 16)) (sReg (fld w 15 11)))
  else if fld w 5 0 = 17 then some (.mulh (sReg (fld w 25 21)) (sReg (fld w 20 16)) (sReg (fld w 15 11)))
  else if fld w 5 0 = 18 then some (.mulhz (sReg (fld w 25 21)) (sReg (fld w 20 16)) (sReg (fld w 15 11)))
  else if fld w 5 0 = 19 then some (.div (sReg (fld w 25 21)) (sReg (fld w 20 16)) (sReg (fld w 15 11)))
  else if fld w 5 0 = 20 then some (.divz (sReg (fld w 25 21)) (sReg (fld w 20 16)) (sReg (fld w 15 11)))
  else if fld w 5 0 = 21 then some (.rem (sReg (fld w 25 21)) (sReg (fld w 20 16)) (sReg (fld w 15 11)))
  else if fld w 5 0 = 22 then some (.remz (sReg (fld w 25 21)) (sReg (fld w 20 16)) (sReg (fld w 15 11)))
  else if fld w 5 0 = 24 then some (.min (sReg (fld w 25 21)) (sReg (fld w 20 16)) (sReg (fld w 15 11)))
  else if fld w 5 0 = 25 then some (.max (sReg (fld w 25 21)) (sReg (fld w 20 16)) (sReg (fld w 15 11)))
  else if fld w 5 0 = 26 then some (.minz (sReg (fld w 25 21)) (sReg (fld w 20 16)) (sReg (fld w 15 11)))
  else if fld w 5 0 = 27 then some (.maxz (sReg (fld w 25 21)) (sReg (fld w 20 16)) (sReg (fld w 15 11)))
  else if fld w 5 0 = 32 then some (.slt (sReg (fld w 25 21)) (sReg (fld w 20 16)) (sReg (fld w 15 11)))
  else if fld w 5 0 = 33 then some (.sltz (sReg (fld w 25 21)) (sReg (fld w 20 16)) (sReg (fld w 15 11)))
  else if fld w 5 0 = 34 then some (.seq (sReg (fld w 25 21)) (sReg (fld w 20 16)) (sReg (fld w 15 11)))
  else if fld w 5 0 = 35 then some (.sel (sReg (fld w 25 21)) (sReg (fld w 20 16)) (sReg (fld w 15 11)) (sReg (fld w 10 6)))
  else if fld w 5 0 = 40 then some (.clz (sReg (fld w 25 21)) (sReg (fld w 20 16)))
  else if fld w 5 0 = 41 then some (.popc (sReg (fld w 25 21)) (sReg (fld w 20 16)))
  else none

/-- Rows of major 0x2. -/
def cand02 (w : Nat) : Option Instr :=
  some (.addi (sReg (fld w 25 21)) (sReg (fld w 20 16)) (BitVec.ofNat 16 (fld w 15 0)))

/-- Rows of major 0x3. -/
def cand03 (w : Nat) : Option Instr :=
  some (.andi (sReg (fld w 25 21)) (sReg (fld w 20 16)) (BitVec.ofNat 16 (fld w 15 0)))

/-- Rows of major 0x4. -/
def cand04 (w : Nat) : Option Instr :=
  some (.ori (sReg (fld w 25 21)) (sReg (fld w 20 16)) (BitVec.ofNat 16 (fld w 15 0)))

/-- Rows of major 0x5. -/
def cand05 (w : Nat) : Option Instr :=
  some (.xori (sReg (fld w 25 21)) (sReg (fld w 20 16)) (BitVec.ofNat 16 (fld w 15 0)))

/-- Rows of major 0x6. -/
def cand06 (w : Nat) : Option Instr :=
  (ShKind.ofCode (fld w 15 14)).bind fun k => some (.shi (sReg (fld w 25 21)) (sReg (fld w 20 16)) k (BitVec.ofNat 6 (fld w 5 0)))

/-- Rows of major 0x7. -/
def cand07 (w : Nat) : Option Instr :=
  some (.lui (sReg (fld w 25 21)) (BitVec.ofNat 21 (fld w 20 0)))

/-- Rows of major 0x8. -/
def cand08 (w : Nat) : Option Instr :=
  some (.slti (sReg (fld w 25 21)) (sReg (fld w 20 16)) (BitVec.ofNat 16 (fld w 15 0)))

/-- Rows of major 0x9. -/
def cand09 (w : Nat) : Option Instr :=
  some (.muli (sReg (fld w 25 21)) (sReg (fld w 20 16)) (BitVec.ofNat 16 (fld w 15 0)))

/-- Rows of major 0xa. -/
def cand0A (w : Nat) : Option Instr :=
  (Cond.ofCode (fld w 25 22)).bind fun c => some (.brc c (sReg (fld w 21 17)) (sReg (fld w 16 12)) (BitVec.ofNat 12 (fld w 11 0)))

/-- Rows of major 0xb. -/
def cand0B (w : Nat) : Option Instr :=
  (Cond.ofCode (fld w 25 22)).bind fun c => some (.brci c (sReg (fld w 21 17)) (BitVec.ofNat 5 (fld w 16 12)) (BitVec.ofNat 12 (fld w 11 0)))

/-- Rows of major 0xc. -/
def cand0C (w : Nat) : Option Instr :=
  some (.j (BitVec.ofNat 26 (fld w 25 0)))

/-- Rows of major 0xd. -/
def cand0D (w : Nat) : Option Instr :=
  some (.call (BitVec.ofNat 26 (fld w 25 0)))

/-- Rows of major 0xe. -/
def cand0E (w : Nat) : Option Instr :=
  if fld w 1 0 = 1 then some (.jr (sReg (fld w 20 16)))
  else if fld w 1 0 = 2 then some (.callr (sReg (fld w 25 21)) (sReg (fld w 20 16)))
  else none

/-- Rows of major 0xf. -/
def cand0F (w : Nat) : Option Instr :=
  some (.bnr (BitVec.ofNat 26 (fld w 25 0)))

/-- Rows of major 0x10. -/
def cand10 (w : Nat) : Option Instr :=
  some (.rpt (BitVec.ofNat 8 (fld w 25 18)) (BitVec.ofNat 4 (fld w 17 14)) (BitVec.ofNat 3 (fld w 13 11)) (BitVec.ofNat 3 (fld w 10 8)) (BitVec.ofNat 3 (fld w 7 5)) (BitVec.ofNat 3 (fld w 4 2)))

/-- Rows of major 0x11. -/
def cand11 (w : Nat) : Option Instr :=
  if fld w 3 0 = 1 then some (.fadd (sReg (fld w 25 21)) (sReg (fld w 20 16)) (sReg (fld w 15 11)))
  else if fld w 3 0 = 2 then some (.fsub (sReg (fld w 25 21)) (sReg (fld w 20 16)) (sReg (fld w 15 11)))
  else if fld w 3 0 = 3 then some (.fmul (sReg (fld w 25 21)) (sReg (fld w 20 16)) (sReg (fld w 15 11)))
  else if fld w 3 0 = 4 then some (.ffma (sReg (fld w 25 21)) (sReg (fld w 20 16)) (sReg (fld w 15 11)) (sReg (fld w 10 6)))
  else if fld w 3 0 = 5 then some (.fdiv (sReg (fld w 25 21)) (sReg (fld w 20 16)) (sReg (fld w 15 11)))
  else if fld w 3 0 = 6 then some (.fsqrt (sReg (fld w 25 21)) (sReg (fld w 20 16)))
  else if fld w 3 0 = 7 then some (.fmin (sReg (fld w 25 21)) (sReg (fld w 20 16)) (sReg (fld w 15 11)))
  else if fld w 3 0 = 8 then some (.fmax (sReg (fld w 25 21)) (sReg (fld w 20 16)) (sReg (fld w 15 11)))
  else if fld w 3 0 = 9 then (FCond.ofCode (fld w 8 6)).bind fun c => some (.fcmp (sReg (fld w 25 21)) (sReg (fld w 20 16)) (sReg (fld w 15 11)) c)
  else if fld w 3 0 = 10 then (CvtKind.ofCode (fld w 10 6)).bind fun k => some (.fcvt (sReg (fld w 25 21)) (sReg (fld w 20 16)) k)
  else if fld w 3 0 = 11 then some (.fclass (sReg (fld w 25 21)) (sReg (fld w 20 16)))
  else none

/-- Rows of major 0x12. -/
def cand12 (w : Nat) : Option Instr :=
  if fld w 4 0 = 0 then (LaneTy.ofCode (fld w 7 5)).bind fun t => some (.vadd (vReg (fld w 25 21)) (vReg (fld w 20 16)) (vReg (fld w 15 11)) (mReg (fld w 10 8)) t)
  else if fld w 4 0 = 1 then (LaneTy.ofCode (fld w 7 5)).bind fun t => some (.vsub (vReg (fld w 25 21)) (vReg (fld w 20 16)) (vReg (fld w 15 11)) (mReg (fld w 10 8)) t)
  else if fld w 4 0 = 2 then (LaneTy.ofCode (fld w 7 5)).bind fun t => some (.vmul (vReg (fld w 25 21)) (vReg (fld w 20 16)) (vReg (fld w 15 11)) (mReg (fld w 10 8)) t)
  else if fld w 4 0 = 3 then (LaneTy.ofCode (fld w 7 5)).bind fun t => some (.vfma (vReg (fld w 25 21)) (vReg (fld w 20 16)) (vReg (fld w 15 11)) (mReg (fld w 10 8)) t)
  else if fld w 4 0 = 4 then (LaneTy.ofCode (fld w 7 5)).bind fun t => some (.vmin (vReg (fld w 25 21)) (vReg (fld w 20 16)) (vReg (fld w 15 11)) (mReg (fld w 10 8)) t)
  else if fld w 4 0 = 5 then (LaneTy.ofCode (fld w 7 5)).bind fun t => some (.vmax (vReg (fld w 25 21)) (vReg (fld w 20 16)) (vReg (fld w 15 11)) (mReg (fld w 10 8)) t)
  else if fld w 4 0 = 6 then (LaneTy.ofCode (fld w 7 5)).bind fun t => some (.vminz (vReg (fld w 25 21)) (vReg (fld w 20 16)) (vReg (fld w 15 11)) (mReg (fld w 10 8)) t)
  else if fld w 4 0 = 7 then (LaneTy.ofCode (fld w 7 5)).bind fun t => some (.vmaxz (vReg (fld w 25 21)) (vReg (fld w 20 16)) (vReg (fld w 15 11)) (mReg (fld w 10 8)) t)
  else if fld w 4 0 = 8 then (LaneTy.ofCode (fld w 7 5)).bind fun t => some (.vabs (vReg (fld w 25 21)) (vReg (fld w 20 16)) (mReg (fld w 10 8)) t)
  else if fld w 4 0 = 9 then (LaneTy.ofCode (fld w 7 5)).bind fun t => some (.vneg (vReg (fld w 25 21)) (vReg (fld w 20 16)) (mReg (fld w 10 8)) t)
  else if fld w 4 0 = 10 then (LaneTy.ofCode (fld w 7 5)).bind fun t => some (.vadds (vReg (fld w 25 21)) (vReg (fld w 20 16)) (vReg (fld w 15 11)) (mReg (fld w 10 8)) t)
  else if fld w 4 0 = 11 then (LaneTy.ofCode (fld w 7 5)).bind fun t => some (.vsubs (vReg (fld w 25 21)) (vReg (fld w 20 16)) (vReg (fld w 15 11)) (mReg (fld w 10 8)) t)
  else if fld w 4 0 = 12 then (LaneTy.ofCode (fld w 7 5)).bind fun t => some (.vmulh (vReg (fld w 25 21)) (vReg (fld w 20 16)) (vReg (fld w 15 11)) (mReg (fld w 10 8)) t)
  else if fld w 4 0 = 13 then (LaneTy.ofCode (fld w 7 5)).bind fun t => some (.vand (vReg (fld w 25 21)) (vReg (fld w 20 16)) (vReg (fld w 15 11)) (mReg (fld w 10 8)) t)
  else if fld w 4 0 = 14 then (LaneTy.ofCode (fld w 7 5)).bind fun t => some (.vor (vReg (fld w 25 21)) (vReg (fld w 20 16)) (vReg (fld w 15 11)) (mReg (fld w 10 8)) t)
  else if fld w 4 0 = 15 then (LaneTy.ofCode (fld w 7 5)).bind fun t => some (.vxor (vReg (fld w 25 21)) (vReg (fld w 20 16)) (vReg (fld w 15 11)) (mReg (fld w 10 8)) t)
  else if fld w 4 0 = 16 then (LaneTy.ofCode (fld w 7 5)).bind fun t => some (.vshl (vReg (fld w 25 21)) (vReg (fld w 20 16)) (vReg (fld w 15 11)) (mReg (fld w 10 8)) t)
  else if fld w 4 0 = 17 then (LaneTy.ofCode (fld w 7 5)).bind fun t => some (.vshr (vReg (fld w 25 21)) (vReg (fld w 20 16)) (vReg (fld w 15 11)) (mReg (fld w 10 8)) t)
  else if fld w 4 0 = 18 then (LaneTy.ofCode (fld w 7 5)).bind fun t => some (.vsra (vReg (fld w 25 21)) (vReg (fld w 20 16)) (vReg (fld w 15 11)) (mReg (fld w 10 8)) t)
  else none

/-- Rows of major 0x13. -/
def cand13 (w : Nat) : Option Instr :=
  if fld w 3 0 = 0 then (LaneTy.ofCode (fld w 13 11)).bind fun dt => (LaneTy.ofCode (fld w 7 5)).bind fun t => some (.vcvt (vReg (fld w 25 21)) (vReg (fld w 20 16)) dt (mReg (fld w 10 8)) t)
  else if fld w 3 0 = 1 then (LaneTy.ofCode (fld w 7 5)).bind fun t => some (.vperm (vReg (fld w 25 21)) (vReg (fld w 20 16)) (vReg (fld w 15 11)) (mReg (fld w 10 8)) t)
  else if fld w 3 0 = 2 then (RedFn.ofCode (fld w 13 11)).bind fun f => (LaneTy.ofCode (fld w 7 5)).bind fun t => some (.vred (sReg (fld w 25 21)) (vReg (fld w 20 16)) f (mReg (fld w 10 8)) t)
  else if fld w 3 0 = 3 then (LaneTy.ofCode (fld w 7 5)).bind fun t => some (.vbcst (vReg (fld w 25 21)) (sReg (fld w 20 16)) (mReg (fld w 10 8)) t)
  else if fld w 3 0 = 4 then (LaneTy.ofCode (fld w 7 5)).bind fun t => some (.vmovs (sReg (fld w 25 21)) (vReg (fld w 20 16)) (BitVec.ofNat 5 (fld w 15 11)) t)
  else if fld w 3 0 = 5 then some (.vrcp (vReg (fld w 25 21)) (vReg (fld w 20 16)) (mReg (fld w 10 8)))
  else if fld w 3 0 = 6 then some (.vrsq (vReg (fld w 25 21)) (vReg (fld w 20 16)) (mReg (fld w 10 8)))
  else if fld w 3 0 = 7 then some (.vexp2 (vReg (fld w 25 21)) (vReg (fld w 20 16)) (mReg (fld w 10 8)))
  else if fld w 3 0 = 8 then some (.vlog2 (vReg (fld w 25 21)) (vReg (fld w 20 16)) (mReg (fld w 10 8)))
  else none

/-- Rows of major 0x14. -/
def cand14 (w : Nat) : Option Instr :=
  if fld w 4 3 = 0 then (LaneTy.ofCode (fld w 7 5)).bind fun t => (VCond.ofCode (fld w 2 0)).bind fun c => some (.vcmp (mReg (fld w 25 21)) (vReg (fld w 20 16)) (vReg (fld w 15 11)) (mReg (fld w 10 8)) t c)
  else if fld w 4 0 = 16 then some (.mand (mReg (fld w 25 21)) (mReg (fld w 20 16)) (mReg (fld w 15 11)))
  else if fld w 4 0 = 17 then some (.mor (mReg (fld w 25 21)) (mReg (fld w 20 16)) (mReg (fld w 15 11)))
  else if fld w 4 0 = 18 then some (.mnot (mReg (fld w 25 21)) (mReg (fld w 20 16)))
  else if fld w 4 0 = 19 then some (.mcnt (sReg (fld w 25 21)) (mReg (fld w 20 16)))
  else none

/-- Rows of major 0x15. -/
def cand15 (w : Nat) : Option Instr :=
  if fld w 1 0 = 0 then (Disp.ofCode (fld w 12 10)).bind fun nr => (PMode.ofCode (fld w 9 8)).bind fun md => some (.pmac (accReg (fld w 25 23)) (sReg (fld w 22 18)) (sReg (fld w 17 13)) nr md (BitVec.ofNat 3 (fld w 7 5)))
  else if fld w 1 0 = 1 then (Disp.ofCode (fld w 12 10)).bind fun nr => (PMode.ofCode (fld w 9 8)).bind fun md => some (.pgrp (accReg (fld w 25 23)) (sReg (fld w 22 18)) (sReg (fld w 17 13)) nr md (BitVec.ofNat 3 (fld w 7 5)))
  else if fld w 1 0 = 2 then (Disp.ofCode (fld w 12 10)).bind fun nr => (PMode.ofCode (fld w 9 8)).bind fun md => some (.pcmd (accReg (fld w 25 23)) (sReg (fld w 22 18)) (sReg (fld w 17 13)) nr md (BitVec.ofNat 3 (fld w 7 5)))
  else none

/-- Rows of major 0x16. -/
def cand16 (w : Nat) : Option Instr :=
  if fld w 2 0 = 0 then (Disp.ofCode (fld w 12 10)).bind fun nr => some (.accz (accReg (fld w 25 23)) nr)
  else if fld w 2 0 = 1 then (Disp.ofCode (fld w 12 10)).bind fun nr => some (.accrd (accReg (fld w 25 23)) (vReg (fld w 22 18)) (sReg (fld w 17 13)) nr)
  else if fld w 2 0 = 2 then (Disp.ofCode (fld w 12 10)).bind fun nr => some (.accwr (accReg (fld w 25 23)) (vReg (fld w 22 18)) (sReg (fld w 17 13)) nr)
  else if fld w 2 0 = 3 then (Disp.ofCode (fld w 12 10)).bind fun nr => (AccDest.ofCode (fld w 7 5)).bind fun dest => some (.accst (accReg (fld w 25 23)) (sReg (fld w 22 18)) (fld w 13 13 == 1) nr dest)
  else if fld w 2 0 = 4 then (Disp.ofCode (fld w 12 10)).bind fun nr => some (.accld (accReg (fld w 25 23)) (sReg (fld w 22 18)) nr)
  else if fld w 2 0 = 5 then (Disp.ofCode (fld w 12 10)).bind fun nr => (Role.ofCode (fld w 9 8)).bind fun role => some (.seam (accReg (fld w 25 23)) (sReg (fld w 22 18)) (accReg (fld w 15 13)) nr role)
  else none

/-- Rows of major 0x17. -/
def cand17 (w : Nat) : Option Instr :=
  if fld w 1 0 = 1 then some (.baddq (vReg (fld w 25 21)) (vReg (fld w 20 16)) (vReg (fld w 15 11)) (fld w 6 6 == 1))
  else if fld w 1 0 = 2 then some (.dxbpk (vReg (fld w 25 21)) (vReg (fld w 20 16)) (vReg (fld w 15 11)) (fld w 6 6 == 1))
  else if fld w 1 0 = 3 then some (.dxbun (vReg (fld w 25 21)) (vReg (fld w 20 16)) (fld w 7 7 == 1) (fld w 6 6 == 1))
  else none

/-- Rows of major 0x18. -/
def cand18 (w : Nat) : Option Instr :=
  (Size.ofCode (fld w 15 13)).bind fun sz => some (.lds (sReg (fld w 25 21)) (sReg (fld w 20 16)) sz (BitVec.ofNat 13 (fld w 12 0)))

/-- Rows of major 0x19. -/
def cand19 (w : Nat) : Option Instr :=
  (Size.ofCode (fld w 15 13)).bind fun sz => some (.sts (sReg (fld w 25 21)) (sReg (fld w 20 16)) sz (BitVec.ofNat 13 (fld w 12 0)))

/-- Rows of major 0x1a. -/
def cand1A (w : Nat) : Option Instr :=
  (Disp.ofCode (fld w 15 13)).bind fun nr => (Size.ofCode (fld w 12 10)).bind fun sz => (Ord2.ofCode (fld w 9 8)).bind fun ord => some (.ldw (sReg (fld w 25 21)) (sReg (fld w 20 16)) nr sz ord (BitVec.ofNat 8 (fld w 7 0)))

/-- Rows of major 0x1b. -/
def cand1B (w : Nat) : Option Instr :=
  (Disp.ofCode (fld w 15 13)).bind fun nr => (Size.ofCode (fld w 12 10)).bind fun sz => (Ord2.ofCode (fld w 9 8)).bind fun ord => some (.stw (sReg (fld w 25 21)) (sReg (fld w 20 16)) nr sz ord (BitVec.ofNat 8 (fld w 7 0)))

/-- Rows of major 0x1c. -/
def cand1C (w : Nat) : Option Instr :=
  (Disp.ofCode (fld w 15 13)).bind fun nr => (Size.ofCode (fld w 12 10)).bind fun sz => (Ord2.ofCode (fld w 9 8)).bind fun ord => some (.ldl (sReg (fld w 25 21)) (sReg (fld w 20 16)) nr sz ord (BitVec.ofNat 8 (fld w 7 0)))

/-- Rows of major 0x1d. -/
def cand1D (w : Nat) : Option Instr :=
  (Disp.ofCode (fld w 15 13)).bind fun nr => (Size.ofCode (fld w 12 10)).bind fun sz => (Ord2.ofCode (fld w 9 8)).bind fun ord => some (.stl (sReg (fld w 25 21)) (sReg (fld w 20 16)) nr sz ord (BitVec.ofNat 8 (fld w 7 0)))

/-- Rows of major 0x1e. -/
def cand1E (w : Nat) : Option Instr :=
  (Disp.ofCode (fld w 15 13)).bind fun nr => (Size.ofCode (fld w 12 10)).bind fun sz => (Ord2.ofCode (fld w 9 8)).bind fun ord => some (.ldd (sReg (fld w 25 21)) (sReg (fld w 20 16)) nr sz ord (BitVec.ofNat 3 (fld w 7 5)) (BitVec.ofNat 5 (fld w 4 0)))

/-- Rows of major 0x1f. -/
def cand1F (w : Nat) : Option Instr :=
  (Disp.ofCode (fld w 15 13)).bind fun nr => (Size.ofCode (fld w 12 10)).bind fun sz => (Ord2.ofCode (fld w 9 8)).bind fun ord => some (.std (sReg (fld w 25 21)) (sReg (fld w 20 16)) nr sz ord (BitVec.ofNat 5 (fld w 4 0)))

/-- Rows of major 0x20. -/
def cand20 (w : Nat) : Option Instr :=
  (Disp.ofCode (fld w 15 13)).bind fun nr => (Size.ofCode (fld w 12 10)).bind fun sz => (Ord2.ofCode (fld w 9 8)).bind fun ord => some (.ldf (sReg (fld w 25 21)) (sReg (fld w 20 16)) nr sz ord (BitVec.ofNat 8 (fld w 7 0)))

/-- Rows of major 0x21. -/
def cand21 (w : Nat) : Option Instr :=
  (Disp.ofCode (fld w 15 13)).bind fun nr => (Size.ofCode (fld w 12 10)).bind fun sz => (Ord2.ofCode (fld w 9 8)).bind fun ord => some (.stf (sReg (fld w 25 21)) (sReg (fld w 20 16)) nr sz ord (BitVec.ofNat 8 (fld w 7 0)))

/-- Rows of major 0x22. -/
def cand22 (w : Nat) : Option Instr :=
  (Disp.ofCode (fld w 15 13)).bind fun nr => (Size.ofCode (fld w 12 10)).bind fun sz => (Ord2.ofCode (fld w 9 8)).bind fun ord => some (.ldh (sReg (fld w 25 21)) (sReg (fld w 20 16)) nr sz ord (BitVec.ofNat 8 (fld w 7 0)))

/-- Rows of major 0x23. -/
def cand23 (w : Nat) : Option Instr :=
  (Disp.ofCode (fld w 15 13)).bind fun nr => (Size.ofCode (fld w 12 10)).bind fun sz => (Ord2.ofCode (fld w 9 8)).bind fun ord => some (.sth (sReg (fld w 25 21)) (sReg (fld w 20 16)) nr sz ord (BitVec.ofNat 8 (fld w 7 0)))

/-- Rows of major 0x24. -/
def cand24 (w : Nat) : Option Instr :=
  (Disp.ofCode (fld w 15 13)).bind fun nr => (Size.ofCode (fld w 12 10)).bind fun sz => some (.ldc (sReg (fld w 25 21)) (sReg (fld w 20 16)) nr sz (fld w 8 8 == 1) (BitVec.ofNat 8 (fld w 7 0)))

/-- Rows of major 0x25. -/
def cand25 (w : Nat) : Option Instr :=
  (Disp.ofCode (fld w 15 13)).bind fun nr => (Size.ofCode (fld w 12 10)).bind fun sz => some (.stp (sReg (fld w 25 21)) (sReg (fld w 20 16)) nr sz (BitVec.ofNat 8 (fld w 7 0)))

/-- Rows of major 0x26. -/
def cand26 (w : Nat) : Option Instr :=
  if fld w 9 8 = 0 then (Disp.ofCode (fld w 15 13)).bind fun nr => some (.feset (sReg (fld w 20 16)) nr (BitVec.ofNat 8 (fld w 7 0)))
  else if fld w 9 8 = 1 then (Disp.ofCode (fld w 15 13)).bind fun nr => some (.feclr (sReg (fld w 20 16)) nr (BitVec.ofNat 8 (fld w 7 0)))
  else if fld w 9 8 = 2 then (Disp.ofCode (fld w 15 13)).bind fun nr => some (.fepeek (sReg (fld w 25 21)) (sReg (fld w 20 16)) nr (BitVec.ofNat 8 (fld w 7 0)))
  else none

/-- Rows of major 0x27. -/
def cand27 (w : Nat) : Option Instr :=
  if fld w 11 8 = 0 then (Disp.ofCode (fld w 15 13)).bind fun nr => (AmOrd.ofCode (fld w 2 1)).bind fun ord => some (.amadd (sReg (fld w 25 21)) (sReg (fld w 20 16)) nr (fld w 12 12 == 1) (sReg (fld w 7 3)) ord (fld w 0 0 == 1))
  else if fld w 11 8 = 1 then (Disp.ofCode (fld w 15 13)).bind fun nr => (AmOrd.ofCode (fld w 2 1)).bind fun ord => some (.amand (sReg (fld w 25 21)) (sReg (fld w 20 16)) nr (fld w 12 12 == 1) (sReg (fld w 7 3)) ord (fld w 0 0 == 1))
  else if fld w 11 8 = 2 then (Disp.ofCode (fld w 15 13)).bind fun nr => (AmOrd.ofCode (fld w 2 1)).bind fun ord => some (.amor (sReg (fld w 25 21)) (sReg (fld w 20 16)) nr (fld w 12 12 == 1) (sReg (fld w 7 3)) ord (fld w 0 0 == 1))
  else if fld w 11 8 = 3 then (Disp.ofCode (fld w 15 13)).bind fun nr => (AmOrd.ofCode (fld w 2 1)).bind fun ord => some (.amxor (sReg (fld w 25 21)) (sReg (fld w 20 16)) nr (fld w 12 12 == 1) (sReg (fld w 7 3)) ord (fld w 0 0 == 1))
  else if fld w 11 8 = 4 then (Disp.ofCode (fld w 15 13)).bind fun nr => (AmOrd.ofCode (fld w 2 1)).bind fun ord => some (.ammin (sReg (fld w 25 21)) (sReg (fld w 20 16)) nr (fld w 12 12 == 1) (sReg (fld w 7 3)) ord (fld w 0 0 == 1))
  else if fld w 11 8 = 5 then (Disp.ofCode (fld w 15 13)).bind fun nr => (AmOrd.ofCode (fld w 2 1)).bind fun ord => some (.ammax (sReg (fld w 25 21)) (sReg (fld w 20 16)) nr (fld w 12 12 == 1) (sReg (fld w 7 3)) ord (fld w 0 0 == 1))
  else if fld w 11 8 = 6 then (Disp.ofCode (fld w 15 13)).bind fun nr => (AmOrd.ofCode (fld w 2 1)).bind fun ord => some (.amminz (sReg (fld w 25 21)) (sReg (fld w 20 16)) nr (fld w 12 12 == 1) (sReg (fld w 7 3)) ord (fld w 0 0 == 1))
  else if fld w 11 8 = 7 then (Disp.ofCode (fld w 15 13)).bind fun nr => (AmOrd.ofCode (fld w 2 1)).bind fun ord => some (.ammaxz (sReg (fld w 25 21)) (sReg (fld w 20 16)) nr (fld w 12 12 == 1) (sReg (fld w 7 3)) ord (fld w 0 0 == 1))
  else if fld w 11 8 = 8 then (Disp.ofCode (fld w 15 13)).bind fun nr => (AmOrd.ofCode (fld w 2 1)).bind fun ord => some (.amswp (sReg (fld w 25 21)) (sReg (fld w 20 16)) nr (fld w 12 12 == 1) (sReg (fld w 7 3)) ord (fld w 0 0 == 1))
  else if fld w 11 8 = 9 then (Disp.ofCode (fld w 15 13)).bind fun nr => (AmOrd.ofCode (fld w 2 1)).bind fun ord => some (.amcas (sReg (fld w 25 21)) (sReg (fld w 20 16)) nr (fld w 12 12 == 1) (sReg (fld w 7 3)) ord (fld w 0 0 == 1))
  else none

/-- Rows of major 0x28. -/
def cand28 (w : Nat) : Option Instr :=
  if fld w 10 8 = 0 then (Disp.ofCode (fld w 15 13)).bind fun nr => some (.redadd (sReg (fld w 20 16)) nr (fld w 12 12 == 1) (sReg (fld w 7 3)))
  else if fld w 10 8 = 1 then (Disp.ofCode (fld w 15 13)).bind fun nr => some (.redfadd (sReg (fld w 20 16)) nr (sReg (fld w 7 3)))
  else if fld w 10 8 = 2 then (Disp.ofCode (fld w 15 13)).bind fun nr => some (.redmin (sReg (fld w 20 16)) nr (fld w 12 12 == 1) (sReg (fld w 7 3)))
  else if fld w 10 8 = 3 then (Disp.ofCode (fld w 15 13)).bind fun nr => some (.redmax (sReg (fld w 20 16)) nr (fld w 12 12 == 1) (sReg (fld w 7 3)))
  else if fld w 10 8 = 4 then (Disp.ofCode (fld w 15 13)).bind fun nr => some (.redand (sReg (fld w 20 16)) nr (fld w 12 12 == 1) (sReg (fld w 7 3)))
  else if fld w 10 8 = 5 then (Disp.ofCode (fld w 15 13)).bind fun nr => some (.redor (sReg (fld w 20 16)) nr (fld w 12 12 == 1) (sReg (fld w 7 3)))
  else if fld w 10 8 = 6 then (Disp.ofCode (fld w 15 13)).bind fun nr => some (.redxor (sReg (fld w 20 16)) nr (fld w 12 12 == 1) (sReg (fld w 7 3)))
  else none

/-- Rows of major 0x29. -/
def cand29 (w : Nat) : Option Instr :=
  (Disp.ofCode (fld w 15 13)).bind fun nr => some (.send (vReg (fld w 25 21)) (sReg (fld w 20 16)) nr (BitVec.ofNat 3 (fld w 10 8)) (fld w 0 0 == 1))

/-- Rows of major 0x2a. -/
def cand2A (w : Nat) : Option Instr :=
  if fld w 12 12 = 0 then (Disp.ofCode (fld w 15 13)).bind fun nr => some (.recv (vReg (fld w 25 21)) (sReg (fld w 20 16)) nr (BitVec.ofNat 3 (fld w 10 8)) (fld w 1 1 == 1) (fld w 0 0 == 1))
  else if fld w 12 12 = 1 then (Disp.ofCode (fld w 15 13)).bind fun nr => some (.recvReply (vReg (fld w 25 21)) (sReg (fld w 20 16)) nr (fld w 1 1 == 1) (fld w 0 0 == 1))
  else none

/-- Rows of major 0x2b. -/
def cand2B (w : Nat) : Option Instr :=
  if fld w 8 8 = 0 then (Disp.ofCode (fld w 15 13)).bind fun nr => some (.rcall (sReg (fld w 25 21)) (sReg (fld w 20 16)) nr (vReg (fld w 7 4)) (fld w 3 3 == 1) (BitVec.ofNat 3 (fld w 2 0)))
  else if fld w 8 8 = 1 then some (.rret (vReg (fld w 25 21)) (sReg (fld w 20 16)))
  else none

/-- Rows of major 0x2c. -/
def cand2C (w : Nat) : Option Instr :=
  if fld w 1 0 = 1 then some (.mmask (sReg (fld w 20 16)))
  else if fld w 1 0 = 2 then some (.munmask)
  else if fld w 1 0 = 3 then some (.mvec)
  else none

/-- Rows of major 0x2d. -/
def cand2D (w : Nat) : Option Instr :=
  if fld w 11 10 = 0 then (Disp.ofCode (fld w 15 13)).bind fun nr => some (.qpush (vReg (fld w 20 16)) nr (BitVec.ofNat 2 (fld w 9 8)))
  else if fld w 11 10 = 1 then (Disp.ofCode (fld w 15 13)).bind fun nr => some (.qpop (vReg (fld w 25 21)) nr (BitVec.ofNat 2 (fld w 9 8)))
  else if fld w 11 9 = 4 then (Disp.ofCode (fld w 15 13)).bind fun nr => some (.boq (sReg (fld w 20 16)) nr (BitVec.ofNat 1 (fld w 8 8)))
  else if fld w 11 9 = 5 then (Disp.ofCode (fld w 15 13)).bind fun nr => some (.brq nr (BitVec.ofNat 1 (fld w 8 8)) (BitVec.ofNat 8 (fld w 7 0)))
  else none

/-- Rows of major 0x2e. -/
def cand2E (w : Nat) : Option Instr :=
  if fld w 10 9 = 0 then (Disp.ofCode (fld w 15 13)).bind fun nr => (Dir.ofCode (fld w 8 8)).bind fun dir => some (.lnkp (vReg (fld w 25 21)) nr dir)
  else if fld w 10 9 = 1 then (Disp.ofCode (fld w 15 13)).bind fun nr => (Dir.ofCode (fld w 8 8)).bind fun dir => some (.lnkpForward (vReg (fld w 25 21)) nr dir)
  else if fld w 10 9 = 2 then (Disp.ofCode (fld w 15 13)).bind fun nr => (Dir.ofCode (fld w 8 8)).bind fun dir => some (.lnkw (vReg (fld w 20 16)) nr dir)
  else none

/-- Rows of major 0x2f. -/
def cand2F (w : Nat) : Option Instr :=
  if fld w 9 8 = 0 then some (.garr (sReg (fld w 20 16)) (fld w 0 0 == 1))
  else if fld w 9 8 = 1 then some (.garrr (sReg (fld w 20 16)) (sReg (fld w 7 3)) (fld w 0 0 == 1))
  else if fld w 9 8 = 2 then (Disp.ofCode (fld w 15 13)).bind fun nr => some (.gwait (sReg (fld w 25 21)) (sReg (fld w 20 16)) nr)
  else none

/-- Rows of major 0x30. -/
def cand30 (w : Nat) : Option Instr :=
  if fld w 8 8 = 0 then (Disp.ofCode (fld w 15 13)).bind fun nr => (MonSpace.ofCode (fld w 3 2)).bind fun sp => some (.mon (sReg (fld w 20 16)) nr sp (BitVec.ofNat 2 (fld w 1 0)))
  else if fld w 8 8 = 1 then some (.park (sReg (fld w 25 21)) (sReg (fld w 20 16)))
  else none

/-- Rows of major 0x31. -/
def cand31 (w : Nat) : Option Instr :=
  if fld w 9 8 = 0 then (Disp.ofCode (fld w 15 13)).bind fun nr => some (.spawn (vReg (fld w 20 16)) nr)
  else if fld w 9 8 = 1 then (Disp.ofCode (fld w 15 13)).bind fun nr => some (.take (vReg (fld w 25 21)) nr)
  else if fld w 9 8 = 2 then (Disp.ofCode (fld w 15 13)).bind fun nr => some (.steal (sReg (fld w 25 21)) (sReg (fld w 20 16)) nr)
  else none

/-- Rows of major 0x32. -/
def cand32 (w : Nat) : Option Instr :=
  if fld w 8 8 = 0 then (Disp.ofCode (fld w 15 13)).bind fun nr => some (.xpost (vReg (fld w 20 16)) nr (BitVec.ofNat 2 (fld w 1 0)))
  else if fld w 8 8 = 1 then (Disp.ofCode (fld w 15 13)).bind fun nr => some (.xtake (vReg (fld w 25 21)) nr (BitVec.ofNat 2 (fld w 1 0)))
  else none

/-- Rows of major 0x33. -/
def cand33 (w : Nat) : Option Instr :=
  if fld w 9 8 = 0 then (Disp.ofCode (fld w 15 13)).bind fun nr => some (.copy (vReg (fld w 20 16)) nr)
  else if fld w 9 8 = 1 then (Disp.ofCode (fld w 15 13)).bind fun nr => some (.gath (vReg (fld w 20 16)) nr)
  else if fld w 9 8 = 2 then (Disp.ofCode (fld w 15 13)).bind fun nr => some (.slice (vReg (fld w 20 16)) nr)
  else none

/-- Rows of major 0x34. -/
def cand34 (w : Nat) : Option Instr :=
  if fld w 8 8 = 0 then (Disp.ofCode (fld w 15 13)).bind fun nr => some (.lease (sReg (fld w 25 21)) (sReg (fld w 20 16)) nr)
  else if fld w 8 8 = 1 then some (.unlease (sReg (fld w 20 16)))
  else none

/-- Rows of major 0x35. -/
def cand35 (w : Nat) : Option Instr :=
  if fld w 8 8 = 0 then (Disp.ofCode (fld w 15 13)).bind fun nr => some (.cwait (sReg (fld w 25 21)) (sReg (fld w 20 16)) nr)
  else if fld w 8 8 = 1 then some (.cwset (sReg (fld w 25 21)) (sReg (fld w 20 16)))
  else none

/-- Rows of major 0x36. -/
def cand36 (w : Nat) : Option Instr :=
  if fld w 9 8 = 0 then (Disp.ofCode (fld w 15 13)).bind fun nr => some (.round (sReg (fld w 20 16)) nr)
  else if fld w 9 8 = 1 then some (.rview (sReg (fld w 25 21)) (sReg (fld w 20 16)) (fld w 0 0 == 1))
  else if fld w 9 8 = 2 then (Disp.ofCode (fld w 15 13)).bind fun nr => some (.irget (sReg (fld w 20 16)) nr)
  else if fld w 9 8 = 3 then some (.irpass (sReg (fld w 20 16)) (sReg (fld w 4 0)))
  else none

/-- Rows of major 0x37. -/
def cand37 (w : Nat) : Option Instr :=
  (Disp.ofCode (fld w 15 13)).bind fun nr => some (.gear nr (fld w 0 0 == 1))

/-- Rows of major 0x38. -/
def cand38 (w : Nat) : Option Instr :=
  if fld w 8 8 = 0 then (Disp.ofCode (fld w 15 13)).bind fun nr => some (.launch (sReg (fld w 25 21)) (sReg (fld w 20 16)) nr)
  else if fld w 8 8 = 1 then some (.done)
  else none

/-- The row a word belongs to by its opcode and function fields, with the fields read out. -/
def candidate (w : Nat) : Option Instr :=
  match w / 2 ^ 26 with
  | 0 => cand00 w
  | 1 => cand01 w
  | 2 => cand02 w
  | 3 => cand03 w
  | 4 => cand04 w
  | 5 => cand05 w
  | 6 => cand06 w
  | 7 => cand07 w
  | 8 => cand08 w
  | 9 => cand09 w
  | 10 => cand0A w
  | 11 => cand0B w
  | 12 => cand0C w
  | 13 => cand0D w
  | 14 => cand0E w
  | 15 => cand0F w
  | 16 => cand10 w
  | 17 => cand11 w
  | 18 => cand12 w
  | 19 => cand13 w
  | 20 => cand14 w
  | 21 => cand15 w
  | 22 => cand16 w
  | 23 => cand17 w
  | 24 => cand18 w
  | 25 => cand19 w
  | 26 => cand1A w
  | 27 => cand1B w
  | 28 => cand1C w
  | 29 => cand1D w
  | 30 => cand1E w
  | 31 => cand1F w
  | 32 => cand20 w
  | 33 => cand21 w
  | 34 => cand22 w
  | 35 => cand23 w
  | 36 => cand24 w
  | 37 => cand25 w
  | 38 => cand26 w
  | 39 => cand27 w
  | 40 => cand28 w
  | 41 => cand29 w
  | 42 => cand2A w
  | 43 => cand2B w
  | 44 => cand2C w
  | 45 => cand2D w
  | 46 => cand2E w
  | 47 => cand2F w
  | 48 => cand30 w
  | 49 => cand31 w
  | 50 => cand32 w
  | 51 => cand33 w
  | 52 => cand34 w
  | 53 => cand35 w
  | 54 => cand36 w
  | 55 => cand37 w
  | 56 => cand38 w
  | _ => none

/-- Why bytes are no instruction. -/
inductive Reject where
  /-- Fewer than four bytes. -/
  | tooShort
  /-- No row of the opcode map has the word's major opcode and function (R78, cases 1 and 2). -/
  | unassigned
  /-- A reserved field is not zero, a register does not exist, or the combination is illegal (R78, cases 3 to 6). -/
  | illegalField
deriving DecidableEq, Repr

/-- Decode a word. -/
def decodeWord (w : BitVec 32) : Except Reject Instr :=
  match candidate w.toNat with
  | none => .error .unassigned
  | some i => if i.wf && encNat i == w.toNat then .ok i else .error .illegalField

/-- Decode the instruction at the head of a byte list, little-endian (R60). -/
def decodeBytes : List Byte → Except Reject (Instr × List Byte)
  | b0 :: b1 :: b2 :: b3 :: rest =>
    (decodeWord (b3 ++ b2 ++ b1 ++ b0)).map (fun i => (i, rest))
  | _ => .error .tooShort

/-- The instruction, if the word is one. -/
def decode (w : BitVec 32) : Option Instr := (decodeWord w).toOption

/-- The decoder's reading of an instruction given as the opcode table numbers its bits: one 32-bit word, stored with its
lowest byte first. -/
def decodeTableWord (nbits w : Nat) : Option Instr :=
  if nbits ≤ 32 ∧ w < 2 ^ 32 then
    match decodeBytes [BitVec.ofNat 8 w, BitVec.ofNat 8 (w / 2 ^ 8), BitVec.ofNat 8 (w / 2 ^ 16), BitVec.ofNat 8 (w / 2 ^ 24)] with
    | .ok (i, _) => some i
    | .error _ => none
  else none

end Sys2Proof
end

