-- ==== Sys2Proof/Machine/Frames.lean ====
section
/-! DEFINITION. Repeat-frame members: which instructions may stand in a frame, and a member's fields rewritten for a replay
(R198, R199). -/

namespace Sys2Proof.Machine

/-- A register number moved on by `k`, within its own file (R198). -/
def stepReg {n : Nat} [NeZero n] (r : Fin n) (k : Nat) : Fin n := r + Fin.ofNat n k

/-- Whether an instruction may be a member: majors 0x01 to 0x09, 0x11 to 0x14, PMAC, ACCZ, ACCRD and ACCWR, those of format
P with `nr` = park (R199). -/
def frameMember (i : Instr) : Bool :=
  let op := encNat i / 2 ^ 26
  match i with
  | .pmac _ _ _ nr _ _ => nr == .park
  | .accz _ nr => nr == .park
  | .accrd _ _ _ nr => nr == .park
  | .accwr _ _ _ nr => nr == .park
  | _ => decide (1 ≤ op ∧ op ≤ 9) || decide (0x11 ≤ op ∧ op ≤ 0x14)

/-- The member's fields in replay `fr.rep`: every register the member names in d, a, b or acc moves by its stride. -/
def rewriteMember (fr : Frame) (i : Instr) : Instr :=
  match i with
  | .add d a b => .add (stepReg d (fr.rep * fr.sd)) (stepReg a (fr.rep * fr.sa)) (stepReg b (fr.rep * fr.sb))
  | .sub d a b => .sub (stepReg d (fr.rep * fr.sd)) (stepReg a (fr.rep * fr.sa)) (stepReg b (fr.rep * fr.sb))
  | .and_ d a b => .and_ (stepReg d (fr.rep * fr.sd)) (stepReg a (fr.rep * fr.sa)) (stepReg b (fr.rep * fr.sb))
  | .or_ d a b => .or_ (stepReg d (fr.rep * fr.sd)) (stepReg a (fr.rep * fr.sa)) (stepReg b (fr.rep * fr.sb))
  | .xor d a b => .xor (stepReg d (fr.rep * fr.sd)) (stepReg a (fr.rep * fr.sa)) (stepReg b (fr.rep * fr.sb))
  | .shl d a b => .shl (stepReg d (fr.rep * fr.sd)) (stepReg a (fr.rep * fr.sa)) (stepReg b (fr.rep * fr.sb))
  | .shr d a b => .shr (stepReg d (fr.rep * fr.sd)) (stepReg a (fr.rep * fr.sa)) (stepReg b (fr.rep * fr.sb))
  | .sra d a b => .sra (stepReg d (fr.rep * fr.sd)) (stepReg a (fr.rep * fr.sa)) (stepReg b (fr.rep * fr.sb))
  | .mul d a b => .mul (stepReg d (fr.rep * fr.sd)) (stepReg a (fr.rep * fr.sa)) (stepReg b (fr.rep * fr.sb))
  | .mulh d a b => .mulh (stepReg d (fr.rep * fr.sd)) (stepReg a (fr.rep * fr.sa)) (stepReg b (fr.rep * fr.sb))
  | .mulhz d a b => .mulhz (stepReg d (fr.rep * fr.sd)) (stepReg a (fr.rep * fr.sa)) (stepReg b (fr.rep * fr.sb))
  | .div d a b => .div (stepReg d (fr.rep * fr.sd)) (stepReg a (fr.rep * fr.sa)) (stepReg b (fr.rep * fr.sb))
  | .divz d a b => .divz (stepReg d (fr.rep * fr.sd)) (stepReg a (fr.rep * fr.sa)) (stepReg b (fr.rep * fr.sb))
  | .rem d a b => .rem (stepReg d (fr.rep * fr.sd)) (stepReg a (fr.rep * fr.sa)) (stepReg b (fr.rep * fr.sb))
  | .remz d a b => .remz (stepReg d (fr.rep * fr.sd)) (stepReg a (fr.rep * fr.sa)) (stepReg b (fr.rep * fr.sb))
  | .min d a b => .min (stepReg d (fr.rep * fr.sd)) (stepReg a (fr.rep * fr.sa)) (stepReg b (fr.rep * fr.sb))
  | .max d a b => .max (stepReg d (fr.rep * fr.sd)) (stepReg a (fr.rep * fr.sa)) (stepReg b (fr.rep * fr.sb))
  | .minz d a b => .minz (stepReg d (fr.rep * fr.sd)) (stepReg a (fr.rep * fr.sa)) (stepReg b (fr.rep * fr.sb))
  | .maxz d a b => .maxz (stepReg d (fr.rep * fr.sd)) (stepReg a (fr.rep * fr.sa)) (stepReg b (fr.rep * fr.sb))
  | .slt d a b => .slt (stepReg d (fr.rep * fr.sd)) (stepReg a (fr.rep * fr.sa)) (stepReg b (fr.rep * fr.sb))
  | .sltz d a b => .sltz (stepReg d (fr.rep * fr.sd)) (stepReg a (fr.rep * fr.sa)) (stepReg b (fr.rep * fr.sb))
  | .seq d a b => .seq (stepReg d (fr.rep * fr.sd)) (stepReg a (fr.rep * fr.sa)) (stepReg b (fr.rep * fr.sb))
  | .sel d a b e => .sel (stepReg d (fr.rep * fr.sd)) (stepReg a (fr.rep * fr.sa)) (stepReg b (fr.rep * fr.sb)) e
  | .clz d a => .clz (stepReg d (fr.rep * fr.sd)) (stepReg a (fr.rep * fr.sa))
  | .popc d a => .popc (stepReg d (fr.rep * fr.sd)) (stepReg a (fr.rep * fr.sa))
  | .addi d a imm => .addi (stepReg d (fr.rep * fr.sd)) (stepReg a (fr.rep * fr.sa)) imm
  | .andi d a imm => .andi (stepReg d (fr.rep * fr.sd)) (stepReg a (fr.rep * fr.sa)) imm
  | .ori d a imm => .ori (stepReg d (fr.rep * fr.sd)) (stepReg a (fr.rep * fr.sa)) imm
  | .xori d a imm => .xori (stepReg d (fr.rep * fr.sd)) (stepReg a (fr.rep * fr.sa)) imm
  | .shi d a k n => .shi (stepReg d (fr.rep * fr.sd)) (stepReg a (fr.rep * fr.sa)) k n
  | .lui d imm => .lui (stepReg d (fr.rep * fr.sd)) imm
  | .slti d a imm => .slti (stepReg d (fr.rep * fr.sd)) (stepReg a (fr.rep * fr.sa)) imm
  | .muli d a imm => .muli (stepReg d (fr.rep * fr.sd)) (stepReg a (fr.rep * fr.sa)) imm
  | .fadd d a b => .fadd (stepReg d (fr.rep * fr.sd)) (stepReg a (fr.rep * fr.sa)) (stepReg b (fr.rep * fr.sb))
  | .fsub d a b => .fsub (stepReg d (fr.rep * fr.sd)) (stepReg a (fr.rep * fr.sa)) (stepReg b (fr.rep * fr.sb))
  | .fmul d a b => .fmul (stepReg d (fr.rep * fr.sd)) (stepReg a (fr.rep * fr.sa)) (stepReg b (fr.rep * fr.sb))
  | .ffma d a b e => .ffma (stepReg d (fr.rep * fr.sd)) (stepReg a (fr.rep * fr.sa)) (stepReg b (fr.rep * fr.sb)) e
  | .fdiv d a b => .fdiv (stepReg d (fr.rep * fr.sd)) (stepReg a (fr.rep * fr.sa)) (stepReg b (fr.rep * fr.sb))
  | .fsqrt d a => .fsqrt (stepReg d (fr.rep * fr.sd)) (stepReg a (fr.rep * fr.sa))
  | .fmin d a b => .fmin (stepReg d (fr.rep * fr.sd)) (stepReg a (fr.rep * fr.sa)) (stepReg b (fr.rep * fr.sb))
  | .fmax d a b => .fmax (stepReg d (fr.rep * fr.sd)) (stepReg a (fr.rep * fr.sa)) (stepReg b (fr.rep * fr.sb))
  | .fcmp d a b c => .fcmp (stepReg d (fr.rep * fr.sd)) (stepReg a (fr.rep * fr.sa)) (stepReg b (fr.rep * fr.sb)) c
  | .fcvt d a k => .fcvt (stepReg d (fr.rep * fr.sd)) (stepReg a (fr.rep * fr.sa)) k
  | .fclass d a => .fclass (stepReg d (fr.rep * fr.sd)) (stepReg a (fr.rep * fr.sa))
  | .vadd d a b m t => .vadd (stepReg d (fr.rep * fr.sd)) (stepReg a (fr.rep * fr.sa)) (stepReg b (fr.rep * fr.sb)) m t
  | .vsub d a b m t => .vsub (stepReg d (fr.rep * fr.sd)) (stepReg a (fr.rep * fr.sa)) (stepReg b (fr.rep * fr.sb)) m t
  | .vmul d a b m t => .vmul (stepReg d (fr.rep * fr.sd)) (stepReg a (fr.rep * fr.sa)) (stepReg b (fr.rep * fr.sb)) m t
  | .vfma d a b m t => .vfma (stepReg d (fr.rep * fr.sd)) (stepReg a (fr.rep * fr.sa)) (stepReg b (fr.rep * fr.sb)) m t
  | .vmin d a b m t => .vmin (stepReg d (fr.rep * fr.sd)) (stepReg a (fr.rep * fr.sa)) (stepReg b (fr.rep * fr.sb)) m t
  | .vmax d a b m t => .vmax (stepReg d (fr.rep * fr.sd)) (stepReg a (fr.rep * fr.sa)) (stepReg b (fr.rep * fr.sb)) m t
  | .vminz d a b m t => .vminz (stepReg d (fr.rep * fr.sd)) (stepReg a (fr.rep * fr.sa)) (stepReg b (fr.rep * fr.sb)) m t
  | .vmaxz d a b m t => .vmaxz (stepReg d (fr.rep * fr.sd)) (stepReg a (fr.rep * fr.sa)) (stepReg b (fr.rep * fr.sb)) m t
  | .vabs d a m t => .vabs (stepReg d (fr.rep * fr.sd)) (stepReg a (fr.rep * fr.sa)) m t
  | .vneg d a m t => .vneg (stepReg d (fr.rep * fr.sd)) (stepReg a (fr.rep * fr.sa)) m t
  | .vadds d a b m t => .vadds (stepReg d (fr.rep * fr.sd)) (stepReg a (fr.rep * fr.sa)) (stepReg b (fr.rep * fr.sb)) m t
  | .vsubs d a b m t => .vsubs (stepReg d (fr.rep * fr.sd)) (stepReg a (fr.rep * fr.sa)) (stepReg b (fr.rep * fr.sb)) m t
  | .vmulh d a b m t => .vmulh (stepReg d (fr.rep * fr.sd)) (stepReg a (fr.rep * fr.sa)) (stepReg b (fr.rep * fr.sb)) m t
  | .vand d a b m t => .vand (stepReg d (fr.rep * fr.sd)) (stepReg a (fr.rep * fr.sa)) (stepReg b (fr.rep * fr.sb)) m t
  | .vor d a b m t => .vor (stepReg d (fr.rep * fr.sd)) (stepReg a (fr.rep * fr.sa)) (stepReg b (fr.rep * fr.sb)) m t
  | .vxor d a b m t => .vxor (stepReg d (fr.rep * fr.sd)) (stepReg a (fr.rep * fr.sa)) (stepReg b (fr.rep * fr.sb)) m t
  | .vshl d a b m t => .vshl (stepReg d (fr.rep * fr.sd)) (stepReg a (fr.rep * fr.sa)) (stepReg b (fr.rep * fr.sb)) m t
  | .vshr d a b m t => .vshr (stepReg d (fr.rep * fr.sd)) (stepReg a (fr.rep * fr.sa)) (stepReg b (fr.rep * fr.sb)) m t
  | .vsra d a b m t => .vsra (stepReg d (fr.rep * fr.sd)) (stepReg a (fr.rep * fr.sa)) (stepReg b (fr.rep * fr.sb)) m t
  | .vcvt d a dt m t => .vcvt (stepReg d (fr.rep * fr.sd)) (stepReg a (fr.rep * fr.sa)) dt m t
  | .vperm d a b m t => .vperm (stepReg d (fr.rep * fr.sd)) (stepReg a (fr.rep * fr.sa)) (stepReg b (fr.rep * fr.sb)) m t
  | .vred d a f m t => .vred (stepReg d (fr.rep * fr.sd)) (stepReg a (fr.rep * fr.sa)) f m t
  | .vbcst d a m t => .vbcst (stepReg d (fr.rep * fr.sd)) (stepReg a (fr.rep * fr.sa)) m t
  | .vmovs d a lane t => .vmovs (stepReg d (fr.rep * fr.sd)) (stepReg a (fr.rep * fr.sa)) lane t
  | .vrcp d a m => .vrcp (stepReg d (fr.rep * fr.sd)) (stepReg a (fr.rep * fr.sa)) m
  | .vrsq d a m => .vrsq (stepReg d (fr.rep * fr.sd)) (stepReg a (fr.rep * fr.sa)) m
  | .vexp2 d a m => .vexp2 (stepReg d (fr.rep * fr.sd)) (stepReg a (fr.rep * fr.sa)) m
  | .vlog2 d a m => .vlog2 (stepReg d (fr.rep * fr.sd)) (stepReg a (fr.rep * fr.sa)) m
  | .vcmp d a b m t c => .vcmp (stepReg d (fr.rep * fr.sd)) (stepReg a (fr.rep * fr.sa)) (stepReg b (fr.rep * fr.sb)) m t c
  | .mand d a b => .mand (stepReg d (fr.rep * fr.sd)) (stepReg a (fr.rep * fr.sa)) (stepReg b (fr.rep * fr.sb))
  | .mor d a b => .mor (stepReg d (fr.rep * fr.sd)) (stepReg a (fr.rep * fr.sa)) (stepReg b (fr.rep * fr.sb))
  | .mnot d a => .mnot (stepReg d (fr.rep * fr.sd)) (stepReg a (fr.rep * fr.sa))
  | .mcnt d a => .mcnt (stepReg d (fr.rep * fr.sd)) (stepReg a (fr.rep * fr.sa))
  | .pmac x a b nr md pl => .pmac (stepReg x (fr.rep * fr.sx)) (stepReg a (fr.rep * fr.sa)) (stepReg b (fr.rep * fr.sb)) nr md pl
  | .accz x nr => .accz (stepReg x (fr.rep * fr.sx)) nr
  | .accrd x a b nr => .accrd (stepReg x (fr.rep * fr.sx)) (stepReg a (fr.rep * fr.sa)) (stepReg b (fr.rep * fr.sb)) nr
  | .accwr x a b nr => .accwr (stepReg x (fr.rep * fr.sx)) (stepReg a (fr.rep * fr.sa)) (stepReg b (fr.rep * fr.sb)) nr
  | i => i

end Sys2Proof.Machine
end

