-- ==== Sys2Proof/Machine/Rotation.lean ====
section
/-! DEFINITION. What a core does around the issue of an instruction: rejoining, message interrupts, the counts of a
rotation's end, debug stops, trace records (R40 to R44, R84, R100, R102, R251, R254). -/

namespace Sys2Proof.Machine

/-! ## Rejoining the rotation (R40, R42) -/

/-- The word a PARK writes when its slot wakes (R42). -/
def wakeWord (l : Slot) (reason : Nat) : W64 := BitVec.ofNat 64 (16 * l.hits + reason)

/-- A woken slot rejoins: PARK writes its wake word and completes; a slot parked by `nr` = park issues its instruction
again. -/
def Slot.rejoin (l : Slot) (cyc : Nat) : Slot :=
  match l.st, l.wake with
  | .parked p, some (reason, at_) =>
    if at_ + 1 ≤ cyc then
      match p with
      | .park d _ => ((l.setS d (wakeWord l reason)).clearHits.advance) |> fun x =>
          { x with st := .runnable, wake := none }
      | .res _ _ => { l with st := .runnable, wake := none }
    else l
  | _, _ => l

/-- The slots that rejoin at the start of a rotation. -/
def Core.rejoin (k : Core) : Core := k.mapSlots (fun _ l => l.rejoin k.cyc)

/-! ## Message interrupts (R100) -/

/-- Swap s28 to s31 with the core's shadow bank. -/
def Core.swapShadow (k : Core) (n : Nat) : Core :=
  let l := k.slot n
  let k2 := k.modSlot n (fun l => [0, 1, 2, 3].foldl (fun l i =>
    { l with regs := sset 0 l.regs (28 + i) (sget 0 k.shadow i) }) l)
  { k2 with shadow := [0, 1, 2, 3].foldl (fun m i => sset 0 m i (sget 0 l.regs (28 + i))) k.shadow }

/-- The lowest channel that holds a message and is enabled in the slot's `msgmask.en` (R100), if the cycle begins at least one
core cycle after the message's arrival. -/
def Core.intChannel (k : Core) (n : Nat) : Option Nat :=
  match slotNums.find? (fun ch => (k.slot n).msgEn.getLsbD ch && !(sget [] k.chans ch).isEmpty) with
  | some ch => if (sget [] k.chans ch).any (fun m => decide (m.stamp < k.cyc)) then some ch else none
  | none => none

/-- Whether slot `n` may accept a message interrupt (R100, R278). -/
def Core.intEligible (k : Core) (n : Nat) : Bool :=
  let l := k.slot n
  (match l.st with | .runnable => true | .parked _ => true | _ => false) &&
  !l.sys && !l.msgMasked && l.atom.isNone && !k.slots.any (fun e => e.2.inHandler)

/-- Accept the interrupt of channel `ch` in slot `n` (R100): PARK's word is written with reason 3 counted, the shadow bank is
swapped in, s28 and s29 hold the return address and the channel, and the PC is `msgvec`. -/
def Core.acceptInt (k : Core) (n ch : Nat) : Core :=
  let k := k.modSlot n (fun l =>
    match l.st with
    | .parked (.park d _) =>
      let reason := match l.wake with | some (r, _) => min r 3 | none => 3
      { ((l.setS d (wakeWord l reason)).clearHits).advance with st := .runnable, wake := none }
    | .parked (.res _ _) => { l with st := .runnable, wake := none }
    | _ => l)
  let r := (k.slot n).pc
  (k.swapShadow n).modSlot n (fun l =>
    { (l.setS 28 (r.setWidth 64)).setS 29 (BitVec.ofNat 64 ch) with inHandler := true, pc := l.msgvec })

/-- Slot `n` accepts a message interrupt if one is due in this cycle. -/
def Core.tryInt (k : Core) (n : Nat) : Core :=
  if k.intEligible n then
    match k.intChannel n with
    | some ch => k.acceptInt n ch
    | none => k
  else k

/-! ## Ages, and the end of a rotation (R37, R39, R42, R102) -/

/-- Ages advance by one; a claim that a slot parked on it presents stays at zero (R39). The slot's own core cycle begins with this
step, so a claim it presented in that cycle 64 rotations ago was active all the while until then (R37, R45; assumption 97). -/
def Slot.ageClaims (l : Slot) : Slot :=
  { l with claims := l.claims.map (fun x => x.map (fun (c : Claim) =>
      if c.pc == l.pc && (match l.st with | .parked (.res r _) => r == c.res | _ => false) then { c with age := 0 }
      else { c with age := c.age + 1 })) }

/-- A claim whose age reaches 1,024 rotations expires (R37), with the faults held for it (R144). -/
def Slot.expireClaims (l : Slot) : Slot :=
  Slot.tidy { l with claims := l.claims.map (fun x => match x with
      | some c => if 1024 ≤ c.age then none else some c
      | none => none) }

/-- The step of the ages of the slot whose core cycle begins. -/
def Core.ageNow (k : Core) : Core := k.modSlot (k.cyc % 8) (fun l => l.ageClaims.expireClaims)

/-- The timeout of a PARK counts down, also while the slot is stopped (R42, R44); 1 marks that it has run out. -/
def Slot.tickPark (l : Slot) : Slot :=
  match l.st with
  | .parked (.park d n) => if 2 ≤ n then { l with st := .parked (.park d (n - 1)) } else l
  | .stopped (some (.park d n)) => if 2 ≤ n then { l with st := .stopped (some (.park d (n - 1))) } else l
  | _ => l

/-- A PARK timeout that has run out wakes the slot with reason 2 (R42); a stopped slot at its resume (R44). -/
def Slot.expirePark (l : Slot) (cyc : Nat) : Slot :=
  match l.st with
  | .parked (.park d 1) => Slot.wakeBy { l with st := .parked (.park d 0) } 2 cyc
  | .stopped (some (.park d 1)) => Slot.wakeBy { l with st := .stopped (some (.park d 0)) } 2 cyc
  | _ => l

/-- `msgmask.left` counts down (R102). -/
def Slot.tickMask (l : Slot) : Slot := if l.msgMasked then { l with msgLeft := l.msgLeft - 1 } else l

/-- `masked` clears when `left` reaches 0 (R102). -/
def Slot.expireMask (l : Slot) : Slot := if l.msgMasked && l.msgLeft == 0 then { l with msgMasked := false } else l

/-- The counts of the end of a rotation. -/
def Core.endRotation (k : Core) : Core :=
  k.mapSlots (fun _ l => ((l.tickPark).expirePark k.cyc).tickMask.expireMask)

/-! ## Core cycles (R21) -/

/-- The conditions of an autosoak drop (R232): the core is in SPIN, every non-empty slot is parked, one of them on GWAIT, the
press is idle and the copy engine empty. A core that is being saved, or is saved, drops nothing. -/
def Core.mayDrop (k : Core) : Bool :=
  k.spin && k.gearEff &&
  k.slots.all (fun e => match e.2.st with | .empty => true | .parked _ => true | _ => false) &&
  k.slots.any (fun e => match e.2.st with | .parked (.res (.barrier _ _) _) => true | _ => false) &&
  k.pressEnd.isNone && k.pressRun.isNone && k.pressWait.isNone && k.copies.isEmpty && k.save == .no

/-- What happens at the start of a core cycle: at a rotation's start a pre-emption takes every slot out of issue, or woken slots
rejoin; the ages of the slot whose cycle it is advance. -/
def Core.startCycle (k : Core) : Core :=
  (if k.cyc % 8 = 0 then
    if k.preReq then { k with save := .saving, preReq := false } else k.rejoin
  else k).ageNow

/-- The core's cycle index advances, and after slot 7's cycle the rotation's counts. -/
def Core.endCycle (k : Core) : Core :=
  let k1 := if k.cyc % 8 = 7 then k.endRotation else k
  { k1 with cyc := k1.cyc + 1 }

/-- The end of a core cycle: the claims of its slot that turned inactive in it hold nobody back any more (R37, R38). -/
def endCycleAt (s : State) (c : Nat) : State :=
  wakeFreed (modCore s c Core.endCycle)
    ((getSlot s c ((getCore s c).cyc % 8)).claims.filterMap (fun x => x.filter (fun cl => cl.age == 64)))

/-! ## Trace records (R254) -/

/-- Doublewords of a trace record (Table 19.3). -/
def traceRecord (kind slot extra lcn : Nat) (pc : VA) (lam : W64) (cycle : Nat) : List Byte :=
  toBytes 8 (kind * 2 ^ 56 + slot * 2 ^ 48 + extra * 2 ^ 32 + lcn) ++ toBytes 8 pc.toNat ++ toBytes 8 lam.toNat ++
  toBytes 8 cycle

/-- Doubleword `i` of a trace record. -/
def recordDword (r : List Byte) (i : Nat) : Nat := leNat ((r.drop (8 * i)).take 8)

/-- The order in which the records of two devices merge (R256): by Lamport value; ties by die cycle within one device, and then by
device, LCN and slot (Table 19.3). A record of device `d` comes before one of device `e`. -/
def recordBefore (d e : Nat) (x y : List Byte) : Bool :=
  let key := fun (dev : Nat) (r : List Byte) =>
    [recordDword r 2, (if d = e then recordDword r 3 else 0), dev, recordDword r 0 % 2 ^ 16, recordDword r 0 / 2 ^ 48 % 8]
  decide (key d x < key e y)

/-- Device address of the next place of a partition's trace ring and its page's translation; none when no ring is
placed. Without a translation the record is dropped; with one the page is taken as it stands, LPDDR and writable (assumption 73). -/
def traceSlot (s : State) (p : Nat) : Option (Nat × TlbEntry) :=
  let v := (getPart s p).conf.trace
  let len := bitsOf v 63 48
  if len = 0 then none
  else
    let va := bitsOf v 47 5 * 32 + 32 * ((getPart s p).tracePos % len)
    match walkTables s p va with
    | .ok e _ => some (e.phys va, e)
    | _ => none

/-- Drop a record: the ring's drop count advances, saturating (R254). -/
def traceDrop (s : State) (p : Nat) : State := modPart s p (fun t => { t with drops := min (t.drops + 1) (2 ^ 64 - 1) })

/-- Post a trace record of slot `n` of core `c` (R254): it takes a place in the posted-store buffer, or is dropped when the
ring is full or not placed, or the buffer is full. -/
def tracePost (s : State) (c n kind extra : Nat) (pc : VA) : State :=
  let p := (partOf s c).getD 0
  let k := getCore s c
  match traceSlot s p with
  | some (pa, e) =>
    if k.psb.length < 16 ∧ (getPart s p).tracePos < bitsOf (getPart s p).conf.trace 63 48 then
      let d := traceRecord kind n extra c pc k.lamport s.cycle
      let s := modCore s c (fun k => { k with
        psb := k.psb ++ [{ id := k.nextId, slot := n, sp := .dev, addr := pa, data := d, rel := false, red := none,
                           comp := if e.comp then some e.dslot else none }],
        nextId := k.nextId + 1 })
      modPart s p (fun t => { t with tracePos := t.tracePos + 1 })
    else traceDrop s p
  | none => traceDrop s p

/-! ## Debug stops (R251) -/

/-- Accepted transfers whose destination lies in slot `n`'s registers of core `c` (R253). -/
def pendingInto (s : State) (c n : Nat) : Nat :=
  ((s.cores.flatMap (fun (e : Nat × Core) => e.2.copies)).filter (fun q =>
    q.segs.any (fun g => g.dst == .win c 1 && g.daddr / 0x800 == n))).length

/-- Stop slot `n` of core `c`: Stopped, its park kept, and a stop report, with a record of kind 8 for each pending transfer
into its registers (R253); under the freeze bit the engines halt (R252). -/
def stopSlot (s : State) (c n : Nat) : State :=
  let l := getSlot s c n
  match l.st with
  | .empty => modSlotAt s c n (fun l => { l with stopReq := false })
  | .stopped _ => modSlotAt s c n (fun l => { l with stopReq := false })
  | st =>
    let under := match st with | .parked p => some p | _ => none
    let s := modSlotAt s c n (fun l => { l with st := .stopped under, stopReq := false, stepping := false })
    let s := modCore s c (fun k => if k.freeze then { k with halted := true } else k)
    (List.range (pendingInto s c n)).foldl (fun s _ => tracePost s c n 8 1 l.pc) (tracePost s c n 4 0 l.pc)

end Sys2Proof.Machine
end

