-- ==== Sys2Proof/Machine/Fetch.lean ====
section
/-! DEFINITION. Fetching and decoding the word at a PC, repeat frames included (R29, R60, R90, R142, R198, R199). -/

namespace Sys2Proof.Machine

/-- Fetch the word at `pc` by partition `p` (R60, R142): ALIGN when misaligned, PFX through bit 46 or without a valid
translation, PROT without the execute right or out of device memory. The walk reads the tables as they stand
(assumption 10). -/
def fetchAt (s : State) (p : Nat) (pc : VA) : Except TrapCause (BitVec 32) :=
  let va := pc.toNat
  if va % 4 ≠ 0 then .error .align
  else if viewBit va then .error .pfx
  else match walkTables s p va with
    | .invalid => .error .pfx
    | .prot => .error .prot
    | .ok e _ =>
      if !e.x || e.tgt != .dev then .error .prot
      else
        let r := homeRead s p .dev e.comp false (e.phys va) 4
        if r.2 then .error .memue else .ok (BitVec.ofNat 32 (leNat r.1))

/-- Fetch the `n` words from `pc` on. -/
def fetchRun (s : State) (p : Nat) (pc : VA) : Nat → Except TrapCause (List (BitVec 32))
  | 0 => .ok []
  | n + 1 =>
    match fetchAt s p pc with
    | .error t => .error t
    | .ok w => (fetchRun s p (pc + 4) n).map (fun ws => w :: ws)

/-- What the current slot issues: the word at its PC with the slot's frame as it then stands, or the trap and `epc` of the
fetch. Replay 0 fetches a frame's members; later replays issue from the frame buffer. A restored frame is fetched again as a whole from
its start, and a fault of that has `epc` there (R90). A misaligned PC raises ALIGN wherever the word would come from (R29, R60). -/
def fetchNow (s : State) : Except (TrapCause × VA) (BitVec 32 × Option Frame) :=
  let l := slot s
  let p := curPart s
  let plain := match fetchAt s p l.pc with
    | .error t => .error (t, l.pc)
    | .ok w => .ok (w, l.frame)
  match l.frame with
  | none => plain
  | some f =>
    if !f.covers l.pc then plain
    else if l.pc.toNat % 4 ≠ 0 then .error (.align, l.pc)
    else
      let i := f.index l.pc
      if f.rep = 0 ∧ i ≤ f.words.length ∧ f.again = false then
        match fetchAt s p l.pc with
        | .error t => .error (t, l.pc)
        | .ok w => .ok (w, some { f with words := f.words.take i ++ [w] })
      else
        match f.words[i]? with
        | some w => .ok (w, some f)
        | none =>
          match fetchRun s p f.start f.len with
          | .error t => .error (t, f.start)
          | .ok ws => .ok (ws.getD i 0, some { f with words := ws, again := false })

/-- The walk of a fetch sets the accessed bit of its page's entry (Table 8.6); an issue from the frame buffer fetches
nothing. -/
def fetchMark (s : State) : State :=
  let l := slot s
  let buffered := match l.frame with
    | some f => f.covers l.pc && decide (0 < f.rep) && !f.again
    | none => false
  if buffered then s
  else match walkTables s (curPart s) l.pc.toNat with
    | .ok _ pte => markPte s (curPart s) pte false
    | _ => s

/-- The instruction a fetched word is, its fields rewritten for a replay; none is ILLEGAL (R78, R199). -/
def decodeNow (s : State) (w : BitVec 32) : Option Instr :=
  match decode w with
  | none => none
  | some i =>
    match (slot s).frame with
    | some f => if f.covers (slot s).pc then (if frameMember i then some (rewriteMember f i) else none) else some i
    | none => some i

/-- Whether the current slot issues in its cycle. -/
def runnableNow (s : State) : Bool := (slot s).st == .runnable

/-- A fetch that faults, as a step of its own: the trap is taken with `epc` at the target (R29, R60). -/
def execFetchFault (s : State) : Out :=
  .next (if runnableNow s then
    match fetchNow s with
    | .error (t, epc) => takeTrap s s.curCore s.curSlot t 0 epc
    | .ok _ => s
  else s)

/-- A word that is no instruction, as a step of its own: ILLEGAL at the PC (R61, R78). -/
def execIllegalInstruction (s : State) : Out :=
  .next (if runnableNow s then
    match fetchNow s with
    | .error _ => s
    | .ok (w, _) => if (decodeNow s w).isNone then raise s .illegal else s
  else s)

end Sys2Proof.Machine
end

