-- ==== Sys2Proof/Machine/TaskOps.lean ====
section
/-! DEFINITION. The end of a core's part of a task, SPIN units, channel credits and irons, as several instructions and events
share them (R97, R125, R175, R227 to R230, R239, R241, R296, R310). -/

namespace Sys2Proof.Machine

/-- Whether a core is being saved or is saved: its scratchpad is not at hand, and its arrivals go to the hamper (R246,
R248). -/
def Core.away (k : Core) : Bool := k.save != .no

/-- A change at a structure of core `c` wakes the slots parked at either of its ends (R43, R92). -/
def wakeStruct (s : State) (c : Nat) (k : StructKind) (i : Nat) : State :=
  wakeWhere s (fun r => match r with | .struct x y j _ => x == c && y == k && j == i | _ => false)

/-! ## Units of the current governor (R229, R230) -/

/-- Units held on a die. -/
def unitsHeld (s : State) (d : Nat) : Nat :=
  (s.cores.filter (fun (e : Nat × Core) => e.2.spin && e.2.save != .saved && dieOf (pcnOf s e.1) == d)).length

/-- Cores of a voltage row that hold a unit: the admission register bits 7:0 (R229). -/
def rowUnits (s : State) (v : Nat) : Nat :=
  (s.cores.filter (fun (e : Nat × Core) => e.2.spin && e.2.save != .saved && coreRow s e.1 == v)).length

/-- A freed unit or a closed window changes every row resource of the die (R230). -/
def wakeRows (s : State) (d : Nat) : State :=
  wakeWhere s (fun r => match r with | .row v => dieOf (16 * v) == d | _ => false)

/-- Core `c` drops to SOAK and returns its unit (R227, R234). -/
def dropUnit (s : State) (c : Nat) : State :=
  let s1 := modCore s c (fun k => { k with spin := false })
  if (getCore s c).spin then wakeRows s1 (dieOf (pcnOf s c)) else s1

/-- The effect of GEAR `soak` on core `c` (R227): the unit is returned and a restore request cancelled. -/
def soakCore (s : State) (c : Nat) : State := dropUnit (modCore s c (fun k => { k with restoreReq := none })) c

/-! ## Channel credits (R97) -/

/-- One credit comes back to channel `ch` of core `c`: to the oldest held request, else to the free count (R97, item 3). -/
def freeCredit (s : State) (c ch : Nat) : State :=
  match sget [] (getCore s c).chHeld ch with
  | asker :: rest =>
    sendFrom (modCore s c (fun k => { k with chHeld := sset [] k.chHeld ch rest })) c 0 0 (.creditGrant asker c ch 1)
  | [] => modCore s c (fun k => { k with chFree := sset 4 k.chFree ch (sget 4 k.chFree ch + 1) })

/-- `n` credits come back. -/
def freeCredits (s : State) (c ch : Nat) : Nat → State
  | 0 => s
  | n + 1 => freeCredits (freeCredit s c ch) c ch n

/-! ## Irons (R172, R175) -/

/-- Change every region of a partition's live launches. -/
def mapRegions (s : State) (p : Nat) (f : Nat → Nat → Region → Region) : State :=
  modPart s p (fun t => { t with launches := t.launches.map (fun (l : Launch) =>
    if l.live then { l with regions := l.regions.zipIdx.map (fun e => f l.q e.2 e.1) } else l) })

/-- The core's L1 copies of a region leave it as its iron passes (R173, R175). -/
def Core.dropTagged (k : Core) (q n : Nat) : Core :=
  { k with l1 := k.l1.filter (fun e => match e.tag with
    | some (x, y, _) => !(x == q && y == n)
    | none => true) }

/-- The regions whose iron core `c` holds: launch and index. -/
def ironsOf (t : Partition) (c : Nat) : List (Nat × Nat) :=
  (t.launches.filter (·.live)).flatMap (fun (l : Launch) =>
    (l.regions.zipIdx.filter (fun e => e.1.iron == .held c)).map (fun e => (l.q, e.2)))

/-- A pass of an iron by slot `n` (8: at the end of a part, R175) enters the core's work. -/
def Core.enterPass (k : Core) (n q i : Nat) : Core :=
  { k with passes := k.passes ++ [{ id := k.nextId, slot := n, q := q, n := i }], nextId := k.nextId + 1 }

/-- Every iron core `c` holds starts to pass to rest, as by an IRPASS behind the work of all its slots (R175). -/
def passIrons (s : State) (c : Nat) : State :=
  match partOf s c with
  | some p =>
    let mark := (getCore s c).nextId
    let held := ironsOf (getPart s p) c
    let s1 := modCore s c (fun k => held.foldl (fun k e => (k.dropTagged e.1 e.2).enterPass 8 e.1 e.2) k)
    mapRegions s1 p (fun _ _ r => if r.iron == .held c then { r with iron := .passing c 8 0xFFFF mark } else r)
  | none => s

/-! ## The end of a part (R125, R296, R310) -/

/-- A slot abandoned: empty, with its claims, monitors, frame, handler mark and held values gone. A DCFENCE of it still writes
back. -/
def Slot.abandon (l : Slot) : Slot :=
  { l with st := .empty, wake := none, claims := [none, none, none, none], mons := [], frame := none, inHandler := false,
           hold := none, atom := none, walkFaults := [], gathered := [], stealFly := false, refused := false, stopReq := false, stepping := false }

/-- The core's structures emptied at the end of its part (R296, items 2 to 4). What slot 7 has taken over by XTAKE stays until the
completion signal: a release that it has sent still follows the posters' writes (R153, R155, R207). -/
def Core.abandon (k : Core) : Core :=
  { (slotNums.foldl Core.loseAtom k).mapSlots (fun _ l => l.abandon) with
    dq := [], bq := [], chans := [], mbFull := [], mbRel := [], dqHead := 0, dqTail := 0, landings := 0, walks := [],
    fills := [], leaseAt := [], engTraps := [] }

/-- Steals in flight for a core's slots are abandoned: their answers find no slot (R241). -/
def orphanSteals (s : State) (c : Nat) : State :=
  { s with net := s.net.map (fun p =>
      let b := match p.body with
        | .stealReq v t _ => if t = c then Body.stealReq v t 8 else p.body
        | .stealAns t _ r => if t = c then Body.stealAns t 8 r else p.body
        | b => b
      { p with body := b }) }

/-- Number of messages in a channel. -/
def Core.chanLen (k : Core) (ch : Nat) : Nat := (sget [] k.chans ch).length

/-- The part of core `c` ends: slots and structures are abandoned, credits of discarded messages return, irons pass to
rest, the core drops to SOAK, and the completion signal is held until the drains of R125. -/
def endPart (s : State) (c : Nat) : State :=
  let lens := slotNums.map (fun ch => (ch, (getCore s c).chanLen ch))
  let freed := ((getCore s c).claims c).map (fun e => e.2.2)
  let s := orphanSteals (wakeFreed (modCore s c Core.abandon) freed) c
  let s := lens.foldl (fun s e => freeCredits s c e.1 e.2) s
  let s := passIrons s c
  let s := soakCore s c
  modCore s c (fun k => { k with ended := true, endMark := k.nextId })

/-- Whether every slot of a core is empty. -/
def Core.allEmpty (k : Core) : Bool := slotNums.all (fun n => (k.slot n).st == .empty)

/-- HALT of the current slot (R310): the slot is abandoned, a handler's shadow bank swapped back; the last HALT ends the
core's part. -/
def haltSlot (s : State) : State :=
  let n := s.curSlot
  let freed := (slot s).claims.filterMap id
  let s := wakeFreed (modCur s (fun k =>
    ((if (k.slot n).inHandler then k.swapShadow n else k).loseAtom n).modSlot n Slot.abandon)) freed
  if (cur s).allEmpty then endPart s s.curCore else s

end Sys2Proof.Machine
end

