-- ==== Sys2Proof/Machine/VirtMem.lean ====
section
/-! DEFINITION. Device memory through a partition's tables, as schedulers, controllers and cores read and write it, the event ring, and the
tables they read there: group positions, handle entries (R118, R119, R261, R305). -/

namespace Sys2Proof.Machine

/-! ## Virtual ranges -/

/-- Translation of a device address for reading or writing, outside any core's TLB: bit 46 selects the compressed view of a
compressed page, which is only read (R142, R218). A page whose target is not LPDDR counts as not translated (assumption 88). -/
def vmap (s : State) (p va : Nat) (write : Bool) : Option TlbEntry :=
  if 2 ^ 48 ≤ va then none
  else match walkTables s p (plainVa va) with
    | .ok e _ =>
      if e.tgt == .dev && (if write then e.w && !viewBit va else e.r) && (!viewBit va || e.comp) then some e else none
    | _ => none

/-- `n` bytes inside one line at a device address, with a poison flag; none without a translation. -/
def vread (s : State) (p va n : Nat) : Option (List Byte × Bool) :=
  (vmap s p va false).map (fun e => homeRead s p .dev e.comp (viewBit va) (e.phys (plainVa va)) n)

/-- `n` lines from a line-aligned device address. -/
def vreadLines (s : State) (p va : Nat) : Nat → Option (List Byte × Bool)
  | 0 => some ([], false)
  | n + 1 =>
    match vread s p va 64, vreadLines s p (va + 64) n with
    | some a, some b => some (a.1 ++ b.1, a.2 || b.2)
    | _, _ => none

/-- Doubleword `i` of a byte string. -/
def dwordAt (l : List Byte) (i : Nat) : Nat := leNat ((l.drop (8 * i)).take 8)

/-- Write bytes inside one line at a device address on behalf of core `c` (a core number no core has: of the scheduler). A line
without a writable translation is not written (assumption 73). -/
def vwrite (s : State) (p c va : Nat) (d : List Byte) : State :=
  match vmap s p va true with
  | some e => homeWrite s p c .dev (if e.comp then some e.dslot else none) (e.phys va) d
  | none => s

/-- Write a byte string from a line-aligned device address, line by line. -/
def vwriteLines (s : State) (p c va : Nat) (d : List Byte) : Nat → State
  | 0 => s
  | n + 1 => vwriteLines (vwrite s p c va (d.take 64)) p c (va + 64) (d.drop 64) n

/-- Bits `hi` to `lo` of a number. -/
def natBits (v hi lo : Nat) : Nat := v / 2 ^ lo % 2 ^ (hi + 1 - lo)

/-! ## The event ring (R260) -/

/-- Position of record `i` of a partition's event ring; none when no ring is placed. -/
def eventAt (t : Partition) (i : Nat) : Option Nat :=
  let len := bitsOf t.evBase 63 48
  if len = 0 then none else some (bitsOf t.evBase 47 5 * 32 + 32 * (i % len))

/-- The scheduler raises an event: a record at the head, or, in a full ring, one more in byte 0x1F of the last record. A record whose
page has no writable translation is lost, and the head advances all the same (assumption 73). Head and tail count records modulo
2^32 (Table 20.1; assumption 115). -/
def raiseEvent (s : State) (p kind sub res low : Nat) : State :=
  let t := getPart s p
  match eventAt t t.evHead.toNat with
  | none => s
  | some va =>
    if bitsOf t.evBase 63 48 ≤ (t.evHead - t.evTail).toNat then
      match eventAt t (t.evHead - 1).toNat with
      | some v =>
        match vread s p (v + 31) 1 with
        | some r => vwrite s p noCore (v + 31) (toBytes 1 (min (leNat r.1 + 1) 255))
        | none => s
      | none => s
    else
      let d := toBytes 8 (kind * 2 ^ 56 + sub * 2 ^ 48 + res % 2 ^ 48) ++ toBytes 8 s.cycle ++ toBytes 8 t.lamport.toNat ++
        toBytes 8 low
      modPart (vwrite s p noCore va d) p (fun t => { t with evHead := t.evHead + 1 })

/-- An access of core `c`'s scratchpad consumes an uncorrectable word (R236): on an undervolted row the rails return to the
safe margin, the error is reported to the partition, and the row is pinned; on a row already there nothing is left to do (assumption
106). -/
def rowError (s : State) (c : Nat) : State :=
  let v := coreRow s c
  let g := sget RowGauge.reset s.rows v
  if g.rail = 0 then s
  else
    let s1 := { s with rows := sset RowGauge.reset s.rows v { pinned := true, rail := 0 } }
    match partOf s c with
    | some p => raiseEvent s1 p 2 0 v 0
    | none => s1

/-- MEMUE for an uncorrectable scratchpad word of core `c` (R236). -/
def raiseRow (s : State) (c : Nat) : State := raise (rowError s c) .memue

/-! ## Groups (R118, R119) -/

/-- Whether a rectangle contains a position, 64 × mesh line + column. -/
def Rect.covers (r : Rect) (p : Nat) : Bool :=
  decide (r.line ≤ p / 64 ∧ p / 64 < r.line + r.height ∧ r.col ≤ p % 64 ∧ p % 64 < r.col + r.width)

/-- Positions of a group, ascending. -/
def groupPositions (g : List Rect) : List Nat := (List.range 40960).filter (fun p => g.any (·.covers p))

/-- The LCN of a placed node's base position. -/
def Launch.baseOf (l : Launch) (n : Node) : Nat :=
  n.cores.headD 0 - (groupPositions (l.groups.getD n.group [])).headD 0

/-- Members of a group in a placed node, ranked in ascending LCN (R119). -/
def Launch.members (l : Launch) (n : Node) (g : Nat) : List Nat :=
  let b := l.baseOf n
  ((groupPositions (l.groups.getD g [])).map (· + b)).filter (fun c => n.cores.contains c)

/-- The live launch of a sequence number (R117). -/
def liveLaunch (s : State) (p q : Nat) : Option Launch := (getPart s p).launches.find? (fun l => l.live && l.q == q)

/-- Launch and node a core works for. -/
def taskNode (s : State) (c : Nat) : Option (Launch × Node) :=
  match partOf s c, (getCore s c).task with
  | some p, some t => (liveLaunch s p t.q).bind (fun l => (l.nodes[t.node]?).map (fun n => (l, n)))
  | _, _ => none

/-! ## The handle table (R261, R305) -/

/-- The entry of an index as kept for a live launch, or as it stands in memory; one that cannot be read counts as not valid
(assumption 101). -/
def handleWords (s : State) (p i : Nat) : Option (Nat × Nat) :=
  let t := getPart s p
  match t.kept.find? (fun e => e.2.1 == i && t.launches.any (fun l => l.live && l.q == e.1)) with
  | some e => some (e.2.2.1.toNat, e.2.2.2.toNat)
  | none => (vread s p (bitsOf t.conf.handles 47 0 + 16 * i) 16).bind (fun r =>
      if r.2 then none else some (dwordAt r.1 0, dwordAt r.1 1))

/-- Keep an entry for the launch it serves, from its first use on (R261). -/
def keepHandle (s : State) (p i q : Nat) (w : Nat × Nat) : State :=
  modPart s p (fun t =>
    if t.kept.any (fun e => e.1 == q && e.2.1 == i) then t
    else { t with kept := t.kept ++ [(q, i, BitVec.ofNat 64 w.1, BitVec.ofNat 64 w.2)] })

/-- The live launch that has a tag (R305). -/
def launchTagged (s : State) (p tag : Nat) : Option Launch :=
  if tag = 0 then none else (getPart s p).launches.find? (fun l => l.live && l.tag.toNat == tag)

end Sys2Proof.Machine
end

