-- ==== Sys2Proof/Machine/Claims.lean ====
section
/-! DEFINITION. Own conditions of claims at the two resources whose instructions meet different conditions: accumulators and
transfer engines (R38, R191, R195, Table 13.1). -/

namespace Sys2Proof.Machine

/-- The instruction at a claim's PC, as its slot would fetch it (R38). -/
def claimInstr (s : State) (c : Nat) (cl : Claim) : Option Instr :=
  match fetchAt s ((partOf s c).getD 0) cl.pc with
  | .ok w => decode w
  | .error _ => none

/-! ## Press positions (R191) -/

/-- The tiles of a share: rank r takes at most tpm of them (R201). -/
def Share.count (h : Share) : Nat := min h.tpm (h.mt * h.nt - h.rank * h.tpm)

/-- The PCMD step that may enter a position: the first whose accumulator is free of other operations (R331), which one behind a held
one may be (assumption 98). -/
def Core.readyCmd (k : Core) : Option (Nat × PcmdStep) :=
  (k.cmdQ.zipIdx.find? (fun e => !k.accOtherBusy e.1.acc)).map (fun e => (e.2, e.1))

/-- The share whose next step may enter a position (assumption 98). -/
def Core.readyShare (k : Core) : Option (Nat × Share) :=
  (k.shareQ.zipIdx.find? (fun e => !e.1.failed && decide (e.1.next < e.1.count) &&
    !k.accOtherBusy (e.1.acc + e.1.next))).map (fun e => (e.2, e.1))

/-- Whether a remote step is there to take a free position, ahead of any local PMAC (R191). -/
def Core.remoteReady (k : Core) : Bool := k.readyCmd.isSome || k.readyShare.isSome

/-- Whether a local PMAC finds a position (R191, R252). -/
def Core.pressFree (k : Core) : Bool := k.pressWait.isNone && !k.remoteReady && !k.halted

/-- Whether a store that the reads of a PMAC of slot `n` follow (R194), and that its target could hold back, is unperformed: one to
an accumulator or a mailbox (R131, R132). PMAC is refused until it is performed, so that an accepted operation never waits for an
accumulator that it keeps busy itself (R77, R150; assumption 68). -/
def Core.pmacOpen (k : Core) (n : Nat) : Bool :=
  k.psb.any (fun e => (match e.sp with | .win _ u => u == 2 || u == 4 | _ => false) &&
    (e.slot == n || (n == 7 && k.xdMarks.any (fun m => m.1 == e.slot && decide (e.id < m.2)))))

/-- Whether the core's previous PGRP is still being delivered (R200, R332). -/
def pgrpOut (s : State) (c : Nat) : Bool :=
  s.net.any (fun p => match p.body with | .share _ h => h.issuer == c | _ => false)

/-- A seam guard's word (R204). -/
def guardWord (b : Nat) : Nat := (guardBase + 8 * b) / 8

/-- Own condition of a claim at accumulator `n` of core `t` (R38). -/
def accOwn (s : State) (t n c slot : Nat) (cl : Claim) : Bool :=
  let k := getCore s t
  match claimInstr s c cl with
  | some (.pmac ..) => !k.accOtherBusy n && k.pressFree && !k.pmacOpen slot
  | some (.pgrp ..) => !pgrpOut s c
  | some (.seam x _ b _ role) =>
    !k.accBusy x.val && (role == .head || (k.feBit (guardWord b.val) && !k.accBusy b.val))
  | _ => !k.accBusy n

/-- Wake the slots parked on accumulators of a core (R43). -/
def wakeAccs (s : State) (c : Nat) : State := wakeWhere s (fun r => match r with | .acc x _ => x == c | _ => false)

/-! ## Transfer engines (R129, R209, R278) -/

/-- The copy engine holds four unfinished requests, or is halted (R210, R252). -/
def Core.copyFull (k : Core) : Bool := decide (4 ≤ k.copies.length) || k.halted

/-- Core and scratchpad address that an LDC or STP of slot `n` of core `c` names, in the local or the window form (R133). -/
def feTarget (s : State) (c n : Nat) (a : SReg) (sz : Size) (off : BitVec 8) : Nat × Nat :=
  let ea := (getSlot s c n).getS a + BitVec.ofNat 64 sz.bytes * off.signExtend 64
  if isLocal ea then (c, ea.toNat) else (bitsOf ea 47 32, bitsOf ea 27 0)

/-- Whether a posted store or a reduction of slot `n` is unperformed (R134); an RMW that has lost its result is neither. -/
def Core.postedOpen (k : Core) (n : Nat) : Bool := k.psb.any (fun e => e.slot == n && e.am.isNone)

/-- Own condition of a claim at a core's transfer engine (R38): what its instruction meets there, with its full/empty word's
state. -/
def engineOwn (s : State) (c n : Nat) (cl : Claim) : Bool :=
  let k := getCore s c
  let l := k.slot n
  match claimInstr s c cl with
  | some (.copy ..) | some (.gath ..) | some (.slice ..) => !k.copyFull
  | some (.pcmd ..) => decide (k.psb.length < 16)
  | some (.ldc _ a _ sz _ off) =>
    let w := feTarget s c n a sz off
    (getCore s w.1).feBit (w.2 / 8) && l.atom.isNone && !k.openBefore n (max l.ldMark l.stMark) &&
    !k.lineOpen n (.win w.1 0) (w.2 / 64)
  | some (.stp _ a _ sz off) =>
    let w := feTarget s c n a sz off
    !(getCore s w.1).feBit (w.2 / 8) && (if isLocal (l.getS a + BitVec.ofNat 64 sz.bytes * off.signExtend 64) then !k.postedOpen n
      else l.atom.isNone && !k.openBefore n k.nextId)
  | some (.amadd ..) | some (.amand ..) | some (.amor ..) | some (.amxor ..) | some (.ammin ..) | some (.ammax ..)
  | some (.amminz ..) | some (.ammaxz ..) | some (.amswp ..) | some (.amcas ..) => decide (k.psb.length < 16)
  | some (.ldd ..) | some (.ldf ..) | some (.ldh ..) | some (.ldl ..) | some (.ldw ..) =>
    l.atom.isNone && !k.openBefore n l.ldMark
  | some (.stw ..) | some (.stl ..) | some (.std ..) | some (.stf ..) | some (.sth ..)
  | some (.redadd ..) | some (.redfadd ..) | some (.redmin ..) | some (.redmax ..) | some (.redand ..)
  | some (.redor ..) | some (.redxor ..) =>
    decide (k.psb.length < 16) && l.atom.isNone && !k.openBefore n l.stMark
  | _ => l.atom.isNone

/-- Whether an older claim at the core's engine goes first. -/
def engineHeld (s : State) : Bool := heldBackBy s (.engine s.curCore) (engineOwn s)

/-! ## Lines (R38, R141, R169) -/

/-- The core's view of a region. -/
def viewOf (k : Core) (q n : Nat) : Option (BitVec 32) := (k.view.find? (fun v => v.q == q && v.n == n)).map (·.val)

/-- Whether round `u` is within `k` of view `v` (R168). -/
def within (k : Nat) (u v : BitVec 32) : Bool :=
  decide ((v - u).toNat ≤ k) || decide (0 < (u - v).toNat ∧ (u - v).toNat < 2 ^ 31)

/-- Whether a copy that missed a write of round `m` first may serve a load of bound `k` at view `v`: round v − k has not reached
`m` (R160; assumption 91). -/
def freshEnough (e : L1Line) (k : Nat) (v : BitVec 32) : Bool :=
  match e.missed with
  | some m => decide (2 ^ 31 ≤ (v - BitVec.ofNat 32 k - m).toNat)
  | none => true

/-- Whether an acquire still waits for newer values of a region's view (R171). -/
def Core.viewOwed (k : Core) (q n : Nat) : Bool :=
  k.viewNeed.any (fun e => e.1 == q && e.2.1 == n && (match viewOf k q n with
    | some v => decide (0 < (e.2.2 - v).toNat ∧ (e.2.2 - v).toNat < 2 ^ 31)
    | none => true))

/-- A copy of a line outside regions that a core's L1 holds in a view (R141), unless a host window has written the line since
(R177). -/
def Core.l1Find (k : Core) (sp : Space) (line : Nat) (view : Bool) : Option L1Line :=
  if sp == .dev && !view && k.l1Gone.contains line then none
  else k.l1.find? (fun e => e.sp == sp && e.line == line && e.view == view && e.tag.isNone)

/-- The copy of a region's line that a core's L1 holds, with its round (R169); a copy from another launch or region does not
count. -/
def Core.l1Round (k : Core) (line q n : Nat) : Option (L1Line × BitVec 32) :=
  k.l1.findSome? (fun e => match e.tag with
    | some (x, y, u) => if e.sp == .dev && e.line == line && !e.view && x == q && y == n then some (e, u) else none
    | none => none)

/-- Whether core `c`'s L1 serves a plain load of a line with bound `st` (R141, R169). -/
def l1Serves (s : State) (c : Nat) (sp : Space) (line st : Nat) (view : Bool) : Bool :=
  let k := getCore s c
  match (if sp == .dev then regionOf s ((partOf s c).getD 0) line else none) with
  | some (q, n, _) =>
    st != 7 && !view && !k.viewOwed q n && (match viewOf k q n, k.l1Round line q n with
      | some v, some (e, u) => within st u v && freshEnough e st v
      | _, _ => false)
  | none => (k.l1Find sp line view).isSome

/-- Own condition of a claim at a line (R38): the line is at hand for the instruction at the claim's PC: its answer is held for
it, or a copy in L1 serves its load, and no order of its slot is open. -/
def lineOwn (s : State) (sp : Space) (line c n : Nat) (cl : Claim) : Bool :=
  let k := getCore s c
  let l := k.slot n
  let held := match l.hold with
    | some h => h.pc == cl.pc && h.sp == sp && h.addr / 64 == line &&
        (match h.ans with | .got _ _ => true | _ => false)
    | none => false
  let back := match l.atom with
    | some t => sp == .dev && t.pc == cl.pc && t.addr / 64 == line && (match t.ans with | .got _ _ => true | _ => false)
    | none => false
  let copied := match claimInstr s c cl with
    | some (.ldd _ a _ sz .rlx st off) =>
      l1Serves s c sp line st.toNat (viewBit ((l.getS a + BitVec.ofNat 64 sz.bytes * off.signExtend 64).toNat % 2 ^ 48))
    | some (.ldf _ _ _ _ .rlx _) | some (.ldh _ _ _ _ .rlx _) => l1Serves s c sp line 7 false
    | _ => false
  !k.openBefore n l.ldMark && !k.lineOpen n sp line && (held || back || copied)

/-- Whether an order of slot `n` that an atomic in flight follows is open: with a release everything before it, else what a FENCE, a
DCFENCE or an XLINV covers (R148, R150, R293, R294). -/
def atomWaits (s : State) (c n : Nat) (t : Atom) : Bool :=
  let k := getCore s c
  let l := k.slot n
  k.openBefore n (if t.rel then k.nextId else max l.ldMark l.stMark) || !l.dcf.isEmpty ||
  (getPart s ((partOf s c).getD 0)).invOpen c n

/-- Whether a claim at a line is served now, or as soon as its answer comes: `lineOwn`, or its access is under way with no order of
its slot open. The slots of a core that is being saved are out of issue (R246), and collect nothing until the restore. -/
def lineDue (s : State) (sp : Space) (line c n : Nat) (cl : Claim) : Bool :=
  let k := getCore s c
  let l := k.slot n
  let asked := match l.hold with
    | some h => h.pc == cl.pc && h.sp == sp && h.addr / 64 == line
    | none => false
  let sent := match l.atom with
    | some t => sp == .dev && t.pc == cl.pc && t.addr / 64 == line && !atomWaits s c n t
    | none => false
  let filling := k.fills.any (fun f => f.sp == sp && f.line == line)
  k.save == .no && (lineOwn s sp line c n cl || (!k.openBefore n (max l.ldMark l.stMark) && !k.lineOpen n sp line && (asked || sent || filling)))

/-- Whether the home may apply an atomic of slot `n` of core `c` (R148, R156, R278): the slot stands at the instruction that will
collect the result, or its core is being saved, which waits for an operation in flight (assumption 103); no order that it follows is
open; and no older claim at the line goes first (R38). -/
def atomDue (s : State) (c n : Nat) (t : Atom) : Bool :=
  ((getSlot s c n).pc == t.pc || (getCore s c).save == .saving) && !atomWaits s c n t &&
  !heldBackAt s c n t.pc (.line .dev (t.addr / 64)) (lineDue s .dev (t.addr / 64))

/-- Whether an older claim at a line goes first. -/
def lineHeld (s : State) (sp : Space) (line : Nat) : Bool := heldBackBy s (.line sp line) (lineOwn s sp line)

end Sys2Proof.Machine
end

