-- ==== Sys2Proof/Machine/LoadStore.lean ====
section
/-! DEFINITION. Loads and stores of the six spaces, majors 0x18 to 0x23 (R65, R66, R128 to R132, R138 to R142, R169, R316 to
R318, R360, R362, R364). -/

namespace Sys2Proof.Machine

/-! ## Shared parts -/

/-- Write a load's destination: v[d] for size `v`, else s[d] extended (Table 4.3). -/
def writeDest (s : State) (d : SReg) (sz : Size) (bytes : List Byte) : State :=
  if sz = .v then modSlot s (fun l => { l with vregs := sset 0 l.vregs d.val (BitVec.ofNat 512 (leNat bytes)) })
  else wrS s d (extend sz bytes)

/-- Bytes a store writes: v[d] for size `v`, else the low bytes of s[d]. -/
def storeData (s : State) (d : SReg) (sz : Size) : List Byte :=
  if sz = .v then toBytes 64 (sget 0 (slot s).vregs d.val).toNat else toBytes sz.bytes (rdS s d).toNat

/-- Whether an order is an acquire or release (Table 4.4). -/
def Ord2.strong : Ord2 → Bool
  | .rlx => false
  | _ => true

/-- Whether it acts at system scope. -/
def Ord2.sysScope : Ord2 → Bool
  | .strongSys => true
  | _ => false

/-- Effective address of formats M and MD: the offset counts access sizes (R63). -/
def eaScaled (s : State) (a : SReg) (sz : Size) {w : Nat} (off : BitVec w) : W64 :=
  rdS s a + BitVec.ofNat 64 sz.bytes * off.signExtend 64

/-- A load completes with its bytes: MEMUE on poison, else destination, ready outcome, acquire, PC + 4. Any held value is
spent or discarded (R129, R150). -/
def finishLoad (s : State) (d : SReg) (sz : Size) (ord : Ord2) (bytes : List Byte) (poison : Bool) : State :=
  if poison then raise (dropHold s) .memue
  else
    let s1 := ready (writeDest s d sz bytes)
    advance (if ord.strong then acquireFx s1 ord.sysScope else dropHold s1)

/-- Whether a held value or access belongs to this retry (R129). -/
def Hold.isFor (h : Hold) (pc : VA) (sp : Space) (addr : Nat) (view : Bool) (op : WinOp) : Bool :=
  h.pc == pc && h.sp == sp && h.addr == addr && h.view == view && h.op == op

/-- An access answered at its target: the first attempt starts it and is not-ready FILL; a later attempt at the same PC and
address takes the answer (R129), unless an older claim at the line goes first (R38). -/
def withAnswer (s : State) (nr : Disp) (h0 : Hold) (go : State → List Byte → Bool → State) : State :=
  let res : Resource := .line h0.sp (h0.addr / 64)
  let start := notReady (modSlot s (fun l => { l with hold := some h0 })) nr .fill res
  match (slot s).hold with
  | none => start
  | some h =>
    if h.isFor h0.pc h0.sp h0.addr h0.view h0.op then
      match h.ans with
      | .pending => notReady s nr .fill res
      | .got d p => if lineHeld s h0.sp (h0.addr / 64) then notReady s nr .fill res else go s d p
      | .wait c r => notReady (dropHold s) nr c r
      | .denied t => raise (dropHold s) t
    else start

/-- The hold a load starts. -/
def loadHold (s : State) (sp : Space) (addr n : Nat) (view : Bool) (comp : Bool) (dslot : Nat) : Hold :=
  { pc := (slot s).pc, sp := sp, addr := addr, view := view, slotOfDict := dslot, comp := comp, op := .load n,
    ans := .pending }

/-- Start a fill of a line, unless one is under way (R27). -/
def startFill (s : State) (f : Fill) : State :=
  modCur s (fun k => if k.fills.contains f then k else { k with fills := k.fills ++ [f] })

/-- Start the install of a region in the round view, unless it is under way (R167). -/
def startView (s : State) (q n : Nat) : State :=
  modCur s (fun k => if k.viewAsk.contains (q, n) then k else { k with viewAsk := k.viewAsk ++ [(q, n)] })

/-- A view entry used most recently (R167). -/
def Core.touchView (k : Core) (q n : Nat) : Core :=
  match k.view.find? (fun v => v.q == q && v.n == n) with
  | some v => { k with view := v :: k.view.filter (fun v => !(v.q == q && v.n == n)) }
  | none => k

/-- A bounded load of a region line (R160, R169): a copy that has missed a write too old for the bound is refetched. Without the r
right it is `home`, the home's to answer (R172). The view entry counts as used where the load is served, not where it is refused
(assumption 77). -/
def boundedLoad (s : State) (nr : Disp) (d : SReg) (sz : Size) (pa q n k : Nat) (f : Fill) (r : Bool) (home : State) : State :=
  let res : Resource := .line .dev (pa / 64)
  match viewOf (cur s) q n with
  | none => notReady (startView s q n) nr .fill res
  | some v =>
    if (cur s).viewOwed q n then notReady s nr .fill res
    else if !r then home
    else match (cur s).l1Round (pa / 64) q n with
      | none => notReady (startFill s f) nr .fill res
      | some (e, u) =>
        if within k u v && freshEnough e k v then
          if lineHeld s .dev (pa / 64) then notReady s nr .fill res
          else finishLoad (modCur s (fun k => k.touchView q n)) d sz .rlx ((e.data.drop (pa % 64)).take sz.bytes) e.poison
        else notReady (startFill s f) nr .stale res

/-- A load through translation: LDD, LDF and LDH (R316, R317). `st` is 7 but for LDD. A region's missing r right is found at the
home, and raised where the value would be returned (R172). -/
def cachedLoad (s : State) (want : Target) (d a : SReg) (nr : Disp) (sz : Size) (ord : Ord2) (st : Nat) (ea : W64) :
    State :=
  let n := sz.bytes
  let va := ea.toNat % 2 ^ 48
  let view := viewBit va
  let _ := a
  if ea.toNat % n ≠ 0 then raise s .align
  else if bitsOf ea 63 48 ≠ 0 then raise s .prot
  else if invBarred s then notReady s nr .fill (orderRes s.curCore s.curSlot)
  else match xlate s va want true false with
  | .miss => walkMiss s nr va false
  | .bad t => raiseXlat s t
  | .ok pa e =>
    let sp := spaceOf want
    let p := curPart s
    let reg := if want == .dev then regionOf s p (pa / 64) else none
    let f : Fill := { sp := sp, line := pa / 64, view := view, comp := e.comp, dslot := e.dslot }
    let h0 := loadHold s sp pa n view e.comp e.dslot
    if ldBarred s || dcfBarred s va n then notReady s nr .fill (orderRes s.curCore s.curSlot)
    else if lineOpen s sp (pa / 64) then notReady s nr .fill (.line sp (pa / 64))
    else if ord.strong && atomBarred s then notReady s nr .busy (.engine s.curCore)
    else
      let home := withAnswer s nr h0 (fun s b p => finishLoad s d sz ord b p)
      match reg with
      | some (q, i, r) =>
        if ord.strong || st = 7 || view then home else boundedLoad s nr d sz pa q i st f r.r home
      | none =>
        if ord.strong then home
        else
          let held : Bool := match (slot s).hold with
            | some h => h.isFor h0.pc h0.sp h0.addr h0.view h0.op && h.ans != .pending
            | none => false
          if held then home
          else match (cur s).l1Find sp (pa / 64) view with
            | some c =>
              if lineHeld s sp (pa / 64) then notReady s nr .fill (.line sp (pa / 64))
              else finishLoad s d sz ord ((c.data.drop (pa % 64)).take n) c.poison
            | none => withAnswer (startFill s f) nr h0 (fun s b p => finishLoad s d sz ord b p)

/-- A posted store's last checks and its entry into the buffer (R129, R278, R360, R362); a value of its line that is held for a
retry is discarded (R156), and any such value by a release (R150). -/
def postStore (s : State) (nr : Disp) (sp : Space) (addr : Nat) (data : List Byte) (ord : Ord2) (comp : Option Nat) :
    State :=
  let eng : Resource := .engine s.curCore
  if stBarred s then notReady s nr .busy eng
  else if atomBarred s then notReady s nr .busy eng
  else if psbFull s || engineHeld s then notReady s nr .busy eng
  else
    readyNext (post (if ord.strong then dropHold s else dropHoldOn s sp (addr / 64)) sp addr data ord.strong none comp)

/-- A store through translation: STD, STF and STH (R360, R362). The FILL of a region tag not yet known never comes (R32, assumption
80). -/
def mappedStore (s : State) (want : Target) (d : SReg) (nr : Disp) (sz : Size) (ord : Ord2) (ea : W64) : State :=
  let va := ea.toNat % 2 ^ 48
  if ea.toNat % sz.bytes ≠ 0 then raise s .align
  else if bitsOf ea 63 48 ≠ 0 ∨ viewBit va = true then raise s .prot
  else if invBarred s then notReady s nr .fill (orderRes s.curCore s.curSlot)
  else match xlate s va want false true with
  | .miss => walkMiss s nr va true
  | .bad t => raiseXlat s t
  | .ok pa e =>
    if want == .dev && !mayWriteLine s (curPart s) s.curCore (pa / 64) then raise s .prot
    else if dcfBarred s va sz.bytes then notReady s nr .fill (orderRes s.curCore s.curSlot)
    else postStore s nr (spaceOf want) pa (storeData s d sz) ord (if e.comp then some e.dslot else none)

/-! ## Scratchpad (R318, R364) -/

/-- Scratchpad address of LDS and STS: bits 15:0 of the sum. -/
def spEa (s : State) (a : SReg) (imm : BitVec 13) : Nat := lo16 (eaOf s a imm)

def execLds (d a : SReg) (sz : Size) (imm : BitVec 13) (s : State) : Out :=
  let ea := spEa s a imm
  .next (if ea % sz.bytes ≠ 0 then raise s .align
    else if dequeBase < ea + sz.bytes then raise s .prot
    else
      let s := ownPerformed s 0
      if (cur s).spBadIn ea sz.bytes then raiseRow s s.curCore
      else advance (dropHold (writeDest s d sz ((cur s).spRead ea sz.bytes))))

def execSts (d a : SReg) (sz : Size) (imm : BitVec 13) (s : State) : Out :=
  let ea := spEa s a imm
  .next (if ea % sz.bytes ≠ 0 then raise s .align
    else if dequeBase < ea + sz.bytes then raise s .prot
    else
      let s := ownPerformed s 0
      if sz.bytes < 8 ∧ (cur s).spBadIn ea sz.bytes = true then raiseRow s s.curCore
      else advance (spWrite s s.curCore ea (storeData s d sz)))

/-! ## Window (R130, R131, R317, R362) -/

def execLdw (d a : SReg) (nr : Disp) (sz : Size) (ord : Ord2) (off : BitVec 8) (s : State) : Out :=
  let ea := eaScaled s a sz off
  .next (if ea.toNat % sz.bytes ≠ 0 then raise s .align
    else match winAddr s ea sz.bytes with
    | none => raise s .prot
    | some w =>
      let sp : Space := .win w.core w.unit
      if invBarred s || ldBarred s then notReady s nr .fill (orderRes s.curCore s.curSlot)
      else if lineOpen s sp (w.off / 64) then notReady s nr .fill (.line sp (w.off / 64))
      else if ord.strong && atomBarred s then notReady s nr .busy (.engine s.curCore)
      else if w.core = s.curCore then
        let acc : Resource := .acc s.curCore (w.off / 4096)
        if (cur s).winBusy w.unit w.off sz.bytes ||
          (w.unit == 2 && heldBackBy s acc (accOwn s s.curCore (w.off / 4096))) then notReady s nr .busy acc
        else
          let bad := w.unit == 0 && (cur s).spBadIn w.off sz.bytes
          finishLoad (if bad then rowError s s.curCore else s) d sz ord ((cur s).winRead w.unit w.off sz.bytes) bad
      else withAnswer s nr (loadHold s sp w.off sz.bytes false false 0) (fun s b p => finishLoad s d sz ord b p))

/-- STW (R131, R132, R362). A release to the own window, whose effect nothing can hold but a mailbox, is refused FILL while earlier work
of its slot is unperformed (R130, R150). -/
def execStw (d a : SReg) (nr : Disp) (sz : Size) (ord : Ord2) (off : BitVec 8) (s : State) : Out :=
  let ea := eaScaled s a sz off
  .next (if ea.toNat % sz.bytes ≠ 0 then raise s .align
    else match winAddr s ea sz.bytes with
    | none => raise s .prot
    | some w =>
      if w.unit = 4 ∧ sz ≠ .v then raise s .prot
      else if invBarred s || stBarred s || (ord.strong && w.core == s.curCore && w.unit != 4 && anyOpen s) then
        notReady s nr .fill (orderRes s.curCore s.curSlot)
      else postStore s nr (.win w.core w.unit) w.off (storeData s d sz) ord none)

/-! ## Lease (R138, R139, R317, R362) -/

/-- The space of a lease-table entry as it stands. -/
def leaseSpace (s : State) (ix : Nat) : Space :=
  .lease (curPart s) ix (sget LeaseEnt.reset (getPart s (curPart s)).leases ix).gen

/-- LDL and STL up to the lease's checks (R139): BOUNDS for an address of no lease; FILL while the core fetches the descriptor
that the address names; BOUNDS by the lease as it stands. -/
def leaseAccess (s : State) (nr : Disp) (ea : W64) (n : Nat) (go : Nat → Nat → State) : State :=
  let ix := bitsOf ea 27 20
  let gen := bitsOf ea 35 28
  let f : Fill := { sp := .lease (curPart s) ix gen, line := bitsOf ea 19 0 / 64, view := false, comp := false, dslot := 0 }
  if ea.toNat % n ≠ 0 then raise s .align
  else if bitsOf ea 63 36 ≠ 0 then raise s .bounds
  else if invBarred s then notReady s nr .fill (orderRes s.curCore s.curSlot)
  else if !(cur s).leaseAt.contains (ix, gen) then notReady (startFill s f) nr .fill (.line f.sp f.line)
  else match leaseAddr s ea n with
    | none => raise s .bounds
    | some (i, o) => go i o

def execLdl (d a : SReg) (nr : Disp) (sz : Size) (ord : Ord2) (off : BitVec 8) (s : State) : Out :=
  .next (leaseAccess s nr (eaScaled s a sz off) sz.bytes (fun ix o =>
      let sp := leaseSpace s ix
      if ldBarred s then notReady s nr .fill (orderRes s.curCore s.curSlot)
      else if lineOpen s sp (o / 64) then notReady s nr .fill (.line sp (o / 64))
      else if ord.strong && atomBarred s then notReady s nr .busy (.engine s.curCore)
      else withAnswer s nr (loadHold s sp o sz.bytes false false 0) (fun s b p => finishLoad s d sz ord b p)))

def execStl (d a : SReg) (nr : Disp) (sz : Size) (ord : Ord2) (off : BitVec 8) (s : State) : Out :=
  .next (leaseAccess s nr (eaScaled s a sz off) sz.bytes (fun ix o =>
    postStore s nr (leaseSpace s ix) o (storeData s d sz) ord none))

/-! ## Device, far and host memory -/

def execLdd (d a : SReg) (nr : Disp) (sz : Size) (ord : Ord2) (st : BitVec 3) (off : BitVec 5) (s : State) : Out :=
  .next (cachedLoad s .dev d a nr sz ord st.toNat (eaScaled s a sz off))

def execStd (d a : SReg) (nr : Disp) (sz : Size) (ord : Ord2) (off : BitVec 5) (s : State) : Out :=
  .next (mappedStore s .dev d nr sz ord (eaScaled s a sz off))

def execLdf (d a : SReg) (nr : Disp) (sz : Size) (ord : Ord2) (off : BitVec 8) (s : State) : Out :=
  .next (cachedLoad s .far d a nr sz ord 7 (eaScaled s a sz off))

def execStf (d a : SReg) (nr : Disp) (sz : Size) (ord : Ord2) (off : BitVec 8) (s : State) : Out :=
  .next (mappedStore s .far d nr sz ord (eaScaled s a sz off))

def execLdh (d a : SReg) (nr : Disp) (sz : Size) (ord : Ord2) (off : BitVec 8) (s : State) : Out :=
  .next (cachedLoad s .host d a nr sz ord 7 (eaScaled s a sz off))

def execSth (d a : SReg) (nr : Disp) (sz : Size) (ord : Ord2) (off : BitVec 8) (s : State) : Out :=
  .next (mappedStore s .host d nr sz ord (eaScaled s a sz off))

end Sys2Proof.Machine
end

