-- ==== Sys2Proof/Machine/Atomic.lean ====
section
/-! DEFINITION. Atomics and reductions, majors 0x27 and 0x28, and their application at the home (R172, R276 to R279, R341 to
R343). -/

namespace Sys2Proof.Machine

/-- New value of an atomic or a reduction on `n`-bit values; none when AMCAS fails and writes nothing (Tables 21.3 and
23.5). REDFADD rounds to nearest even whatever `rnd` says (R342). -/
def atomNew {n : Nat} (op : AtomOp) (old val cmp : BitVec n) : Option (BitVec n) :=
  match op with
  | .add => some (old + val)
  | .and => some (old &&& val)
  | .or => some (old ||| val)
  | .xor => some (old ^^^ val)
  | .min => some (if val.slt old then val else old)
  | .max => some (if old.slt val then val else old)
  | .minz => some (if val.ult old then val else old)
  | .maxz => some (if old.ult val then val else old)
  | .swp => some val
  | .cas => if old = cmp then some val else none
  | .fadd => some (BitVec.ofNat n (fAdd f32 0 (unpack f32 (old.toNat % 2 ^ 32)) (unpack f32 (val.toNat % 2 ^ 32))))

/-- Bytes an operation acts on. -/
def wideBytes (wide : Bool) : Nat := if wide then 8 else 4

/-- New bytes at the home from the old ones. -/
def atomBytes (op : AtomOp) (wide : Bool) (old : List Byte) (val cmp : W64) : Option (List Byte) :=
  if wide then (atomNew op (BitVec.ofNat 64 (leNat old)) val cmp).map (fun v => toBytes 8 v.toNat)
  else (atomNew op (BitVec.ofNat 32 (leNat old)) (val.setWidth 32) (cmp.setWidth 32)).map (fun v => toBytes 4 v.toNat)

/-- The address checks that atomics and reductions share, up to the region's w right and iron; a missing r right is the home's to
answer (R172, R277, R342). Where `had` says that a result is in hand, a walk takes place in this execution, so that no FILL comes before
the collection (R32; assumption 103): its faults are raised and its rights met here, and it sets the bits of its entry. -/
def rmwAccess (s : State) (a : SReg) (nr : Disp) (n : Nat) (read had : Bool) (go : State → Nat → Option Nat → State) : State :=
  let ea := rdS s a
  let va := ea.toNat % 2 ^ 48
  if ea.toNat % n ≠ 0 then raise s .align
  else if bitsOf ea 63 48 ≠ 0 ∨ viewBit va = true then raise s .prot
  else if invBarred s then notReady s nr .fill (orderRes s.curCore s.curSlot)
  else
    let at_ := fun (s : State) (pa : Nat) (e : TlbEntry) =>
      if !mayWriteLine s (curPart s) s.curCore (pa / 64) then raise s .prot
      else go s pa (if e.comp then some e.dslot else none)
    match xlate s va .dev read true with
    | .miss =>
      if !had then walkMiss s nr va true
      else match walkTables s (curPart s) va with
        | .invalid => raiseXlat s .pfw
        | .prot => raiseXlat s .prot
        | .ok e pte =>
          if e.allows .dev read true false then at_ (markPte s (curPart s) pte true) (e.phys va) e else raiseXlat s .prot
    | .bad t => raiseXlat s t
    | .ok pa e => at_ s pa e

/-- Whether an order acquires. -/
def AmOrd.acquires : AmOrd → Bool
  | .acq | .ar => true
  | _ => false

/-- Whether an order releases. -/
def AmOrd.releases : AmOrd → Bool
  | .rel | .ar => true
  | _ => false

/-- Whether the slot's atomic is the one of this PC and line. -/
def Atom.collected (t : Atom) (pc : VA) (line : Nat) : Bool := t.pc == pc && t.addr / 64 == line

/-- Whether the slot holds a result for its PC and the line of a virtual address. -/
def resultAt (s : State) (va : Nat) : Bool :=
  match (slot s).atom with
  | some t => t.ans != .pending && t.pc == (slot s).pc && t.va / 64 == va / 64
  | none => false

/-- AM* (R277, R278): collects the result held for this PC and line, or sends the operation to the home. An order that is open, or a
posted store to the line, refuses it FILL before anything is sent (R150, R279). An atomic for another PC or line is discarded, held or
in flight; one in flight takes a place of the posted-store buffer, and with every place taken this one is refused BUSY. The home has
served the claims at the line when it applied the operation, so none holds its result back (R38). An atomic that completes discards a
value held for a load's retry, which its own write may be newer than (R156). -/
def atomic (s : State) (op : AtomOp) (d a : SReg) (nr : Disp) (w : Bool) (b : SReg) (ord : AmOrd) (sys : Bool) : State :=
  let n := wideBytes (!w)
  rmwAccess s a nr n true (resultAt s (rdS s a).toNat) (fun s pa comp =>
    let line : Resource := .line .dev (pa / 64)
    let new : Atom := { pc := (slot s).pc, va := (rdS s a).toNat, addr := pa, op := op, wide := !w, val := rdS s b,
                        cmp := rdS s d, comp := comp, acq := ord.acquires, rel := ord.releases, sys := sys, ans := .pending }
    let sendIt := fun (s : State) => notReady (modSlot s (fun l => { l with atom := some new })) nr .fill line
    let barred := localBarred s || dcfBarred s (rdS s a).toNat n || (ord.releases && anyOpen s) || lineOpen s .dev (pa / 64)
    let clear := modSlot s (fun l => { l with atom := none })
    match (slot s).atom with
    | none => if barred then notReady s nr .fill line else sendIt s
    | some t =>
      if t.collected (slot s).pc (pa / 64) then
        match t.ans with
        | .got bytes poison =>
          if poison then raise clear .memue
          else
            let v : W64 := if w then (BitVec.ofNat 32 (leNat bytes)).signExtend 64 else BitVec.ofNat 64 (leNat bytes)
            let s1 := ready (wrS clear d v)
            advance (if ord.acquires then acquireFx s1 sys else dropHold s1)
        | .denied t => raise clear t
        | _ => notReady s nr .fill line
      else if barred then notReady s nr .fill line
      else if t.ans == .pending && (psbFull s || engineHeld s) then notReady s nr .busy (.engine s.curCore)
      else sendIt (loseAtomAt s s.curCore s.curSlot))

/-- RED* (R342): one place in the posted-store buffer until the home applies it. With every place taken it is refused BUSY on the
transfer engine, as a store is (assumption 83). -/
def reduction (s : State) (op : AtomOp) (a : SReg) (nr : Disp) (w : Bool) (b : SReg) : State :=
  let n := wideBytes (!w)
  rmwAccess s a nr n false false (fun s pa comp =>
    let eng : Resource := .engine s.curCore
    if stBarred s || dcfBarred s (rdS s a).toNat n then notReady s nr .fill (orderRes s.curCore s.curSlot)
    else if atomBarred s then notReady s nr .busy eng
    else if psbFull s || engineHeld s then notReady s nr .busy eng
    else readyNext (post (dropHoldOn s .dev (pa / 64)) .dev pa (toBytes n (rdS s b).toNat) false (some (op, !w)) comp))

def execAmadd (d a : SReg) (nr : Disp) (w : Bool) (b : SReg) (ord : AmOrd) (sys : Bool) (s : State) : Out :=
  .next (atomic s .add d a nr w b ord sys)

def execAmand (d a : SReg) (nr : Disp) (w : Bool) (b : SReg) (ord : AmOrd) (sys : Bool) (s : State) : Out :=
  .next (atomic s .and d a nr w b ord sys)

def execAmor (d a : SReg) (nr : Disp) (w : Bool) (b : SReg) (ord : AmOrd) (sys : Bool) (s : State) : Out :=
  .next (atomic s .or d a nr w b ord sys)

def execAmxor (d a : SReg) (nr : Disp) (w : Bool) (b : SReg) (ord : AmOrd) (sys : Bool) (s : State) : Out :=
  .next (atomic s .xor d a nr w b ord sys)

def execAmmin (d a : SReg) (nr : Disp) (w : Bool) (b : SReg) (ord : AmOrd) (sys : Bool) (s : State) : Out :=
  .next (atomic s .min d a nr w b ord sys)

def execAmmax (d a : SReg) (nr : Disp) (w : Bool) (b : SReg) (ord : AmOrd) (sys : Bool) (s : State) : Out :=
  .next (atomic s .max d a nr w b ord sys)

def execAmminz (d a : SReg) (nr : Disp) (w : Bool) (b : SReg) (ord : AmOrd) (sys : Bool) (s : State) : Out :=
  .next (atomic s .minz d a nr w b ord sys)

def execAmmaxz (d a : SReg) (nr : Disp) (w : Bool) (b : SReg) (ord : AmOrd) (sys : Bool) (s : State) : Out :=
  .next (atomic s .maxz d a nr w b ord sys)

def execAmswp (d a : SReg) (nr : Disp) (w : Bool) (b : SReg) (ord : AmOrd) (sys : Bool) (s : State) : Out :=
  .next (atomic s .swp d a nr w b ord sys)

def execAmcas (d a : SReg) (nr : Disp) (w : Bool) (b : SReg) (ord : AmOrd) (sys : Bool) (s : State) : Out :=
  .next (atomic s .cas d a nr w b ord sys)

def execRedadd (a : SReg) (nr : Disp) (w : Bool) (b : SReg) (s : State) : Out := .next (reduction s .add a nr w b)

def execRedmin (a : SReg) (nr : Disp) (w : Bool) (b : SReg) (s : State) : Out := .next (reduction s .min a nr w b)

def execRedmax (a : SReg) (nr : Disp) (w : Bool) (b : SReg) (s : State) : Out := .next (reduction s .max a nr w b)

def execRedand (a : SReg) (nr : Disp) (w : Bool) (b : SReg) (s : State) : Out := .next (reduction s .and a nr w b)

def execRedor (a : SReg) (nr : Disp) (w : Bool) (b : SReg) (s : State) : Out := .next (reduction s .or a nr w b)

def execRedxor (a : SReg) (nr : Disp) (w : Bool) (b : SReg) (s : State) : Out := .next (reduction s .xor a nr w b)

def execRedfadd (a : SReg) (nr : Disp) (b : SReg) (s : State) : Out := .next (reduction s .fadd a nr true b)

/-! ## At the home -/

/-- ATOMIC_AT_HOME (R277): the home applies the atomic of slot `k` once, as one RMW, and holds the old value for the slot. It does so
where the RMW can stand in program order, which is at the execution that collects the result, or for a save, which waits for it (R278;
assumption 103). A poisoned line
is not written and marks the result (R278); a region whose iron the core no longer holds answers PROT. -/
def execAtomicAtHome (c k : Nat) (s : State) : Out :=
  .next (match (getSlot s c k).atom with
    | some t =>
      if t.ans == .pending && atomDue s c k t then
        let p := (partOf s c).getD 0
        let n := wideBytes t.wide
        let r := homeRead s p .dev t.comp.isSome false t.addr n
        let answer := fun (s : State) (x : Answer) =>
          wakeRes (wakeRes (modSlotAt s c k (fun l => { l with atom := some { t with ans := x } }))
            (.line .dev (t.addr / 64))) (.engine c)
        if !performsLine s p c (t.addr / 64) || !mayReadLine s p (t.addr / 64) then answer s (.denied .prot)
        else if r.2 then answer s (.got r.1 true)
        else
          let s1 := match atomBytes t.op t.wide r.1 t.val t.cmp with
            | some new => homeWrite s p c .dev t.comp t.addr new
            | none => s
          answer s1 (.got r.1 false)
      else s
    | none => s)

end Sys2Proof.Machine
end

