-- ==== Sys2Proof/Machine/Message.lean ====
section
/-! DEFINITION. Messages, message interrupts, remote calls: majors 0x29 to 0x2C, and their carriers (R93 to R106, R248, R325,
R339, R340, R348, R353). -/

namespace Sys2Proof.Machine

/-! ## Shared parts -/

/-- The timing refusal of an instruction that reads and writes nothing (MON, GEAR): FILL while an XLINV or a DICTLD of the slot is
under way (R77). -/
def invTiming (s : State) (nr : Disp) (go : State) : State :=
  if invBarred s then notReady s nr .fill (orderRes s.curCore s.curSlot) else go

/-- The timing refusals of an access without a translation, after its state causes (R33, R77): FILL while an XLINV or a DICTLD of
the slot is under way or an obligation of an earlier fence is open (R150), and for a synchronising action BUSY while an atomic is in
flight (R278). A park on one of them has no wait-for edge: a probing RECV so parked, its message or reply at hand, waits for nobody (R112;
assumption 117). -/
def timing (s : State) (nr : Disp) (sync : Bool) (go : State) : State :=
  if invBarred s || localBarred s then notReady s nr .fill (orderRes s.curCore s.curSlot)
  else if sync && atomBarred s then notReady s nr .busy (.engine s.curCore)
  else go

/-- Sender word of a message (Table 6.1). -/
def senderWord (lcn : Nat) : W64 := BitVec.ofNat 64 lcn

/-- Reply handle of a caller and a block (Table 6.1). -/
def replyHandle (lcn blk : Nat) : W64 := BitVec.ofNat 64 (2 ^ 31 + blk * 2 ^ 16 + lcn)

/-- Whether a value is a well-formed reply handle (R105, R106). -/
def handleOk (h : W64) : Bool :=
  bitOf h 31 && bitsOf h 63 32 == 0 && bitsOf h 30 26 == 0 && decide (bitsOf h 25 16 * 64 + 64 ≤ guardBase)

/-! ## Credits (R97) -/

/-- Credits that entries hold for a channel. -/
def creditsIn (l : List CreditEntry) (t ch : Nat) : Nat :=
  match l.find? (fun e => e.tgt == t && e.ch == ch) with
  | some e => e.n
  | none => 0

/-- Set the credits of an entry, which becomes the most recently used. -/
def putEntry (l : List CreditEntry) (t ch n : Nat) : List CreditEntry :=
  { tgt := t, ch := ch, n := n } :: l.filter (fun e => !(e.tgt == t && e.ch == ch))

/-- Whether there is an entry for a channel that holds less than 2 credits (R97, item 5). -/
def takesCredit (l : List CreditEntry) (t ch : Nat) : Bool := l.any (fun e => e.tgt == t && e.ch == ch && e.n != 2)

/-- Add `n` credits to a sender's entry for a channel: the 8 entries that result, and what goes back to which channel: the
credits that an entry of 2 cannot take, and those of the entry dropped to make room (R97, items 4 and 5). -/
def addEntry (l : List CreditEntry) (t ch n : Nat) : List CreditEntry × List CreditEntry :=
  let sum := creditsIn l t ch + n
  let full := !l.any (fun e => e.tgt == t && e.ch == ch) && decide (8 ≤ l.length)
  let rest := if full then l.dropLast else l
  let old := if full then l.getLast?.toList else []
  let back : CreditEntry := { tgt := t, ch := ch, n := sum - min 2 sum }
  (putEntry rest t ch (min 2 sum), (old ++ [back]).filter (fun e => e.n != 0))

/-- Credits a core holds for a channel. -/
def Core.creditsFor (k : Core) (t ch : Nat) : Nat := creditsIn k.credits t ch

/-- Set the credits of an entry of a core. -/
def Core.putCredit (k : Core) (t ch n : Nat) : Core := { k with credits := putEntry k.credits t ch n }

/-- Spend one credit. -/
def spendCredit (s : State) (t ch : Nat) : State := modCur s (fun k => k.putCredit t ch (k.creditsFor t ch - 1))

/-- A refusal CREDIT: it starts a request unless one is outstanding (R97, item 2). -/
def refuseCredit (s : State) (nr : Disp) (t ch : Nat) : State :=
  let s1 := if (cur s).creditAsked.contains (t, ch) then s
    else sendFrom (modCur s (fun k => { k with creditAsked := k.creditAsked ++ [(t, ch)] })) s.curCore s.curSlot 0
      (.creditReq t ch s.curCore)
  notReady s1 nr .credit (.credit s.curCore t ch)

/-- The credit checks of SEND and RCALL (R95, R104). -/
def withCredit (s : State) (nr : Disp) (t ch : Nat) (rel : Bool) (go : State → State) : State :=
  if !inPart s t then raise s .prot
  else if (cur s).creditsFor t ch = 0 ∨ heldBack s (.credit s.curCore t ch) = true then refuseCredit s nr t ch
  else timing s nr rel (go (spendCredit s t ch))

/-! ## SEND, RECV, RCALL, RRET -/

/-- SEND (R95, R353). -/
def execSend (d : VReg) (a : SReg) (nr : Disp) (ch : BitVec 3) (rel : Bool) (s : State) : Out :=
  let t := lo16 (rdS s a)
  .next (withCredit s nr t ch.toNat rel (fun s =>
    let s1 := send s rel (.msg t ch.toNat (rdV s d) (senderWord s.curCore))
    readyNext (if rel then dropHold s1 else s1)))

/-- RECV of a channel (R96, R111, R340). -/
def execRecv (d : VReg) (a : SReg) (nr : Disp) (ch : BitVec 3) (probe acq : Bool) (s : State) : Out :=
  let res : Resource := .struct s.curCore .channel ch.toNat false
  let wait := lo16 (rdS s a)
  .next (if probe && nr != .park then raise s .illegal
    else if probe && !inPart s wait then raise s .prot
    else match sget [] (cur s).chans ch.toNat with
    | [] => notReadyEdge s nr .qempty res (if probe then some wait else none)
    | m :: rest =>
      if heldBack s res then notReadyEdge s nr .qempty res (if probe then some wait else none)
      else timing s nr acq (
        let s1 := modCur s (fun k => { k with chans := sset [] k.chans ch.toNat rest })
        let s2 := wrS (wrV s1 d m.pay) a m.word
        let s3 := send s2 false (.creditBack m.from_ s.curCore ch.toNat)
        let s4 := ready (wakeStruct s3 s.curCore .channel ch.toNat)
        advance (if acq then acquireFx s4 false else dropRead s4)))

/-- RECV of a reply (R106, R111): ILLEGAL precedes the handle's BOUNDS, as R33 and R60 order them. The wait-for edge is read from
word 0 at issue (assumption 72). -/
def execRecvReply (d : VReg) (a : SReg) (nr : Disp) (probe acq : Bool) (s : State) : Out :=
  let h := rdS s a
  let blk := bitsOf h 25 16
  let res : Resource := .reply s.curCore blk
  .next (if probe && nr != .park then raise s .illegal
    else if !handleOk h || bitsOf h 15 0 != s.curCore then raise s .bounds
    else
    let s := ownPerformed s 0
    if !(cur s).feBit (8 * blk) || heldBack s res then
      notReadyEdge s nr .reply res (if probe then some (leNat ((cur s).spRead (64 * blk) 2)) else none)
    else timing s nr acq (
      if (cur s).spBadIn (64 * blk) 64 then raiseRow s s.curCore
      else
        let v := BitVec.ofNat 512 (leNat ((cur s).spRead (64 * blk) 64))
        let s1 := ready (feFill (wrV s d v) s.curCore (8 * blk) 8 false)
        advance (if acq then acquireFx s1 false else dropRead s1)))

/-- RCALL (R104, R339). -/
def execRcall (d a : SReg) (nr : Disp) (v : VReg) (rel : Bool) (ch : BitVec 3) (s : State) : Out :=
  let t := lo16 (rdS s a)
  let blk := bitsOf (rdS s a) 31 16
  .next (if blk % 64 ≠ 0 then raise s .align
    else if guardBase < blk + 64 then raise s .prot
    else withCredit (ownPerformed s 0) nr t ch.toNat rel (fun s =>
      let h := replyHandle s.curCore (blk / 64)
      let s1 := spWrite (feFill s s.curCore (blk / 8) 8 false) s.curCore blk (toBytes 8 t)
      let s2 := wrS (send s1 rel (.msg t ch.toNat (rdV s v) h)) d h
      readyNext (if rel then dropHold s2 else s2)))

/-- RRET (R105): always ready; the reply follows the slot's posted work. -/
def execRret (d : VReg) (a : SReg) (s : State) : Out :=
  let h := rdS s a
  .next (if !handleOk h then raise s .bounds
    else if !inPart s (bitsOf h 15 0) then raise s .prot
    else readyNext (dropHold (send s true (.reply (bitsOf h 15 0) (bitsOf h 25 16) (rdV s d)))))

/-! ## Message handlers (R101, R102) -/

/-- MMASK (R102). -/
def execMmask (a : SReg) (s : State) : Out :=
  let v := (rdS s a).toNat
  .next (advance (modSlot s (fun l =>
    if l.msgMasked then l else { l with msgMasked := true, msgLeft := if v = 0 ∨ 256 < v then 256 else v })))

/-- MUNMASK (R102). -/
def execMunmask (s : State) : Out := .next (advance (modSlot s (fun l => { l with msgMasked := false, msgLeft := 0 })))

/-- MVEC (R101, R325). -/
def execMvec (s : State) : Out :=
  .next (if (slot s).sys || !(slot s).inHandler then raise s .illegal
    else
      let t := (rdS s 28).setWidth 48
      modSlot (modCur s (fun k => k.swapShadow s.curSlot)) (fun l => { l with inHandler := false, pc := t }))

/-! ## Carriers -/

/-- Whether a carrier for a saved core goes to the hamper (Table 19.2, R98). A link credit, which no table lists, goes there too, so
that no credit is lost (assumption 87). -/
def Body.diverts : Body → Bool
  | .msg _ _ _ _ | .creditReq _ _ _ | .creditReturn _ _ _ | .cmdReq _ _ | .cmdReturn _ _ | .reply _ _ _ | .linkWord _ _ _
  | .linkCredit _ _ | .share _ _ | .shareReport _ _ _ _ | .pcmd _ _ | .countInc _ _ _ | .forward _ _
  | .winWrite _ _ _ _ _ => true
  | _ => false

/-- The core a carrier is for. -/
def Body.target : Body → Nat
  | .msg t _ _ _ | .creditReq t _ _ | .creditGrant t _ _ _ | .creditReturn t _ _ | .creditBack t _ _ | .cmdReq t _
  | .cmdGrant t _ _ | .cmdReturn t _ | .cmdBack t _ | .reply t _ _ | .linkWord t _ _ | .linkCredit t _ | .probe t _
  | .stealReq t _ _ | .stealAns t _ _ | .notice t _ _ _ | .share t _ | .shareReport t _ _ _ | .pcmd t _ | .countInc t _ _
  | .forward t _ | .barNotice t _ _ _ _ _ _ | .winWrite t _ _ _ _ | .spill t _ => t
  | .barArrive _ _ _ _ _ _ _ => noCore

/-- Whether a carrier stands at a saved core's router behind one that a full hamper does not take (R249). -/
def jammed (s : State) (i : Nat) (t : Nat) : Bool :=
  (getCore s t).away && !mayDivert s t && (s.net.take i).any (fun p => p.body.target == t && p.body.diverts)

/-- Whether a carrier may arrive: the posted work it follows is performed (R150), no carrier that `same` calls one of its order
is ahead of it, and none waits for a full hamper before it. -/
def canArrive (s : State) (i : Nat) (same : Packet → Packet → Bool) : Option Packet :=
  match s.net[i]? with
  | none => none
  | some p =>
    if (getCore s p.src).openBefore p.slot p.after || (s.net.take i).any (same p) || jammed s i p.body.target then none
    else some p

/-- The carrier leaves the mesh. -/
def dropNet (s : State) (i : Nat) : State := { s with net := s.net.eraseIdx i }

/-- Carriers keep no order among themselves. -/
def noOrder (_ _ : Packet) : Bool := false

/-- The engine of a core that sends a carrier: its press reports shares and PCMD steps (R202, R203). -/
def Body.clock : Body → Clock
  | .shareReport _ _ _ _ | .countInc _ _ _ => .press
  | _ => .core

/-- The Lamport value of a hamper entry (R255): the carrier's own, or for a carrier that had none that of the engine that sent it,
whose clock steps. -/
def stampEntry (s : State) (p : Packet) : Packet × State :=
  if p.body.stamped then (p, s)
  else match portOf p.src with
    | some j =>
      let l := (getPort s j).lamport + 1
      ({ p with lam := l }, modPort s j (fun x => { x with lamport := l }))
    | none =>
      if p.src < noCore then
        let l := (getCore s p.src).clock p.body.clock + 1
        ({ p with lam := l }, modCore s p.src (fun k => k.setClock p.body.clock l))
      else (p, s)

/-- Divert a carrier to the hamper of the target core's partition (R248). -/
def divertTo (s : State) (t : Nat) (p : Packet) : State :=
  let e := stampEntry s p
  modPart e.2 ((partOf s t).getD 0) (fun x => { x with hamper := x.hamper ++ [e.1] })

/-- Divert the carrier at place `i` of the mesh, or leave it there while the hamper is full (R248, R249). -/
def divert (s : State) (i t : Nat) (p : Packet) : State := if mayDivert s t then divertTo (dropNet s i) t p else s

/-- A message enters its channel; its time of arrival is the core's cycle, and a slot parked on the channel wakes. -/
def putMessage (s : State) (t ch : Nat) (pay : V512) (w : W64) (src : Nat) : State :=
  let s2 := modCore s t (fun k =>
    { k with chans := sset [] k.chans ch (sget [] k.chans ch ++ [{ pay := pay, word := w, from_ := src, stamp := k.cyc }]) })
  wakeStruct s2 t .channel ch

/-- MESSAGE_ARRIVAL (R93, R95, R296): messages of one core to one channel arrive in order; at a saved core the hamper takes
it; at a core without a running part it is discarded and its credit returns. -/
def execMessageArrival (i : Nat) (s : State) : Out :=
  let same := fun (p q : Packet) => p.src == q.src && (match p.body, q.body with
    | .msg t ch _ _, .msg u dh _ _ => t == u && ch == dh
    | _, _ => false)
  .next (match canArrive s i same with
    | some p =>
      match p.body with
      | .msg t ch pay w =>
        let s1 := dropNet s i
        let k := getCore s t
        if k.away then divert s i t p
        else if k.allEmpty then freeCredit (recvPk s1 t p) t ch
        else putMessage (recvPk s1 t p) t ch pay w p.src
      | _ => s
    | none => s)

/-- Answer a credit request at its channel, or hold it (R97, item 3). -/
def answerCredit (s : State) (t ch asker : Nat) : State :=
  let k := getCore s t
  let free := sget 4 k.chFree ch
  if free = 0 then modCore s t (fun k => { k with chHeld := sset [] k.chHeld ch (sget [] k.chHeld ch ++ [asker]) })
  else
    let n := min free 2
    sendFrom (modCore s t (fun k => { k with chFree := sset 4 k.chFree ch (free - n) })) t 0 0
      (.creditGrant asker t ch n)

/-- Credits a core holds for another core's PCMD places (R203). -/
def Core.cmdCredits (k : Core) (t : Nat) : Nat := sget 0 k.pressCr t

/-- Answer a request for credits of core `t`'s PCMD places, or hold it (R203). -/
def answerCmd (s : State) (t asker : Nat) : State :=
  let free := (getCore s t).cmdFree
  if free = 0 then modCore s t (fun k => { k with cmdHeld := k.cmdHeld ++ [asker] })
  else
    let n := min free 2
    sendFrom (modCore s t (fun k => { k with cmdFree := free - n })) t 0 0 (.cmdGrant asker t n)

/-- One credit comes back to core `t`'s PCMD places. -/
def freeCmd (s : State) (t : Nat) : State :=
  match (getCore s t).cmdHeld with
  | a :: rest => sendFrom (modCore s t (fun k => { k with cmdHeld := rest })) t 0 0 (.cmdGrant a t 1)
  | [] => modCore s t (fun k => { k with cmdFree := k.cmdFree + 1 })

/-- `n` credits come back. -/
def freeCmds (s : State) (t : Nat) : Nat → State
  | 0 => s
  | n + 1 => freeCmds (freeCmd s t) t n

/-- Set the credits of an entry for remote presses, which becomes the most recently used. -/
def Core.putCmd (k : Core) (t n : Nat) : Core :=
  { k with pressCr := (t, n) :: k.pressCr.filter (fun (e : Nat × Nat) => e.1 != t) }

/-- Add `n` credits to a core's entry for another core's PCMD places: two entries, of at most 2 credits (R203). -/
def addCmd (s : State) (c t n : Nat) : State :=
  let k := getCore s c
  let new := min 2 (k.cmdCredits t + n)
  let back := k.cmdCredits t + n - new
  let has := k.pressCr.any (fun e => e.1 == t)
  let victim := if !has && decide (2 ≤ k.pressCr.length) then k.pressCr.getLast? else none
  let s1 := modCore s c (fun k =>
    { k with pressCr := if victim.isSome then k.pressCr.dropLast else k.pressCr }.putCmd t new)
  let s2 := match victim with
    | some e => if e.2 = 0 then s1 else sendFrom s1 c 0 0 (.cmdReturn e.1 e.2)
    | none => s1
  if back = 0 then s2 else sendFrom s2 c 0 0 (.cmdReturn t back)

/-- CREDIT_REQUEST_ARRIVAL (R97, R98, R203). -/
def execCreditRequestArrival (i : Nat) (s : State) : Out :=
  .next (match canArrive s i noOrder with
    | some p =>
      match p.body with
      | .creditReq t ch asker =>
        let s1 := dropNet s i
        if (getCore s t).away then divert s i t p
        else answerCredit (recvPk s1 t p) t ch asker
      | .cmdReq t asker =>
        let s1 := dropNet s i
        if (getCore s t).away then divert s i t p else answerCmd s1 t asker
      | _ => s
    | none => s)

/-- Credits that go back to their channels. -/
def returnCredits (s : State) (c : Nat) (es : List CreditEntry) : State :=
  es.foldl (fun s e => sendFrom s c 0 0 (.creditReturn e.tgt e.ch e.n)) s

/-- Add `n` credits to a core's entry for a channel. -/
def addCredits (s : State) (c t ch n : Nat) : State :=
  let r := addEntry (getCore s c).credits t ch n
  returnCredits (modCore s c (fun k => { k with credits := r.1 })) c r.2

/-- Add `n` credits to a Salden port's entry for a channel (R205). -/
def addPortCredits (s : State) (j t ch n : Nat) : State :=
  let r := addEntry (getPort s j).credits t ch n
  returnCredits (modPort s j (fun p => { p with credits := r.1 })) (portId j) r.2

/-- CREDIT_GRANT_ARRIVAL (R97, R98, R203): a grant answers the core's request, fills its entry and wakes parked senders; one that
reaches a core being saved, or saved, goes back. -/
def execCreditGrantArrival (i : Nat) (s : State) : Out :=
  .next (match canArrive s i noOrder with
    | some p =>
      match p.body with
      | .creditGrant asker t ch n =>
        let s1 := dropNet s i
        match portOf asker with
        | some j => addPortCredits s1 j t ch n
        | none =>
        let came := fun (k : Core) => { k with creditAsked := k.creditAsked.filter (fun e => e != (t, ch)) }
        if (getCore s asker).away then sendFrom (modCore s1 asker came) asker 0 0 (.creditReturn t ch n)
        else wakeRes (addCredits (modCore (recvPk s1 asker p) asker came) asker t ch n) (.credit asker t ch)
      | .cmdGrant asker t n =>
        let s1 := dropNet s i
        let came := modCore s1 asker (fun k => { k with pressAsked := k.pressAsked.filter (fun e => e != t) })
        if (getCore s asker).away then sendFrom came asker 0 0 (.cmdReturn t n)
        else wakeRes (addCmd came asker t n) (.pressCredit asker t)
      | _ => s
    | none => s)

/-- CREDIT_RETURN_ARRIVAL (R97, R98, R203): the credit of a message reaches its sender, whose entry takes it if it exists and
holds less than 2, else it goes back to the channel; a credit that reaches its channel is granted to the oldest held
request or counts as free. -/
def execCreditReturnArrival (i : Nat) (s : State) : Out :=
  .next (match canArrive s i noOrder with
    | some p =>
      let s1 := dropNet s i
      match p.body with
      | .creditBack c t ch =>
        let k := getCore s c
        match portOf c with
        | some j =>
          if takesCredit (getPort s j).credits t ch then addPortCredits s1 j t ch 1
          else sendFrom s1 c 0 0 (.creditReturn t ch 1)
        | none =>
        if k.away || !takesCredit k.credits t ch then sendFrom s1 c 0 0 (.creditReturn t ch 1)
        else wakeRes (addCredits (recvPk s1 c p) c t ch 1) (.credit c t ch)
      | .creditReturn t ch n =>
        if (getCore s t).away then divert s i t p
        else freeCredits (recvPk s1 t p) t ch n
      | .cmdBack c t =>
        let k := getCore s c
        let has := k.pressCr.any (fun e => e.1 == t)
        if k.away || !has || k.cmdCredits t == 2 then sendFrom s1 c 0 0 (.cmdReturn t 1)
        else wakeRes (addCmd s1 c t 1) (.pressCredit c t)
      | .cmdReturn t n =>
        if (getCore s t).away then divert s i t p else freeCmds s1 t n
      | _ => s
    | none => s)

/-- A reply reaches its block, as one event (R105): discarded when word 0 is full, else written with its eight bits set. -/
def putReply (s : State) (t blk : Nat) (pay : V512) : State :=
  if (getCore s t).feBit (8 * blk) then s
  else feFill (spWrite s t (64 * blk) (toBytes 64 pay.toNat)) t (8 * blk) 8 true

/-- REPLY_ARRIVAL (R105, R348). -/
def execReplyArrival (i : Nat) (s : State) : Out :=
  .next (match canArrive s i noOrder with
    | some p =>
      match p.body with
      | .reply t blk pay =>
        let s1 := dropNet s i
        if (getCore s t).away then divert s i t p
        else putReply (recvPk s1 t p) t blk pay
      | _ => s
    | none => s)

/-- MESSAGE_INTERRUPT (R100): slot `k` of core `c`, in whose cycle the core stands, accepts the interrupt that is due, unless the
core is being saved (R246). The core cycle itself performs it, in place of issuing. -/
def execMessageInterrupt (c k : Nat) (s : State) : Out :=
  .next (if (getCore s c).cyc % 8 = k ∧ (getCore s c).save = .no then modCore s c (fun x => x.tryInt k) else s)

/-- MMASK_EXPIRY (R102): a masked slot whose count has run out is unmasked. -/
def execMmaskExpiry (c k : Nat) (s : State) : Out := .next (modSlotAt s c k Slot.expireMask)

/-- CLAIM_EXPIRY (R37): claims of slot `k` whose age has reached 1,024 rotations become invalid. -/
def execClaimExpiry (c k : Nat) (s : State) : Out := .next (modSlotAt s c k Slot.expireClaims)

/-- PARK_TIMEOUT (R42): a PARK of slot `k` whose timeout has run out wakes with reason 2. -/
def execParkTimeout (c k : Nat) (s : State) : Out :=
  .next (modSlotAt s c k (fun l => l.expirePark (getCore s c).cyc))

end Sys2Proof.Machine
end

