-- ==== Sys2Proof/Machine/Barrier.lean ====
section
/-! DEFINITION. Group barriers, monitors and parking: majors 0x2F and 0x30 (R41, R42, R155, R231, R232, R305 to R307, R326,
R330). -/

namespace Sys2Proof.Machine

/-! ## Barriers -/

/-- The launch and group that a barrier handle names (R305); none raises BOUNDS. A second valid entry for one group does so
too (R306): the one that the launch has used later (assumption 109). -/
def barrierOf (s : State) (h : W64) : Option (Launch × Nat) :=
  let p := curPart s
  let i := h.toNat
  if 0x400 ≤ i then none
  else match handleWords s p i with
    | none => none
    | some w =>
      let g := natBits w.1 55 48
      match launchTagged s p w.2 with
      | none => none
      | some l =>
        let twin := (getPart s p).kept.any (fun e => e.1 == l.q && e.2.1 != i && decide (e.2.1 < 0x400) &&
          bitsOf e.2.2.1 55 48 == g)
        if natBits w.1 63 63 = 1 ∧ g < l.groups.length ∧ twin = false then some (l, g) else none

/-- The use of a barrier handle keeps its entry for the launch (R261). -/
def useBarrier (s : State) (h : W64) (l : Launch) : State :=
  match handleWords s (curPart s) h.toNat with
  | some w => keepHandle s (curPart s) h.toNat l.q w
  | none => s

/-- The current core's rank in group `g` of launch `l`, with its node's index; none when it is no member. -/
def rankIn (s : State) (l : Launch) (g : Nat) : Option (Nat × Nat) :=
  match (cur s).task with
  | some t =>
    if t.q = l.q ∧ t.groups.contains g = true then
      (l.nodes[t.node]?).bind (fun n => ((l.members n g).findIdx? (· == s.curCore)).map (fun r => (t.node, r)))
    else none
  | none => none

/-- A core's record for a group (R306): its phase count and its own arrivals. -/
def Core.barRec (k : Core) (g h : Nat) : BarRec :=
  (k.bars.find? (fun b => b.group == g)).getD { group := g, handle := h, p := 0, own := 0 }

/-- Replace a core's record. -/
def Core.putBar (k : Core) (b : BarRec) : Core := { k with bars := b :: k.bars.filter (fun x => x.group != b.group) }

/-- GARR (R307): always ready (R28). An arrival is a synchronising action (R145) and discards a held value (R150). -/
def execGarr (a : SReg) (rel : Bool) (s : State) : Out :=
  let h := rdS s a
  .next (match barrierOf s h with
    | none => raise s .bounds
    | some (l, g) =>
      match rankIn s l g with
      | none => raise s .prot
      | some (node, r) =>
        let s1 := modCur (useBarrier s h l) (fun k =>
          let b := k.barRec g h.toNat
          k.putBar { b with handle := h.toNat, own := b.own + 1 })
        let s2 := send s1 rel (.barArrive (curPart s) h.toNat l.q node g r false)
        readyNext (dropHold s2))

/-- The node whose instance GARRR acts on (R305): the core's own when it holds the group, else the earliest placed of the
launch that holds it and runs. -/
def garrrNode (s : State) (l : Launch) (g : Nat) : Option Nat :=
  let holds := fun (n : Node) => n.st == .running && !(l.members n g).isEmpty
  let own := match (cur s).task with
    | some t => if t.q = l.q then (l.nodes[t.node]?).bind (fun n => if holds n then some t.node else none) else none
    | none => none
  match own with
  | some n => some n
  | none =>
    let all := (l.nodes.zipIdx.filter (fun e => holds e.1)).map (fun e => (e.1.order, e.2))
    let first := (all.map (·.1)).foldl min (2 ^ 64)
    (all.find? (fun e => e.1 == first)).map (·.2)

/-- GARRR (R307): always ready; the home discards a rank that is not in the group, and an arrival that reaches no instance. -/
def execGarrr (a b : SReg) (rel : Bool) (s : State) : Out :=
  let h := rdS s a
  let k := rdS s b
  .next (match barrierOf s h with
    | none => raise s .bounds
    | some (l, g) =>
      if bitsOf k 63 16 ≠ 0 then raise s .bounds
      else
        let s1 := useBarrier s h l
        let s2 := match garrrNode s l g with
          | some n => send s1 rel (.barArrive (curPart s) h.toNat l.q n g k.toNat true)
          | none => s1
        readyNext (dropHold s2))

/-- GWAIT (R307). -/
def execGwait (d a : SReg) (nr : Disp) (s : State) : Out :=
  let h := rdS s a
  .next (match barrierOf s h with
    | none => raise s .bounds
    | some (l, g) =>
      match rankIn s l g with
      | none => raise s .prot
      | some _ =>
        let s0 := useBarrier s h l
        let b := (cur s).barRec g h.toNat
        let res : Resource := .barrier (curPart s) h.toNat
        let own := fun c (_ : Nat) (_ : Claim) =>
          let x := (getCore s c).barRec g h.toNat
          decide (x.own ≤ x.p)
        if b.p < b.own ∨ heldBackBy s res own = true then notReady s0 nr .phase res
        else timing s0 nr true (
          advance (acquireFx (ready (wrS s0 d (BitVec.ofNat 64 b.p))) false)))

/-- An instance of a barrier: its node, of a live launch, holds the group and runs (R305). -/
def barInst (s : State) (p h q node g : Nat) : Option (BarInst × List Nat) :=
  match liveLaunch s p q with
  | none => none
  | some l =>
    match l.nodes[node]? with
    | none => none
    | some n =>
      if n.st != .running then none
      else some (((getPart s p).bars.find? (fun b => b.handle == h && b.q == q && b.node == node)).getD
        { handle := h, q := q, node := node, group := g, p := 0, arr := [] }, l.members n g)

/-- Own arrivals of one core at one barrier are for phases in their order (R307), and are counted in it. -/
def samePhases (p q : Packet) : Bool :=
  match p.body, q.body with
  | .barArrive x h l n _ _ false, .barArrive y i m o _ _ false => p.src == q.src && x == y && h == i && l == m && n == o
  | _, _ => false

/-- BARRIER_ARRIVAL (R306): rank r's arrivals advance by one; each phase in which every rank has arrived completes, and
notices go to the members. A rank further ahead than R306 lets it go counts on (assumption 109). -/
def execBarrierArrival (i : Nat) (s : State) : Out :=
  .next (match canArrive s i samePhases with
    | some pk =>
      match pk.body with
      | .barArrive p h q node g r remote =>
        let sl := barrierSlice s p h
        let s0 := recvSlice (dropNet s i) sl pk.lam
        match barInst s0 p h q node g with
        | none => s0
        | some (b, ms) =>
          if ms.length ≤ r then s0
          else
            let arr := sset 0 b.arr r (sget 0 b.arr r + 1)
            let done := ((List.range ms.length).map (fun x => sget 0 arr x)).foldl min (sget 0 arr r)
            let b2 := { b with arr := arr, p := done }
            let s1 := modPart s0 p (fun t => { t with
              bars := b2 :: t.bars.filter (fun x => !(x.handle == h && x.q == q && x.node == node)) })
            let s2 := if remote then sendSlice s1 sl (.barNotice (ms.getD r 0) q node g h done 1) else s1
            if b.p < done then
              wakeRes (ms.foldl (fun s m => sendSlice s sl (.barNotice m q node g h done 0)) s2) (.barrier p h)
            else s2
      | _ => s
    | none => s)

/-- BARRIER_NOTICE_ARRIVAL (R306): a notice updates a core's record: the phase count, and an arrival made on its behalf. One for a node
that the core no longer runs finds no record (R305). -/
def execBarrierNoticeArrival (i : Nat) (s : State) : Out :=
  .next (match canArrive s i noOrder with
    | some pk =>
      match pk.body with
      | .barNotice t q node g h p n =>
        if (getCore s t).away then dropNet s i else
        let mine := match (getCore s t).task with
          | some x => x.q == q && x.node == node
          | none => false
        let s1 := modCore (recvPk (dropNet s i) t pk) t (fun k =>
          let b := k.barRec g h
          if mine then k.putBar { b with handle := h, p := max b.p p, own := b.own + n } else k)
        wakeRes s1 (.barrier ((partOf s t).getD 0) h)
      | _ => s
    | none => s)

/-- AUTOSOAK_DROP (R232): a core with autosoak whose conditions have held for 3,000 mesh cycles and hold now drops to SOAK. -/
def execAutosoakDrop (c : Nat) (s : State) : Out :=
  let k := getCore s c
  .next (if k.autosoak && k.save == .no && k.mayDrop && decide (3000 ≤ k.calm) then soakCore s c else s)

/-! ## MON and PARK -/

/-- Replace a monitor entry. -/
def armMon (s : State) (e : Nat) (m : Option Mon) : State := modSlot s (fun l => { l with mons := sset none l.mons e m })

/-- MON (R41). -/
def execMon (a : SReg) (nr : Disp) (sp : MonSpace) (e : BitVec 2) (s : State) : Out :=
  let v := rdS s a
  .next (match sp with
    | .off => invTiming s nr (readyNext (armMon s e.toNat none))
    | .sp => invTiming s nr (readyNext (armMon s e.toNat (some { scratch := true, line := lo16 v / 64, hit := false })))
    | .dev =>
      let va := v.toNat % 2 ^ 48
      if bitsOf v 63 48 ≠ 0 then raise s .prot
      else invTiming s nr (match xlate s va .dev true false with
        | .miss => walkMiss s nr va false
        | .bad t => raiseXlat s t
        | .ok pa _ => readyNext (armMon s e.toNat (some { scratch := false, line := pa / 64, hit := false }))))

/-- PARK (R42): always ready (R28); with a hit bit set it returns at once with reason 5, else the slot leaves the rotation. A
timeout of n is kept as n + 2 until the rotation of the PARK ends. -/
def execPark (d a : SReg) (s : State) : Out :=
  let hits := (slot s).hits
  let n := (rdS s a).toNat % 2 ^ 32
  .next (if hits ≠ 0 then readyNext (modSlot (wrS s d (BitVec.ofNat 64 (16 * hits + 5))) Slot.clearHits)
    else modSlot (ready s) (fun l => { l with st := .parked (.park d (if n = 0 then 0 else n + 2)), wake := none }))

end Sys2Proof.Machine
end

