-- ==== Sys2Proof/Machine/Branch.lean ====
section
/-! DEFINITION. Branches, jumps and repeat frames: majors 0x0A to 0x10 (R69, R198, R284 to R287, R312, R313, R347). -/

namespace Sys2Proof.Machine

/-- Continue at `t` or at PC + 4. -/
def branchTo (s : State) (taken : Bool) (t : VA) : Out := .next (if taken then jumpTo s t else advance s)

/-- PC of the current instruction. -/
def pcOf (s : State) : VA := (slot s).pc

def execBrc (c : Cond) (a b : SReg) (off : BitVec 12) (s : State) : Out :=
  branchTo s (condHolds c (rdS s a) (rdS s b)) (relTarget (pcOf s) off)
def execBrci (c : Cond) (a : SReg) (imm : BitVec 5) (off : BitVec 12) (s : State) : Out :=
  branchTo s (condHolds c (rdS s a) (brciOperand c imm)) (relTarget (pcOf s) off)
def execJ (off : BitVec 26) (s : State) : Out := .next (jumpTo s (relTarget (pcOf s) off))
/-- CALL: ln (s30) receives PC + 4 (R287). -/
def execCall (off : BitVec 26) (s : State) : Out :=
  .next (jumpTo (wrS s 30 ((pcOf s + 4).setWidth 64)) (relTarget (pcOf s) off))
def execJr (a : SReg) (s : State) : Out := .next (jumpTo s ((rdS s a).setWidth 48))
/-- CALLR: the target is read before s[d] is written (R287). -/
def execCallr (d a : SReg) (s : State) : Out :=
  let t := (rdS s a).setWidth 48
  .next (jumpTo (wrS s d ((pcOf s + 4).setWidth 64)) t)
def execBnr (off : BitVec 26) (s : State) : Out := branchTo s (slot s).nr (relTarget (pcOf s) off)

/-- RPT (R198): a frame of `len` members after the RPT, executed `count` times; a slot holds one frame (R347). -/
def execRpt (count : BitVec 8) (len : BitVec 4) (sd sa sb sx : BitVec 3) (s : State) : Out :=
  if (slot s).frame.isSome then .next (raise s .illegal)
  else
    let n := if len = 0 then 16 else len.toNat
    let times := if count = 0 then 256 else count.toNat
    let fr := Frame.mk (pcOf s + 4) n times 0 sd.toNat sa.toNat sb.toNat sx.toNat [] false
    .next (modSlot (advance s) (fun l => { l with frame := some fr }))

end Sys2Proof.Machine
end

