-- ==== Sys2Proof/Machine/Debug.lean ====
section
/-! DEFINITION. The debug port: stop, resume, step, and its settings (R44, R251 to R253, R266). -/

namespace Sys2Proof.Machine

/-- Whether the debug port is open (Table 20.3). -/
def debugOpen (s : State) : Bool := s.kaz.life == .manufacture || s.kaz.life == .debug

/-- Whether numbers name a slot of the device. -/
def isSlot (c k : Nat) : Bool := decide (c < 40960 ∧ k < 8)

/-- A stopped slot resumes: its park holds again, and a wake that occurred meanwhile takes effect (R44). -/
def Slot.unstop (l : Slot) : Slot :=
  match l.st with
  | .stopped none => { l with st := .runnable }
  | .stopped (some p) => { l with st := .parked p }
  | _ => l

/-- Whether a slot is stopped. -/
def Slot.isStopped (l : Slot) : Bool := match l.st with | .stopped _ => true | _ => false

/-- Whether the debugger finds slot `k` of core `c` stopped. It neither resumes nor steps a slot of a saved core, which the image holds
(assumption 53). -/
def debugHolds (s : State) (c k : Nat) : Bool :=
  debugOpen s && isSlot c k && (getSlot s c k).isStopped && (getCore s c).save != .saved

/-- The engines of a core that a stop halted go on (R252); what was refused for it may clear. -/
def unhalt (s : State) (c : Nat) : State :=
  if (getCore s c).halted then
    wakeAccs (wakeRes (modCore s c (fun k => { k with halted := false })) (.engine c)) c
  else s

/-- Whether a debugger's read of `n` bytes at an offset of a window unit is answered now (R131, R253): of the registers of a stopped slot,
or an idle accumulator, of a core that is not saved, with the port open. -/
def debugReaches (s : State) (c unit off n : Nat) : Bool :=
  let k := getCore s c
  debugOpen s && isSlot c 0 && winAssigned unit off n && k.save == .no &&
  ((unit == 1 && (k.slot (off / 0x800)).isStopped) || (unit == 2 && !k.winBusy unit off n))

/-- Whether a debugger's store of `n` bytes is accepted (R253): to an accumulator, or to the registers of a stopped slot, with the port
open. -/
def debugStores (s : State) (c unit off n : Nat) : Bool :=
  debugOpen s && isSlot c 0 && winAssigned unit off n && (unit == 2 || (unit == 1 && (getSlot s c (off / 0x800)).isStopped))

/-- A debugger's write to a register or an accumulator is a window store (R131, R253): held at its target while the accumulator is busy,
behind what is so held of the debugger's own, and diverted to the hamper while the core is saved (Table 19.2, R249). Slot number 8
stands for the debugger (assumption 53). -/
def debugWrite (s : State) (c unit off : Nat) (d : List Byte) : State :=
  let k := getCore s c
  let ahead := k.psb.any (fun e => e.slot == 8 && e.sp == .win c unit)
  let stays := if k.away then !mayDivert s c else k.winBusy unit off d.length
  if !debugStores s c unit off d.length then s
  else if ahead || stays then
    setCore s c { k with
      psb := k.psb ++ [{ id := k.nextId, slot := 8, sp := .win c unit, addr := off, data := d, rel := false, red := none,
                         comp := none }],
      nextId := k.nextId + 1 }
  else if k.away then
    modPart s ((partOf s c).getD 0) (fun x => { x with
      hamper := x.hamper ++ [{ src := c, slot := 8, after := 0, lam := 0, body := .winWrite c unit off d false }] })
  else winWrite s c unit off d

/-- A debugger's read of a register or an accumulator; its bytes are left in `hostReply`. -/
def debugRead (s : State) (c unit off n : Nat) : State :=
  if debugReaches s c unit off n then { s with hostReply := (getCore s c).winRead unit off n } else s

/-- DEBUG_STOP (R251): the slot stops at its next cycle. -/
def execDebugStop (c k : Nat) (s : State) : Out :=
  .next (if debugOpen s && isSlot c k then modSlotAt s c k (fun l => { l with stopReq := true }) else s)

/-- DEBUG_RESUME (R44, R251, R252). -/
def execDebugResume (c k : Nat) (s : State) : Out :=
  .next (if debugHolds s c k then unhalt (modSlotAt s c k Slot.unstop) c else s)

/-- DEBUG_STEP (R251, R252): the slot resumes for one issue. -/
def execDebugStep (c k : Nat) (s : State) : Out :=
  .next (if debugHolds s c k then
      unhalt (modSlotAt s c k (fun l => { l.unstop with stepping := true })) c
    else s)

end Sys2Proof.Machine
end

