-- ==== Sys2Proof/Machine/Deque.lean ====
section
/-! DEFINITION. Deques, mailboxes and count words: majors 0x31, 0x32 and 0x35 (R122 to R124, R132, R136, R137, R207, R208, R241,
R291, R292, R358, R361, R366, R377). -/

namespace Sys2Proof.Machine

/-! ## Deques -/

/-- Records in a core's deque. -/
def Core.records (k : Core) : Nat := k.dqTail - k.dqHead

/-- Scratchpad address of record `i` (R122). -/
def recordAt (i : Nat) : Nat := dequeBase + 32 * (i % 64)

/-- Append a record at the tail. -/
def pushRecord (s : State) (c : Nat) (r : List Byte) : State :=
  let s1 := spWrite s c (recordAt (getCore s c).dqTail) r
  wakeStruct (modCore s1 c (fun k => { k with dqTail := k.dqTail + 1 })) c .deque 0

/-- Note whether the slot's last TAKE or STEAL was refused (R126). -/
def noteHunt (s : State) (b : Bool) : State := modSlot s (fun l => { l with refused := b })

/-- SPAWN (R123, R358): a landing in flight holds a place. -/
def execSpawn (a : VReg) (nr : Disp) (s : State) : Out :=
  let res : Resource := .struct s.curCore .deque 0 true
  .next (if 64 ≤ (cur s).records + (cur s).landings ∨ heldBack s res = true then notReady s nr .qfull res
    else timing s nr false (readyNext (pushRecord s s.curCore (toBytes 32 (rdV s a).toNat))))

/-- `timing` for TAKE and STEAL, whose refusal of any cause counts (R126). -/
def huntTiming (s : State) (nr : Disp) (go : State) : State :=
  if invBarred s || localBarred s then timing (noteHunt s true) nr false go else go

/-- TAKE (R123, R366): the newest record. -/
def execTake (d : VReg) (nr : Disp) (s : State) : Out :=
  let res : Resource := .struct s.curCore .deque 0 false
  .next (if (cur s).records = 0 ∨ heldBack s res = true then notReady (noteHunt s true) nr .qempty res
    else huntTiming s nr (
      if (cur s).spBadIn (recordAt ((cur s).dqTail - 1)) 32 then raiseRow s s.curCore else
      let r := (cur s).spRead (recordAt ((cur s).dqTail - 1)) 32
      let s1 := modCur (wrV s d (BitVec.ofNat 512 (leNat r))) (fun k => { k with dqTail := k.dqTail - 1 })
      readyNext (dropRead (noteHunt (wakeStruct s1 s.curCore .deque 0) false))))

/-- STEAL (R123, R361). -/
def execSteal (d a : SReg) (nr : Disp) (s : State) : Out :=
  let v := lo16 (rdS s a)
  let res : Resource := .steal s.curCore s.curSlot
  .next (if !inPart s v then raise s .prot
    else if (slot s).stealFly || heldBack s res then notReady (noteHunt s true) nr .qempty res
    else huntTiming s nr (
      let s0 := noteHunt s false
      if 64 ≤ (cur s).records + (cur s).landings then readyNext (wrS s0 d 3)
      else
        let s1 := wrS s0 d (BitVec.ofNat 64 (slot s).stealOut)
        if v = s.curCore then
          readyNext (modCur (modSlot s1 (fun l => { l with stealOut := 2 }))
            (fun k => { k with failedSteals := k.failedSteals + 1 }))
        else
          let s2 := modCur (modSlot s1 (fun l => { l with stealFly := true })) (fun k => { k with landings := k.landings + 1 })
          readyNext (send s2 false (.stealReq v s.curCore s.curSlot))))

/-- The oldest record of a core, as a steal takes it. An uncorrectable one counts on its row, and what it holds is a free value
(R236). -/
def oldestRecord (s : State) (v : Nat) : BitVec 256 × State :=
  let k := getCore s v
  if k.spBadIn (recordAt k.dqHead) 32 then drawFree (rowError s v) 256
  else (BitVec.ofNat 256 (leNat (k.spRead (recordAt k.dqHead) 32)), s)

/-- STEAL_REQUEST_ARRIVAL (R123, R124, R241): the victim's oldest record leaves as one event; a victim without one, or
saved, answers empty. A request that was on its way when the victim's part ended takes from the part that the core runs by then
(assumption 120). -/
def execStealRequestArrival (i : Nat) (s : State) : Out :=
  .next (match canArrive s i noOrder with
    | some p =>
      match p.body with
      | .stealReq v t k =>
        let s1 := recvPk (dropNet s i) v p
        let vc := getCore s v
        if vc.away || vc.records == 0 then sendFrom s1 v 0 0 (.stealAns t k none)
        else
          let r := oldestRecord s1 v
          let s2 := wakeStruct (modCore r.2 v (fun x => { x with dqHead := x.dqHead + 1 })) v .deque 0
          sendFrom s2 v 0 0 (.stealAns t k (some r.1))
      | _ => s
    | none => s)

/-- STEAL_ANSWER_LANDING (R123, R241, R361): the record joins the thief's tail and the steal's mark clears; the answer to an
abandoned steal is lost. -/
def execStealAnswerLanding (i : Nat) (s : State) : Out :=
  let same := fun (p q : Packet) => match p.body, q.body with
    | .stealAns t _ _, .stealAns u _ _ => t == u
    | _, _ => false
  .next (match canArrive s i same with
    | some p =>
      match p.body with
      | .stealAns t k r =>
        let s1 := recvPk (dropNet s i) t p
        if 8 ≤ k then s1
        else
          let s2 := modSlotAt s1 t k (fun l => { l with stealFly := false, stealOut := if r.isSome then 1 else 2 })
          let s3 := modCore s2 t (fun x =>
            { x with landings := x.landings - 1, failedSteals := x.failedSteals + (if r.isSome then 0 else 1) })
          let s4 := match r with
            | some v => pushRecord s3 t (toBytes 32 v.toNat)
            | none => wakeStruct s3 t .deque 0
          wakeRes s4 (.steal t k)
      | _ => s
    | none => s)

/-! ## Mailboxes -/

/-- Fill mailbox `b` of core `c` with a request (R132, R207). -/
def fillMailbox (s : State) (c b : Nat) (req : BitVec 256) : State :=
  wakeStruct (modCore s c (fun k => { k with mb := sset 0 k.mb b req, mbFull := sset false k.mbFull b true }))
    c .mailbox b

/-- XPOST (R207, R208): the request carries the mark of the slot's posted work, which the copy's reads follow. A window store of the
slot's own to the mailbox goes first (R150, R156). -/
def execXpost (a : VReg) (nr : Disp) (b : BitVec 2) (s : State) : Out :=
  let i := b.toNat
  let res : Resource := .struct s.curCore .mailbox i true
  .next (if sget false (cur s).mbFull i || heldBack s res then notReady s nr .qfull res
    else if lineOpen s (.win s.curCore 4) i then notReady s nr .fill (.line (.win s.curCore 4) i)
    else timing s nr true (
      let m := (s.curSlot, postMark s)
      let s1 := fillMailbox s s.curCore i (BitVec.ofNat 256 (rdV s a).toNat)
      readyNext (dropHold (modCur s1 (fun k => { k with mbRel := sput k.mbRel i m })))))

/-- XTAKE waits for no store to a full mailbox of its own core, which only an XTAKE can let in (R132; assumption 67). -/
def takeBarred (s : State) : Bool :=
  localBarred (modCur s (fun k => { k with psb := k.psb.filter (fun e => match e.sp with
    | .win t 4 => !(t == s.curCore && sget false k.mbFull (e.addr / 64))
    | _ => true) }))

/-- XTAKE (R207): slot 7 takes a request, with an acquire: its later accesses follow the writes that the request's poster made
before (R153). The mailbox is left 0 (assumption 79). -/
def execXtake (d : VReg) (nr : Disp) (b : BitVec 2) (s : State) : Out :=
  let i := b.toNat
  let res : Resource := .struct s.curCore .mailbox i false
  .next (if s.curSlot ≠ 7 then raise s .prot
    else if !sget false (cur s).mbFull i || heldBack s res then notReady s nr .qempty res
    else if invBarred s || takeBarred s then notReady s nr .fill (orderRes s.curCore s.curSlot)
    else if atomBarred s then notReady s nr .busy (.engine s.curCore)
    else (
      let marks := (cur s).mbRel.filterMap (fun e => if e.1 = i then some e.2 else none)
      let s1 := modCur (wrV s d (BitVec.ofNat 512 (sget 0 (cur s).mb i).toNat)) (fun k =>
        { k with mb := sset 0 k.mb i 0, mbFull := sset false k.mbFull i false, mbRel := sdel k.mbRel i,
                 xdMarks := k.xdMarks ++ marks })
      let s2 := modSlot s1 (fun l => { l with ldMark := max l.ldMark 1, stMark := max l.stMark 1 })
      advance (acquireFx (ready (wakeStruct s2 s.curCore .mailbox i)) false)))

/-! ## Count words -/

/-- The checks of CWAIT and CWSET on their address (R291). -/
def countAccess (s : State) (a : SReg) (go : State → Nat → State) : State :=
  let ea := (rdS s a).toNat
  if ea % 16 ≠ 0 then raise s .align
  else if dequeBase ≤ ea then raise s .prot
  else
    let s := ownPerformed s 0
    if (cur s).spBadIn ea 16 then raiseRow s s.curCore else go s ea

/-- CWAIT (R137, R291): on a match, one event sets `early`, clears the count, advances the generation and acquires. -/
def execCwait (d a : SReg) (nr : Disp) (s : State) : Out :=
  .next (countAccess s a (fun s ea =>
    let res : Resource := .count s.curCore ea
    let cnt := leNat ((cur s).spRead ea 4)
    let tgt := leNat ((cur s).spRead (ea + 4) 4)
    let w1 := leNat ((cur s).spRead (ea + 8) 8)
    if cnt < tgt ∨ heldBack s res = true then notReady s nr .count res
    else timing s nr true (
      let gen := w1 / 2 ^ 32 % 65536
      let early := if tgt < cnt then 2 else 0
      let new := w1 - gen * 2 ^ 32 - w1 / 2 % 2 * 2 + (gen + 1) % 65536 * 2 ^ 32 + early
      let s1 := spWrite s s.curCore ea (toBytes 4 0 ++ toBytes 4 tgt ++ toBytes 8 new)
      advance (acquireFx (ready (wrS s1 d (BitVec.ofNat 64 new))) false))))

/-- CWSET (R137, R291): ready (R28). -/
def execCwset (d a : SReg) (s : State) : Out :=
  .next (countAccess s a (fun s ea =>
    let w1 := leNat ((cur s).spRead (ea + 8) 8)
    let t := (rdS s d).toNat % 2 ^ 32
    readyNext (spWrite s s.curCore ea (toBytes 4 0 ++ toBytes 4 t ++ toBytes 8 (w1 / 4 * 4)))))

end Sys2Proof.Machine
end

