-- ==== Sys2Proof/Machine/Dxb.lean ====
section
/-! DEFINITION. DXB blocks, operand tiles and the press step; major 0x17 (R181 to R190, R281, R282, R297). -/

namespace Sys2Proof.Machine

/-! ## Blocks -/

/-- An element: selector, sign, magnitude (Table 12.3). -/
structure DxbElt where
  sel : Bool
  sign : Bool
  m : Nat
deriving DecidableEq, Repr

/-- A block of 32 elements with its two codes. -/
structure DxbBlock where
  e0 : Nat
  e1 : Nat
  elts : List DxbElt
deriving DecidableEq, Repr

/-- Magnitude planes of a variant; `b4` is DXB4 (Table 12.3). -/
def dxbPlanes (b4 : Bool) : Nat := if b4 then 2 else 6
/-- Bias of a variant. -/
def dxbBias (b4 : Bool) : Int := if b4 then 128 else 132
/-- Largest magnitude Mx (R188). -/
def dxbMax (b4 : Bool) : Nat := if b4 then 3 else 63
/-- Step δ between the codes (R188). -/
def dxbStep (b4 : Bool) : Nat := if b4 then 1 else 3

/-- Whether a block is poisoned (R181). -/
def DxbBlock.poisoned (b : DxbBlock) : Bool := b.e0 == 255 || b.e1 == 255

/-- Value of an element of a block (R181). -/
def DxbBlock.value (b4 : Bool) (b : DxbBlock) (x : DxbElt) : Fv :=
  let code := if x.sel then b.e1 else b.e0
  if b.poisoned then .nan
  else if code = 0 then .num x.sign 0 0
  else .num x.sign x.m (code - dxbBias b4)

/-- The 32 values of a block. -/
def DxbBlock.values (b4 : Bool) (b : DxbBlock) : List Fv := b.elts.map (b.value b4)

/-- The integer nearest to v · 2^e, ties to even. -/
def rneInt (v e : Int) : Int :=
  if 0 ≤ e then v * 2 ^ e.toNat
  else
    let d : Int := 2 ^ (-e).toNat
    let q := v / d
    let r := v % d
    if d < 2 * r ∨ (2 * r = d ∧ q % 2 = 1) then q + 1 else q

/-- Whether m·2^e ≤ k·2^c. -/
def magLe (m : Nat) (e : Int) (k : Nat) (c : Int) : Bool :=
  let lo := min e c
  decide (m * 2 ^ (e - lo).toNat ≤ k * 2 ^ (c - lo).toNat)

/-- Sign, mantissa and exponent of a finite value; none for a NaN or an infinity. -/
def Fv.finite? : Fv → Option (Bool × Nat × Int)
  | .num n m e => some (n, m, e)
  | _ => none

/-- Requantise 32 exact values to a block (R188). -/
def requantise (b4 : Bool) (xs : List Fv) : DxbBlock :=
  let bad : DxbBlock := { e0 := 255, e1 := 255, elts := xs.map (fun _ => { sel := false, sign := false, m := 0 }) }
  let fs := xs.filterMap Fv.finite?
  if fs.length < xs.length then bad
  else if fs.all (fun x => x.2.1 == 0) then
    { e0 := 0, e1 := 0, elts := fs.map (fun x => { sel := false, sign := x.1, m := 0 }) }
  else
    match ((List.range 254).map (fun (c : Nat) => c + 1)).find? (fun (c : Nat) =>
        fs.all (fun x => magLe x.2.1 x.2.2 (dxbMax b4) ((c : Int) - dxbBias b4))) with
    | none => bad
    | some e1 =>
      let e0 := max (e1 - dxbStep b4) 1
      let mag := fun (x : Bool × Nat × Int) (e : Nat) => (rneInt x.2.1 (x.2.2 - ((e : Int) - dxbBias b4))).toNat
      { e0 := e0, e1 := e1, elts := fs.map (fun x =>
          if mag x e0 ≤ dxbMax b4 then { sel := false, sign := x.1, m := mag x e0 }
          else { sel := true, sign := x.1, m := mag x e1 }) }

/-! ## Element-major form (R281) -/

/-- Bits of an element. -/
def DxbElt.bits (b4 : Bool) (x : DxbElt) : Nat :=
  let s := (if x.sel then 2 else 0) + (if x.sign then 1 else 0)
  if b4 then s * 4 + x.m else s * 64 + x.m

/-- An element read back from its bits. -/
def DxbElt.ofBits (b4 : Bool) (v : Nat) : DxbElt :=
  if b4 then { sel := v / 8 % 2 == 1, sign := v / 4 % 2 == 1, m := v % 4 }
  else { sel := v / 128 % 2 == 1, sign := v / 64 % 2 == 1, m := v % 64 }

/-- A block in a vector register. -/
def DxbBlock.toVec (b4 : Bool) (b : DxbBlock) : V512 :=
  let w := if b4 then 4 else 8
  let body := b.elts.foldr (fun x a => x.bits b4 + 2 ^ w * a) 0
  BitVec.ofNat 512 (body + 2 ^ 256 * b.e0 + 2 ^ 264 * b.e1)

/-- The block a vector register holds. -/
def DxbBlock.ofVec (b4 : Bool) (v : V512) : DxbBlock :=
  let w := if b4 then 4 else 8
  { e0 := v.toNat / 2 ^ 256 % 256, e1 := v.toNat / 2 ^ 264 % 256,
    elts := (List.range 32).map (fun k => DxbElt.ofBits b4 (v.toNat / 2 ^ (w * k) % 2 ^ w)) }

/-- Exact sum of two values, signed as R189 lays down for zero. -/
def exactSum (x y : Fv) : Fv :=
  match x, y with
  | .num n1 m1 e1, .num n2 m2 e2 =>
    let lo := min e1 e2
    let v := scaled n1 m1 e1 lo + scaled n2 m2 e2 lo
    .num (if v = 0 then n1 && n2 else decide (v < 0)) v.natAbs lo
  | _, _ => .nan

/-- BADDQ (R189, R282). -/
def execBaddq (d a b : VReg) (dxb4 : Bool) (s : State) : Out :=
  let x := (DxbBlock.ofVec dxb4 (rdV s a)).values dxb4
  let y := (DxbBlock.ofVec dxb4 (rdV s b)).values dxb4
  .next (advance (wrV s d ((requantise dxb4 (x.zipWith exactSum y)).toVec dxb4)))

/-- FP32 lane `i` of a vector register. -/
def lane32 (v : V512) (i : Nat) : Nat := v.toNat / 2 ^ (32 * i) % 2 ^ 32

/-- DXBPK (R297). -/
def execDxbpk (d a b : VReg) (dxb4 : Bool) (s : State) : Out :=
  let xs := (List.range 16).map (fun i => unpack f32 (lane32 (rdV s a) i)) ++
    (List.range 16).map (fun i => unpack f32 (lane32 (rdV s b) i))
  .next (advance (wrV s d ((requantise dxb4 xs).toVec dxb4)))

/-- DXBUN (R297). -/
def execDxbun (d a : VReg) (hi dxb4 : Bool) (s : State) : Out :=
  let xs := (((DxbBlock.ofVec dxb4 (rdV s a)).values dxb4).drop (if hi then 16 else 0)).take 16
  let v := (xs.map (fRound f32 0)).foldr (fun x a => x + 2 ^ 32 * a) 0
  .next (advance (wrV s d (BitVec.ofNat 512 v)))

/-! ## Operand tiles (R182, R183) -/

/-- A 128-byte plane: the bit of element k of record r is bit k mod 8 of byte 4r + k div 8. -/
def planeBytes (f : Nat → Nat → Bool) : List Byte :=
  (List.range 128).map (fun i => BitVec.ofNat 8 ((List.range 8).foldr
    (fun t a => (if f (i / 4) (8 * (i % 4) + t) then 1 else 0) + 2 * a) 0))

/-- Bit of element k of record r in a plane. -/
def planeBit (p : List Byte) (r k : Nat) : Bool := (p.getD (4 * r + k / 8) 0).toNat / 2 ^ (k % 8) % 2 == 1

/-- A DXB tile of 32 records (Table 12.4). -/
def dxbTile (b4 : Bool) (recs : List DxbBlock) : List Byte :=
  let elt : Nat → Nat → DxbElt := fun r k => ((recs[r]?).bind (fun b => b.elts[k]?)).getD { sel := false, sign := false, m := 0 }
  let p := dxbPlanes b4
  recs.flatMap (fun (b : DxbBlock) => [BitVec.ofNat 8 b.e0, BitVec.ofNat 8 b.e1]) ++
  planeBytes (fun r k => (elt r k).sel) ++ planeBytes (fun r k => (elt r k).sign) ++
  (List.range p).flatMap (fun q => planeBytes (fun r k => (elt r k).m / 2 ^ (p - 1 - q) % 2 == 1))

/-- An INT8 tile of 32 records of 32 elements (R183). -/
def int8Tile (x : Nat → Nat → Int) : List Byte :=
  (List.range 8).flatMap (fun q => planeBytes (fun r k => (x r k % 256).toNat / 2 ^ (7 - q) % 2 == 1))

/-- Tile bytes S of a format (R201, R333). -/
def Fmt.tileBytes : Fmt → Nat
  | .dxb4 => 576 | .dxb8 => 1088 | .int8 => 1024

/-- Bytes read at the start of setup: header, selector and sign planes (R194). -/
def Fmt.headBytes : Fmt → Nat
  | .int8 => 0
  | _ => 320

/-- Encode an accumulator for an ACCST destination (R273). -/
def encodeTile (dest : AccDest) (t : List (BitVec 32)) : List Byte :=
  let at_ := fun i j => (t.getD (32 * i + j) 0)
  let dxb := fun b4 col => dxbTile b4 ((List.range 32).map (fun r =>
    requantise b4 ((List.range 32).map (fun k => unpack f32 (if col then at_ k r else at_ r k).toNat))))
  let sat := fun (v : BitVec 32) => max (-128) (min 127 v.toInt)
  match dest with
  | .raw => t.flatMap (fun v => toBytes 4 v.toNat)
  | .dxb8a => dxb false false
  | .dxb8b => dxb false true
  | .dxb4a => dxb true false
  | .dxb4b => dxb true true
  | .i8a => int8Tile (fun r k => sat (at_ r k))
  | .i8b => int8Tile (fun r k => sat (at_ k r))

/-! ## The press step (R184 to R187) -/

/-- Saturation to 32 bits (R186). -/
def sat32 (v : Int) : BitVec 32 := BitVec.ofInt 32 (max (-2 ^ 31) (min (2 ^ 31 - 1) v))

/-- Signed truncated element of a DXB operand: selector and value. -/
def dxbOperand (b4 : Bool) (head : List Byte) (mags : List (List Byte)) (r k : Nat) : Bool × Int :=
  let p := dxbPlanes b4
  let m := (mags.zipIdx.map (fun e => if planeBit e.1 r k then 2 ^ (p - 1 - e.2) else 0)).foldl (· + ·) 0
  (planeBit (head.drop 0x40) r k, if planeBit (head.drop 0xC0) r k then -(m : Int) else m)

/-- The exact sum t of a DXB step for one element, as a multiple of 2^(−2b); none for a poisoned record (R185). -/
def dxbSum (b4 : Bool) (ha hb : List Byte) (ma mb : List (List Byte)) (i j : Nat) : Option Int :=
  let code := fun (h : List Byte) r c => (h.getD (2 * r + c) 0).toNat
  if [code ha i 0, code ha i 1, code hb j 0, code hb j 1].contains 255 then none
  else
    some (((List.range 32).map (fun k =>
      let x := dxbOperand b4 ha ma i k
      let y := dxbOperand b4 hb mb j k
      let ca := code ha i (if x.1 then 1 else 0)
      let cb := code hb j (if y.1 then 1 else 0)
      if ca = 0 ∨ cb = 0 then 0 else x.2 * y.2 * 2 ^ (ca + cb))).foldl (· + ·) 0)

/-- A DXB element after a step (R185). -/
def dxbStepElt (b4 : Bool) (md : PMode) (gam : BitVec 32) (old : BitVec 32) (t : Option Int) : BitVec 32 :=
  match t with
  | none => 0x7FC00000
  | some v =>
    let e := -(2 * dxbBias b4)
    let pos := Fv.num (decide (v < 0)) v.natAbs e
    let neg := Fv.num (decide (0 < v)) v.natAbs e
    let acc := unpack f32 old.toNat
    BitVec.ofNat 32 (match md with
      | .ovw => fRound f32 0 pos
      | .add => fAdd f32 0 acc pos
      | .sub => fAdd f32 0 acc neg
      | .dec => fAdd f32 0 ((unpack f32 gam.toNat).mul acc) pos)

/-- Signed element of an INT8 operand from its eight planes (R183). -/
def int8Operand (mags : List (List Byte)) (r k : Nat) : Int :=
  let v := (mags.zipIdx.map (fun e => if planeBit e.1 r k then 2 ^ (7 - e.2) else 0)).foldl (· + ·) 0
  if 128 ≤ v then (v : Int) - 256 else v

/-- The exact sum of an INT8 step for one element (R186). -/
def int8Sum (ma mb : List (List Byte)) (i j : Nat) : Int :=
  ((List.range 32).map (fun k => int8Operand ma i k * int8Operand mb j k)).foldl (· + ·) 0

/-- An INT8 element after a step (R186). -/
def int8StepElt (md : PMode) (gam : BitVec 32) (old : BitVec 32) (v : Int) : BitVec 32 :=
  match md with
  | .ovw => sat32 v
  | .add => sat32 (old.toInt + v)
  | .sub => sat32 (old.toInt - v)
  | .dec =>
    match unpack f32 gam.toNat with
    | .num n m e =>
      let x := (if n then -(m : Int) else m) * old.toInt
      let lo := min e 0
      sat32 (rneInt (x * 2 ^ (e - lo).toNat + v * 2 ^ (-lo).toNat) lo)
    | _ => 0x80000000

/-- Tile of an accumulator after a press operation whose planes are all read. -/
def pressTile (o : PressOp) (old : List (BitVec 32)) : List (BitVec 32) :=
  let h := o.heads.getD ([], [])
  let ma := (o.mags.map (·.1)).reverse
  let mb := (o.mags.map (·.2)).reverse
  (List.range 1024).map (fun e =>
    let i := e / 32
    let j := e % 32
    let x := old.getD e 0
    if o.bad then (if o.fmt == .int8 then 0x80000000 else 0x7FC00000)
    else match o.fmt with
      | .dxb8 => dxbStepElt false o.md o.gam x (dxbSum false h.1 h.2 ma mb i j)
      | .dxb4 => dxbStepElt true o.md o.gam x (dxbSum true h.1 h.2 ma mb i j)
      | .int8 => int8StepElt o.md o.gam x (int8Sum ma mb i j))

/-- One addition of the seam (R190, R204). -/
def seamAdd (fmt : Fmt) (x y : BitVec 32) : BitVec 32 :=
  match fmt with
  | .int8 => sat32 (x.toInt + y.toInt)
  | _ => BitVec.ofNat 32 (fAdd f32 0 (unpack f32 x.toNat) (unpack f32 y.toNat))

end Sys2Proof.Machine
end

