-- ==== Sys2Proof/Machine/Fp.lean ====
section
/-! DEFINITION. Scalar floating point, major 0x11 (R299 to R302). Operands are bits 31:0; results stand in the low bits. -/

namespace Sys2Proof.Machine

/-- Rounding mode of the current slot (R82). -/
def rndOf (s : State) : Nat := (slot s).rnd.toNat

/-- FP32 bits of a scalar register. -/
def bits32 (s : State) (r : SReg) : Nat := (rdS s r).toNat % 2 ^ 32

/-- FP32 value of a scalar register. -/
def fp32 (s : State) (r : SReg) : Fv := unpack f32 (bits32 s r)

/-- A bit-pattern result. -/
def fpResult (s : State) (d : SReg) (w : Nat) : Out := scalarResult s d (BitVec.ofNat 64 w)

/-- Conversions of FCVT (Table 22.3). -/
def cvt (k : CvtKind) (mode : Nat) (v : W64) : W64 :=
  let w := v.toNat % 2 ^ 32
  match k with
  | .toi => BitVec.ofInt 64 (fToInt mode (unpack f32 w) (-2 ^ 63) (2 ^ 63 - 1))
  | .toz => BitVec.ofInt 64 (fToInt mode (unpack f32 w) 0 (2 ^ 64 - 1))
  | .fromi => BitVec.ofNat 64 (fOfInt f32 mode v.toInt)
  | .fromz => BitVec.ofNat 64 (fOfInt f32 mode v.toNat)
  | .toh => BitVec.ofNat 64 (fRound f16 mode (unpack f32 w))
  | .tobh => BitVec.ofNat 64 (fRound bf16 mode (unpack f32 w))
  | .fromh => BitVec.ofNat 64 (fRound f32 mode (unpack f16 (w % 2 ^ 16)))
  | .frombh => BitVec.ofNat 64 (fRound f32 mode (unpack bf16 (w % 2 ^ 16)))
  | .tow => BitVec.ofInt 64 (fToInt mode (unpack f32 w) (-2 ^ 31) (2 ^ 31 - 1))

def execFadd (d a b : SReg) (s : State) : Out := fpResult s d (fAdd f32 (rndOf s) (fp32 s a) (fp32 s b))
def execFsub (d a b : SReg) (s : State) : Out := fpResult s d (fAdd f32 (rndOf s) (fp32 s a) (fp32 s b).neg)
def execFmul (d a b : SReg) (s : State) : Out := fpResult s d (fMul f32 (rndOf s) (fp32 s a) (fp32 s b))
def execFfma (d a b e : SReg) (s : State) : Out :=
  fpResult s d (fFma f32 (rndOf s) (fp32 s a) (fp32 s b) (fp32 s e))
def execFdiv (d a b : SReg) (s : State) : Out := fpResult s d (fDiv f32 (rndOf s) (fp32 s a) (fp32 s b))
def execFsqrt (d a : SReg) (s : State) : Out := fpResult s d (fSqrt f32 (rndOf s) (fp32 s a))
def execFmin (d a b : SReg) (s : State) : Out := fpResult s d (fMin f32 (bits32 s a) (bits32 s b))
def execFmax (d a b : SReg) (s : State) : Out := fpResult s d (fMax f32 (bits32 s a) (bits32 s b))
def execFcmp (d a b : SReg) (c : FCond) (s : State) : Out :=
  scalarResult s d (boolWord (fCompare c (fp32 s a) (fp32 s b)))
def execFcvt (d a : SReg) (k : CvtKind) (s : State) : Out := scalarResult s d (cvt k (rndOf s) (rdS s a))
def execFclass (d a : SReg) (s : State) : Out := fpResult s d (fClass f32 (bits32 s a))

end Sys2Proof.Machine
end

