-- ==== Sys2Proof/Machine/MemEvents.lean ====
section
/-! DEFINITION. Memory work that completes behind the instructions: posted stores and reductions, reads at their targets,
walks, fills, window accesses, mailbox stores (R129 to R132, R140 to R144, R169, R248, R342, R360). -/

namespace Sys2Proof.Machine

/-! ## Posted stores -/

/-- Whether entry `i` of a core's posted-store buffer may be performed next: no earlier store of its slot to its line is
left, and for a release no earlier work of its slot at all: store, increment of a round or of a pass, DCFENCE (R129, R148, R153,
R293, R360). A mailbox store releases (R132). An RMW that has lost its result follows, in slot 7, also the work of the slots whose
requests it has taken, as every later access does (R153, R207, R278). -/
def Core.performable (k : Core) (i : Nat) : Bool :=
  match k.psb[i]? with
  | none => false
  | some e =>
    let rel := e.rel || (match e.sp with | .win _ 4 => true | _ => false)
    (k.psb.take i).all (fun x => x.slot != e.slot || !(rel || (x.sp == e.sp && x.addr / 64 == e.addr / 64))) &&
    !(rel && k.eventsBefore e.slot e.id) && !(e.am.isSome && k.openBefore e.slot e.id)

/-- A store to leased storage: discarded once the lease has ended (R140). -/
def leaseWrite (s : State) (p i g a : Nat) (d : List Byte) : State :=
  let e := sget LeaseEnt.reset (getPart s p).leases i
  if e.live ∧ e.gen = g ∧ a + d.length ≤ e.size then
    modPart s p (fun t => { t with leases := sput t.leases i { e with store := ssetRange 0 e.store a d } })
  else s

/-- POSTED_STORE_PERFORM (R129, R131, R140, R152, R360): entry `i` of core `c`'s buffer is performed at its target. A store
into a region waits while the core does not hold the iron (R172); one to a busy accumulator waits (R131); one to a saved
core is diverted to the hamper (R248), unless that is full (R249). -/
def execPostedStorePerform (c i : Nat) (s : State) : Out :=
  let k := getCore s c
  .next (match k.psb[i]? with
    | none => s
    | some e =>
      let p := (partOf s c).getD 0
      let gone := dropPosted s c i e
      if !k.performable i || e.red.isSome then s
      else match e.sp with
      | .dev => if performsLine s p c (e.addr / 64) then homeWrite gone p c .dev e.comp e.addr e.data else s
      | .far => homeWrite gone p c .far none e.addr e.data
      | .host => homeWrite gone p c .host none e.addr e.data
      | .lease q x g => leaseWrite gone q x g e.addr e.data
      | .win t u =>
        if u = 4 then s
        else if (getCore s t).away then
          if mayDivert s t then hamperFrom gone .core c e.slot t (.winWrite t u e.addr e.data false) else s
        else if (getCore s t).winBusy u e.addr e.data.length then s
        else winWrite gone t u e.addr e.data)

/-- MAILBOX_STORE_DELIVER (R132): a window store to an empty mailbox writes the request, sets it full and releases. -/
def execMailboxStoreDeliver (c i : Nat) (s : State) : Out :=
  let k := getCore s c
  .next (match k.psb[i]? with
    | none => s
    | some e =>
      match e.sp with
      | .win t 4 =>
        let b := e.addr / 64
        if !k.performable i then s
        else if (getCore s t).away then
          if mayDivert s t then hamperFrom (dropPosted s c i e) .core c e.slot t (.winWrite t 4 e.addr e.data false) else s
        else if sget false (getCore s t).mbFull b then s
        else
          let s1 := modCore (dropPosted s c i e) t (fun k => { k with mbRel := sdel k.mbRel b })
          fillMailbox s1 t b (BitVec.ofNat 256 (leNat (e.data.take 32)))
      | _ => s)

/-- The read of an RMW without a result takes place at its home: an acquire has its effects then (R278, R279). -/
def lostRead (s : State) (c n : Nat) : Option LostRead → State
  | some (.acquire sys) => acquireAt s c n sys
  | _ => s

/-- REDUCTION_AT_HOME (R342): the home applies entry `i` once, as one RMW, or discards it on a poisoned line. An RMW whose slot has
discarded its result is applied in the same way (R278); where the home would answer it PROT (R172; assumption 26) it has no effect. -/
def execReductionAtHome (c i : Nat) (s : State) : Out :=
  let k := getCore s c
  .next (match k.psb[i]? with
    | none => s
    | some e =>
      match e.red with
      | none => s
      | some (op, wide) =>
        let p := (partOf s c).getD 0
        let may := performsLine s p c (e.addr / 64)
        if !k.performable i || (!may && e.am.isNone) then s
        else if e.am.isSome && !(may && mayReadLine s p (e.addr / 64)) then dropPosted s c i e
        else
          let gone := lostRead (dropPosted s c i e) c e.slot e.am
          let r := homeRead s p .dev e.comp.isSome false e.addr (wideBytes wide)
          if r.2 then gone
          else match atomBytes op wide r.1 (BitVec.ofNat 64 (leNat e.data)) e.cmp with
            | some new => homeWrite gone p c .dev e.comp e.addr new
            | none => gone)

/-! ## Reads at their targets -/

/-- Record the answer to the access slot `k` of core `c` waits for, and wake it. -/
def answerHold (s : State) (c k : Nat) (h : Hold) (x : Answer) : State :=
  wakeRes (modSlotAt s c k (fun l => { l with hold := some { h with ans := x } })) (.line h.sp (h.addr / 64))

/-- What a read of `n` bytes finds at its target. -/
def targetRead (s : State) (p : Nat) (h : Hold) (n : Nat) : Answer :=
  match h.sp with
  | .dev =>
    if mayReadLine s p (h.addr / 64) then
      let r := homeRead s p .dev h.comp h.view h.addr n
      .got r.1 r.2
    else .denied .prot
  | .far => let r := homeRead s p .far false false h.addr n; .got r.1 r.2
  | .host => let r := homeRead s p .host false false h.addr n; .got r.1 r.2
  | .lease q x g =>
    let e := sget LeaseEnt.reset (getPart s q).leases x
    if e.live ∧ e.gen = g ∧ h.addr + n ≤ e.size then .got (sgetRange 0 e.store h.addr n) false else .denied .bounds
  | .win _ _ => .pending

/-- LOAD_READ_AT_TARGET (R129): the read of slot `k`'s load is performed and its value held for the retry. -/
def execLoadReadAtTarget (c k : Nat) (s : State) : Out :=
  .next (match (getSlot s c k).hold with
    | some h =>
      match h.ans, h.op with
      | .pending, .load n =>
        match targetRead s ((partOf s c).getD 0) h n with
        | .pending => s
        | x => answerHold s c k h x
      | _, _ => s
    | none => s)

/-- WINDOW_ACCESS_PERFORM (R131, R133, R135): the window access of slot `k` is performed at its target core; a saved core
answers nothing (Table 19.2), and a core that withholds answers nothing of its scratchpad (R150). LDC and STP find the
word's state at hand. -/
def execWindowAccessPerform (c k : Nat) (s : State) : Out :=
  .next (match (getSlot s c k).hold with
    | some h =>
      match h.ans, h.sp with
      | .pending, .win t u =>
        let tk := getCore s t
        if tk.away || (u == 0 && tk.withholds) then s
        else match h.op with
        | .load n =>
          if tk.winBusy u h.addr n || (u == 2 &&
              heldBackAt s c k h.pc (.acc t (h.addr / 4096)) (accOwn s t (h.addr / 4096))) then
            answerHold s c k h (.wait .busy (.acc t (h.addr / 4096)))
          else
            let bad := u == 0 && tk.spBadIn h.addr n
            answerHold (if bad then rowError s t else s) c k h (.got (tk.winRead u h.addr n) bad)
        | .ldc _ _ => answerHold s c k h (.got [] false)
        | .stp _ => answerHold s c k h (.got [] false)
        | .feset n => answerHold (feFill s t (h.addr / 8) n true) c k h (.got [] false)
        | .feclr n => answerHold (feFill s t (h.addr / 8) n false) c k h (.got [] false)
        | .fepeek n => answerHold s c k h (.got (toBytes 8 (tk.feBits (h.addr / 8) n)) false)
      | _, _ => s
    | none => s)

/-! ## Walks and fills -/

/-- Add a translation to a TLB of `cap` entries; a full one gives up entry `ev` (R144). -/
def tlbAdd (t : List TlbEntry) (cap ev : Nat) (e : TlbEntry) : List TlbEntry :=
  let t1 := t.filter (fun x => !(x.vbase == e.vbase && x.size == e.size))
  e :: (if cap ≤ t1.length then t1.eraseIdx (ev % cap) else t1)

/-- Whether a walk of core `c` is among the 512 that its die runs at once: the oldest (R14, R144). -/
def walkRuns (s : State) (c : Nat) (w : Walk) : Bool :=
  let d := dieOf (pcnOf s c)
  decide (((s.cores.filter (fun (e : Nat × Core) => dieOf (pcnOf s e.1) == d)).flatMap (fun (e : Nat × Core) =>
    e.2.walks.filter (fun x => decide (x.seq < w.seq)))).length < 512)

/-- PAGE_WALK_COMPLETE (R143, R144): walk `i` of core `c` ends: the TLBs are filled and the entry's accessed and dirty bits
set, or the fault is held for the claim, in place of an earlier one. A walk that queues behind 512 of its die does not end yet.
`ev` names the entries that full TLBs give up. -/
def execPageWalkComplete (c i : Nat) (ev : List Nat) (s : State) : Out :=
  .next (match (getCore s c).walks[i]? with
    | none => s
    | some w =>
      let p := (partOf s c).getD 0
      let s0 := modSlotAt (modCore s c (fun k => { k with walks := k.walks.eraseIdx i })) c w.slot (fun l =>
        { l with walkFaults := l.walkFaults.filter (fun f => !(f.pc == w.pc && f.page == w.page)) })
      let fault := fun (inv : Bool) =>
        let x : WalkFault := { pc := w.pc, page := w.page, res := walkLineOf s p (4096 * w.page), invalid := inv }
        modSlotAt s0 c w.slot (fun l => Slot.tidy { l with walkFaults := x :: l.walkFaults })
      if !walkRuns s c w then s else
      let s2 := match walkTables s p (w.page * 4096) with
        | .invalid => fault true
        | .prot => fault false
        | .ok e pte =>
          let wr := w.write && e.w
          let e2 := { e with dirty := e.dirty || wr }
          let s2 := markPte s0 p pte wr
          let s3 := modCore s2 c (fun k => { k with utlb := tlbAdd k.utlb 32 (ev.getD 0 0) e2 })
          let row := coreRow s c
          { s3 with rowTlb := sset [] s3.rowTlb row (tlbAdd (sget [] s3.rowTlb row) 512 (ev.getD 1 0) e2) }
      wakeRes s2 (.line .dev ((rootOf s p + 8 * (w.page * 4096 / 2 ^ 39 % 512)) / 64)))

/-- The memory a cacheable space stands for. -/
def Space.target? : Space → Option Target
  | .dev => some .dev | .far => some .far | .host => some .host
  | _ => none

/-- Give a fill's line to the loads of it that wait. -/
def Slot.feed (l : Slot) (f : Fill) (data : List Byte) (poison : Bool) : Slot :=
  match l.hold with
  | some h =>
    match h.ans, h.op with
    | .pending, .load n =>
      if h.sp == f.sp && h.addr / 64 == f.line && h.view == f.view then
        let h2 := { h with ans := .got ((data.drop (h.addr % 64)).take n) poison }
        { l with hold := some h2 }
      else l
    | _, _ => l
  | none => l

/-- LINE_FILL_COMPLETE (R141, R169): the home answers fill `i` of core `c`. The L1 takes a copy, tagged with the region's
round in a region; a full L1 gives up line `ev`. A fetched lease descriptor is at hand (R139). -/
def execLineFillComplete (c i : Nat) (ev : List Nat) (s : State) : Out :=
  .next (match (getCore s c).fills[i]? with
    | none => s
    | some f =>
      let p := (partOf s c).getD 0
      let s1 := modCore s c (fun k => { k with fills := k.fills.eraseIdx i })
      match f.sp.target? with
      | none =>
        match f.sp with
        | .lease _ ix g => wakeRes (modCore s1 c (fun k => { k with
            leaseAt := if k.leaseAt.contains (ix, g) then k.leaseAt else k.leaseAt ++ [(ix, g)] })) (.line f.sp f.line)
        | _ => s1
      | some t =>
        let reg := if t == .dev then regionOf s p f.line else none
        let r := homeRead s p t f.comp f.view (64 * f.line) 64
        let new : L1Line := { sp := f.sp, line := f.line, view := f.view, data := r.1, poison := r.2,
                              tag := reg.map (fun e => (e.1, e.2.1, e.2.2.counter)) }
        if !mayReadLine s p f.line && t == .dev then wakeRes s1 (.line f.sp f.line)
        else
          let s2 := modCore s1 c (fun k =>
            let rest := k.l1.filter (fun e => !(e.sp == f.sp && e.line == f.line && e.view == f.view))
            let k1 := { k with
              l1 := new :: (if 256 ≤ rest.length then rest.eraseIdx (ev.getD 0 0 % 256) else rest),
              l1Gone := if t == Target.dev && !f.view then k.l1Gone.filter (· != f.line) else k.l1Gone }
            k1.mapSlots (fun _ l => l.feed f r.1 r.2))
          wakeRes s2 (.line f.sp f.line))

end Sys2Proof.Machine
end

