-- ==== Sys2Proof/Machine/Region.lean ====
section
/-! DEFINITION. Rounds and the iron, major 0x36, and publication (R164 to R176, R346, R349). -/

namespace Sys2Proof.Machine

/-! ## Handles and counters -/

/-- The region that a handle names for the current core's task (R165): launch, index and region; none raises BOUNDS. -/
def regionHandle (s : State) (h : W64) : Option (Nat × Nat × Region) :=
  match (cur s).task with
  | none => none
  | some t =>
    let i := bitsOf h 9 0
    if bitsOf h 63 12 ≠ 0 ∨ bitsOf h 11 10 ≠ 1 then none
    else (liveLaunch s (curPart s) t.q).bind (fun l =>
      (l.regions[i]?).map (fun r => (t.q, i, r)))

/-- Change one region. -/
def modRegion (s : State) (p q n : Nat) (f : Region → Region) : State :=
  mapRegions s p (fun q2 n2 r => if q2 = q ∧ n2 = n then f r else r)

/-- Region `n` of live launch `q`. -/
def getRegion (s : State) (p q n : Nat) : Option Region := (liveLaunch s p q).bind (fun l => l.regions[n]?)

/-- Whether a range of device memory meets a region. -/
def Region.meets (r : Region) (sp : Space) (a n : Nat) : Bool := sp == .dev && (linesOf a n).any (fun l => (r.vline l).isSome)

/-- Whether a write to the region that a core issued before the mark is unperformed (R166). -/
def regionOpen (s : State) (c : Nat) (r : Region) (mark : Nat) : Bool :=
  let k := getCore s c
  k.psb.any (fun e => decide (e.id < mark) && r.meets e.sp e.addr e.data.length) ||
  k.copies.any (fun e => decide (e.id < mark) && e.segs.any (fun g => r.meets g.dst g.daddr g.len)) ||
  k.slots.any (fun e => match e.2.atom with
    | some t => t.ans == .pending && r.meets .dev t.addr 4
    | none => false)

/-- The physical line of a region's base, whose home keeps its counter. -/
def Region.homeLine (r : Region) : Nat := sget 0 r.pages (r.base / 4096) * 64 + r.base / 64 % 64

/-- Set a region's counter and send round notices to the partition's cores whose view holds it; core `c`'s own view takes the value at
once (R166, R167). A published counter goes to its subscribers (R176, R255). -/
def setCounter (s : State) (p q n c : Nat) (v : BitVec 32) : State :=
  let s1 := modRegion s p q n (fun r => { r with counter := v })
  let own := fun (k : Core) => { k with
    view := k.view.map (fun (e : ViewEntry) => if e.q == q && e.n == n then { e with val := v } else e) }
  let s2 := if c = noCore then s1 else modCore s1 c own
  let sl := match getRegion s1 p q n with
    | some r => homeSlice s p (r.homeLine)
    | none => 0
  let others := (s2.cores.map (·.1)).filter (fun u => u != c && partOf s2 u == some p && (viewOf (getCore s2 u) q n).isSome)
  let s3 := others.foldl (fun s t => sendSlice s sl (.notice t q n v)) s2
  match getRegion s3 p q n with
  | some r => if r.mode = 1 then publish s3 p r.homeLine r.sub (fun ps l => .round ps l r.sub v) else s3
  | none => s3

/-- Own condition of a claim at an iron (R38, R173). -/
def ironOwn (s : State) (r : Region) (c _n : Nat) (cl : Claim) : Bool :=
  let isRound := match claimInstr s c cl with
    | some (.round ..) => true
    | _ => false
  match r.iron with
  | .rest => !isRound
  | .held x => x == c
  | .passing _ _ _ _ => false
  | .offered x => !isRound && x == c

/-! ## ROUND, RVIEW, IRGET, IRPASS -/

/-- ROUND (R166, R173): the increment is entered among the core's posted work; later work of the slot has later numbers. -/
def execRound (a : SReg) (nr : Disp) (s : State) : Out :=
  .next (match regionHandle s (rdS s a) with
    | none => raise s .bounds
    | some (q, n, r) =>
      let p := curPart s
      let c := s.curCore
      let res : Resource := .iron p q n
      let go :=
        if heldBackBy s res (ironOwn s r) then notReady s nr .token res
        else timing s nr true (readyNext (dropHold (modCur s (fun k => { k with
          rounds := k.rounds ++ [{ id := k.nextId, slot := s.curSlot, q := q, n := n }], nextId := k.nextId + 1 }))))
      match r.iron with
      | .held x => if x = c then go else notReady s nr .token res
      | .offered x => if x = c then raise s .prot else notReady s nr .token res
      | .passing x _ _ _ => if x = c then raise s .prot else notReady s nr .token res
      | .rest => raise s .prot)

/-- RVIEW (R173, R174, R349): always ready (R28). -/
def execRview (d a : SReg) (acq : Bool) (s : State) : Out :=
  .next (match regionHandle s (rdS s a) with
    | none => raise s .bounds
    | some (q, n, r) =>
      match viewOf (cur s) q n with
      | some v =>
        let w := BitVec.ofNat 64 (v.toNat + 2 ^ 32 + (if r.lost then 2 ^ 33 else 0))
        let s1 := modCur (wrS s d w) (fun k => k.touchView q n)
        advance (ready (if acq then acquireFx s1 (r.mode == 2) else dropRead s1))
      | none => readyNext (startView (dropRead (wrS s d 0)) q n))

/-- IRGET (R173). A region that the view holds already keeps its place in the order of replacement (assumption 77). -/
def execIrget (a : SReg) (nr : Disp) (s : State) : Out :=
  .next (match regionHandle s (rdS s a) with
    | none => raise s .bounds
    | some (q, n, r) =>
      let p := curPart s
      let c := s.curCore
      let res : Resource := .iron p q n
      let s0 := if (viewOf (cur s) q n).isNone then startView s q n else s
      let free := match r.iron with
        | .rest => true
        | .held x => x == c
        | .passing _ _ _ _ => false
        | .offered x => x == c
      if !r.w || r.mode == 2 then raise s .prot
      else if !free || heldBackBy s res (ironOwn s r) then notReady s0 nr .token res
      else timing s nr true (
        let s1 := if r.iron == .held c then s0
          else wakeRes (modRegion s0 p q n (fun r => { r with iron := .held c })) res
        advance (acquireFx (ready s1) false)))

/-- IRPASS (R172, R173): always ready (R28); the pass begins at issue, and its increment is entered among the core's work. -/
def execIrpass (a t : SReg) (s : State) : Out :=
  .next (match regionHandle s (rdS s a) with
    | none => raise s .bounds
    | some (q, n, r) =>
      let p := curPart s
      let c := s.curCore
      let dest := lo16 (rdS s t)
      if r.iron != .held c then raise s .prot
      else if dest != 0xFFFF && !inPart s dest then raise s .prot
      else
        let m := (cur s).nextId
        let s1 := modRegion s p q n (fun r => { r with iron := .passing c s.curSlot dest m })
        readyNext (dropHold (wakeRes (modCur s1 (fun k => (k.dropTagged q n).enterPass s.curSlot q n)) (.iron p q n))))

/-! ## At the home and at the views -/

/-- The increments of a region that are under way, with their core, oldest first in each core. -/
def roundsOf (s : State) (p q n : Nat) : List (Nat × RoundInc) :=
  s.cores.flatMap (fun (e : Nat × Core) =>
    if partOf s e.1 == some p then (e.2.rounds.filter (fun r => r.q == q && r.n == n)).map (fun r => (e.1, r)) else [])

/-- An increment leaves its core's posted work; refusals that waited for it may clear (R43). -/
def dropRound (s : State) (c : Nat) (i : RoundInc) : State :=
  wakeOrders (modCore s c (fun k => { k with rounds := k.rounds.filter (fun r => r.id != i.id) })) c i.slot

/-- The increment of a region's pass by slot `k` leaves its core's work. -/
def dropPass (s : State) (c k q n : Nat) : State :=
  wakeOrders (modCore s c (fun x => { x with passes := x.passes.filter (fun r => !(r.q == q && r.n == n)) })) c k

/-- ROUND_INCREMENT (R153, R166, R174): the oldest increment under way takes place once every earlier write of its core to the
region, and all work that a release of its slot covers, is performed. -/
def execRoundIncrement (p q n : Nat) (s : State) : Out :=
  .next (match getRegion s p q n, roundsOf s p q n with
    | some r, (c, i) :: _ =>
      if regionOpen s c r i.id || (getCore s c).openBefore i.slot i.id then s
      else setCounter (dropRound s c i) p q n c (r.counter + 1)
    | _, _ => s)

/-- Whether work that a pass of slot `k` releases is unperformed; at the end of a part (8) that of every slot (R175). -/
def passWaits (c : Core) (k m : Nat) : Bool :=
  if k < 8 then c.openBefore k m else slotNums.any (fun n => c.workBefore n m)

/-- IRON_PASS_COMPLETE (R153, R172 to R175): behind the core's earlier increments and writes to the region, and every earlier
write of the slot that passes, the counter increments and the iron comes to rest or is offered. -/
def execIronPassComplete (p q n : Nat) (s : State) : Out :=
  .next (match getRegion s p q n with
    | none => s
    | some r =>
      match r.iron with
      | .passing c k t m =>
        if !(roundsOf s p q n).isEmpty || regionOpen s c r m || passWaits (getCore s c) k m then s
        else
          let s1 := setCounter (dropPass s c k q n) p q n c (r.counter + 1)
          let s2 := modRegion s1 p q n (fun r => { r with iron := if t = 0xFFFF then .rest else .offered t })
          wakeRes s2 (.iron p q n)
      | _ => s)

/-- Whether round value `u` is newer than `v` (R168). -/
def newerRound (u v : BitVec 32) : Bool := decide (0 < (u - v).toNat ∧ (u - v).toNat < 2 ^ 31)

/-- Wake the slots that wait on lines of a region. -/
def wakeRegion (s : State) (p q n : Nat) : State :=
  match getRegion s p q n with
  | some r => wakeWhere s (fun x => match x with | .line .dev l => (r.vline l).isSome | _ => false)
  | none => s

/-- ROUND_NOTICE_ARRIVAL (R167, R171, R248): the view takes a newer value; a saved core discards the notice. -/
def execRoundNoticeArrival (i : Nat) (s : State) : Out :=
  let same := fun (a b : Packet) => match a.body, b.body with
    | .notice t q n _, .notice u x y _ => t == u && q == x && n == y
    | _, _ => false
  .next (match canArrive s i same with
    | some pk =>
      match pk.body with
      | .notice t q n v =>
        let s1 := dropNet s i
        if (getCore s t).away then s1
        else
          let s2 := modCore (recvPk s1 t pk) t (fun k => { k with
            view := k.view.map (fun (e : ViewEntry) => if e.q == q && e.n == n && newerRound v e.val then { e with val := v } else e),
            viewNeed := k.viewNeed.filter (fun e => !(e.1 == q && e.2.1 == n && !newerRound e.2.2 v)) })
          wakeRegion s2 ((partOf s t).getD 0) q n
      | _ => s
    | none => s)

/-- VIEW_INSTALL (R167): install `i` of core `c` brings the counter's value at the home; the least recently used of 64
entries makes room. -/
def execViewInstall (c i : Nat) (s : State) : Out :=
  .next (match (getCore s c).viewAsk[i]? with
    | none => s
    | some (q, n) =>
      let p := (partOf s c).getD 0
      let s1 := modCore s c (fun k => { k with viewAsk := k.viewAsk.eraseIdx i })
      match getRegion s p q n with
      | none => s1
      | some r =>
        let e : ViewEntry := { q := q, n := n, val := r.counter }
        let s2 := modCore s1 c (fun k =>
          let rest := k.view.filter (fun x => !(x.q == q && x.n == n))
          { k with view := e :: rest.take 63,
                   viewNeed := k.viewNeed.filter (fun x => !(x.1 == q && x.2.1 == n && !newerRound x.2.2 r.counter)) })
        wakeRegion s2 p q n)

/-! ## Publication (R176) -/

/-- Physical address of offset `off` of a region. -/
def Region.physOf (r : Region) (off : Nat) : Nat :=
  let vl := r.base / 64 + off / 64
  sget 0 r.pages (vl / 64) * 4096 + vl % 64 * 64 + off % 64

/-- Whether a port that carries a subscription holds a reduction block, behind which its traffic waits (R263). -/
def portHeld (s : State) (p sub : Nat) : Bool := (peersOf s p sub).any (fun e => !(getPort s e.1).held.isEmpty)

/-- PUBLISH_WRITE_ARRIVAL (R176): a published write, whose Lamport value is another device's (a free value), is written at the
same offset of a subscribed region. -/
def execPublishWriteArrival (p q n off : Nat) (data : List Byte) (s : State) : Out :=
  .next (match getRegion s p q n with
    | none => s
    | some r =>
      if r.mode ≠ 2 ∨ r.lost = true ∨ r.lines * 64 < off + data.length ∨ 64 < off % 64 + data.length ∨
        portHeld s p r.sub = true then s
      else
        let comp := match walkTables s p (r.base + off) with
          | .ok e _ => if e.comp then some e.dslot else none
          | _ => none
        let f := drawFree s 64
        homeWrite (recvSlice f.2 (homeSlice s p (r.physOf off / 64)) f.1) p noCore .dev comp (r.physOf off) data)

/-- PUBLISH_ROUND_ARRIVAL (R166, R176): a published counter value sets the subscriber's counter and sends notices. -/
def execPublishRoundArrival (p q n : Nat) (val : BitVec 32) (s : State) : Out :=
  .next (match getRegion s p q n with
    | none => s
    | some r =>
      if r.mode ≠ 2 ∨ r.lost = true ∨ portHeld s p r.sub = true then s
      else
        let f := drawFree s 64
        setCounter (recvSlice f.2 (homeSlice s p r.homeLine) f.1) p q n noCore val)

/-- SUBSCRIPTION_LOST (R176, R260): the home sets the lost flag, and an event of kind 3 names the subscription. -/
def execSubscriptionLost (p q n : Nat) (s : State) : Out :=
  .next (match getRegion s p q n with
    | none => s
    | some r =>
      if r.mode ≠ 2 ∨ r.lost = true then s
      else raiseEvent (modRegion s p q n (fun r => { r with lost := true })) p 3 0 r.sub 0)

end Sys2Proof.Machine
end

