-- ==== Sys2Proof/Machine/Reload.lean ====
section
/-! DEFINITION. The ends of DICTLD, XLINV and DCFENCE at the controllers, the TLBs and the home slices (R144, R219, R221, R293,
R294, R375). -/

namespace Sys2Proof.Machine

/-! ## Palettes (R221, R294) -/

/-- The 16 bytes of a reload, or the `ecause` code of its failure. -/
def reloadRead (s : State) (p va : Nat) : Except Nat (List Byte) :=
  match walkTables s p (plainVa va) with
  | .invalid => .error 4
  | .prot => .error 7
  | .ok e _ =>
    let pa := e.phys (plainVa va)
    if !e.allows .dev true false (viewBit va) || !mayReadLine s p (pa / 64) then .error 7
    else
      let r := homeRead s p .dev e.comp (viewBit va) pa 16
      if r.2 then .error 10 else .ok r.1

/-- A palette slot after a reload: the next generation, the current one kept as the previous (R221). -/
def Palette.load (x : Palette) (v : BitVec 128) : Palette := { gen := (x.gen + 1) % 4, cur := v, prev := x.cur }

/-- Place of the reload that may be performed next: its slot's earlier writes are performed, and no earlier reload of its
palette slot is left. -/
def nextReload (s : State) (t : Partition) : Option (Nat × DictReq) :=
  (t.dicts.zipIdx.find? (fun e => !(getCore s e.1.core).openBefore e.1.cslot e.1.after &&
    (t.dicts.take e.2).all (fun x => x.slot != e.1.slot))).map (fun e => (e.2, e.1))

/-- PALETTE_RELOAD (R221, R294, R260). -/
def execPaletteReload (p : Nat) (s : State) : Out :=
  .next (match nextReload s (getPart s p) with
    | none => s
    | some (i, r) =>
      let s1 := modPart s p (fun t => { t with dicts := t.dicts.eraseIdx i })
      let s2 := match reloadRead s p r.addr with
        | .ok d => modPart s1 p (fun t => { t with
            pal := sset Palette.reset t.pal r.slot ((sget Palette.reset t.pal r.slot).load (BitVec.ofNat 128 (leNat d))) })
        | .error code => raiseEvent s1 p 5 code r.addr r.slot
      wakeRes s2 (orderRes r.core r.cslot))

/-! ## TLBs (R144, R375) -/

/-- Whether a translation falls to a request: it covers the page, or the request drops everything. -/
def InvReq.hits (r : InvReq) (e : TlbEntry) : Bool :=
  match r.page with
  | some v => e.covers (4096 * v)
  | none => true

/-- XLINV_COMPLETE (R375): every TLB of the partition has dropped the entries of its oldest request. A walk under way reads the
tables when it ends, so it reads them as they then stand. -/
def execXlinvComplete (p : Nat) (s : State) : Out :=
  let t := getPart s p
  .next (match t.invs with
    | [] => s
    | r :: rest =>
      let s1 := mapCores (modPart s p (fun t => { t with invs := rest })) (fun c k =>
        if t.owns c then { k.mapSlots (fun _ l => { l with gathered := l.gathered.filter (fun e => !r.hits e.2) }) with
          utlb := k.utlb.filter (fun e => !r.hits e) } else k)
      let rows := s1.rowTlb.map (fun (e : Nat × List TlbEntry) =>
        if t.bays.contains (e.1 / 16) then (e.1, e.2.filter (fun x => !r.hits x)) else e)
      wakeRes { s1 with rowTlb := rows.filter (fun e => !e.2.isEmpty) } (orderRes r.core r.cslot))

/-! ## DCFENCE (R219, R293) -/

/-- Whether a physical line lies in a block of a translated compressed page of the range from `base` on, `len` bytes. -/
def fencedLine (s : State) (p base len line : Nat) : Bool :=
  (List.range ((base + len + 4095) / 4096 - base / 4096)).any (fun i =>
    let v := (base / 4096 + i) * 4096
    match walkTables s p v with
    | .ok e _ =>
      let lo := max base v
      let hi := min (base + len) (v + 4096)
      e.comp && decide (e.phys lo ≤ 64 * line ∧ 64 * line < e.phys lo + (hi - lo))
    | _ => false)

/-- The entries that the walkers find for the pages of a range (R293). -/
def fencedPtes (s : State) (p base len : Nat) : List Nat :=
  (List.range ((base + len + 4095) / 4096 - base / 4096)).filterMap (fun i =>
    match walkTables s p ((base / 4096 + i) * 4096) with
    | .ok _ pte => some pte
    | _ => none)

/-- DCFENCE_WRITEBACK (R219, R222, R293): once the slot's earlier posted work on the blocks is performed, every copy, of either
view, of the compressed blocks of the oldest range of slot `k` of core `c` is dropped, and the range is no longer refused. The walkers
have translated its pages, and set the accessed bits of their entries (Table 8.6). Blocks are always stored at their homes. -/
def execDcfenceWriteback (c k : Nat) (s : State) : Out :=
  .next (match (getSlot s c k).dcf with
    | [] => s
    | (base, len, m) :: rest =>
      let p := (partOf s c).getD 0
      if (getCore s c).psb.any (fun e => e.slot == k && decide (e.id < m) && e.sp == .dev && fencedLine s p base len (e.addr / 64))
      then s else
      let s1 := mapCores s (fun _ x => { x with
        l1 := x.l1.filter (fun e => !(e.sp == .dev && fencedLine s p base len e.line)) })
      let s2 := (fencedPtes s p base len).foldl (fun s a => markPte s p a false) s1
      wakeOrders (modSlotAt s2 c k (fun l => { l with dcf := rest })) c k)

end Sys2Proof.Machine
end

