-- ==== Sys2Proof/Machine/Press.lean ====
section
/-! DEFINITION. The press and the accumulators: majors 0x15 and 0x16 and their events (R190 to R206, R223, R271 to R274, R331 to
R335, R350). -/

namespace Sys2Proof.Machine

/-! ## PMAC (R191, R193, R194, R334) -/

/-- The format and plane count of a press instruction; none is ILLEGAL (R68, R85). -/
def pressForm (s : State) (pl : BitVec 3) : Option (Fmt × Nat) :=
  (fmtOf (slot s).pfmt).bind (fun f => (planesOf f pl).map (fun n => (f, n)))

/-- Whether PMAC is refused at its accumulator (R191, Table 13.1). -/
def pmacRefused (s : State) (x : Nat) : Bool :=
  (cur s).accOtherBusy x || !(cur s).pressFree || heldBackBy s (.acc s.curCore x) (accOwn s s.curCore x)

/-- Accept an operation: into the running position when the press is idle, else into the waiting one (R191); the press's
clock takes the core's value (R255). -/
def Core.acceptOp (k : Core) (o : PressOp) : Core :=
  let k1 := { k with nextId := k.nextId + 1, pressLam := lamMax k.pressLam k.lamport, calm := 0 }
  if k.pressRun.isNone then { k1 with pressRun := some o } else { k1 with pressWait := some o }

/-- PMAC (R334), refused FILL while an order of its slot is open that its operation could hold up itself (R77, R150). A ready one
discards a value read for a load's retry before it (R223). -/
def execPmac (x : Acc) (a b : SReg) (nr : Disp) (md : PMode) (pl : BitVec 3) (s : State) : Out :=
  let ea := lo16 (rdS s a)
  let eb := lo16 (rdS s b)
  .next (match pressForm s pl with
    | none => raise s .illegal
    | some (f, n) =>
      if ea % 64 ≠ 0 ∨ eb % 64 ≠ 0 then raise s .align
      else if dequeBase < ea + f.tileBytes ∨ dequeBase < eb + f.tileBytes then raise s .prot
      else if pmacRefused s x.val then notReady s nr .busy (.acc s.curCore x.val)
      else if (cur s).pmacOpen s.curSlot then notReady s nr .fill (orderRes s.curCore s.curSlot)
      else timing s nr false (
        let o : PressOp := { id := (cur s).nextId, src := .loc s.curSlot, acc := x.val, a := ea, b := eb, fmt := f, md := md,
                             planes := n, gam := (slot s).pgam, heads := none, mags := [], bad := false }
        readyNext (modCur (dropRead s) (fun k => k.acceptOp o))))

/-! ## PGRP (R200, R332) -/

/-- What a PGRP descriptor asks. -/
structure GrpDesc where
  group : Nat
  mt : Nat
  nt : Nat
  abase : Nat
  bbase : Nat
  reserved : Bool
deriving DecidableEq, Repr

/-- A descriptor's fields (Table 13.4). -/
def grpDesc (d0 d1 : Nat) : GrpDesc :=
  { group := natBits d0 63 56, mt := natBits d0 55 51 + 1, nt := natBits d0 50 46 + 1, abase := natBits d0 15 0,
    bbase := natBits d1 15 0, reserved := natBits d0 45 16 != 0 || natBits d1 63 16 != 0 }

/-- Members of a group that the current core's task holds; none when it does not hold it (R119). -/
def heldGroup (s : State) (g : Nat) : Option (List Nat) :=
  match (cur s).task, taskNode s s.curCore with
  | some t, some (l, n) => if t.groups.contains g then some (l.members n g) else none
  | _, _ => none

/-- Members and tiles per member of a PGRP; none breaks a limit of R200. -/
def grpShare (s : State) (x : Nat) (d : GrpDesc) : Option (List Nat × Nat) :=
  (heldGroup s d.group).bind (fun ms =>
    let tpm := (d.mt * d.nt + ms.length - 1) / ms.length
    if 64 < ms.length ∨ ms.length = 0 ∨ 12 < d.mt ∨ 20 < d.nt ∨ 8 < tpm ∨ 8 < x + tpm ∨ d.reserved = true then none
    else some (ms, tpm))

/-- PGRP (R332). Writing the record reads the word whose `gen` it keeps (assumption 102). -/
def execPgrp (x : Acc) (a b : SReg) (nr : Disp) (md : PMode) (pl : BitVec 3) (s : State) : Out :=
  let dsc := lo16 (rdS s a)
  let rcd := lo16 (rdS s b)
  let res : Resource := .acc s.curCore x.val
  .next (match pressForm s pl with
    | none => raise s .illegal
    | some (f, n) =>
      if dsc % 16 ≠ 0 ∨ rcd % 16 ≠ 0 then raise s .align
      else if dequeBase < dsc + 16 ∨ dequeBase < rcd + 32 then raise s .prot
      else
      let s := ownPerformed s 0
      let k := cur s
      if k.spBadIn dsc 16 || k.spBadIn (rcd + 8) 8 then raiseRow s s.curCore
      else
        let d := grpDesc (leNat (k.spRead dsc 8)) (leNat (k.spRead (dsc + 8) 8))
        match grpShare s x.val d with
        | none => raise s .bounds
        | some (ms, tpm) =>
          if d.abase % 64 ≠ 0 ∨ d.bbase % 64 ≠ 0 then raise s .align
          else if pgrpOut s s.curCore || heldBackBy s res (accOwn s s.curCore x.val) then notReady s nr .busy res
          else timing s nr false (
            let gen := leNat (k.spRead (rcd + 8) 8) / 4 * 4
            let s1 := spWrite s s.curCore rcd (toBytes 4 0 ++ toBytes 4 ms.length ++ toBytes 8 gen ++ toBytes 16 0)
            let sh : Nat → Share := fun r =>
              { issuer := s.curCore, id := k.nextId, slot := s.curSlot, rcd := rcd, rank := r, acc := x.val, mt := d.mt, nt := d.nt,
                tpm := tpm, abase := d.abase, bbase := d.bbase, fmt := f, md := md, planes := n, gam := (slot s).pgam,
                next := 0, failed := false }
            readyNext (ms.zipIdx.foldl (fun s e => send s false (.share e.1 (sh e.2)))
              (modCur s1 (fun k => { k with nextId := k.nextId + 1 })))))

/-! ## PCMD (R203, R331) -/

/-- Whether a press capability permits a step (R203, Table 13.6). Its window alone bounds the tiles (assumption 100). -/
def capAllows (s : State) (w : Nat × Nat) (x : Nat) (md : PMode) (f : Fmt) (at_ bt : Nat) : Bool :=
  let t := natBits w.1 15 0
  let base := natBits w.2 15 0
  let top := base + natBits w.2 31 16
  natBits w.1 63 63 == 1 && inPart s t && t != s.curCore && natBits w.1 (48 + x) (48 + x) == 1 &&
  natBits w.1 (if md == .ovw then 17 else 16) (if md == .ovw then 17 else 16) == 1 &&
  decide (base ≤ at_ ∧ at_ + f.tileBytes ≤ top ∧ base ≤ bt ∧ bt + f.tileBytes ≤ top)

/-- A refusal for lack of a credit of the target's PCMD places starts a request (R97, R203). -/
def refuseCmd (s : State) (nr : Disp) (t : Nat) : State :=
  let s1 := if (cur s).pressAsked.contains t then s
    else sendFrom (modCur s (fun k => { k with pressAsked := k.pressAsked ++ [t] })) s.curCore s.curSlot 0
      (.cmdReq t s.curCore)
  notReady s1 nr .credit (.pressCredit s.curCore t)

/-- PCMD (R331). -/
def execPcmd (x : Acc) (a b : SReg) (nr : Disp) (md : PMode) (pl : BitVec 3) (s : State) : Out :=
  let h := rdS s a
  let v := rdS s b
  let cw := bitsOf v 47 32
  let bt := bitsOf v 31 16
  let at_ := bitsOf v 15 0
  let p := curPart s
  .next (match pressForm s pl with
    | none => raise s .illegal
    | some (f, n) =>
      if bitsOf h 63 12 ≠ 0 ∨ bitsOf h 11 10 ≠ 2 ∨ bitsOf v 63 48 ≠ 0 then raise s .bounds
      else if cw % 16 ≠ 0 ∨ at_ % 64 ≠ 0 ∨ bt % 64 ≠ 0 then raise s .align
      else if dequeBase < cw + 16 then raise s .prot
      else match handleWords s p h.toNat with
        | none => raise s .capref
        | some w =>
          let t := natBits w.1 15 0
          if !capAllows s w x.val md f at_ bt then raise s .capref
          else
            let s0 := match (cur s).task with
              | some tk => keepHandle s p h.toNat tk.q w
              | none => s
            if (cur s).cmdCredits t = 0 ∨ heldBack s (.pressCredit s.curCore t) = true then refuseCmd s0 nr t
            else if psbFull s || engineHeld s then notReady s0 nr .busy (.engine s.curCore)
            else timing s0 nr false (
              let s1 := modCur s0 (fun k => k.putCmd t (k.cmdCredits t - 1))
              let st : PcmdStep := { issuer := s.curCore, cw := cw, acc := x.val, a := at_, b := bt, fmt := f, md := md,
                                     planes := n, gam := (slot s).pgam }
              readyNext (send s1 false (.pcmd t st))))

/-! ## The press at work (R192, R194, R201, R202, R331, R335) -/

/-- Tile t of a share's step u: byte addresses of its operands (R201). -/
def Share.operands (h : Share) (u : Nat) : Nat × Nat :=
  let t := h.rank * h.tpm + u
  (h.abase + t / h.nt * h.fmt.tileBytes, h.bbase + t % h.nt * h.fmt.tileBytes)

/-- Whether an operand range of a share's steps reaches 0xF800 (R202). -/
def Share.outside (h : Share) : Bool :=
  (List.range h.count).any (fun u =>
    decide (dequeBase < (h.operands u).1 + h.fmt.tileBytes ∨ dequeBase < (h.operands u).2 + h.fmt.tileBytes))

/-- Whether an operation is a step of a share. -/
def PressOp.ofShare (o : PressOp) (h : Share) : Bool :=
  match o.src with
  | .share i n k => i == h.issuer && n == h.id && k == h.rank
  | _ => false

/-- The step that a share has next. -/
def shareOp (k : Core) (h : Share) : PressOp :=
  let ad := h.operands h.next
  { id := k.nextId, src := .share h.issuer h.id h.rank, acc := h.acc + h.next, a := ad.1, b := ad.2, fmt := h.fmt, md := h.md,
    planes := h.planes, gam := h.gam, heads := none, mags := [], bad := false }

/-- A PCMD step enters a position: its place is free again, and the credit goes back to the issuer (R331). -/
def enterCmd (s : State) (c : Nat) (e : Nat × PcmdStep) : State :=
  let k := getCore s c
  let st := e.2
  let o : PressOp := { id := k.nextId, src := .cmd st.issuer st.cw, acc := st.acc, a := st.a, b := st.b, fmt := st.fmt,
                       md := st.md, planes := st.planes, gam := st.gam, heads := none, mags := [], bad := false }
  sendFrom (setCore s c ({ k with cmdQ := k.cmdQ.eraseIdx e.1 }.acceptOp o)) c 0 0 (.cmdBack st.issuer c)

/-- The next step of a share enters a position. -/
def enterShare (s : State) (c : Nat) (e : Nat × Share) : State :=
  let k := getCore s c
  setCore s c ({ k with shareQ := k.shareQ.set e.1 { e.2 with next := e.2.next + 1 } }.acceptOp (shareOp k e.2))

/-- A remote step enters the free position; of a command and a share that both could, which one is a free value. -/
def enterRemote (s : State) (c : Nat) : State :=
  let k := getCore s c
  match k.readyCmd, k.readyShare with
  | some e, some h =>
    let f := drawFree s 1
    if f.1 = 0 then enterCmd f.2 c e else enterShare f.2 c h
  | some e, none => enterCmd s c e
  | none, some h => enterShare s c h
  | none, none => s

/-- An operand word was uncorrectable (R202, R335): a share fails, and no later step of it runs. -/
def markBad (s : State) (c : Nat) (o : PressOp) (bad : Bool) : State :=
  if !bad then s
  else
    let same := fun (w : PressOp) => w.src == o.src && (match o.src with | .share .. => true | _ => false)
    modCore (rowError s c) c (fun k => { k with
      shareQ := k.shareQ.map (fun (h : Share) => if o.ofShare h then { h with failed := true } else h),
      pressWait := k.pressWait.filter (fun w => !same w) })

/-- A posted store that its target holds: an accumulator busy, a mailbox full (R131, R132, R246). -/
def heldAtTarget (s : State) (e : Posted) : Bool :=
  match e.sp with
  | .win t u => (u == 4 && sget false (getCore s t).mbFull (e.addr / 64)) || (getCore s t).winBusy u e.addr e.data.length
  | _ => false

/-- Whether the reads of an operation must wait for work that its PMAC follows in program order (R194). -/
def pressWaits (s : State) (c : Nat) (o : PressOp) : Bool :=
  match o.src with
  | .loc n => (getCore s c).openBefore n o.id
  | _ => false

/-- An operation starts its setup: the header, selector and sign planes of both tiles are read as one event (R194). -/
def readHeads (s : State) (c : Nat) (o : PressOp) : State :=
  let k := getCore s c
  let n := o.fmt.headBytes
  let bad := k.spBadIn o.a n || k.spBadIn o.b n
  let o2 := { o with heads := some (k.spRead o.a n, k.spRead o.b n), bad := o.bad || (decide (0 < n) && bad) }
  if pressWaits s c o then s
  else markBad (setCore s c { k with pressRun := some o2 }) c o (decide (0 < n) && bad)

/-- Whether all planes of an operation are read. -/
def PressOp.full (o : PressOp) : Bool := o.heads.isSome && decide (o.planes ≤ o.mags.length)

/-- PRESS_OP_START (R191, R192, R194): the running operation starts its setup; or the waiting one moves to running, when the
press is idle or the running one's last interval is under way; or a remote step takes a free position. -/
def execPressOpStart (c : Nat) (s : State) : Out :=
  let k := getCore s c
  .next (if k.halted then s
    else
      let s1 := match k.pressRun, k.pressWait with
        | some o, w =>
          if o.heads.isNone then readHeads s c o
          else match w with
            | some w =>
              if o.full && k.pressEnd.isNone then
                readHeads (setCore s c { k with pressEnd := some o, pressRun := some w, pressWait := none }) c w
              else s
            | none => if k.away then s else enterRemote s c
        | none, some w => readHeads (setCore s c { k with pressRun := some w, pressWait := none }) c w
        | none, none => if k.away then s else enterRemote s c
      wakeAccs s1 c)

/-- PRESS_PLANE_READ (R194): the next magnitude plane of both tiles, as one event. -/
def execPressPlaneRead (c : Nat) (s : State) : Out :=
  let k := getCore s c
  .next (match k.pressRun with
    | none => s
    | some o =>
      if o.heads.isNone || o.full || k.pressEnd.isSome || k.halted then s
      else
        let off := o.fmt.headBytes + 128 * o.mags.length
        let bad := k.spBadIn (o.a + off) 128 || k.spBadIn (o.b + off) 128
        let o2 := { o with mags := (k.spRead (o.a + off) 128, k.spRead (o.b + off) 128) :: o.mags, bad := o.bad || bad }
        markBad (setCore s c { k with pressRun := some o2 }) c o bad)

/-- What the end of an operation reports (R202, R203, R335). -/
def reportOp (s : State) (c : Nat) (o : PressOp) : State :=
  match o.src with
  | .loc n => if o.bad then modCore s c (fun k => { k with engTraps := k.engTraps ++ [(some n, .memue)] }) else s
  | .share .. => if o.bad then modCore s c (fun k => { k with engTraps := k.engTraps ++ [(none, .memue)] }) else s
  | .cmd i cw => sendFrom s c 0 0 (.countInc i cw 1)

/-- An operation writes its accumulator (R185, R186, R335). -/
def finishOp (s : State) (c : Nat) (o : PressOp) : State :=
  wakeAccs (reportOp (modCore s c (fun k => k.setTile o.acc (pressTile o (k.tile o.acc)))) c o) c

/-- PRESS_OP_COMPLETE (R185, R186, R195). -/
def execPressOpComplete (c : Nat) (s : State) : Out :=
  let k := getCore s c
  .next (match k.pressEnd, k.pressRun with
    | some o, _ => finishOp (setCore s c { k with pressEnd := none }) c o
    | none, some o => if o.full then finishOp (setCore s c { k with pressRun := none }) c o else s
    | none, none => s)

/-! ## Shares and steps from other cores -/

/-- Add to a count word of core `c`; an uncorrectable word that this consumes counts on its row (R137, R236). -/
def countUp (s : State) (c a n : Nat) : State :=
  let k := getCore s c
  let bad := k.spBadIn a 4 || (decide (2 ^ 32 ≤ leNat (k.spRead a 4) + n) && k.spBadIn (a + 8) 1)
  countAdd (if bad then rowError s c else s) c a n

/-- A member's share reports (R202): its bit in the done or the failed bitmap of the issuer's record, then one more in the
count. A bitmap that was uncorrectable is so afterwards too (R236). -/
def putReport (s : State) (t rcd rank : Nat) (failed : Bool) : State :=
  let k := getCore s t
  let a := rcd + (if failed then 24 else 16)
  let m := leNat (k.spRead a 8)
  let m2 := if m / 2 ^ rank % 2 = 1 then m else m + 2 ^ rank
  let s1 := spWrite (if k.spBadIn a 8 then rowError s t else s) t a (toBytes 8 m2)
  countUp (if k.spBadIn a 8 then modCore s1 t (fun x => { x with spBad := k.spBad }) else s1) t rcd 1

/-- Whether a report to an issuer finds a place: a saved one's needs room in the hamper (R248, R249). -/
def canReport (s : State) (h : Share) : Bool := !(getCore s h.issuer).away || mayDivert s h.issuer

/-- Report to an issuer from core `c`; a saved issuer's report goes to the hamper, and the press's clock steps (R255). -/
def reportShare (s : State) (c : Nat) (h : Share) (failed : Bool) : State :=
  if (getCore s h.issuer).away then
    hamperFrom s .press c h.slot h.issuer (.shareReport h.issuer h.rcd h.rank failed)
  else putReport s h.issuer h.rcd h.rank failed

/-- Whether a member can take a share now: a place is free and no other operation keeps its accumulators busy (R332,
Table 13.1). -/
def Core.takesShare (k : Core) (h : Share) : Bool :=
  decide (k.shareQ.length < 2) && (List.range h.tpm).all (fun u => !k.accOtherBusy (h.acc + u))

/-- A share reaches a member (R202, R332): out of range, it fails at once; without a tile, it is done. -/
def putShare (s : State) (t : Nat) (h : Share) : State :=
  if h.outside then
    reportShare (modCore s t (fun k => { k with engTraps := k.engTraps ++ [(none, .prot)] })) t h true
  else if h.count = 0 then reportShare s t h false
  else modCore s t (fun k => { k with shareQ := k.shareQ ++ [h] })

/-- Shares of one sender reach a member in their order. -/
def sameShares (p q : Packet) : Bool :=
  match p.body, q.body with
  | .share t _, .share u _ => t == u && p.src == q.src
  | _, _ => false

/-- PGRP_SHARE_ARRIVAL (R332, R248): a share whose member has no place for it waits. -/
def execPgrpShareArrival (i : Nat) (s : State) : Out :=
  .next (match canArrive s i sameShares with
    | some p =>
      match p.body with
      | .share t h =>
        let s1 := dropNet s i
        if (getCore s t).away then wakeAccs (divert s i t p) h.issuer
        else if !h.outside && h.count != 0 && !(getCore s t).takesShare h then s
        else if (h.outside || h.count == 0) && !canReport s h then s
        else wakeAccs (putShare (recvPk s1 t p) t h) h.issuer
      | _ => s
    | none => s)

/-- PGRP_SHARE_END (R202): share `i` of core `c` has run its steps, or has failed, and none of them holds a position. -/
def execPgrpShareEnd (c i : Nat) (s : State) : Out :=
  let k := getCore s c
  let inPos := fun (h : Share) => [k.pressEnd, k.pressRun, k.pressWait].any (fun o => match o with
    | some o => o.ofShare h
    | none => false)
  .next (match k.shareQ[i]? with
    | none => s
    | some h =>
      if (h.failed || decide (h.count ≤ h.next)) && !inPos h && canReport s h then
        wakeAccs (reportShare (setCore s c { k with shareQ := k.shareQ.eraseIdx i }) c h h.failed) c
      else s)

/-- PCMD_STEP_ARRIVAL (R331): the step takes the place its credit stands for; a saved target's goes to the hamper. -/
def execPcmdStepArrival (i : Nat) (s : State) : Out :=
  .next (match canArrive s i noOrder with
    | some p =>
      match p.body with
      | .pcmd t st =>
        let s1 := dropNet s i
        if (getCore s t).away then divert s i t p
        else modCore (recvPk s1 t p) t (fun k => { k with cmdQ := k.cmdQ ++ [st] })
      | _ => s
    | none => s)

/-- PCMD_STEP_END (R203): the target's increment reaches the issuer's count word. -/
def execPcmdStepEnd (i : Nat) (s : State) : Out :=
  .next (match canArrive s i noOrder with
    | some p =>
      match p.body with
      | .countInc t a n =>
        let s1 := dropNet s i
        if (getCore s t).away then divert s i t p else countUp s1 t a n
      | _ => s
    | none => s)

/-- Whether a slot may take an engine trap: it is runnable or parked (R202). -/
def Slot.trapable (l : Slot) : Bool := match l.st with | .runnable => true | .parked _ => true | _ => false

/-- ENGINE_TRAP_DELIVERY (R202, R335): engine trap `i` of core `c` is taken in its issuing slot, else in the lowest-numbered
slot that is runnable or parked, with `epc` at that slot's PC (assumption 15); with no such slot none is taken. -/
def execEngineTrapDelivery (c i : Nat) (s : State) : Out :=
  let k := getCore s c
  .next (match k.engTraps[i]? with
    | none => s
    | some (n, t) =>
      if k.away then s
      else
        let s1 := setCore s c { k with engTraps := k.engTraps.eraseIdx i }
        let any_ := slotNums.find? (fun m => (k.slot m).trapable)
        let victim := match n with
          | some m => if (k.slot m).trapable then some m else any_
          | none => any_
        match victim with
        | none => s1
        | some m =>
          takeTrap (modSlotAt s1 c m (fun l => { l with st := .runnable, wake := none })) c m t 0 (k.slot m).pc)

/-! ## Accumulators (R195 to R197, R271 to R274) -/

/-- BUSY of an accumulator instruction (R195, R38). A ready one discards a value read for a load's retry before it (R223). -/
def accGuard (s : State) (x : Nat) (nr : Disp) (go : State → State) : State :=
  let res : Resource := .acc s.curCore x
  if (cur s).accBusy x || heldBackBy s res (accOwn s s.curCore x) then notReady s nr .busy res
  else timing s nr false (go (dropRead s))

/-- ACCZ (R272). -/
def execAccz (x : Acc) (nr : Disp) (s : State) : Out :=
  .next (accGuard (ownPerformed s 2) x.val nr (fun s => readyNext (modCur s (fun k => k.setTile x.val (List.replicate 1024 0)))))

/-- First element of the half row that ACCRD and ACCWR name (R196). -/
def halfRow (s : State) (b : SReg) : Nat := 32 * bitsOf (rdS s b) 5 1 + 16 * bitsOf (rdS s b) 0 0

/-- ACCRD (R272). -/
def execAccrd (x : Acc) (a : VReg) (b : SReg) (nr : Disp) (s : State) : Out :=
  .next (accGuard (ownPerformed s 2) x.val nr (fun s =>
    let row := (List.range 16).map (fun i => (cur s).accElt x.val (halfRow s b + i))
    let v := row.foldr (fun e a => e.toNat + 2 ^ 32 * a) 0
    readyNext (wrV s a (BitVec.ofNat 512 v))))

/-- ACCWR (R272). -/
def execAccwr (x : Acc) (a : VReg) (b : SReg) (nr : Disp) (s : State) : Out :=
  let row := (List.range 16).map (fun i => BitVec.ofNat 32 (lane32 (rdV s a) i))
  .next (accGuard (ownPerformed s 2) x.val nr (fun s =>
    readyNext (modCur s (fun k => { k with acc := ssetRange 0 k.acc (1024 * x.val + halfRow s b) row }))))

/-- The first line of a scratchpad range of `n` bytes from `o` on that a posted store of the current slot has still to reach. -/
def rangeOpen (s : State) (c o n : Nat) : Option Nat := (linesOf o n).find? (fun l => lineOpen s (.win c 0) l)

/-- The scratchpad range of ACCST and ACCLD, with the traps and refusals of R197 and R272: a saved target refuses FILL (Table 19.2),
and so does another core's range that a store of the slot's own has still to reach, or, for a read, whose core withholds its answers
(R150). The slot's stores to its own core's window are performed. -/
def accAccess (s : State) (x : Nat) (a : SReg) (nr : Disp) (n : Nat) (read : Bool) (go : State → Nat → Nat → State) : State :=
  let ea := rdS s a
  if ea.toNat % 64 ≠ 0 then raise s .align
  else match spAddr s ea n with
    | none => raise s .prot
    | some (c, o) =>
      let t := getCore s c
      let s := ownPerformed (ownPerformed s 0) 2
      if c ≠ s.curCore ∧ (t.away || (read && t.withholds)) = true then notReady s nr .fill (.line (.win c 0) (o / 64))
      else match rangeOpen s c o n with
        | some l => notReady s nr .fill (.line (.win c 0) l)
        | none => accGuard s x nr (fun s => go s c o)

/-- Enter an engine operation of an accumulator. -/
def startAcc (s : State) (x c a : Nat) (load fill : Bool) (d : List Byte) : State :=
  modCur s (fun k => { k with
    accOps := k.accOps ++ [{ id := k.nextId, acc := x, load := load, core := c, addr := a, data := d, fill := fill }],
    nextId := k.nextId + 1 })

/-- ACCLD (R272): the source is read as one event at acceptance. -/
def execAccld (x : Acc) (a : SReg) (nr : Disp) (s : State) : Out :=
  .next (accAccess s x.val a nr 4096 true (fun s c o =>
    if (getCore s c).spBadIn o 4096 then raiseRow s c
    else readyNext (startAcc s x.val c o true false ((getCore s c).spRead o 4096))))

/-- ACCST (R272, R273): the accumulator is read as one event at acceptance. -/
def execAccst (x : Acc) (a : SReg) (fill : Bool) (nr : Disp) (dest : AccDest) (s : State) : Out :=
  .next (accAccess s x.val a nr dest.bytes false (fun s c o =>
    readyNext (startAcc s x.val c o false fill (encodeTile dest ((cur s).tile x.val)))))

/-- An engine write of scratchpad at core `t`, setting its words full when asked. -/
def engineWrite (s : State) (t a : Nat) (d : List Byte) (fill : Bool) : State :=
  let s1 := spWrite s t a d
  if fill && !d.isEmpty then feFill s1 t (a / 8) ((a + d.length + 7) / 8 - a / 8) true else s1

/-- ACC_ENGINE_COMPLETE (R197, R223): a load writes the accumulator, whose busy bit clears; a store writes the next line of its
destination, in ascending order (assumption 105), and with the last line the bit clears. A write to another core that is saved goes to
the hamper, where the press's clock steps (R255). -/
def execAccEngineComplete (c i : Nat) (s : State) : Out :=
  let k := getCore s c
  .next (match k.accOps[i]? with
    | none => s
    | some o =>
      let gone := setCore s c { k with accOps := k.accOps.eraseIdx i }
      if o.load then
        wakeAccs (modCore gone c (fun k => k.setTile o.acc ((List.range 1024).map (fun e =>
          BitVec.ofNat 32 (leNat ((o.data.drop (4 * e)).take 4)))))) c
      else
        let far := decide (o.core ≠ c) && (getCore s o.core).away
        let rest := { o with addr := o.addr + 64, data := o.data.drop 64 }
        let s1 := if rest.data.isEmpty then wakeAccs gone c
          else setCore s c { k with accOps := k.accOps.set i rest }
        if far && !mayDivert s o.core then s
        else if far then hamperFrom s1 .press c engineSlot o.core (.winWrite o.core 0 o.addr (o.data.take 64) o.fill)
        else engineWrite s1 o.core o.addr (o.data.take 64) o.fill)

/-! ## The seam (R190, R204, R350) -/

/-- SEAM (R204). The slot's own window stores to accumulators are performed (R156). -/
def execSeam (x : Acc) (a : SReg) (b : Acc) (nr : Disp) (role : Role) (s : State) : Out :=
  let c := s.curCore
  let t := lo16 (rdS s a)
  let word := guardWord b.val
  let draw : Resource := .feWord c word false
  .next (match fmtOf (slot s).pfmt with
    | none => raise s .illegal
    | some f =>
      if role ≠ .tail ∧ (inPart s t = false ∨ t = c) then raise s .prot
      else
      let s := ownPerformed s 2
      let k := cur s
      let busy := fun (n : Nat) => k.accBusy n || heldBackBy s (.acc c n) (accOwn s c n)
      if role ≠ .head ∧ (k.feBit word = false ∨ heldBack s draw = true) then notReady s nr .fewait draw
      else if busy x.val then notReady s nr .busy (.acc c x.val)
      else if role ≠ .head ∧ busy b.val = true then notReady s nr .busy (.acc c b.val)
      else timing s nr true (
        let old := k.tile x.val
        let in_ := if role = .head then List.replicate 1024 0 else k.tile b.val
        let new := in_.zipWith (seamAdd f) old
        let mark := postMark s
        let s1 := if role = .head then s else acquireFx (feFill s c word 1 false) false
        let s2 := modCur s1 (fun k => { k.setTile x.val new with
          seamBusy := k.seamBusy ++ [{ acc := x.val, slot := s.curSlot, after := if role = .tail then 0 else mark }] })
        readyNext (if role = .tail then s2
          else dropHold (send s2 true (.forward t { src := c, acc := b.val, tile := new })))))

/-- A forward takes effect at its successor, as one event (R204): tile, guard word, guard bit. -/
def putForward (s : State) (t : Nat) (f : Forward) : State :=
  let s1 := modCore s t (fun k => k.setTile f.acc f.tile)
  wakeAccs (feFill (spWrite s1 t (guardBase + 8 * f.acc) (toBytes 8 f.src)) t (guardWord f.acc) 1 true) t

/-- Whether a forward may take effect: the guard is empty and the staging accumulator idle (R350). -/
def Core.takesForward (k : Core) (f : Forward) : Bool := !k.feBit (guardWord f.acc) && !k.accBusy f.acc

/-- Forwards of one sender to one guard keep their order. -/
def sameForwards (p q : Packet) : Bool :=
  match p.body, q.body with
  | .forward t f, .forward u g => t == u && f.acc == g.acc && f.src == g.src
  | _, _ => false

/-- SEAM_FORWARD_ARRIVAL (R204, R350, R248). -/
def execSeamForwardArrival (i : Nat) (s : State) : Out :=
  .next (match canArrive s i sameForwards with
    | some p =>
      match p.body with
      | .forward t f =>
        if (getCore s t).away then divert s i t p
        else if (getCore s t).takesForward f then putForward (recvPk (dropNet s i) t p) t f
        else s
      | _ => s
    | none => s)

/-- SEAM_OWN_BUSY_END (R204): the 32 core cycles are over, and the forward has left with the posted work it follows. -/
def execSeamOwnBusyEnd (c i : Nat) (s : State) : Out :=
  let k := getCore s c
  .next (match k.seamBusy[i]? with
    | none => s
    | some b =>
      if k.openBefore b.slot b.after then s
      else wakeAccs (setCore s c { k with seamBusy := k.seamBusy.eraseIdx i }) c)

end Sys2Proof.Machine
end

