-- ==== Sys2Proof/Machine/Transfer.lean ====
section
/-! DEFINITION. The copy engine: major 0x33 and its events (R172, R208 to R215, R218, R220, R289, R308, R356). -/

namespace Sys2Proof.Machine

/-! ## Requests -/

/-- A request's four doublewords. -/
structure Req where
  d0 : Nat
  d1 : Nat
  d2 : Nat
  d3 : Nat
deriving DecidableEq, Repr

/-- The request a vector register holds (R209). -/
def reqOf (v : V512) : Req :=
  { d0 := natBits v.toNat 63 0, d1 := natBits v.toNat 127 64, d2 := natBits v.toNat 191 128, d3 := natBits v.toNat 255 192 }

/-- Source and destination space codes, and the control block (Table 14.1). -/
def Req.sspace (r : Req) : Nat := natBits r.d3 63 61
/-- Destination space code. -/
def Req.dspace (r : Req) : Nat := natBits r.d3 60 58
/-- Control block. -/
def Req.cblk (r : Req) : Nat := natBits r.d3 15 0

/-- A signed 20-bit stride. -/
def stride20 (v : Nat) : BitVec 64 := (BitVec.ofNat 20 v).signExtend 64

/-- A row to move: source address (none: the pad byte), destination address, length, and the core whose control block
counts it. -/
structure Row where
  src : Option W64
  dst : W64
  len : Nat
  at_ : Option Nat                  -- SLICE: the member whose scratchpad it lands in
deriving DecidableEq, Repr

/-- What a request asks once its fields are read. -/
structure Plan where
  kind : CopyKind
  sc : Nat
  dc : Nat
  rows : List Row
  pad : Nat
  stride : Nat                      -- destination stride, for the alignment rule of unit 0x4
  base : Option W64                 -- GATH: the image base (R308)
deriving DecidableEq, Repr

/-- COPY's rows (R212); none breaks a limit (BOUNDS). -/
def copyPlan (r : Req) : Option Plan :=
  let len := natBits r.d2 63 48 + 1
  let rows := natBits r.d2 47 40 + 1
  let ss := stride20 (natBits r.d2 39 20)
  let ds := stride20 (natBits r.d2 19 0)
  if natBits r.d3 54 16 ≠ 0 ∨ 4 < r.sspace ∨ ¬ (r.dspace = 0 ∨ r.dspace = 1 ∨ r.dspace = 4) ∨ 65536 < len * rows then none
  else some {
    kind := .copy, sc := r.sspace, dc := r.dspace, pad := 0, stride := natBits r.d2 19 0, base := none,
    rows := (List.range rows).map (fun i =>
      { src := some (BitVec.ofNat 64 r.d0 + BitVec.ofNat 64 i * ss), dst := BitVec.ofNat 64 r.d1 + BitVec.ofNat 64 i * ds,
        len := len, at_ := none }) }

/-- Source of gathered pixel q: its image address, or none for the pad byte (R213). -/
def gathPixel (r : Req) (q : Nat) : Option W64 :=
  let c := natBits r.d3 54 44 + 1
  let h := natBits r.d2 63 53 + 1
  let w := natBits r.d2 52 42 + 1
  let oh := natBits r.d2 41 31 + 1
  let ow := natBits r.d2 30 20 + 1
  let st := natBits r.d2 19 16 + 1
  let pad : Int := natBits r.d2 15 12
  let p := natBits r.d0 63 48 + q
  let b := p / (oh * ow)
  let e := p % (oh * ow)
  let y : Int := e / ow * st + natBits r.d2 11 8 - pad
  let x : Int := e % ow * st + natBits r.d2 7 4 - pad
  if natBits r.d1 63 56 + 1 ≤ b ∨ y < 0 ∨ h ≤ y ∨ x < 0 ∨ w ≤ x then none
  else some (BitVec.ofNat 64 (natBits r.d0 47 0 + ((b * h + y.toNat) * w + x.toNat) * c))

/-- GATH's rows (R213, R308). -/
def gathPlan (r : Req) : Option Plan :=
  let c := natBits r.d3 54 44 + 1
  let n := natBits r.d3 35 24 + 1
  if natBits r.d1 55 49 ≠ 0 ∨ natBits r.d2 3 0 ≠ 0 ∨ natBits r.d3 23 16 ≠ 0 ∨ 65536 < n * c ∨ r.sspace = 0 ∨ 4 < r.sspace ∨
     ¬ (r.dspace = 0 ∨ r.dspace = 1 ∨ r.dspace = 4) then none
  else some {
    kind := .gath, sc := r.sspace, dc := r.dspace, pad := natBits r.d3 43 36, stride := c,
    base := some (BitVec.ofNat 64 (natBits r.d0 47 0)),
    rows := (List.range n).map (fun q =>
      { src := gathPixel r q, dst := BitVec.ofNat 64 (natBits r.d1 48 0 + q * c), len := c, at_ := none }) }

/-- SLICE's rows: the own chunk, once for each member (R214, R356). -/
def slicePlan (s : State) (r : Req) : Option Plan :=
  let l := natBits r.d2 16 0
  if natBits r.d3 54 16 ≠ 0 ∨ 4 < r.sspace ∨ r.dspace ≠ 0 ∨ natBits r.d1 63 16 ≠ 0 ∨ natBits r.d2 55 17 ≠ 0 ∨ l < 64 ∨
     65536 < l ∨ l % 64 ≠ 0 then none
  else (heldGroup s (natBits r.d2 63 56)).bind (fun ms =>
    (ms.findIdx? (· == s.curCore)).map (fun rank =>
      let chunk := 64 * ((l + 64 * ms.length - 1) / (64 * ms.length))
      let lo := rank * chunk
      let n := min l (lo + chunk) - lo
      { kind := .slice, sc := r.sspace, dc := 0, pad := 0, stride := 0, base := none,
        rows := if n = 0 then [] else ms.map (fun m =>
          { src := some (BitVec.ofNat 64 r.d0 + BitVec.ofNat 64 lo), dst := BitVec.ofNat 64 (r.d1 + lo), len := n,
            at_ := some m }) }))

/-! ## Issue checks (R210) -/

/-- Window unit and offset of a scratchpad-space address: local, or a window address. -/
def engineWin (s : State) (a : W64) (n : Nat) : Option WinAddr :=
  if bitsOf a 63 16 = 0 then
    if a.toNat + n ≤ dequeBase then some { core := s.curCore, unit := 0, off := a.toNat } else none
  else winAddr s a n

/-- A lease range out of its lease (BOUNDS). -/
def leaseOut (s : State) (code : Nat) (a : W64) (n : Nat) : Bool := code == 4 && (leaseAddr s a n).isNone

/-- Whether an address of a translated space selects the compressed view. -/
def inView (code : Nat) (a : W64) : Bool := code == 1 && viewBit a.toNat

/-- The addresses of the first and the last byte of a row. -/
def ends (a : W64) (n : Nat) : List W64 := [a, a + BitVec.ofNat 64 (n - 1)]

/-- Whether a row that reaches the compressed view, with some byte, is no move of whole blocks between views (R218). -/
def viewOut (p : Plan) (r : Row) : Bool :=
  (ends r.dst r.len).any (inView p.dc) && !(match r.src with
    | some a => p.kind == .copy && (ends a r.len).all (inView p.sc) && r.len % 256 == 0 && a.toNat % 256 == 0 &&
        r.dst.toNat % 256 == 0
    | none => false)

/-- BOUNDS of the rows: leases, an image base out of its lease, and the limits of copies into a compressed view (R210, R218,
R308). -/
def planBounds (s : State) (p : Plan) : Bool :=
  (match p.base with | some a => leaseOut s p.sc a 1 | none => false) ||
  p.rows.any (fun r => (match r.src with | some a => leaseOut s p.sc a r.len | none => false) || leaseOut s p.dc r.dst r.len ||
    viewOut p r)

/-- Whether an address of scratchpad space names window unit 0x4. -/
def inMailboxes (a : W64) : Bool := bitsOf a 63 49 == 0 && bitOf a 48 && bitsOf a 31 28 == 4

/-- ALIGN of the rows: a destination in window unit 0x4 moves in units of 64 bytes (R210). -/
def planAlign (p : Plan) : Bool :=
  p.dc == 0 && p.rows.any (fun r =>
    r.at_.isNone && inMailboxes r.dst && (r.dst.toNat % 64 != 0 || r.len % 64 != 0 || p.stride % 64 != 0))

/-- PROT of one range that its address decides (R142, R210). -/
def rangeProt (s : State) (code : Nat) (a : W64) (n : Nat) : Bool :=
  if code = 0 then (engineWin s a n).isNone else if code = 4 then false else decide (2 ^ 48 < a.toNat + n)

/-- The region that holds a device address as its page is translated (R164): by the translation at hand, else as the tables
stand. -/
def regionAt (s : State) (va : Nat) : Option Region :=
  let e := match xlate s va .dev false false with
    | .ok _ e => some e
    | _ => match tlbFind s s.curCore (plainVa va) with
      | some e => some e
      | none => match walkTables s (curPart s) (plainVa va) with
        | .ok e _ => some e
        | _ => none
  e.bind (fun e => if e.tgt == .dev then (regionOf s (curPart s) (e.phys (plainVa va) / 64)).map (·.2.2) else none)

/-- Whether any line of a device range meets a region that `bad` selects (R172). -/
def regionMeets (s : State) (code : Nat) (a : W64) (n : Nat) (bad : Region → Bool) : Bool :=
  code == 1 && (linesOf a.toNat n).any (fun l => match regionAt s (64 * l) with | some r => bad r | none => false)

/-- PROT of the rows: range forms, then the irons of destinations and the r rights of sources (R172, R210). -/
def planProt (s : State) (p : Plan) : Bool :=
  p.rows.any (fun r => (match r.src with | some a => rangeProt s p.sc a r.len | none => false) ||
    (r.at_.isNone && rangeProt s p.dc r.dst r.len) ||
    (r.at_.isSome && decide (dequeBase < r.dst.toNat + r.len))) ||
  p.rows.any (fun r => (match r.src with | some a => regionMeets s p.sc a r.len (fun g => !g.r) | none => false) ||
    regionMeets s p.dc r.dst r.len (fun g => !(g.w && g.iron == .held s.curCore)))

/-- The memory a space code translates to. -/
def codeTarget (code : Nat) : Option Target :=
  match code with | 1 => some .dev | 2 => some .far | 3 => some .host | _ => none

/-- Pages of a range, each by an address in it. -/
def pagesOf (code : Nat) (a : W64) (n : Nat) : List Nat :=
  if (codeTarget code).isNone || n == 0 then []
  else (List.range ((a.toNat + n - 1) / 4096 + 1 - a.toNat / 4096)).map (fun i => max a.toNat ((a.toNat / 4096 + i) * 4096))

/-- The first page of a plan that is not translated or that translation refuses: its address, whether it is written. -/
def planXlat (s : State) (p : Plan) : Option (Nat × Bool × Xlat) :=
  let one := fun (code : Nat) (w : Bool) (va : Nat) => (codeTarget code).bind (fun t =>
    match xlate s va t (!w) w with
    | .ok _ _ => none
    | x => some (va, w, x))
  let srcs := p.rows.findSome? (fun r => r.src.bind (fun a => (pagesOf p.sc a r.len).findSome? (one p.sc false)))
  match srcs with
  | some x => some x
  | none => p.rows.findSome? (fun r => (pagesOf p.dc r.dst r.len).findSome? (one p.dc true))

/-- The translations of a plan's pages at hand, kept for its next attempt: a request may need more pages than the TLBs hold
(R210). -/
def gatherPages (s : State) (p : Plan) : State :=
  let pc := (slot s).pc
  let one := fun (code : Nat) (w : Bool) (va : Nat) => (codeTarget code).bind (fun t =>
    match xlate s va t (!w) w with
    | .ok _ e => some (pc, e)
    | _ => none)
  let found := p.rows.flatMap (fun r => (match r.src with | some a => (pagesOf p.sc a r.len).filterMap (one p.sc false) | none => []) ++
    (pagesOf p.dc r.dst r.len).filterMap (one p.dc true))
  modSlot s (fun l => { l with gathered := found.eraseDups })

/-- Whether a DCFENCE of the slot still covers part of the plan (R293). -/
def planFenced (s : State) (p : Plan) : Bool :=
  p.rows.any (fun r => (p.sc == 1 && (match r.src with | some a => dcfBarred s a.toNat r.len | none => false)) ||
    (p.dc == 1 && dcfBarred s r.dst.toNat r.len))

/-! ## Acceptance -/

/-- Where a byte of a space lives: space, address, dictionary slot of a compressed page, view. -/
structure Place where
  sp : Space
  addr : Nat
  comp : Option Nat
  view : Bool
deriving DecidableEq, Repr

/-- Place of an address whose page is translated. -/
def placeOf (s : State) (code : Nat) (a : W64) (write : Bool) : Option Place :=
  match codeTarget code with
  | some t =>
    match xlate s a.toNat t (!write) write with
    | .ok pa e => some { sp := spaceOf t, addr := pa, comp := if e.comp then some e.dslot else none,
                           view := inView code a }
    | _ => none
  | none =>
    if code = 0 then (engineWin s a 1).map (fun w => { sp := .win w.core w.unit, addr := w.off, comp := none, view := false })
    else (leaseAddr s a 1).map (fun e => { sp := leaseSpace s e.1, addr := e.2, comp := none, view := false })

/-- Where the `n` source bytes at an address lie, cut at the lines; a block between views is one piece. -/
def cutSource (s : State) (code : Nat) (block : Bool) : Nat → W64 → Nat → List Piece
  | 0, _, _ => []
  | fuel + 1, a, n =>
    if n = 0 then []
    else
      let m := if block then n else min n (64 - a.toNat % 64)
      let rest := cutSource s code block fuel (a + BitVec.ofNat 64 m) (n - m)
      match placeOf s code a false with
      | some x => { sp := x.sp, addr := x.addr, len := m, comp := x.comp, view := x.view } :: rest
      | none => rest

/-- The destination writes of a row, each inside one line of the destination, or one block between views: its source bytes lie
in at most two lines. -/
def cutRow (s : State) (p : Plan) (r : Row) : Nat → Nat → List Segment
  | 0, _ => []
  | fuel + 1, o =>
    if r.len ≤ o then []
    else
      let off := BitVec.ofNat 64 o
      let da := r.dst + off
      let dp := match r.at_ with
        | some m => some ({ sp := .win m 0, addr := da.toNat, comp := none, view := false } : Place)
        | none => placeOf s p.dc da true
      let block := match dp with | some d => d.view | none => false
      let n := if block then 256 else min (r.len - o) (64 - da.toNat % 64)
      let src := match r.src with | some a => cutSource s p.sc block 2 (a + off) n | none => []
      let rest := cutRow s p r fuel (o + n)
      match dp with
      | none => rest
      | some d =>
        { dst := d.sp, daddr := d.addr, dcomp := d.comp, dview := d.view, src := src, pad := BitVec.ofNat 8 p.pad, len := n,
          ctl := r.at_ } :: rest

/-- Whether a source piece meets a range of a space. -/
def Piece.meets (x : Piece) (sp : Space) (a n : Nat) : Bool := x.sp == sp && decide (x.addr < a + n ∧ a < x.addr + x.len)

/-- Whether a destination write puts its source bytes back where they came from. -/
def Segment.onto (g : Segment) : Bool := g.src.all (fun x => x.sp == g.dst && x.addr == g.daddr && x.len == g.len)

/-- Whether the source and destination ranges of a request overlap (R211). Bytes that a write puts back at their own address do
not count: that copy re-encodes a block and keeps its data (R221). -/
def overlaps (segs : List Segment) : Bool :=
  segs.zipIdx.any (fun (g : Segment × Nat) => segs.zipIdx.any (fun (h : Segment × Nat) =>
    !(g.2 == h.2 && g.1.onto) && g.1.src.any (fun x => x.meets h.1.dst h.1.daddr h.1.len)))

/-- Accept a request (R210, R255): the engine keeps it with the marks of the posted work its reads follow (R208). -/
def acceptCopy (s : State) (r : Req) (p : Plan) : State :=
  let segs := p.rows.flatMap (fun w => cutRow s p w w.len 0)
  let padded := (p.rows.filter (·.src.isNone)).length
  modCur (modSlot s (fun l => { l with gathered := [] })) (fun k =>
    let marks := k.xdMarks.filter (fun m => k.openBefore m.1 m.2) ++ [(7, k.nextId)]
    let q : CopyReq := { id := k.nextId, kind := p.kind, fill := natBits r.d3 57 57 == 1, count := natBits r.d3 56 56 == 1,
                         record := natBits r.d3 55 55 == 1, cblk := r.cblk, segs := segs, written := 0, padded := padded,
                         poison := false, xdMarks := marks, source := if overlaps segs then segs.flatMap (·.src) else [] }
    let k1 := { k with nextId := k.nextId + 1, xdMarks := k.xdMarks.filter (fun m => k.openBefore m.1 m.2),
                       copyLam := lamMax k.copyLam k.lamport }
    if segs.isEmpty && !q.record then k1 else { k1 with copies := k1.copies ++ [q] })

/-- The shared course of COPY, GATH and SLICE (R210): `plan` reads the fields, `align` and `prot` are the checks of the
instruction's own entry. The control block counts as a scratchpad range where `count` or `record` uses it. -/
def transfer (s : State) (nr : Disp) (r : Req) (plan : Option Plan) (align prot : Bool) : State :=
  if s.curSlot ≠ 7 then raise s .prot
  else match plan with
  | none => raise s .bounds
  | some p =>
    let eng : Resource := .engine s.curCore
    if planBounds s p then raise s .bounds
    else if r.cblk % 32 ≠ 0 ∨ align = true ∨ planAlign p = true then raise s .align
    else if ((natBits r.d3 56 55 != 0 && decide (dequeBase < r.cblk + 32)) || prot) = true ∨ planProt s p = true then raise s .prot
    else if invBarred s then notReady s nr .fill (orderRes s.curCore s.curSlot)
    else match planXlat s p with
    | some (va, w, .miss) => walkMiss (gatherPages s p) nr va w
    | some (_, _, .bad t) => raiseXlat s t
    | _ =>
      if planFenced s p then notReady s nr .fill (orderRes s.curCore s.curSlot)
      else if (cur s).copyFull || engineHeld s then notReady s nr .busy eng
      else readyNext (acceptCopy s r p)

/-- COPY (R289). -/
def execCopy (a : VReg) (nr : Disp) (s : State) : Out :=
  let r := reqOf (rdV s a)
  .next (transfer s nr r (copyPlan r) false false)

/-- GATH (R308). -/
def execGath (a : VReg) (nr : Disp) (s : State) : Out :=
  let r := reqOf (rdV s a)
  .next (transfer s nr r (gathPlan r) false false)

/-- SLICE (R356). -/
def execSlice (a : VReg) (nr : Disp) (s : State) : Out :=
  let r := reqOf (rdV s a)
  .next (transfer s nr r (slicePlan s r) (natBits r.d1 15 0 % 64 != 0)
    (decide (dequeBase < natBits r.d1 15 0 + natBits r.d2 16 0)))

/-! ## Performing (R211) -/

/-- Work that a source read follows (R159, case 1; R208, R293): every write that a marked slot made before its mark, to whatever line, and
its DCFENCEs. A store to a mailbox holds up no copy of a core that is being saved, since nothing takes a request out of
the mailbox before the restore (R132, R246; assumption 114). -/
def CopyReq.mustWait (q : CopyReq) (k : Core) : Bool :=
  let held := fun (e : Posted) => k.save != .no && (match e.sp with | .win _ 4 => true | _ => false)
  q.xdMarks.any (fun m =>
    k.psb.any (fun e => e.slot == m.1 && decide (e.id < m.2) && !held e) ||
    (k.slot m.1).dcf.any (fun e => decide (e.2.2 < m.2)))

/-- `n` bytes at a place, with a poison flag and what the read does to the state; none while the place does not answer: a
busy accumulator, a saved core, one that withholds its answers (R150). -/
def readPlace (s : State) (c : Nat) (sp : Space) (addr : Nat) (comp view : Bool) (n : Nat) : Option (List Byte × Bool × State) :=
  let p := (partOf s c).getD 0
  match sp with
  | .lease q x g =>
    let e := sget LeaseEnt.reset (getPart s q).leases x
    if e.live ∧ e.gen = g then some (sgetRange 0 e.store addr n, false, s)
    else
      let f := drawFree s (8 * n)
      some (toBytes n f.1.toNat, false, f.2)
  | .win t u =>
    let k := getCore s t
    if (t != c && (k.away || (u == 0 && k.withholds))) || k.winBusy u addr n then none
    else if u == 0 && k.spBadIn addr n then some (List.replicate n 0, true, rowError s t)
    else some (k.winRead u addr n, false, s)
  | sp =>
    match sp.target? with
    | some t => let r := homeRead s p t comp view addr n; some (r.1, r.2, s)
    | none => none

/-- The source bytes of a destination write, piece by piece; bytes of a poisoned or uncorrectable piece are 0 (R211). -/
def readPieces (s : State) (c : Nat) : List Piece → Option (List Byte × Bool × State)
  | [] => some ([], false, s)
  | x :: xs =>
    match readPlace s c x.sp x.addr x.comp.isSome x.view x.len with
    | none => none
    | some (d, bad, s1) =>
      (readPieces s1 c xs).map (fun r => ((if bad then List.replicate x.len 0 else d) ++ r.1, bad || r.2.1, r.2.2))

/-- The source bytes of a destination write, or its pad bytes (R213). -/
def readSource (s : State) (c : Nat) (g : Segment) : Option (List Byte × Bool × State) :=
  if g.src.isEmpty then some (List.replicate g.len g.pad, false, s) else readPieces s c g.src

/-- Bytes of an overlap are unspecified values of the source range (R211): each is a free pick of a source byte. -/
def overlapByte (s : State) (c : Nat) (q : CopyReq) (dflt : Byte) : Byte × State :=
  let f := drawFree s 64
  let g := drawFree f.2 64
  match q.source[f.1.toNat % q.source.length]? with
  | some x =>
    match readPlace g.2 c x.sp (x.addr + g.1.toNat % x.len) x.comp.isSome x.view 1 with
    | some r => (r.1.headD dflt, g.2)
    | none => (dflt, g.2)
  | none => (dflt, g.2)

/-- The bytes of a destination write, those of an overlap replaced. -/
def overlapFix (s : State) (c : Nat) (q : CopyReq) (g : Segment) : Nat → List Byte → List Byte × State
  | _, [] => ([], s)
  | j, b :: bs =>
    let hit := q.source.any (fun e => e.meets g.dst (g.daddr + j) 1)
    let x := if hit then overlapByte s c q b else (b, s)
    let r := overlapFix x.2 c q g (j + 1) bs
    (x.1 :: r.1, r.2)

/-- Move one block between compressed views: its granules `st` and their count, undecoded; the lines whose source line `bad` names
are poisoned (R211, R218). A published region sends the block as the plain view reads it (R176). A block under another partition's
key stays (R2). -/
def moveBlock (s : State) (p sblk dblk : Nat) (st : List Byte) (bad : List Nat) : State :=
  if !(blockLines dblk).all (fun l => holdsKey s p .dev (64 * l)) then s else
  let s1 := putBlock s dblk (granOf s sblk) st
  let s2 := mapCores s1 (fun _ k =>
    { k with l1 := k.l1.filter (fun e => !(e.sp == .dev && e.view && (blockLines dblk).contains e.line)) })
  let plain := (plainBlock s2 p dblk).getD (List.replicate 256 0)
  (blockLines dblk).foldl (fun s l =>
    let s1 := publishWrite (monDevice s l) p (64 * l) ((plain.drop (64 * (l % 4))).take 64)
    if bad.contains (4 * sblk + l % 4) then poisonLine s1 .dev (64 * l)
    else { s1 with badLines := s1.badLines.filter (fun e => e ≠ (.dev, l)) }) s2

/-- Whether the destination of a write takes it now: an iron still held (R172), an accumulator idle (R131), a mailbox empty
(R132), and for another core that is saved, room in the hamper (R249). -/
def destTakes (s : State) (c : Nat) (g : Segment) : Bool :=
  match g.dst with
  | .dev => (linesOf g.daddr g.len).all (fun l => performsLine s ((partOf s c).getD 0) c l)
  | .win t u =>
    let k := getCore s t
    if t != c && k.away then mayDivert s t
    else (if u == 4 then !sget false k.mbFull (g.daddr / 64) else !k.winBusy u g.daddr g.len)
  | _ => true

/-- Perform a destination write (R211, R215). Poisoned data make a poisoned line in device memory, also in the core's own copy. A
write of a mailbox releases the data that the copy has written and waits for no other work of slot 7 (assumption 95). -/
def destWrite (s : State) (c : Nat) (q : CopyReq) (g : Segment) (d : List Byte) (poison : Bool) : State :=
  let p := (partOf s c).getD 0
  match g.dst with
  | .dev =>
    let s1 := homeWrite s p c .dev g.dcomp g.daddr d
    if poison && holdsKey s p .dev g.daddr then poisonCopy (poisonLine s1 .dev g.daddr) c .dev (g.daddr / 64) else s1
  | .lease x i n => leaseWrite s x i n g.daddr d
  | .win t u =>
    if t ≠ c ∧ (getCore s t).away = true then hamperFrom s .copy c engineSlot t (.winWrite t u g.daddr d (q.fill && u == 0))
    else if u = 0 then engineWrite s t g.daddr d q.fill
    else if u = 4 then
      fillMailbox (modCore s t (fun k => { k with mbRel := sdel k.mbRel (g.daddr / 64) })) t (g.daddr / 64)
        (BitVec.ofNat 256 (leNat (d.take 32)))
    else winWrite s t u g.daddr d
  | _ => s

/-- The count of a destination write: in the own control block, or for SLICE in the receiving member's (R137, R214). -/
def countWrite (s : State) (c : Nat) (q : CopyReq) (g : Segment) : State :=
  let t := g.ctl.getD c
  if !q.count then s
  else if t ≠ c ∧ (getCore s t).away = true then hamperFrom s .copy c engineSlot t (.countInc t q.cblk g.len)
  else countUp s t q.cblk g.len

/-- Change a copy under way; one that has nothing left to do ends. -/
def putCopy (s : State) (c i : Nat) (q : CopyReq) : State :=
  let done := q.segs.isEmpty && !q.record
  let s1 := modCore s c (fun k => { k with copies := if done then k.copies.eraseIdx i else k.copies.set i q })
  if done then wakeRes s1 (.engine c) else s1

/-- COPY_DEST_WRITE (R211): destination write `off` of copy `i` of core `c`, which reads its source now. The record's bytes
written count every write the request performs, for SLICE the own slice once for each member (R214; assumption 78). -/
def execCopyDestWrite (c i off : Nat) (s : State) : Out :=
  let k := getCore s c
  .next (match k.copies[i]? with
    | none => s
    | some q =>
      match q.segs[off]? with
      | none => s
      | some g =>
        let waits := !g.src.isEmpty && q.mustWait k
        if k.halted || k.save == .saved || waits || !destTakes s c g then s
        else
          match readSource s c g with
          | none => s
          | some (d, bad, s0) =>
            let badLines := g.src.flatMap (fun x => (blockLines (x.addr / 256)).filter (fun l => lineBad s .dev (64 * l)))
            let poison := bad || (g.dview && !badLines.isEmpty)
            let q2 := { q with segs := q.segs.eraseIdx off, written := q.written + g.len, poison := q.poison || poison }
            let s2 := match g.dview, g.src with
              | true, x :: _ =>
                let y := overlapFix s0 c q g 0 (storedBlock s0 ((partOf s c).getD 0) (x.addr / 256))
                moveBlock y.2 ((partOf s c).getD 0) (x.addr / 256) (g.daddr / 256) y.1 badLines
              | _, _ =>
                let x := overlapFix s0 c q g 0 d
                destWrite x.2 c q g x.1 poison
            putCopy (countWrite s2 c q g) c i q2)

/-- COPY_RECORD_WRITE (R211; assumption 95): with every destination write performed, the record's two doublewords, its word's bit, and the
release, as one event, once the word is empty. -/
def execCopyRecordWrite (c i : Nat) (s : State) : Out :=
  let k := getCore s c
  .next (match k.copies[i]? with
    | none => s
    | some q =>
      let w := (q.cblk + 16) / 8
      if !q.segs.isEmpty || !q.record || k.halted || k.save == .saved || k.feBit w then s
      else
        let d0 := q.padded % 2 ^ 32 + (if q.poison then 2 ^ 63 else 0)
        let s1 := feFill (spWrite s c (q.cblk + 16) (toBytes 8 d0 ++ toBytes 8 (q.written % 2 ^ 32))) c w 1 true
        putCopy s1 c i { q with record := false })

end Sys2Proof.Machine
end

