-- ==== Sys2Proof/Machine/Settle.lean ====
section
/-! DEFINITION. Work that is performed at once: drains, and what a local access of a full/empty word, which no open order refuses,
finds in its way (R32, R125, R127, R133, R149, R150, R303, R315; assumption 67). -/

namespace Sys2Proof.Machine

/-- The state of an event that is performed at once. -/
def performed (s : State) (o : Out) : State := match o with | .next t => t | _ => s

/-- Events performed one after another. -/
def performAll (s : State) (fs : List (State → Out)) : State := fs.foldl (fun s f => performed s (f s)) s

/-- `n` steps of a drain. -/
def drainBy (f : State → State) : Nat → State → State
  | 0, s => s
  | n + 1, s => drainBy f n (f s)

/-- One round of a core's drains (R125, R127): every event of its posted stores, copies, engines, press, DCFENCEs, increments and
passes that may take place does. -/
def sweepCore (p : Nat) (s : State) (c : Nat) : State :=
  let k := getCore s c
  performAll s (
    (List.range k.psb.length).flatMap (fun i =>
      [execPostedStorePerform c i, execMailboxStoreDeliver c i, execReductionAtHome c i]) ++
    k.copies.zipIdx.flatMap (fun e => (List.range e.1.segs.length).map (execCopyDestWrite c e.2) ++ [execCopyRecordWrite c e.2]) ++
    (k.accOps.zipIdx.map (fun e => execAccEngineComplete c e.2)) ++ (k.seamBusy.zipIdx.map (fun e => execSeamOwnBusyEnd c e.2)) ++
    ([k.pressEnd, k.pressRun, k.pressWait].filterMap id).flatMap (fun _ =>
      [execPressOpStart c, execPressPlaneRead c, execPressOpComplete c]) ++
    k.slots.flatMap (fun e => e.2.dcf.map (fun _ => execDcfenceWriteback c e.1)) ++
    k.rounds.map (fun r => execRoundIncrement p r.q r.n) ++ k.passes.map (fun r => execIronPassComplete p r.q r.n))

/-- How many rounds of drains a core's work can take: one for each event of it. -/
def Core.work (k : Core) : Nat :=
  k.psb.length + (k.copies.map (fun q => q.segs.length + 1)).foldl (· + ·) 0 +
  (k.accOps.map (fun o => o.data.length / 64 + 2)).foldl (· + ·) 0 + k.seamBusy.length +
  12 * ([k.pressEnd, k.pressRun, k.pressWait].filterMap id).length +
  (k.slots.map (fun e => e.2.dcf.length)).foldl (· + ·) 0 + k.rounds.length + k.passes.length

/-- One round of the events that the current slot's open orders wait for: its core's work, which may hold them up, and the reloads and
invalidations up to its own. -/
def settleRound (s : State) : State :=
  let p := curPart s
  let s1 := sweepCore p s s.curCore
  if invBarred s1 then performAll s1 [execPaletteReload p, execXlinvComplete p] else s1

/-- How many rounds the settling takes at most: one for each event of it. -/
def settleWork (s : State) : Nat :=
  let t := getPart s (curPart s)
  (cur s).work + t.invs.length + t.dicts.length

/-- What the current slot's open orders wait for is performed at this moment, as far as its targets take it. -/
def settle (s : State) : State := drainBy settleRound (settleWork s) s

/-- A local access goes on ahead of work that a fence has it follow: until it is performed the core withholds its answers (R150). -/
def goAhead (s : State) : State :=
  if localBarred s then modSlot s (fun l => { l with passed := max l.passed (max l.ldMark l.stMark) }) else s

/-- A local access that no order may refuse: where `open_` says that one stands in its way, its work is performed first, and it goes on
ahead of what is left. -/
def settled (s : State) (open_ : Bool) : State := if invBarred s || open_ then goAhead (settle s) else s

end Sys2Proof.Machine
end

