-- ==== Sys2Proof/Machine/FullEmpty.lean ====
section
/-! DEFINITION. Full/empty words: LDC, STP, FESET, FECLR, FEPEEK, majors 0x24 to 0x26 (R133 to R135, R303, R315, R363). -/

namespace Sys2Proof.Machine

/-- FILL for a window access to a full/empty word or bits: while an XLINV or a DICTLD of the slot is under way (R294, R375), or an order
of it is open (R150). -/
def feOrdered (s : State) (nr : Disp) (open_ : Bool) (res : Resource) (go : State) : State :=
  if invBarred s then notReady s nr .fill (orderRes s.curCore s.curSlot)
  else if open_ then notReady s nr .fill res
  else go

/-- LDC is performed at word `a`/8 of core `c` (R134): one event that reads, extends, and for `consume` empties the word. -/
def ldcEvent (s : State) (d : SReg) (sz : Size) (peek : Bool) (c a : Nat) : State :=
  let k := getCore s c
  if k.spBadIn a sz.bytes then raiseRow s c
  else
    let s1 := if peek then s else feFill s c (a / 8) 1 false
    advance (acquireFx (ready (writeDest s1 d sz (k.spRead a sz.bytes))) false)

/-- LDC at word `a`/8 of core `c`, whose state is at hand (R134): not-ready FEWAIT while the word is empty or an older claim
comes first. The local form has no other refusal (R133, R315): work that an open order waits for is performed now (assumption 67). The
window form is refused FILL while a fence's obligation is open (R149, R150) or a store of the slot to the line is unperformed (R150,
R156), and with BUSY while the slot has an atomic in flight, since it carries an acquire (R77, R278). -/
def ldcAt (s : State) (nr : Disp) (d : SReg) (sz : Size) (peek loc : Bool) (c a : Nat) : State :=
  let res : Resource := .feWord c (a / 8) false
  let open_ := lineOpen s (.win c 0) (a / 64)
  if !(getCore s c).feBit (a / 8) || heldBack s res then notReady s nr .fewait res
  else if loc then ldcEvent (settled s (localBarred s || open_)) d sz peek c a
  else feOrdered s nr (localBarred s) (orderRes s.curCore s.curSlot) <|
    feOrdered s nr open_ (.line (.win c 0) (a / 64)) <|
    if atomBarred s then notReady s nr .busy (.engine s.curCore) else ldcEvent s d sz peek c a

/-- STP is performed at word `a`/8 of core `c` (R134). -/
def stpEvent (s : State) (d : SReg) (sz : Size) (c a : Nat) : State :=
  if sz.bytes < 8 ∧ (getCore s c).spBadIn a sz.bytes = true then raiseRow s c
  else advance (ready (dropHold (feFill (spWrite s c a (toBytes sz.bytes (rdS s d).toNat)) c (a / 8) 1 true)))

/-- Where work that a release performed now would follow is open still, the slot's later accesses wait for it, and so do the answers to
window accesses of its core's scratchpad (R150). -/
def holdLater (s : State) : State :=
  let m := (cur s).nextId
  if anyOpen s then modSlot s (fun l => { l with ldMark := m, stMark := m, passed := m }) else s

/-- Whether a posted store or a reduction of the current slot is unperformed (R134). -/
def postedOpen (s : State) : Bool := (cur s).postedOpen s.curSlot

/-- STP at word `a`/8 of core `c`, whose state is at hand (R134): not-ready FEWAIT while the word is full. The local form is refused
BUSY while a posted store or a reduction of the slot is unperformed, and by nothing else (R133, R363): other work that its release
follows is performed now, and what its targets still do not take holds up the slot's later accesses, and the answers that another core
gets from this scratchpad (R150; assumption 67). The window form is refused FILL while any such work is open, and BUSY while an atomic
is in flight (R278). -/
def stpAt (s : State) (nr : Disp) (d : SReg) (sz : Size) (loc : Bool) (c a : Nat) : State :=
  let res : Resource := .feWord c (a / 8) true
  let busy := notReady s nr .busy (.engine s.curCore)
  if (getCore s c).feBit (a / 8) || heldBack s res then notReady s nr .fewait res
  else if loc then
    if postedOpen s then busy
    else
      let s1 := holdLater (settled s (anyOpen s))
      if (getCore s1 c).feBit (a / 8) then notReady s1 nr .fewait res else stpEvent s1 d sz c a
  else feOrdered s nr (anyOpen s) (orderRes s.curCore s.curSlot) <| if atomBarred s then busy else stpEvent s d sz c a

/-- The hold a window access starts. -/
def winHold (s : State) (c a : Nat) (op : WinOp) : Hold :=
  { pc := (slot s).pc, sp := .win c 0, addr := a, view := false, slotOfDict := 0, comp := false, op := op,
    ans := .pending }

/-- A window access that its retry performs once the target word's state is at hand (R33, R133); at the own core it is so at its
first attempt (R130). Where the target has been saved since, or withholds its answers (R150), the state is asked for anew. -/
def atHand (s : State) (nr : Disp) (c a : Nat) (op : WinOp) (go : State → State) : State :=
  let h := winHold s c a op
  let again := fun (s : State) => notReady (modSlot s (fun l => { l with hold := some h })) nr .fill (.line (.win c 0) (a / 64))
  if c = s.curCore then go s
  else withAnswer s nr h (fun s _ _ => if (getCore s c).away || (getCore s c).withholds then again s else go s)

/-- Effective address of LDC and STP, with the traps of R133. -/
def feAccess (s : State) (a : SReg) (sz : Size) (off : BitVec 8) (go : Bool → Nat → Nat → State) : State :=
  let ea := eaScaled s a sz off
  if ea.toNat % sz.bytes ≠ 0 then raise s .align
  else match spAddr s ea sz.bytes with
    | none => raise s .prot
    | some (c, o) => go (isLocal ea) c o

def execLdc (d a : SReg) (nr : Disp) (sz : Size) (peek : Bool) (off : BitVec 8) (s : State) : Out :=
  .next (feAccess s a sz off (fun loc c o =>
    if loc then ldcAt s nr d sz peek true c o
    else atHand s nr c o (.ldc sz.bytes (!peek)) (fun s => ldcAt s nr d sz peek false c o)))

def execStp (d a : SReg) (nr : Disp) (sz : Size) (off : BitVec 8) (s : State) : Out :=
  .next (feAccess s a sz off (fun loc c o =>
    if loc then stpAt s nr d sz true c o
    else atHand s nr c o (.stp (toBytes sz.bytes (rdS s d).toNat)) (fun s => stpAt s nr d sz false c o)))

/-- Base and range of FESET, FECLR and FEPEEK on `n` words (R135). -/
def feRange (s : State) (a : SReg) (n : Nat) (go : Bool → Nat → Nat → State) : State :=
  let ea := rdS s a
  if ea.toNat % 8 ≠ 0 then raise s .align
  else match spAddr s ea (8 * n) with
    | none => raise s .prot
    | some (c, o) => go (isLocal ea) c (o / 8)

/-- FESET and FECLR: in the local form one event in the issue cycle, never not-ready, behind the work that an open order waits for
(assumption 67); in the window form performed at the target (R303). -/
def feMark (s : State) (nr : Disp) (a : SReg) (n : Nat) (b : Bool) : State :=
  feRange s a n (fun loc c w =>
    if loc then readyNext (feFill (settled s (localBarred s)) c w n b)
    else feOrdered s nr (localBarred s) (orderRes s.curCore s.curSlot) (
      if c = s.curCore then readyNext (feFill s c w n b)
      else withAnswer s nr (winHold s c (8 * w) (if b then .feset n else .feclr n))
        (fun s _ _ => readyNext (dropHold s))))

def execFeset (a : SReg) (nr : Disp) (x : BitVec 8) (s : State) : Out := .next (feMark s nr a (x.toNat + 1) true)

def execFeclr (a : SReg) (nr : Disp) (x : BitVec 8) (s : State) : Out := .next (feMark s nr a (x.toNat + 1) false)

def execFepeek (d a : SReg) (nr : Disp) (x : BitVec 8) (s : State) : Out :=
  let n := x.toNat + 1
  .next (if 64 < n then raise s .illegal
    else feRange s a n (fun loc c w =>
      let give := fun (s : State) (v : Nat) => readyNext (wrS s d (BitVec.ofNat 64 v))
      let own := fun (s : State) => give (dropRead s) ((getCore s c).feBits w n)
      if loc then own (settled s (localBarred s))
      else feOrdered s nr (localBarred s) (orderRes s.curCore s.curSlot) (
        if c = s.curCore then own s
        else withAnswer s nr (winHold s c (8 * w) (.fepeek n)) (fun s b _ => give (dropHold s) (leNat b)))))

end Sys2Proof.Machine
end

