-- ==== Sys2Proof/Machine/Gateway.lean ====
section
/-! DEFINITION. Salden ports: reduction blocks, landing rings, route tables (R97, R176, R205, R255, R263). -/

namespace Sys2Proof.Machine

/-- The logical number of a physical core: the core of its partition that the table maps to it, else its own. -/
def lcnAt (s : State) (pcn : Nat) : Nat :=
  match s.parts.findSome? (fun e => if e.2.live then (e.2.pcn.find? (fun x => x.2 == pcn)).map (·.1) else none) with
  | some l => l
  | none => pcn

/-- The partition that owns a port. -/
def portPart (s : State) (j : Nat) : Option Nat := (s.parts.find? (fun e => e.2.live && e.2.ports.contains j)).map (·.1)

/-- Whether a ring slot at `a` of core `t` is free: its words are empty (R263), and no write on its way from the hamper is for
it. -/
def ringFree (s : State) (t a : Nat) : Bool :=
  (List.range 8).all (fun i => !(getCore s t).feBit (a / 8 + i)) &&
  s.parts.all (fun e => e.2.hamper.all (fun p => match p.body with
    | .winWrite x 0 b _ _ => !(x == t && b == a)
    | _ => true))

/-- The next free slot of gateway core `i`'s ring, from the one after the last written on. -/
def ringNext (s : State) (j i t : Nat) : Option Nat :=
  let r := sget (0, 0) (getPort s j).rings i
  let at_ := sget 0 (getPort s j).next i
  ((List.range r.2).map (fun n => (at_ + n) % r.2)).find? (fun n => ringFree s t (r.1 + 64 * n))

/-- Whether the port has a request for credits of a channel outstanding. -/
def portAsked (s : State) (j t ch : Nat) : Bool :=
  s.net.any (fun p => match p.body with
    | .creditReq x c a => x == t && c == ch && a == portId j
    | .creditGrant a x c _ => x == t && c == ch && a == portId j
    | _ => false) ||
  (sget [] (getCore s t).chHeld ch).contains (portId j) ||
  s.parts.any (fun e => e.2.hamper.any (fun p => match p.body with
    | .creditReq x c a => x == t && c == ch && a == portId j
    | _ => false))

/-- Write a block into its landing slot with `fill` and send the message on channel 7 (R205); the port spends a credit and its
clock steps (R255). -/
def landBlock (s : State) (j i t n idx : Nat) (red : BitVec 64) (blk : V512) : State :=
  let r := sget (0, 0) (getPort s j).rings i
  let a := r.1 + 64 * n
  let lam := (getPort s j).lamport + 1
  let s1 := modPort s j (fun p => { p with
    next := sset 0 p.next i ((n + 1) % r.2),
    lamport := lam,
    credits := putEntry p.credits t 7 (creditsIn p.credits t 7 - 1) })
  let write : Packet := Packet.mk (portId j) 0 0 lam (.winWrite t 0 a (toBytes 64 blk.toNat) true)
  let s2 := if (getCore s t).away then divertTo s1 t write else engineWrite s1 t a (toBytes 64 blk.toNat) true
  let msg : Packet := Packet.mk (portId j) 0 0 lam (.msg t 7 (Config.gatewayPayload red idx a) (Config.portWord j))
  { s2 with net := s2.net ++ [msg] }

/-- The block at the head of what port `j` holds is landed, when a slot of its core's ring is free, the port has a credit and,
for a saved core, the hamper has room; else it stays, and a missing credit is asked for (R205, R249, R263). -/
def landHead (s : State) (j : Nat) : State :=
  match (getPort s j).held with
  | [] => s
  | (idx, red, blk) :: rest =>
    let i := idx % 4
    let t := lcnAt s (gatewayCore j i)
    if (getCore s t).away && !mayDivert s t then s
    else match ringNext s j i t with
      | none => s
      | some n =>
        if creditsIn (getPort s j).credits t 7 ≠ 0 then
          landBlock (modPort s j (fun p => { p with held := rest })) j i t n idx red blk
        else if portAsked s j t 7 then s
        else sendFrom s (portId j) 0 0 (.creditReq t 7 (portId j))

/-- GATEWAY_BLOCK_ARRIVAL (R205, R263): a block joins what its port holds, oldest first, and the head is landed if it can be. -/
def execGatewayBlockArrival (j idx : Nat) (red : BitVec 64) (blk : V512) (s : State) : Out :=
  .next (match portPart s j with
    | none => s
    | some _ => landHead (modPort s j (fun p => { p with held := p.held ++ [(idx, red, blk)] })) j)

/-- Whether a landing ring keeps the limits of R263. -/
def ringOk (base slots : Nat) : Bool :=
  base % 64 == 0 && decide (1 ≤ slots ∧ slots ≤ 128 ∧ base + 64 * slots ≤ guardBase)

/-- ROUTE_TABLE_WRITE (R263): the port's routes, of subscriptions and of reduction identities, and with `ring` the landing ring
of one gateway core; a subscription that the table routes again is lost no longer (R176). -/
def execRouteTableWrite (j : Nat) (routes : List Route) (ring : Option (Nat × Nat × Nat)) (s : State) : Out :=
  .next (match portPart s j with
    | none => s
    | some p =>
      let s1 := modPort s j (fun x => { x with routes := routes })
      let s2 := match ring with
        | some (i, base, n) =>
          if i < 4 ∧ ringOk base n = true then
            modPort s1 j (fun x => { x with rings := sset (0, 0) x.rings i (base, n), next := sset 0 x.next i 0 })
          else s1
        | none => s1
      mapRegions s2 p (fun _ _ r => if r.mode = 2 ∧ routes.any (fun x => !x.reduction && x.id == r.sub) then { r with lost := false } else r))

end Sys2Proof.Machine
end

