-- ==== Sys2Proof/Machine/Gear.lean ====
section
/-! DEFINITION. Gears, the current governors, venting's forced drop, wear gauges and memory temperature: major 0x37 and its
events (R91, R225 to R230, R234 to R237, R309). -/

namespace Sys2Proof.Machine

/-! ## Admission (R229, R230) -/

/-- The grants of the 1,500 mesh cycles that end at cycle `now` (R229). -/
def Governor.recent (g : Governor) (now : Nat) : List (Nat × Nat) := g.window.filter (fun e => decide (now < e.2 + 1500))

/-- Whether the transition window lets the governor grant to row `v` at cycle `now` (R229, condition 2): the row has a grant in
it, or fewer than 16 rows have. -/
def Governor.windowOk (g : Governor) (now v : Nat) : Bool :=
  let rows := (g.recent now).map (·.1)
  rows.contains v || decide (rows.eraseDups.length < 16)

/-- Whether a grant to core `c` meets its own conditions: a unit is free, the window allows its row, and it is not held in
SOAK by its temperature (R229, R234). -/
def admitOwn (s : State) (c : Nat) : Bool :=
  let d := dieOf (pcnOf s c)
  let g := getGov s d
  !s.forced.contains (pcnOf s c) && decide (unitsHeld s d < g.limit) && g.windowOk s.cycle (coreRow s c)

/-- The active claims on voltage rows, restore requests included (R91, R229, R230): core, slot (8: the core itself) and claim. One
whose row the transition window bars counts all the same, so that a younger row waits for it. The claim of a core held in SOAK by its
temperature, which is served once that has ended (R234), does not count (assumption 110), nor does the request of a core that is
saved again (assumption 69). -/
def rowClaims (s : State) : List (Nat × Nat × Claim) :=
  let slots := (claimsOf s).filter (fun e => e.2.2.active && (match e.2.2.res with | .row _ => true | _ => false))
  let reqs := s.cores.filterMap (fun (e : Nat × Core) =>
    if e.2.save == .saved then none else e.2.restoreReq.map (fun cl => (e.1, 8, cl)))
  (slots ++ reqs).filter (fun e => (getCore s e.1).spin || !s.forced.contains (pcnOf s e.1))

/-- Row of a claim. -/
def Claim.row (c : Claim) : Nat := match c.res with | .row v => v | _ => 0

/-- The time of the oldest ticket among claims of a row. -/
def oldestStamp (cs : List (Nat × Nat × Claim)) (v : Nat) : Option Nat :=
  ((cs.filter (fun e => e.2.2.row == v)).map (fun e => e.2.2.stamp)).foldl
    (fun a t => match a with | none => some t | some x => some (min x t)) none

/-- Whether the governor serves a claim (or, with none, a claim made now) on core `c`'s row at this moment (R229, R230). -/
def governorServes (s : State) (c : Nat) (mine : Option Claim) : Bool :=
  let v := coreRow s c
  let d := dieOf (pcnOf s c)
  let cs := (rowClaims s).filter (fun e => dieOf (16 * e.2.2.row) == d && some e.2.2 != mine)
  let ownRow := cs.any (fun e => e.2.2.row == v && (match mine with | some m => older e.2.2.ticket m.ticket | none => true))
  let others := (cs.map (fun e => e.2.2.row)).filter (fun w => w != v)
  let otherRow := others.any (fun w =>
    match oldestStamp cs w, mine with
    | some t, some m => decide (t < m.stamp) || (t == m.stamp && decide (w < v))
    | some _, none => true
    | none, _ => false)
  admitOwn s c && !ownRow && !otherRow

/-- Grant SPIN to core `c`: it holds a unit, and its row has a grant in the transition window (R227, R229). -/
def grantSpin (s : State) (c : Nat) : State :=
  let v := coreRow s c
  let d := dieOf (pcnOf s c)
  let s1 := modCore s c (fun k => { k with spin := true, restoreReq := none })
  wakeRows (modGov s1 d (fun g => { g with window := g.recent s.cycle ++ [(v, s.cycle)] })) d

/-- GEAR (R227). -/
def execGear (nr : Disp) (spin : Bool) (s : State) : Out :=
  let c := s.curCore
  let res : Resource := .row (coreRow s c)
  .next (if !spin then invTiming s nr (readyNext (soakCore s c))
    else if (cur s).spin then invTiming s nr (readyNext s)
    else if governorServes s c ((slot s).claimAt (slot s).pc res) then invTiming s nr (readyNext (grantSpin s c))
    else notReady s nr .admission res)

/-- GEAR_CHANGE_EFFECT (R225, R226): the granted gear takes effect at the start of a rotation. -/
def execGearChangeEffect (c : Nat) (s : State) : Out :=
  .next (if (getCore s c).cyc % 8 = 0 ∧ (getCore s c).save = .no then modCore s c (fun k => { k with gearEff := k.spin })
    else s)

/-- RESTORE_REQUEST_GRANT (R91, R229): the governor serves the core's restore request. -/
def execRestoreRequestGrant (c : Nat) (s : State) : Out :=
  .next (match (getCore s c).restoreReq with
    | some cl => if (getCore s c).save == .no && governorServes s c (some cl) then grantSpin s c else s
    | none => s)

/-- TRANSITION_WINDOW_CLOSE (R229, R230): grants that are 1,500 mesh cycles old leave the window, and the row resources of the
die change. -/
def execTransitionWindowClose (die : Nat) (s : State) : Out :=
  let g := getGov s die
  .next (if (g.recent s.cycle).length = g.window.length then s
    else wakeRows (modGov s die (fun g => { g with window := g.recent s.cycle })) die)

/-- UNIT_LIMIT_SET (R229, R230): no unit is revoked. -/
def execUnitLimitSet (die n : Nat) (s : State) : Out :=
  .next (wakeRows (modGov s die (fun g => { g with limit := n })) die)

/-! ## Temperature -/

/-- Record one junction reading by physical core: one that reads 90 °C or below may be a vent target again (R233), and one
that reads 95 °C or below may hold SPIN again (R234). -/
def readJunction (s : State) (e : Nat × Nat) : State :=
  let s1 := { s with junction := sput s.junction e.1 e.2,
                     barred := if e.2 ≤ 90 then s.barred.filter (· != e.1) else s.barred,
                     forced := if e.2 ≤ 95 then s.forced.filter (· != e.1) else s.forced }
  if s1.forced.length = s.forced.length then s1 else wakeRows s1 (dieOf e.1)

/-- Record junction readings. -/
def readJunctions (s : State) (temps : List (Nat × Nat)) : State := temps.foldl readJunction s

/-- Whether a physical core is one of the 96 gateway cores (R14), whichever partition owns its port. -/
def isGateway (pcn : Nat) : Bool := (gatewayCores 96).contains pcn

/-- Vent targets of a core in a partition (R233): logical and physical numbers of cores without a task, that are no gateway
core, read 90 °C or below, and are not barred. -/
def ventTargets (s : State) (p c : Nat) : List (Nat × Nat) :=
  let t := getPart s p
  ((t.bays.flatMap (fun b => (List.range 256).map (fun i => 256 * b + i))).map (fun l => (l, pcnOf s l))).filter (fun e =>
    e.1 != c && (getCore s e.1).task.isNone && !isGateway e.2 && !s.barred.contains e.2 &&
    !t.moves.any (fun m => m.2 == e.2) && decide (sget 0 s.junction e.2 ≤ 90))

/-- The order in which vent targets are preferred: same bay, lowest junction, lowest physical number (R233). -/
def ventBefore (s : State) (bay : Nat) (a b : Nat × Nat) : Bool :=
  let key := fun (e : Nat × Nat) => ((if bayOf e.2 = bay then 0 else 1), sget 0 s.junction e.2, e.2)
  let x := key a
  let y := key b
  decide (x.1 < y.1) || (x.1 == y.1 && (decide (x.2.1 < y.2.1) || (x.2.1 == y.2.1 && decide (x.2.2 < y.2.2))))

/-- VENT (R233, R246): core `c` reads above 105 °C; with a target its pre-emption begins, and the move is noted until the
restore completes it. `temps` are the junction readings at this moment. -/
def execVent (c : Nat) (temps : List (Nat × Nat)) (s : State) : Out :=
  let s1 := readJunctions s temps
  .next (match partOf s c with
    | none => s1
    | some p =>
      if sget 0 s1.junction (pcnOf s c) ≤ 105 ∨ (getCore s c).save ≠ .no ∨
         (getPart s p).moves.any (fun e => e.1 == c) = true then s1
      else match ventTargets s1 p c with
        | [] => s1
        | t :: ts =>
          let best := ts.foldl (fun a b => if ventBefore s1 (bayOf (pcnOf s c)) b a then b else a) t
          modCore (modPart s1 p (fun x => { x with moves := x.moves ++ [(c, best.2)] })) c (fun k =>
            { k with preReq := true }))

/-- VENT_FORCE_SOAK (R234): without a target the hot core drops to SOAK and is refused SPIN until it cools; its claims and a
restore request stand (R91). A core whose vent is under way has its target. -/
def execVentForceSoak (c : Nat) (temps : List (Nat × Nat)) (s : State) : Out :=
  let s1 := readJunctions s temps
  .next (match partOf s c with
    | none => s1
    | some p =>
      if sget 0 s1.junction (pcnOf s c) ≤ 105 ∨ !(ventTargets s1 p c).isEmpty ∨
         (getPart s p).moves.any (fun e => e.1 == c) = true then s1
      else
        let pc := pcnOf s c
        dropUnit { s1 with forced := if s1.forced.contains pc then s1.forced else s1.forced ++ [pc] } c)

/-- JUNCTION_COOLED (R234): a forced core that reads 95 °C or below may be granted SPIN again. -/
def execJunctionCooled (c temp : Nat) (s : State) : Out := .next (readJunction s (pcnOf s c, temp))

/-! ## Wear gauges and margins (R235, R236) -/

/-- MARGIN_REPLAN (R235): the admission register bit 8 clears. -/
def execMarginReplan (row : Nat) (s : State) : Out :=
  .next { s with rows := sset RowGauge.reset s.rows row RowGauge.reset }

/-- SRAM_RAIL_STEP (R236): the SRAM rail of a row falls by one step; `bad` names the scratchpad words, by core and word
number, that this leaves uncorrectable. A pinned row is left alone. -/
def execSramRailStep (row : Nat) (bad : List (Nat × Nat)) (s : State) : Out :=
  let g := sget RowGauge.reset s.rows row
  .next (if g.pinned then s
    else
      let s1 := { s with rows := sset RowGauge.reset s.rows row { g with rail := g.rail + 1 } }
      bad.foldl (fun s e => if coreRow s e.1 = row ∧ e.2 < 8192 then
        modCore s e.1 (fun k => if k.spBad.contains e.2 then k else { k with spBad := e.2 :: k.spBad }) else s) s1)

/-- ROW_UNCORRECTABLE_ERROR (R236): in its core cycle, slot `k`'s access consumes an uncorrectable error of another SRAM of core
`c`'s undervolted row: margins return, the partition is told, the row is pinned, and the slot takes MEMUE at its instruction. -/
def execRowUncorrectableError (c k : Nat) (s : State) : Out :=
  let s1 := modCore s c Core.startCycle
  .next (if (sget RowGauge.reset s.rows (coreRow s c)).rail = 0 ∨ (getCore s c).cyc % 8 ≠ k ∨
      (getSlot s1 c k).st ≠ .runnable ∨ (getSlot s1 c k).stopReq = true ∨ (getCore s1 c).save ≠ .no then s
    else endCycleAt (takeTrap (rowError s1 c) c k .memue 0 (getSlot s1 c k).pc) c)

/-- LPDDR_THERMAL_THRESHOLD (R237, R260): a stack's reading crosses a threshold (85 °C and 95 °C upwards, 3 °C lower
downwards); every partition that owns a channel pair of it gets a THERMAL event, one for each pair also where the reading crosses both
(assumption 107). The device has 32 stacks (R14). -/
def execLpddrThermalThreshold (stack temp : Nat) (s : State) : Out :=
  let old := sget (false, false) s.lpddr stack
  let new := (decide (85 ≤ temp) || (old.1 && decide (82 < temp)), decide (95 ≤ temp) || (old.2 && decide (92 < temp)))
  .next (if new = old ∨ 32 ≤ stack then s
    else
      let s1 := { s with lpddr := sset (false, false) s.lpddr stack new }
      let sub := (if new.1 then 1 else 0) + (if new.2 then 2 else 0)
      s1.parts.foldl (fun s (e : Nat × Partition) => (stackPairs stack).foldl (fun s ch =>
        if e.2.live && e.2.chans.contains ch then raiseEvent s e.1 1 sub ch 0 else s) s) s1)

end Sys2Proof.Machine
end

