-- ==== Sys2Proof/Machine/Lease.lean ====
section
/-! DEFINITION. Leases: major 0x34 and the ends of leases (R138 to R140, R319). -/

namespace Sys2Proof.Machine

/-- Mesh cycles of a microsecond: the mesh clock runs at 1.5 GHz (R18). -/
def cyclesPerUs : Nat := 1500

/-- L2 slices of a die (Table 1.2); they are numbered die after die (assumption 9). -/
def slicesPerDie : Nat := 128

/-- Bytes a lease of `size` bytes on `c` slices pins on each: an even share, in whole lines (R319). -/
def leaseShare (size c : Nat) : Nat := ((size + c - 1) / c + 63) / 64 * 64

/-- Bytes that live leases of a partition pin on a slice. -/
def pinned (t : Partition) (sl : Nat) : Nat :=
  ((t.leases.filter (fun e => e.2.live && decide (e.2.first ≤ sl ∧ sl < e.2.first + e.2.count))).map
    (fun e => leaseShare e.2.size e.2.count)).foldl (· + ·) 0

/-- Lowest index of the 256-entry table that is free: the entry that LEASE allocates (assumption 93). -/
def freeLease (t : Partition) : Option Nat := (List.range 256).find? (fun i => !(sget LeaseEnt.reset t.leases i).live)

/-- The entry LEASE may allocate: the table is not full and every slice has its share left of 512 KiB (R139). -/
def leaseFits (t : Partition) (f c size : Nat) : Option Nat :=
  if (List.range c).all (fun i => decide (pinned t (f + i) + leaseShare size c ≤ 524288)) then freeLease t else none

/-- First slice, slices and bytes that a LEASE asks for (R139). -/
def leaseAsk (v : W64) : Nat × Nat × Nat := (bitsOf v 8 0, bitsOf v 31 28 + 1, (bitsOf v 39 32 + 1) * 4096)

/-- Own condition of a claim at a range of slices (R38): what the LEASE at its PC asks for fits. -/
def leaseOwn (s : State) (c n : Nat) (cl : Claim) : Bool :=
  match claimInstr s c cl with
  | some (.lease _ a _) =>
    let r := leaseAsk ((getSlot s c n).getS a)
    (leaseFits (homePart s c) r.1 r.2.1 r.2.2).isSome
  | _ => true

/-- LEASE (R139, R319): in mesh cycles, the lifetime is counted from here. -/
def execLease (d a : SReg) (nr : Disp) (s : State) : Out :=
  let v := rdS s a
  let p := curPart s
  let f := (leaseAsk v).1
  let c := (leaseAsk v).2.1
  let size := (leaseAsk v).2.2
  let life := bitsOf v 63 48
  let t := getPart s p
  let res : Resource := .slices p f c
  .next (if life = 0 then raise s .bounds
    else if f / slicesPerDie ≠ (f + c - 1) / slicesPerDie ∨ (List.range c).all (fun i => t.slices.contains (f + i)) = false then
      raise s .prot
    else match leaseFits t f c size with
      | none => notReady s nr .lease res
      | some i =>
        if heldBackBy s res (leaseOwn s) then notReady s nr .lease res
        else timing s nr false (
          let e : LeaseEnt := { gen := (sget LeaseEnt.reset t.leases i).gen, live := true, first := f, count := c, size := size,
                                store := [], ending := [], until_ := s.cycle + cyclesPerUs * life }
          let s1 := modPart s p (fun t => { t with leases := sput t.leases i e })
          readyNext (wrS s1 d (BitVec.ofNat 64 (e.gen * 2 ^ 28 + i * 2 ^ 20)))))

/-- UNLEASE (R140, R319): the lease ends once the core's posted stores to it are performed. It is ready (R28). -/
def execUnlease (a : SReg) (s : State) : Out :=
  let v := rdS s a
  let p := curPart s
  let i := bitsOf v 27 20
  let e := sget LeaseEnt.reset (getPart s p).leases i
  .next (if bitsOf v 63 36 ≠ 0 ∨ e.live = false ∨ e.gen ≠ bitsOf v 35 28 then raise s .bounds
    else
      let m := (s.curCore, postMark s)
      readyNext (modPart s p (fun t => { t with leases := sput t.leases i { e with ending := e.ending ++ [m] } })))

/-- A lease ends: its contents are lost and its gen advances (R140). -/
def endLease (s : State) (p i : Nat) : State :=
  let s1 := modPart s p (fun t =>
    let e := sget LeaseEnt.reset t.leases i
    { t with leases := sput t.leases i { e with gen := (e.gen + 1) % 256, live := false, store := [], ending := [] } })
  wakeWhere s1 (fun r => match r with | .slices q _ _ => q == p | _ => false)

/-- LEASE_END (R140): an UNLEASE whose core has performed its stores to the lease takes effect. -/
def execLeaseEnd (p i : Nat) (s : State) : Out :=
  let e := sget LeaseEnt.reset (getPart s p).leases i
  let ready_ := e.ending.any (fun m => !(getCore s m.1).psb.any (fun x => x.sp == .lease p i e.gen && decide (x.id < m.2)))
  .next (if e.live && ready_ then endLease s p i else s)

/-- LEASE_EXPIRY (R140): the lifetime has run out. -/
def execLeaseExpiry (p i : Nat) (s : State) : Out :=
  let e := sget LeaseEnt.reset (getPart s p).leases i
  .next (if e.live && decide (e.until_ ≤ s.cycle) then endLease s p i else s)

end Sys2Proof.Machine
end

