-- ==== Sys2Proof/Machine/HostPort.lean ====
section
/-! DEFINITION. The host port and the partition's control page: windows, doorbell, counts, the configuration block; and the
far memory expanders (R177, R237, R257 to R262). -/

namespace Sys2Proof.Machine

/-! ## Windows (R177, R257, R258) -/

/-- Bits `hi` to `lo` of a window register. -/
def winBits (v : WinReg) (hi lo : Nat) : Nat := natBits v.toNat hi lo

/-- Log a failed access: 16 entries, the oldest overwritten (R258, Table 20.1). -/
def logWindow (s : State) (p cause va n : Nat) (write : Bool) : State :=
  let e : W64 × W64 := (BitVec.ofNat 64 (cause * 2 ^ 60 + va % 2 ^ 48), BitVec.ofNat 64 (n + (if write then 4 else 0)))
  modPart s p (fun t => { t with winErrs := min (t.winErrs + 1) (2 ^ 64 - 1), winLog := (e :: t.winLog).take 16 })

/-- The translation of a window access, or the first of its causes of failure in the port's order: 1, 5, 2, 3, 4, 6 (R258).
An address through the compressed view of a page without `cmp` has no valid translation (R142). -/
def windowCheck (s : State) (p n off len : Nat) (write : Bool) : Except Nat TlbEntry :=
  let r := sget 0 (getPart s p).wins n
  let va := winBits r 47 16 * 65536 + off
  if winBits r 0 0 = 0 ∨ winBits r 83 64 * 65536 ≤ off then .error 1
  else if write && viewBit va then .error 5
  else if 2 ^ 48 ≤ va then .error 2
  else match walkTables s p (plainVa va) with
    | .ok e _ =>
      let pa := e.phys (plainVa va)
      if e.tgt ≠ .dev ∨ (viewBit va && !e.comp) = true then .error 2
      else if !e.r || (write && (!e.w || winBits r 1 1 == 0)) then .error 3
      else if write && (regionOf s p (pa / 64)).isSome then .error 4
      else if (homeRead s p .dev e.comp (viewBit va) pa len).2 then .error 6
      else .ok e
    | _ => .error 2

/-- HOST_WINDOW_ACCESS (R177, R258, R259): an access of 1 to 64 bytes inside one line, at offset `off` of window `n`; a write has
its bytes in `wdata`. A read's answer is left in `hostReply`. No L1 and no TLB changes (R258): a copy of a line that is written
stands, but serves no load any more (R177; assumption 90). -/
def execHostWindowAccess (p n off len : Nat) (wdata : Option (List Byte)) (s : State) : Out :=
  let va := winBits (sget 0 (getPart s p).wins n) 47 16 * 65536 + off
  .next (if !(getPart s p).live || !decide (n < 4 ∧ 1 ≤ len ∧ va % 64 + len ≤ 64) then s
    else match windowCheck s p n off len wdata.isSome, wdata with
      | .error cause, some _ => logWindow s p cause va n true
      | .error cause, none => { logWindow s p cause va n false with hostReply := List.replicate len 0xFF }
      | .ok e, some d =>
        let comp := if e.comp then some e.dslot else none
        let w := (d ++ List.replicate len 0).take len
        if storeDropped s p .dev comp (e.phys va) w then s
        else homeEffect (staleCopies s (e.phys va / 64)) p .dev comp (e.phys va) w
      | .ok e, none => { s with hostReply := (homeRead s p .dev e.comp (viewBit va) (e.phys (plainVa va)) len).1 })

/-- WINDOW_ERROR_COUNT_READ (R257, R258): the count is returned and cleared. -/
def execWindowErrorCountRead (p : Nat) (s : State) : Out :=
  .next (if (getPart s p).live then
      { modPart s p (fun t => { t with winErrs := 0 }) with hostReply := toBytes 8 (getPart s p).winErrs }
    else s)

/-- TRACE_DROP_COUNT_READ (R254, R261): the count is returned and cleared. -/
def execTraceDropCountRead (p : Nat) (s : State) : Out :=
  .next (if (getPart s p).live then
      { modPart s p (fun t => { t with drops := 0 }) with hostReply := toBytes 8 (getPart s p).drops }
    else s)

/-! ## The doorbell (R114, R255, R259) -/

/-- LAUNCH_DOORBELL (R259): the address enters the intake with the host port's Lamport value; with 64 there it is dropped and the
overflow bit set. Earlier window writes are performed already. Bits 63:48 of the doubleword written are dropped (assumption 16). -/
def execLaunchDoorbell (p : Nat) (addr : BitVec 64) (s : State) : Out :=
  let t := getPart s p
  .next (if !t.live then s
    else if 64 ≤ t.intake.length then modPart s p (fun t => { t with overflow := true })
    else
      let lam := s.hostLam + 1
      let e : IntakeEnt := { addr := bitsOf addr 47 0, q := t.seq, lam := lam, src := none }
      { modPart s p (fun t => { t with intake := t.intake ++ [e], seq := (t.seq + 1) % 2 ^ 32 }) with hostLam := lam })

/-! ## Control-page registers (R251, R257, R261) -/

/-- A value with its bits `hi` to `lo` alone. -/
def keepBits (v : W64) (hi lo : Nat) : W64 := BitVec.ofNat 64 (bitsOf v hi lo * 2 ^ lo)

/-- Write a field of the configuration block; reserved bits are not written (Table 20.4). -/
def Config64.put (f : Config64) (off : Nat) (v : W64) : Config64 :=
  match off with
  | 0x200 => { f with root := keepBits v 51 12 ||| keepBits v 0 0 }
  | 0x208 => { f with trap := keepBits v 47 0 }
  | 0x210 => { f with handles := keepBits v 47 0 }
  | 0x218 => { f with save := keepBits v 47 0 }
  | 0x220 => { f with hamper := keepBits v 63 16 }
  | 0x228 => { f with trace := keepBits v 63 48 ||| keepBits v 47 5 }
  | _ => f

/-- The RW fields of a window register (Table 20.2). -/
def windowFields (v : BitVec 128) : WinReg :=
  BitVec.ofNat 128 (natBits v.toNat 83 64 * 2 ^ 64 + natBits v.toNat 47 16 * 2 ^ 16 + natBits v.toNat 1 0)

/-- Bit 0 of a value written. -/
def lowBit (v : BitVec 128) : Bool := v.toNat % 2 == 1

/-- CONTROL_PAGE_WRITE (R251, R257, R261). Of the register at 0x060 a write reaches the tail, bits 63:32, alone (assumption 115).
Debug-port registers are reached only while the port is open. -/
def execControlPageWrite (p : Nat) (reg : CtlPageReg) (val : BitVec 128) (s : State) : Out :=
  let page := fun (f : Partition → Partition) => if (getPart s p).live then modPart s p f else s
  let v : W64 := val.setWidth 64
  .next (match reg with
    | .window n => if n < 4 then page (fun t => { t with wins := sset 0 t.wins n (windowFields val) }) else s
    | .intakeOverflow => page (fun t => { t with overflow := t.overflow && !bitOf v 8 })
    | .eventBase => page (fun t => { t with evBase := keepBits v 63 48 ||| keepBits v 47 5 })
    | .eventTail => page (fun t => { t with evTail := BitVec.ofNat 32 (natBits v.toNat 63 32) })
    | .config off => page (fun t => { t with staged := t.staged.put off v })
    | .catchBit c k =>
      if debugOpen s && isSlot c k then modSlotAt s c k (fun l => { l with catchBkpt := lowBit val }) else s
    | .stepMode c k =>
      if debugOpen s && isSlot c k then modSlotAt s c k (fun l => { l with stepTrap := lowBit val }) else s
    | .coreFreeze c =>
      if debugOpen s && isSlot c 0 then modCore s c (fun k => { k with freeze := lowBit val }) else s)

/-! ## Commit (R261) -/

/-- Whether `n` pages from page `v` on are translated with read and write rights and target 00. -/
def pagesOk (s : State) (p v : Nat) : Nat → Bool
  | 0 => true
  | n + 1 => (match walkTables s p (4096 * v) with
      | .ok e _ => e.tgt == .dev && e.r && e.w && !viewBit (4096 * v)
      | _ => false) && pagesOk s p (v + 1) n

/-- Whether a range of device addresses is so translated. -/
def rangeOk (s : State) (p va len : Nat) : Bool :=
  decide (va + len ≤ 2 ^ 48) && (len == 0 || pagesOk s p (va / 4096) ((va + len + 4095) / 4096 - va / 4096))

/-- The first reason that refuses a commit, in the rule's order; 0 when none does (R261). -/
def commitRefusal (s : State) (p : Nat) : Nat :=
  let t := getPart s p
  let f := t.staged
  let s1 := modPart s p (fun t => { t with conf := f })
  let owned := s.cores.filter (fun (e : Nat × Core) => t.owns e.1)
  let misaligned := decide (f.trap.toNat % 4 ≠ 0 ∨ f.handles.toNat % 64 ≠ 0 ∨ f.save.toNat % 65536 ≠ 0)
  let ranges := rangeOk s1 p (bitsOf f.handles 47 0) 65536 &&
    rangeOk s1 p (bitsOf f.save 47 0) (0x1C000 * (256 * t.bays.length)) &&
    rangeOk s1 p (bitsOf f.hamper 47 16 * 65536) (bitsOf f.hamper 63 48 * 65536) &&
    rangeOk s1 p (bitsOf f.trace 47 5 * 32) (bitsOf f.trace 63 48 * 32)
  if t.launches.any (·.live) || owned.any (fun e => e.2.save == .saved) then 1
  else if misaligned || !ranges then 2
  else if !t.chans.contains (pairOf (rootOf s1 p / 64)) then 3
  else if bitsOf f.hamper 63 48 < 4 then 4
  else 0

/-- CONFIG_COMMIT (R261): writing 1 commits the block or refuses it; a trace ring that the commit places anew starts empty. -/
def execConfigCommit (p : Nat) (val : BitVec 64) (s : State) : Out :=
  .next (if !(getPart s p).live || val != 1 then s
    else
      let r := commitRefusal s p
      if r ≠ 0 then modPart s p (fun t => { t with refusedCommit := r })
      else modPart s p (fun t => { t with
        tracePos := if t.conf.trace = t.staged.trace then t.tracePos else 0,
        conf := t.staged, committed := true, refusedCommit := 0 }))

/-! ## Far memory (R237, R262) -/

/-- A partition's bandwidth share of a CXL port in percent, scaled as the expander throttles (R237, R262). -/
def cxlShareOf (s : State) (p port : Nat) : Nat := sget 0 (getPart s p).cxl port * sget 100 s.cxlShare port / 100

/-- The expander returns poison with the data of a far line (R262). -/
def farPoison (s : State) (line : Nat) : State := poisonLine s .far (64 * line)

/-- EXPANDER_REPORTS_THROTTLING (R262): every partition's bandwidth share of the port is scaled; no access changes. -/
def execExpanderReportsThrottling (port share : Nat) (s : State) : Out :=
  .next (if port < 4 then { s with cxlShare := sset 100 s.cxlShare port share } else s)

end Sys2Proof.Machine
end

