-- ==== Sys2Proof/Machine/Queue.lean ====
section
/-! DEFINITION. Data queues, branch-outcome queues and neighbour links, majors 0x2D and 0x2E (R107 to R110, R285, R320,
R338). -/

namespace Sys2Proof.Machine

/-! ## Queues -/

/-- QPUSH (R107). -/
def execQpush (a : VReg) (nr : Disp) (q : BitVec 2) (s : State) : Out :=
  let i := q.toNat
  let res : Resource := .struct s.curCore .dataQueue i true
  let old := sget [] (cur s).dq i
  .next (if 4 ≤ old.length ∨ heldBack s res = true then notReady s nr .qfull res
    else timing s nr false (
      let s1 := modCur s (fun k => { k with dq := sset [] k.dq i (old ++ [rdV s a]) })
      readyNext (wakeStruct s1 s.curCore .dataQueue i)))

/-- QPOP (R107). -/
def execQpop (d : VReg) (nr : Disp) (q : BitVec 2) (s : State) : Out :=
  let i := q.toNat
  let res : Resource := .struct s.curCore .dataQueue i false
  .next (match sget [] (cur s).dq i with
    | [] => notReady s nr .qempty res
    | v :: rest =>
      if heldBack s res then notReady s nr .qempty res
      else timing s nr false (
        let s1 := modCur (wrV s d v) (fun k => { k with dq := sset [] k.dq i rest })
        readyNext (dropRead (wakeStruct s1 s.curCore .dataQueue i))))

/-- BOQ (R107, R285). -/
def execBoq (a : SReg) (nr : Disp) (q : BitVec 1) (s : State) : Out :=
  let i := q.toNat
  let res : Resource := .struct s.curCore .outcomeQueue i true
  let old := sget [] (cur s).bq i
  .next (if 32 ≤ old.length ∨ heldBack s res = true then notReady s nr .qfull res
    else timing s nr false (
      let s1 := modCur s (fun k => { k with bq := sset [] k.bq i (old ++ [rdS s a != 0]) })
      readyNext (wakeStruct s1 s.curCore .outcomeQueue i)))

/-- BRQ (R107, R285): the popped bit decides the branch. -/
def execBrq (nr : Disp) (q : BitVec 1) (off : BitVec 8) (s : State) : Out :=
  let i := q.toNat
  let res : Resource := .struct s.curCore .outcomeQueue i false
  .next (match sget [] (cur s).bq i with
    | [] => notReady s nr .qempty res
    | b :: rest =>
      if heldBack s res then notReady s nr .qempty res
      else timing s nr false (
        let s1 := modCur s (fun k => { k with bq := sset [] k.bq i rest })
        let s2 := ready (wakeStruct s1 s.curCore .outcomeQueue i)
        if b then jumpTo s2 (relTarget (slot s).pc off) else advance s2))

/-! ## Links -/

/-- Neighbour of a core in a direction on its mesh line of 64 columns (R12, R109). -/
def neighbour (c : Nat) (d : Dir) : Option Nat :=
  match d with
  | .east => if c % 64 = 63 then none else some (c + 1)
  | .west => if c % 64 = 0 then none else some (c - 1)

/-- Outgoing credits of a direction (R109). -/
def Core.linkCredits (k : Core) (d : Dir) : Nat := sget 2 k.linkCr d.code

/-- Own condition of a link claim (R38): a forwarding pop needs both a word and a credit (R110). -/
def linkOwn (s : State) (filling : Bool) (c _n : Nat) (cl : Claim) : Bool :=
  match claimInstr s c cl with
  | some (.lnkpForward _ _ dir) =>
    if filling then !(sget [] (getCore s c).link dir.code).isEmpty
    else decide (0 < (getCore s c).linkCredits dir.flip)
  | _ => true

/-- Pop the incoming buffer of a direction: the word's credit returns to the neighbour it came from. -/
def popLink (s : State) (d : Dir) (n : Nat) (rest : List V512) : State :=
  let s1 := modCur s (fun k => { k with link := sset [] k.link d.code rest })
  wakeStruct (send s1 false (.linkCredit n d.flip)) s.curCore .link d.code

/-- Send a word to a neighbour: one credit is spent, and the word arrives in the buffer that faces this core. -/
def pushLink (s : State) (d : Dir) (n : Nat) (w : V512) : State :=
  let s1 := modCur s (fun k => { k with linkCr := sset 2 k.linkCr d.code (k.linkCredits d - 1) })
  send s1 false (.linkWord n d.flip w)

/-- LNKP `e`, `w` (R110). -/
def execLnkp (d : VReg) (nr : Disp) (dir : Dir) (s : State) : Out :=
  let res : Resource := .struct s.curCore .link dir.code false
  .next (match neighbour s.curCore dir with
    | none => raise s .prot
    | some n =>
      match sget [] (cur s).link dir.code with
      | [] => notReady s nr .qempty res
      | w :: rest =>
        if heldBackBy s res (linkOwn s false) then notReady s nr .qempty res
        else timing s nr false (readyNext (dropRead (popLink (wrV s d w) dir n rest))))

/-- LNKP `ew`, `we` (R110): one event pops from one side and forwards to the other. -/
def execLnkpForward (d : VReg) (nr : Disp) (dir : Dir) (s : State) : Out :=
  let drain : Resource := .struct s.curCore .link dir.code false
  let fill : Resource := .struct s.curCore .link dir.flip.code true
  .next (match neighbour s.curCore dir, neighbour s.curCore dir.flip with
    | some n, some m =>
      match sget [] (cur s).link dir.code with
      | [] => notReady s nr .qempty drain
      | w :: rest =>
        if (cur s).linkCredits dir.flip = 0 then notReady s nr .qfull fill
        else if heldBackBy s drain (linkOwn s false) then notReady s nr .qempty drain
        else if heldBackBy s fill (linkOwn s true) then notReady s nr .qfull fill
        else timing s nr false (readyNext (dropRead (pushLink (popLink (wrV s d w) dir n rest) dir.flip m w)))
    | _, _ => raise s .prot)

/-- LNKW (R110). -/
def execLnkw (a : VReg) (nr : Disp) (dir : Dir) (s : State) : Out :=
  let res : Resource := .struct s.curCore .link dir.code true
  .next (match neighbour s.curCore dir with
    | none => raise s .prot
    | some n =>
      if (cur s).linkCredits dir = 0 ∨ heldBackBy s res (linkOwn s true) = true then notReady s nr .qfull res
      else timing s nr false (readyNext (pushLink s dir n (rdV s a))))

/-- A link word enters a buffer of core `t`. -/
def putLink (s : State) (t : Nat) (d : Dir) (w : V512) : State :=
  wakeStruct (modCore s t (fun k => { k with link := sset [] k.link d.code (sget [] k.link d.code ++ [w]) })) t .link d.code

/-- LINK_WORD_ARRIVAL (R109, R320): words of one link arrive in order; a saved core's go to the hamper. -/
def execLinkWordArrival (i : Nat) (s : State) : Out :=
  let same := fun (p q : Packet) => match p.body, q.body with
    | .linkWord t d _, .linkWord u e _ => t == u && d == e
    | _, _ => false
  .next (match canArrive s i same with
    | some p =>
      match p.body with
      | .linkWord t d w =>
        let s1 := dropNet s i
        if (getCore s t).away then divert s i t p else putLink (recvPk s1 t p) t d w
      | _ => s
    | none => s)

/-- An outgoing link credit of core `t` comes back. -/
def putLinkCredit (s : State) (t : Nat) (d : Dir) : State :=
  wakeStruct (modCore s t (fun k => { k with linkCr := sset 2 k.linkCr d.code (k.linkCredits d + 1) })) t .link d.code

/-- LINK_CREDIT_RETURN (R109): a popped word's credit returns to the neighbour that sent it. -/
def execLinkCreditReturn (i : Nat) (s : State) : Out :=
  .next (match canArrive s i noOrder with
    | some p =>
      match p.body with
      | .linkCredit t d =>
        let s1 := dropNet s i
        if (getCore s t).away then divert s i t p else putLinkCredit s1 t d
      | _ => s
    | none => s)

end Sys2Proof.Machine
end

