-- ==== Sys2Proof/Machine/Preempt.lean ====
section
/-! DEFINITION. Pre-emption: the drains of a save, the context image, its cancellation, and restore (R44, R85, R87 to R91, R98,
R206, R215, R246 to R250). The parts of the image whose layout is open hold encodings of what they are said to hold
(assumption 17). -/

namespace Sys2Proof.Machine

/-! ## The image (R87, R88, R98) -/

/-- Bytes of the image. -/
def imageSize : Nat := 0x1B800

/-- Index of a core among its partition's cores in ascending LCN (R261). -/
def saveIndex (t : Partition) (c : Nat) : Nat := (t.bays.filter (fun b => decide (b < bayOf c))).length * 256 + c % 256

/-- Device address of a core's save area. -/
def saveAreaOf (t : Partition) (c : Nat) : Nat := bitsOf t.conf.save 47 0 + 0x1C000 * saveIndex t c

/-- A claim entry's 24 bytes (R87). -/
def claimBytes (c : Option Claim) : List Byte :=
  match c with
  | none => toBytes 24 0
  | some c => toBytes 8 (2 ^ 63 + c.age * 2 ^ 52 + c.cause.toNat * 2 ^ 48 + c.pc.toNat) ++
      toBytes 8 (Config.resourceId c.res).toNat ++ toBytes 8 c.ticket.toNat

/-- What the frame's state in the image holds (Table 5.6, 0x608). -/
def Slot.frameNums (l : Slot) : List Nat :=
  match l.frame with
  | none => []
  | some f => [f.len, f.count, f.rep, f.sd, f.sa, f.sb, f.sx]

/-- What a monitor entry in the image holds (Table 5.6, 0x610 on). -/
def Slot.monNums (l : Slot) (e : Nat) : List Nat :=
  match sget none l.mons e with
  | none => []
  | some m => [if m.scratch then 1 else 0, m.line, if m.hit then 1 else 0]

/-- What the image holds of a park: its kind, and for PARK the remaining timeout, the destination and the wake conditions so far
(R42, R44). -/
def Slot.parkNums (l : Slot) : Park → List Nat
  | .park d n => [0, n, d.val, match l.wake with | none => 0 | some (r, at_) => 1 + r + 8 * at_]
  | .res _ e => [1, match e with | none => 0 | some t => t + 1]

/-- What the slot state in the image holds (Table 5.6, 0x630): whether the slot is in a message handler (R100, R101), its state and
its park. -/
def Slot.stateNums (l : Slot) : List Nat :=
  (if l.inHandler then 1 else 0) :: match l.st with
  | .empty => [0]
  | .runnable => [1]
  | .parked p => 2 :: l.parkNums p
  | .stopped none => [3]
  | .stopped (some p) => 3 :: l.parkNums p

/-- A slot context (Table 5.6). -/
def slotImage (k : Core) (n : Nat) : List Byte :=
  let l := k.slot n
  (List.range 172).flatMap (fun i => toBytes 8 (slotDword k l i).toNat) ++
  toBytes 8 l.epc.toNat ++ toBytes 8 l.ecause.toNat ++ toBytes 8 l.evec.toNat ++ toBytes 8 l.msgvec.toNat ++
  toBytes 8 (msgmaskWord l).toNat ++ toBytes 8 l.pfmt.toNat ++ toBytes 8 l.pgam.toNat ++ toBytes 8 l.rnd.toNat ++
  (((l.claims ++ [none, none, none, none]).take 4).flatMap claimBytes) ++
  toBytes 8 (match l.frame with | some f => f.start.toNat | none => 0) ++ toBytes 8 (Config.contextBits 0 l.frameNums).toNat ++
  [0, 1, 2, 3].flatMap (fun e => toBytes 8 (Config.contextBits 1 (l.monNums e)).toNat) ++
  toBytes 8 (Config.contextBits 2 l.stateNums).toNat ++ toBytes 8 0

/-- A branch-outcome queue: entry i, oldest first, at bit i, and the occupancy (Table 5.7; assumption 17). -/
def boqWord (q : List Bool) : Nat := q.foldr (fun b a => (if b then 1 else 0) + 2 * a) 0 + 2 ^ 32 * q.length

/-- A send-credit entry of recency rank `n` (Table 6.4). -/
def creditWord (n : Nat) (e : CreditEntry) : Nat := 2 ^ 63 + e.n * 2 ^ 56 + n * 2 ^ 19 + e.ch * 2 ^ 16 + e.tgt

/-- The core block (Table 5.7); `spilled` counts the entries in the hamper. The credit entry of recency rank n stands at place n
(Table 6.4; assumption 116). -/
def coreBlock (k : Core) (spilled : List Nat) : List Byte :=
  toBytes 8 (gearWord k).toNat ++ toBytes 8 k.lamport.toNat ++ toBytes 8 k.vents.toNat ++
  toBytes 8 (Config.contextBits 3 [k.dqHead, k.dqTail]).toNat ++
  toBytes 8 (boqWord (sget [] k.bq 0)) ++ toBytes 8 (boqWord (sget [] k.bq 1)) ++
  [0, 1, 2, 3].flatMap (fun i => toBytes 8 (sget 0 k.shadow i).toNat) ++
  toBytes 8 ([0, 1, 2, 3].foldr (fun i a => (if sget false k.mbFull i then 1 else 0) + 2 * a) 0) ++ toBytes 8 (Config.contextBits 4 spilled).toNat ++
  [0, 1, 2, 3].flatMap (fun i => toBytes 32 (sget 0 k.mb i).toNat) ++
  (List.range 8).flatMap (fun n => toBytes 8 (match k.credits[n]? with | some e => creditWord n e | none => 0)) ++
  toBytes 8 k.creditTick.toNat ++ toBytes 8 (k.linkCredits .west + 4 * k.linkCredits .east) ++
  toBytes 8 (slotNums.foldr (fun c a => sget 4 k.chFree c % 8 + 8 * a) 0) ++ toBytes 200 0

/-- The whole image (Table 5.5). -/
def imageBytes (k : Core) (spilled : List Nat) : List Byte :=
  k.spRead 0 65536 ++
  (List.range 1024).map (fun b => BitVec.ofNat 8 (slotNums.foldr (fun j a => (if k.feBit (8 * b + j) then 1 else 0) + 2 * a) 0)) ++
  (List.range 8192).flatMap (fun e => toBytes 4 (sget 0 k.acc e).toNat) ++
  slotNums.flatMap (slotImage k) ++ coreBlock k spilled

/-! ## What goes to the hamper (R89, R98, R206, R278) -/

/-- What a core spills, in order: q0 to q3, the east and the west link, channels 0 to 7, each oldest first; then the requests held
at channels, the remote steps not yet in a position, and held atomic results. -/
def Core.spills (k : Core) : List Spill :=
  [0, 1, 2, 3].flatMap (fun i => (sget [] k.dq i).map (.queue i)) ++
  [0, 1].flatMap (fun i => (sget [] k.link i).map (.link i)) ++
  slotNums.flatMap (fun ch => (sget [] k.chans ch).map (.chan ch)) ++
  slotNums.flatMap (fun ch => (sget [] k.chHeld ch).map (.held ch)) ++
  k.cmdHeld.map .cmdHeld ++ k.cmdQ.map .cmd ++ k.shareQ.map .share ++
  slotNums.filterMap (fun n => (k.slot n).atom.map (.atom n))

/-- The counts of entries spilled: of each queue, link and channel, and of the rest (Table 5.7, 0x058). -/
def Core.spillCounts (k : Core) : List Nat :=
  [0, 1, 2, 3].map (fun i => (sget [] k.dq i).length) ++ [0, 1].map (fun i => (sget [] k.link i).length) ++
  slotNums.map (fun ch => (sget [] k.chans ch).length) ++ [k.spills.length]

/-- The structures that a core has spilled are empty. -/
def Core.emptied (k : Core) : Core :=
  { k.mapSlots (fun _ l => { l with atom := none }) with
    dq := [], link := [], chans := [], chHeld := [], cmdHeld := [], cmdQ := [], shareQ := [] }

/-- Core `c` spills its structures: each entry steps its clock (R255). -/
def spillOut (s : State) (c : Nat) : State :=
  let s1 := (getCore s c).spills.foldl (fun s x => hamperFrom s .core c 0 c (.spill c x)) s
  modCore s1 c Core.emptied

/-- A core takes one spilled entry back (R89, R98, R206). -/
def refill (s : State) (c : Nat) (x : Spill) : State :=
  match x with
  | .queue i w => modCore s c (fun k => { k with dq := sset [] k.dq i (sget [] k.dq i ++ [w]) })
  | .link i w => modCore s c (fun k => { k with link := sset [] k.link i (sget [] k.link i ++ [w]) })
  | .chan ch m => modCore s c (fun k => { k with chans := sset [] k.chans ch (sget [] k.chans ch ++ [m]) })
  | .held ch a => answerCredit s c ch a
  | .cmdHeld a => answerCmd s c a
  | .cmd st => modCore s c (fun k => { k with cmdQ := k.cmdQ ++ [st] })
  | .share sh => modCore s c (fun k => { k with shareQ := k.shareQ ++ [sh] })
  | .atom n a => modSlotAt s c n (fun l => { l with atom := some a })

/-! ## Save (R246) -/

/-- Whether a core being saved has finished its press, copies, engines, posted stores, steals and atomics (R246, steps 3
and 4; R278): no operation in flight is left, also where its slot stands elsewhere (assumption 103). So none completes after the
restore (R256, Table 19.4). -/
def saveDrained (s : State) (c : Nat) : Bool :=
  let k := getCore s c
  k.pressEnd.isNone && k.pressRun.isNone && k.pressWait.isNone && !pgrpOut s c && k.copies.isEmpty && k.accOps.isEmpty &&
  k.seamBusy.isEmpty && k.psb.all (heldAtTarget s) && k.landings == 0 &&
  k.slots.all (fun e => match e.2.atom with | some a => a.ans != .pending | none => true)

/-- Whether the grant that answers a core's request is on its way: such a request is outstanding until it arrives (R97, R98). -/
def creditOnWay (s : State) (c t ch : Nat) : Bool :=
  s.net.any (fun p => match p.body with | .creditGrant a u h _ => a == c && u == t && h == ch | _ => false)

/-- `creditOnWay` for a grant of PCMD places (R203). -/
def cmdOnWay (s : State) (c t : Nat) : Bool :=
  s.net.any (fun p => match p.body with | .cmdGrant a u _ => a == c && u == t | _ => false)

/-- The core's own credit requests that are not granted yet are abandoned, wherever they are, also where another saved core has
spilled them; credits for remote presses go back (R98, R246, step 5). -/
def dropRequests (s : State) (c : Nat) : State :=
  let s1 := { s with net := s.net.filter (fun p => match p.body with
    | .creditReq _ _ a => a != c
    | .cmdReq _ a => a != c
    | _ => true) }
  let s2 := mapCores s1 (fun _ k => { k with chHeld := k.chHeld.filterMap (fun (e : Nat × List Nat) =>
    let r := e.2.filter (· != c)
    if r.isEmpty then none else some (e.1, r)), cmdHeld := k.cmdHeld.filter (· != c) })
  let s3 := s2.parts.foldl (fun s (e : Nat × Partition) => modPart s e.1 (fun t => { t with hamper := t.hamper.filter (fun p =>
    match p.body with
    | .creditReq _ _ a | .spill _ (.held _ a) => a != c
    | .cmdReq _ a | .spill _ (.cmdHeld a) => a != c
    | _ => true) })) s2
  let s4 := (getCore s3 c).pressCr.foldl (fun s e => if e.2 = 0 then s else sendFrom s c 0 0 (.cmdReturn e.1 e.2)) s3
  modCore s4 c (fun k => { k with
    creditAsked := k.creditAsked.filter (fun e => creditOnWay s c e.1 e.2), pressAsked := k.pressAsked.filter (cmdOnWay s c),
    pressCr := [] })

/-- A saved core keeps no held values, walks, fills, views, L1 lines or translations (R246, R248). -/
def Core.forget (k : Core) : Core :=
  { k.mapSlots (fun _ l => { l with hold := none, walkFaults := [], gathered := [] }) with
    walks := [], fills := [], leaseAt := [], view := [], viewAsk := [], viewNeed := [], l1 := [], l1Gone := [], utlb := [],
    missed := [] }

/-- Whether the node a core works for still runs. -/
def nodeRuns (s : State) (c : Nat) : Bool :=
  match taskNode s c with
  | some (_, n) => n.st == .running
  | none => false

/-- Whether the node of a core's part is over before the part is (R239, R247): SAVE_CANCEL ends the save then. -/
def cancelled (s : State) (c : Nat) : Bool := (getCore s c).task.isSome && !nodeRuns s c

/-- The drained core spills its structures, writes its image and is saved: its unit is free, and its claims hold nobody back (R89,
R246, R248, R254). The image is the core as it stands then, so what the writes of the image do to monitors of the core itself is seen at
the restore (R41, R88; assumption 92). An uncorrectable word that it reads counts on its row, and is so after the restore (R236). Lines
of the area without a writable translation are not written, and the core counts as saved all the same (assumption 73). -/
def finishSave (s : State) (c : Nat) : State :=
  match partOf s c with
  | none => s
  | some p =>
    let s0 := dropRequests s c
    let s1 := if (getCore s c).spBad.isEmpty then s0 else rowError s0 c
    let s2 := spillOut s1 c
    let s3 := modCore s2 c (fun k => { k.forget with save := .saved })
    let s4 := vwriteLines s3 p c (saveAreaOf (getPart s p) c) (imageBytes (getCore s2 c) (getCore s0 c).spillCounts)
      (imageSize / 64)
    let s5 := tracePost s4 c 0 6 0 (getSlot s c 0).pc
    let s6 := wakeFreed s5 (((getCore s c).claims c).map (fun e => e.2.2))
    if (getCore s c).spin then wakeRows s6 (dieOf (pcnOf s c)) else s6

/-- PREEMPT (R206, R246, R248): the request takes the core out of issue at its next rotation; once the drains are done the
image is written. A request to a core being saved, or saved, changes nothing else. The mesh interrupt message is none of the messages
that R255 stamps (assumption 31). -/
def execPreempt (c : Nat) (s : State) : Out :=
  let k := getCore s c
  .next (match k.save with
    | .no => modCore s c (fun k => { k with preReq := true })
    | .saving => if saveDrained s c && !cancelled s c then finishSave s c else s
    | .saved => s)

/-! ## Hamper entries (R98, R247, R250) -/

/-- A window store that finds its place taken goes on being held at its target, ahead of what its sender posted later and behind
what is held so already (R131, R132, R250). -/
def holdStore (s : State) (p : Packet) (t u a : Nat) (d : List Byte) : State :=
  modCore s p.src (fun k =>
    let first := k.psb.takeWhile (fun e => e.id == 0)
    { k with psb := first ++ { id := 0, slot := p.slot, sp := .win t u, addr := a, data := d, rel := false, red := none,
                               comp := none } :: k.psb.drop first.length })

/-- Whether a hamper entry finds no place at its restored core yet: a share or a forward, also one behind an earlier one of its order
(R204, R250, R332). -/
def waitsAgain (s : State) (before : List Packet) (p : Packet) : Bool :=
  match p.body with
  | .share t h => before.any (sameShares p) || !(h.outside || h.count == 0 || (getCore s t).takesShare h)
  | .forward t f => before.any (sameForwards p) || !(getCore s t).takesForward f
  | _ => false

/-- Apply a hamper entry at a restored core that has a place for it (R250). A window store that finds its place taken waits at its
target again. -/
def applyEntry (s : State) (p : Packet) : State :=
  match p.body with
  | .msg t ch pay w => if (getCore s t).allEmpty then freeCredit s t ch else putMessage s t ch pay w p.src
  | .creditReq t ch a => answerCredit s t ch a
  | .creditReturn t ch n => freeCredits s t ch n
  | .cmdReq t a => answerCmd s t a
  | .cmdReturn t n => freeCmds s t n
  | .reply t b pay => putReply s t b pay
  | .linkWord t d w => putLink s t d w
  | .linkCredit t d => putLinkCredit s t d
  | .share t h => putShare s t h
  | .shareReport t r k f => putReport s t r k f
  | .pcmd t st => modCore s t (fun k => { k with cmdQ := k.cmdQ ++ [st] })
  | .countInc t a n => countUp s t a n
  | .forward t f => putForward s t f
  | .winWrite t u a d fill =>
    if u = 0 then engineWrite s t a d fill
    else if u = 4 then
      if sget false (getCore s t).mbFull (a / 64) then holdStore s p t u a d
      else fillMailbox (modCore s t (fun k => { k with mbRel := sdel k.mbRel (a / 64) })) t (a / 64)
        (BitVec.ofNat 256 (leNat (d.take 32)))
    else if (getCore s t).winBusy u a d.length then holdStore s p t u a d
    else winWrite s t u a d
  | .spill t x => refill s t x
  | _ => s

/-- A hamper entry reaches its restored core, with the receipt rule (R250, R255); what finds no place joins those that wait. -/
def deliver (a : State × List Packet) (p : Packet) : State × List Packet :=
  let s := modCore a.1 p.body.target (fun k => { k with lamport := lamMax k.lamport p.lam })
  if waitsAgain s a.2 p then (s, a.2 ++ [p]) else (applyEntry s p, a.2)

/-- Hamper entries are applied in order; those that wait do so in the mesh, ahead of what their senders sent later (R250, step 3; R256,
Table 19.4: two messages of one sender to one channel never change places). -/
def deliverAll (s : State) (ps : List Packet) : State :=
  let r := ps.foldl deliver (s, [])
  { r.1 with net := r.2 ++ r.1.net }

/-- Entries of the hamper for a core, taken out of it. -/
def takeHamper (s : State) (p c : Nat) : List Packet × State :=
  ((getPart s p).hamper.filter (fun e => e.body.target == c),
   modPart s p (fun t => { t with hamper := t.hamper.filter (fun e => e.body.target != c) }))

/-- Drop a hamper entry of a cancelled save: a credit or a request that it carries is not lost (assumption 18). -/
def dropEntry (s : State) (p : Packet) : State :=
  match p.body with
  | .msg t ch _ _ => freeCredit s t ch
  | .creditReq t ch a => answerCredit s t ch a
  | .creditReturn t ch n => freeCredits s t ch n
  | .cmdReq t a => answerCmd s t a
  | .cmdReturn t n => freeCmds s t n
  | .linkCredit t d => putLinkCredit s t d
  | .linkWord t d _ => match neighbour t d with
    | some n => sendFrom s t 0 0 (.linkCredit n d.flip)
    | none => s
  | .pcmd t st => sendFrom s t 0 0 (.cmdBack st.issuer t)
  | .spill t x =>
    match x with
    | .link i _ =>
      let d : Dir := if i = 0 then .east else .west
      match neighbour t d with
      | some n => sendFrom s t 0 0 (.linkCredit n d.flip)
      | none => s
    | .chan ch _ => freeCredit s t ch
    | .held ch a => answerCredit s t ch a
    | .cmdHeld a => answerCmd s t a
    | .cmd st => sendFrom s t 0 0 (.cmdBack st.issuer t)
    | .queue _ _ | .share _ | .atom _ _ => s
  | _ => s

/-- The entries of a core out of the hamper, what it spilled first and each part in its order (R89, R250, R256). -/
def inOrder (ps : List Packet) : List Packet :=
  let own := fun (p : Packet) => match p.body with | .spill _ _ => true | _ => false
  ps.filter own ++ ps.filter (fun p => !own p)

/-- SAVE_CANCEL (R247): the node of a core that is being saved, or is saved, is over; the save ends, the image and the
core's hamper entries are dropped, and its part ends. -/
def execSaveCancel (c : Nat) (s : State) : Out :=
  let k := getCore s c
  .next (match partOf s c with
    | none => s
    | some p =>
      if !k.away || !cancelled s c then s
      else
        let h := takeHamper s p c
        let s1 := modCore h.2 c (fun k => { k with save := .no, missed := [], preReq := false })
        let s2 := modPart s1 p (fun t => { t with moves := t.moves.filter (fun m => m.1 != c) })
        let s3 := h.1.foldl dropEntry s2
        if k.ended then s3 else endPart s3 c)

/-! ## Restore (R85, R90, R91, R250) -/

/-- Doubleword at an offset of the image. -/
def imgAt (img : List Byte) (o : Nat) : W64 := BitVec.ofNat 64 (dwordAt (img.drop o) 0)

/-- The numbers of an open part of the image: those that were saved, where its encoding is unchanged (assumption 17). -/
def contextFrom (part : Nat) (old : List Nat) (w : W64) : List Nat :=
  if Config.contextBits part old == w then old else Config.contextOf part w

/-- A frame from its start and its numbers; its words are fetched anew (R90). -/
def frameFrom (start : VA) : List Nat → Option Frame
  | len :: count :: rep :: sd :: sa :: sb :: sx :: _ =>
    some { start := start, len := len, count := count, rep := rep, sd := sd, sa := sa, sb := sb, sx := sx, words := [],
           again := true }
  | _ => none

/-- A monitor entry from its numbers. -/
def monFrom : List Nat → Option Mon
  | sc :: line :: hit :: _ => some { scratch := sc == 1, line := line, hit := hit == 1 }
  | _ => none

/-- A park and its wake conditions from their numbers; a park on a resource issues its instruction again in any case (R44). -/
def parkFrom (old : Option Park) : List Nat → Option (Park × Option (Nat × Nat))
  | 0 :: n :: d :: w :: _ => some (.park (BitVec.toFin (BitVec.ofNat 5 d)) n, if w = 0 then none else some ((w - 1) % 8, (w - 1) / 8))
  | 1 :: e :: _ =>
    let r := match old with | some (.res r _) => r | _ => .engine noCore
    some (.res r (if e = 0 then none else some (e - 1)), none)
  | _ => none

/-- A slot's state from its numbers, the handler mark aside. -/
def Slot.lifeFrom (l : Slot) : List Nat → Slot
  | 0 :: _ => { l with st := .empty, wake := none }
  | 2 :: p => match parkFrom l.park? p with
    | some (x, w) => { l with st := .parked x, wake := w }
    | none => { l with st := .runnable, wake := none }
  | 3 :: p => match parkFrom l.park? p with
    | some (x, w) => { l with st := .stopped (some x), wake := w }
    | none => { l with st := .stopped none, wake := none }
  | _ => { l with st := .runnable, wake := none }

/-- A slot's state from its numbers. -/
def Slot.stateFrom (l : Slot) : List Nat → Slot
  | h :: r => { l.lifeFrom r with inHandler := h == 1 }
  | [] => l.lifeFrom []

/-- A claim entry from the image: the resource stays the saved one where its encoding is unchanged. An entry that software has
added counts as the oldest arrival (R230; assumption 74). -/
def claimFrom (img : List Byte) (o : Nat) (old : Option Claim) : Option Claim :=
  let w := imgAt img o
  let id := imgAt img (o + 8)
  if bitOf w 63 then
    let res := match old with
      | some c => if Config.resourceId c.res == id then c.res else Config.resourceOf id
      | none => Config.resourceOf id
    some { pc := BitVec.ofNat 48 (bitsOf w 47 0), res := res, ticket := BitVec.ofNat 32 (bitsOf (imgAt img (o + 16)) 31 0),
           age := bitsOf w 62 52, cause := BitVec.ofNat 4 (bitsOf w 51 48), stamp := (old.map (·.stamp)).getD 0 }
  else none

/-- A slot from its image (Table 5.6). -/
def slotFrom (img : List Byte) (l : Slot) : Slot :=
  let st := imgAt img 0
  let l1 := (List.range 172).foldl (fun l i => putSlotDword l i (imgAt img (8 * i))) l
  let mm := imgAt img 0x580
  let l2 : Slot := { l1 with
    nr := bitOf st 0, ncause := BitVec.ofNat 4 (bitsOf st 7 4), sys := bitOf st 8, pc := (imgAt img 0x500).setWidth 48,
    epc := (imgAt img 0x560).setWidth 48, ecause := imgAt img 0x568 &&& 0x1F1F, evec := (imgAt img 0x570).setWidth 48,
    msgvec := (imgAt img 0x578).setWidth 48, msgEn := mm.setWidth 8, msgMasked := bitOf mm 8, msgLeft := bitsOf mm 17 9,
    pfmt := (imgAt img 0x588).setWidth 3, pgam := (imgAt img 0x590).setWidth 32, rnd := (imgAt img 0x598).setWidth 2,
    claims := [0, 1, 2, 3].map (fun i => claimFrom img (0x5A0 + 24 * i) (l.claims.getD i none)),
    frame := frameFrom ((imgAt img 0x600).setWidth 48) (contextFrom 0 l.frameNums (imgAt img 0x608)),
    mons := [0, 1, 2, 3].foldl (fun m e =>
      sset none m e (monFrom (contextFrom 1 (l.monNums e) (imgAt img (0x610 + 8 * e))))) [] }
  l2.stateFrom (contextFrom 2 l.stateNums (imgAt img 0x630))

/-- Credit entries from the image, by recency rank; entries of equal rank stay in their order (Table 6.4; assumption 85). -/
def creditsFrom (img : List Byte) : List CreditEntry :=
  let all := (List.range 8).filterMap (fun n =>
    let w := imgAt img (0x1B6E0 + 8 * n)
    if bitOf w 63 then some (bitsOf w 21 19, ({ tgt := bitsOf w 15 0, ch := bitsOf w 18 16, n := bitsOf w 57 56 } : CreditEntry))
    else none)
  (List.range 8).flatMap (fun r => (all.filter (fun e => e.1 == r)).map (·.2))

/-- A branch-outcome queue from its word; an occupancy above the queue's 32 entries counts as 32 (assumption 85). -/
def boqFrom (w : W64) : List Bool := (List.range (min (bitsOf w 37 32) 32)).map (fun i => bitOf w i)

/-- A core from its image (Tables 5.5 to 5.7). Fields that an edited image holds out of their ranges are loaded as they stand
(assumption 85). The clock, which goes on while the core is saved, does not fall (R255; assumption 85). -/
def coreFrom (img : List Byte) (k : Core) : Core :=
  let b := fun o => imgAt img (0x1B600 + o)
  let dq := contextFrom 3 [k.dqHead, k.dqTail] (b 0x18)
  { k with
    sp := ssetRange 0 [] 0 (img.take 65536),
    fe := ssetRange false [] 0 ((List.range 8192).map (fun w => (img.getD (0x10000 + w / 8) 0).toNat / 2 ^ (w % 8) % 2 == 1)),
    acc := ssetRange 0 [] 0 ((List.range 8192).map (fun e => BitVec.ofNat 32 (leNat ((img.drop (0x10400 + 4 * e)).take 4)))),
    slots := slotNums.map (fun n => (n, slotFrom ((img.drop (0x18400 + 0x640 * n)).take 0x640) (k.slot n))),
    dqHead := dq.getD 0 0, dqTail := dq.getD 1 0,
    autosoak := bitOf (b 0) 1, spin := false, gearEff := false,
    lamport := if (b 8).toNat < k.lamport.toNat then k.lamport else b 8, vents := (b 16).setWidth 32,
    bq := sset [] (sset [] [] 0 (boqFrom (b 0x20))) 1 (boqFrom (b 0x28)),
    shadow := [0, 1, 2, 3].foldl (fun m i => sset 0 m i (b (0x30 + 8 * i))) [],
    mbFull := [0, 1, 2, 3].foldl (fun m i => sset false m i (bitOf (b 0x50) i)) [],
    mb := [0, 1, 2, 3].foldl (fun m i => sset 0 m i (BitVec.ofNat 256 (leNat ((img.drop (0x1B660 + 32 * i)).take 32)))) [],
    credits := creditsFrom img, creditTick := (b 0x120).setWidth 32,
    linkCr := sset 2 (sset 2 [] 0 (bitsOf (b 0x128) 3 2)) 1 (bitsOf (b 0x128) 1 0),
    chFree := slotNums.foldl (fun m c => sset 4 m c (bitsOf (b 0x130) (3 * c + 2) (3 * c))) [] }

/-- A slot resumes (R44): parked by PARK it wakes with reason 4, parked by `nr` = park it issues again. -/
def Slot.resume (l : Slot) (cyc : Nat) : Slot :=
  match l.park? with
  | some (.park _ _) => l.wakeBy 4 cyc
  | some (.res _ _) => l.wakeBy 7 cyc
  | none => l

/-- The monitors of a restored slot take note of the device lines that were written while its core was saved, so that no hit is lost
(R41, R42; assumption 92). A slot parked by PARK wakes in any case (R44). -/
def Slot.seeMissed (l : Slot) (lines : List Nat) : Slot :=
  match l.park? with
  | some (.park _ _) => l
  | _ => { l with mons := l.mons.map (fun (e : Nat × Option Mon) =>
      (e.1, e.2.map (fun m => { m with hit := m.hit || (!m.scratch && lines.contains m.line) }))) }

/-- A core's record of a barrier as its home gives it: phase count, and own arrivals with those of its node still on their way (R306). -/
def rereadBar (s : State) (c : Nat) (t : Task) (b : BarInst) (ms : List Nat) : BarRec :=
  let fly := (s.net.filter (fun x => x.src == c && (match x.body with
    | .barArrive _ h q m _ _ r => h == b.handle && q == t.q && m == b.node && !r
    | _ => false))).length
  { group := b.group, handle := b.handle, p := b.p, own := sget 0 b.arr ((ms.findIdx? (· == c)).getD 0) + fly }

/-- Barrier records are read again from the homes, for every group the core holds (R306). An arrival whose notice is on its way is
counted at the home, so the notice adds none. -/
def rereadBars (s : State) (p c : Nat) : State :=
  match (getCore s c).task with
  | none => s
  | some t =>
    let insts := (getPart s p).bars.filter (fun b => b.q == t.q && b.node == t.node && t.groups.contains b.group)
    let recs := insts.filterMap (fun b => (barInst s p b.handle t.q t.node b.group).map (fun e => rereadBar s c t e.1 e.2))
    let quiet := fun (x : Packet) => match x.body with
      | .barNotice y q m g h n a => { x with body := .barNotice y q m g h n (if y = c then 0 else a) }
      | _ => x
    modCore { s with net := s.net.map quiet } c (fun k => { k with
      bars := recs ++ k.bars.filter (fun b => !recs.any (fun r => r.group == b.group)) })

/-- A vent's restore moves the core to its target (R91, R233): the two table entries change places, `vents` counts one more,
and the vacated core is no target until it has cooled. No other event changes the table (assumption 71). -/
def moveCore (s : State) (p c : Nat) : State :=
  match (getPart s p).moves.find? (fun m => m.1 == c) with
  | none => s
  | some (_, dest) =>
    let old := pcnOf s c
    let t := getPart s p
    let other := (t.bays.flatMap (fun b => (List.range 256).map (fun i => 256 * b + i))).find? (fun x => pcnOf s x == dest)
    let set := fun (m : Sparse Nat) (l v : Nat) => if v = l then sdel m l else sput m l v
    let pcn1 := set t.pcn c dest
    let pcn2 := match other with | some x => set pcn1 x old | none => pcn1
    let s1 := modPart s p (fun t => { t with pcn := pcn2, moves := t.moves.filter (fun m => m.1 != c) })
    modCore { s1 with barred := s1.barred ++ [old] } c (fun k => { k with vents := k.vents + 1 })

/-- A restore request for SPIN (R91). -/
def askRestore (s : State) (c : Nat) : State :=
  let r : Resource := .row (coreRow s c)
  let t := drawTicket s r
  modCore t.2 c (fun k => { k with
    restoreReq := some { pc := 0, res := r, ticket := t.1, age := 0, cause := Cause.admission.code, stamp := s.cycle } })

/-- The restore request of a core after its image is loaded (R91): one that stood at the save goes on, drawn anew where a vent has
changed the row (assumption 69); the image's `gear.spin` opens one, which takes the place of one that stands (assumption 86). -/
def requestSpin (s : State) (c : Nat) (spin : Bool) : State :=
  let moved := match (getCore s c).restoreReq with
    | some r => r.res != .row (coreRow s c)
    | none => false
  if spin || moved then askRestore s c else s

/-- RESTORE (R250): the image is loaded, the structures are refilled from the hamper, diverted arrivals are applied in order, claims
become active, and slots resume. Without a readable image the core stays saved; one with poisoned lines is loaded as it reads
(assumption 84). A core whose node is over is not restored (R247). -/
def execRestore (c : Nat) (s : State) : Out :=
  let k := getCore s c
  .next (match partOf s c with
    | none => s
    | some p =>
      if k.save != .saved || cancelled s c then s
      else match vreadLines s p (saveAreaOf (getPart s p) c) (imageSize / 64) with
        | none => s
        | some (img, _) =>
          let s1 := setCore s c (coreFrom img k)
          let s2 := moveCore s1 p c
          let s3 := requestSpin s2 c (bitOf (imgAt img 0x1B600) 0)
          let h := takeHamper s3 p c
          let s5 := deliverAll (modCore h.2 c (fun k => { k with save := .no, preReq := false })) (inOrder h.1)
          let s6 := rereadBars s5 p c
          let s7 := modCore s6 c (fun k => { k.mapSlots (fun _ l => (l.seeMissed k.missed).resume k.cyc) with missed := [] })
          let s8 := tracePost s7 c 0 7 0 (getSlot s7 c 0).pc
          wakeWhere s8 (fun r => match r with | .line (.win x _) _ => x == c | _ => false))

end Sys2Proof.Machine
end

