-- ==== Sys2Proof/Machine/Task.lean ====
section
/-! DEFINITION. Launches and tasks: major 0x38, the scheduler's intake, placement, completion and faults of nodes (R114 to R127,
R164, R175, R239, R296, R314, R379). -/

namespace Sys2Proof.Machine

/-! ## LAUNCH and DONE -/

/-- LAUNCH (R117, R314): the address enters the intake with the core's Lamport value, behind the slot's posted work. -/
def execLaunch (d a : SReg) (nr : Disp) (s : State) : Out :=
  let v := rdS s a
  let p := curPart s
  let t := getPart s p
  let res : Resource := .intake p
  .next (if v.toNat % 64 ≠ 0 then raise s .align
    else if 64 ≤ t.intake.length ∨ heldBack s res = true then notReady s nr .qfull res
    else timing s nr true (
      let lam := (cur s).lamport + 1
      let e : IntakeEnt := { addr := bitsOf v 47 0, q := t.seq, lam := lam, src := some (s.curCore, s.curSlot, postMark s) }
      let s1 := modPart s p (fun t => { t with intake := t.intake ++ [e], seq := (t.seq + 1) % 2 ^ 32 })
      let s2 := modCur s1 (fun k => { k with lamport := lam })
      readyNext (dropHold (wrS s2 d (BitVec.ofNat 64 t.seq)))))

/-- DONE (R296): in system mode the node faults with cause code 15 (R127); else it is ready (R28). -/
def execDone (s : State) : Out :=
  .next (if (slot s).sys then nodeFaultAt s s.curCore s.curSlot 15 else endPart (ready s) s.curCore)

/-! ## Reading a launch record (R115, R116, R118, R164) -/

/-- Whole lines at a device address; a line that is poisoned or uncorrectable counts as one that cannot be read (assumption 88). -/
def readSound (s : State) (p va n : Nat) : Option (List Byte) :=
  match vreadLines s p va n with
  | some (d, false) => some d
  | _ => none

/-- A node record (Table 7.2); none breaks a limit. `n` is the node count, `g` the group count. A successor index that names no node
breaks one (assumption 88). -/
def parseNode (d : List Byte) (va n g : Nat) : Option Node :=
  let w := fun i => dwordAt d i
  let succ := natBits (w 0) 31 28
  let succs := (List.range succ).map (fun i => natBits (w 6) (8 * i + 7) (8 * i))
  if 8 < succ ∨ g ≤ natBits (w 0) 47 40 ∨ succs.any (fun j => decide (n ≤ j)) = true ∨ natBits (w 1) 1 0 ≠ 0 ∨
     992 < natBits (w 7) 58 48 ∨ natBits (w 7) 5 0 ≠ 0 then none
  else some {
    group := natBits (w 0) 47 40, deps := natBits (w 0) 39 32, succs := succs, mask := natBits (w 0) 7 0,
    text := natBits (w 1) 47 0,
    entries := (List.range 8).map (fun k => natBits (w (2 + k / 2)) (32 * (k % 2) + 31) (32 * (k % 2))),
    imgLen := natBits (w 7) 58 48, imgAddr := natBits (w 7) 47 0, args := va + 64, st := .waiting, since := 0,
    starved := false, cores := [], order := 0, signals := [], placed := (0, 0), fin := (0, 0), by_ := 0, fault := none,
    search := 0, failed := 0, written := false }

/-- All node records of a launch. -/
def parseNodes (s : State) (p addr n g : Nat) : Nat → Option (List Node)
  | 0 => some []
  | m + 1 =>
    let va := addr + 64 + 128 * (n - (m + 1))
    match readSound s p va 2, parseNodes s p addr n g m with
    | some d, some r => (parseNode d va n g).map (fun x => x :: r)
    | _, _ => none

/-- A group rectangle (Table 7.3). -/
def parseRect (w : Nat) : Rect :=
  { col := natBits w 5 0, line := natBits w 25 16, width := natBits w 32 26, height := natBits w 42 33 }

/-- Whether a rectangle keeps its limits and fits the grid (R57, R118). -/
def Rect.ok (r : Rect) : Bool :=
  decide (1 ≤ r.height ∧ r.height ≤ 640 ∧ 1 ≤ r.width ∧ r.width ≤ 64 ∧ r.col + r.width ≤ 64 ∧
    r.line + r.height ≤ 640)

/-- Whether two rectangles overlap. -/
def Rect.meets (a b : Rect) : Bool :=
  decide (a.col < b.col + b.width ∧ b.col < a.col + a.width ∧ a.line < b.line + b.height ∧ b.line < a.line + a.height)

/-- Positions of a rectangle. -/
def Rect.positions (r : Rect) : List Nat :=
  (List.range r.height).flatMap (fun i => (List.range r.width).map (fun j => 64 * (r.line + i) + r.col + j))

/-- A group-table entry; none breaks a rule of R118. -/
def parseGroup (d : List Byte) : Option (List Rect) :=
  let ws := (List.range 4).map (dwordAt d)
  let rs := (ws.filter (fun w => natBits w 63 63 == 1)).map parseRect
  if natBits (ws.headD 0) 63 63 = 0 ∨ rs.all Rect.ok = false then none
  else if rs.zipIdx.any (fun a => rs.zipIdx.any (fun b => decide (a.2 < b.2) && a.1.meets b.1)) then none
  else some rs

/-- Entries of `w` bytes out of a byte string, each read by `f`. -/
def parseAll {α : Type} (f : List Byte → Option α) (w : Nat) : Nat → List Byte → Option (List α)
  | 0, _ => some []
  | n + 1, d =>
    match f (d.take w), parseAll f w n (d.drop w) with
    | some x, some r => some (x :: r)
    | _, _ => none

/-- No core position lies in more than four groups (R118). -/
def groupsOk (gs : List (List Rect)) : Bool :=
  gs.all (fun g => (g.flatMap Rect.positions).all (fun p => decide ((gs.filter (fun h => h.any (·.covers p))).length ≤ 4)))

/-- Physical pages of `n` virtual pages from page `v` on, each with a valid leaf onto device memory (R164). -/
def regionPages (s : State) (p v : Nat) : Nat → Option (Sparse Nat)
  | 0 => some []
  | n + 1 =>
    match walkTables s p (v * 4096) with
    | .ok e _ => if e.tgt == .dev then (regionPages s p (v + 1) n).map (fun r => (v, e.phys (v * 4096) / 4096) :: r) else none
    | _ => none

/-- A region-table entry (Table 11.1); none breaks a rule of R164. -/
def parseRegion (s : State) (p : Nat) (d : List Byte) : Option Region :=
  let w0 := dwordAt d 0
  let w1 := dwordAt d 1
  let base := natBits w0 47 6 * 64
  let len := natBits w1 41 0
  if natBits w0 5 4 = 3 ∨ len = 0 ∨ viewBit base = true ∨ base / 2 ^ 46 ≠ (base + 64 * len - 1) / 2 ^ 46 then none
  else (regionPages s p (base / 4096) ((base + 64 * len - 1) / 4096 + 1 - base / 4096)).map (fun pages =>
    { base := base, lines := len, mode := natBits w0 5 4, r := natBits w0 0 0 == 1, w := natBits w0 1 1 == 1,
      sub := natBits w1 59 48, pages := pages, counter := 0, iron := .rest, lost := false })

/-- Lines of a region on a virtual page, counted from the page's start: first, and one past the last. -/
def Region.span (r : Region) (v : Nat) : Nat × Nat :=
  (max (r.base / 64) (64 * v) - 64 * v, min (r.base / 64 + r.lines) (64 * v + 64) - 64 * v)

/-- Whether two regions share a line. -/
def Region.shares (a b : Region) : Bool :=
  a.pages.any (fun x => b.pages.any (fun y => x.2 == y.2 &&
    decide ((a.span x.1).1 < (b.span y.1).2 ∧ (b.span y.1).1 < (a.span x.1).2)))

/-- Regions share no line among themselves or with a live launch's (R164). -/
def regionsOk (t : Partition) (rs : List Region) : Bool :=
  rs.zipIdx.all (fun a => rs.zipIdx.all (fun b => decide (b.2 ≤ a.2) || !a.1.shares b.1)) &&
  rs.all (fun a => t.launches.all (fun l => !l.live || l.regions.all (fun b => !a.shares b)))

/-- Each node's dependency count is the number of times it is named as a successor (R116). -/
def depsOk (ns : List Node) : Bool :=
  ns.zipIdx.all (fun e => e.1.deps == ((ns.flatMap (·.succs)).filter (fun j => j == e.2)).length)

/-- Header fields (Table 7.1). -/
structure Header where
  n : Nat
  prio : Nat
  groups : Nat
  gaddr : Nat
  regions : Nat
  raddr : Nat
  comp : Nat
  watchdog : Nat
  tag : Nat
deriving DecidableEq, Repr

/-- Read the fields. -/
def parseHeader (d : List Byte) : Header :=
  { n := natBits (dwordAt d 0) 40 32, prio := natBits (dwordAt d 0) 1 0, groups := natBits (dwordAt d 1) 56 48,
    gaddr := natBits (dwordAt d 1) 47 0, regions := natBits (dwordAt d 2) 58 48, raddr := natBits (dwordAt d 2) 47 0,
    comp := natBits (dwordAt d 3) 47 0, watchdog := natBits (dwordAt d 4) 31 0, tag := dwordAt d 5 }

/-- Limits of the header itself. -/
def Header.ok (h : Header) : Bool :=
  decide (1 ≤ h.n ∧ h.n ≤ 256 ∧ h.prio ≤ 2 ∧ 1 ≤ h.groups ∧ h.groups ≤ 256 ∧ h.regions ≤ 1024 ∧ h.gaddr % 64 = 0 ∧
    h.raddr % 64 = 0 ∧ h.comp % 64 = 0)

/-- The launch a record describes; none is refused (R116). -/
def readLaunch (s : State) (p q addr : Nat) (h : Header) : Option Launch :=
  let t := getPart s p
  if !h.ok || !t.committed || (h.tag != 0 && t.launches.any (fun l => l.live && l.tag.toNat == h.tag)) then none
  else match parseNodes s p addr h.n h.groups h.n,
      (readSound s p h.gaddr ((32 * h.groups + 63) / 64)).bind (parseAll parseGroup 32 h.groups),
      (readSound s p h.raddr ((16 * h.regions + 63) / 64)).bind (parseAll (parseRegion s p) 16 h.regions) with
    | some ns, some gs, some rs =>
      if depsOk ns && groupsOk gs && regionsOk t rs then
        some { q := q, addr := addr, prio := h.prio, tag := BitVec.ofNat 64 h.tag, watchdog := h.watchdog, comp := h.comp,
               groups := gs, nodes := ns.map (fun n => if n.deps = 0 then { n with st := .ready, since := s.cycle } else n),
               regions := rs, enq := (s.cycle, t.lamport), begun := false, live := true }
      else none
    | _, _, _ => none

/-! ## Completion records (R126) -/

/-- A completion record's bytes. -/
def recordBytes (status index cause slot_ lcn : Nat) (enq placed fin : Nat × W64) (w7 : Nat) : List Byte :=
  toBytes 8 (status * 2 ^ 56 + index * 2 ^ 48 + cause * 2 ^ 32 + slot_ * 2 ^ 16 + lcn) ++
  toBytes 8 enq.1 ++ toBytes 8 enq.2.toNat ++ toBytes 8 placed.1 ++ toBytes 8 placed.2.toNat ++
  toBytes 8 fin.1 ++ toBytes 8 fin.2.toNat ++ toBytes 8 w7

/-- Saturation to 32 bits. -/
def cap32 (v : Nat) : Nat := min v (2 ^ 32 - 1)

/-- The record of node `i` of a launch. -/
def nodeRecord (l : Launch) (i : Nat) (n : Node) : List Byte :=
  let w7 := cap32 n.search * 2 ^ 32 + cap32 n.failed
  let f := n.fault.getD (0, 0, 0)
  match n.st with
  | .done => recordBytes 1 i 0 0 0 l.enq n.placed n.fin w7
  | .cancelled => recordBytes 2 n.by_ 0 0 0 l.enq (0, 0) n.fin 0
  | .watchdog => recordBytes 4 i 0 0 0 l.enq n.placed n.fin w7
  | _ => recordBytes 3 i f.2.2 f.1 f.2.1 l.enq n.placed n.fin w7

/-- Whether a node has come to its end. -/
def Node.over (n : Node) : Bool :=
  match n.st with
  | .done | .cancelled | .faulted | .watchdog => true
  | _ => false

/-- Whether every core of a placed node has sent its completion signal (R125). -/
def Node.signalled (n : Node) : Bool := n.cores.all (fun c => n.signals.contains c)

/-- Every node is over, and the parts of placed ones have ended and drained (R379). -/
def Launch.drained (l : Launch) : Bool := l.nodes.all (fun n => n.over && n.signalled)

/-- Change one launch. -/
def modLaunch (s : State) (p q : Nat) (f : Launch → Launch) : State :=
  modPart s p (fun t => { t with launches := t.launches.map (fun (l : Launch) => if l.q = q ∧ l.live = true then f l else l) })

/-- Change one node. -/
def modNode (s : State) (p q i : Nat) (f : Node → Node) : State :=
  modLaunch s p q (fun l => { l with nodes := l.nodes.zipIdx.map (fun e => if e.2 = i then f e.1 else e.1) })

/-- Write the record of a node that is over, unless it is written or a part of it has not drained yet (R127); the last record
waits for every part of the launch, and ends the launch's life (R126, R379). -/
def writeRecord (s : State) (p q i : Nat) : State :=
  match liveLaunch s p q with
  | none => s
  | some l =>
    match l.nodes[i]? with
    | none => s
    | some n =>
      let others := l.nodes.zipIdx.any (fun e => e.2 != i && !e.1.written)
      if !n.over || n.written || !n.signalled || !(others || l.drained) then s
      else
        let s1 := modNode (vwrite s p noCore (l.comp + 64 * i) (nodeRecord l i n)) p q i (fun n => { n with written := true })
        modLaunch s1 p q (fun l => { l with live := l.nodes.any (fun n => !n.written) })

/-! ## The intake (R114, R116, R255) -/

/-- Records with status REFUSED for `n` nodes (R116). -/
def refuseRecords (s : State) (p comp n : Nat) : State :=
  let st := (s.cycle, (getPart s p).lamport)
  (List.range n).foldl (fun s i => vwrite s p noCore (comp + 64 * i) (recordBytes 5 0 0 0 0 st (0, 0) st 0)) s

/-- LAUNCH_INTAKE (R114, R116): the scheduler takes the oldest address, applies the receipt rule, reads the record and queues
the launch, refuses it, or discards it with an event of kind 6. The low bits of a doorbell's address are not read
(assumption 16). -/
def execLaunchIntake (p : Nat) (s : State) : Out :=
  .next (match (getPart s p).intake with
    | [] => s
    | e :: rest =>
      let open_ := match e.src with | some (c, n, m) => (getCore s c).openBefore n m | none => false
      if open_ then s
      else
        let addr := e.addr / 64 * 64
        let s1 := wakeRes (modPart s p (fun t => { t with intake := rest, lamport := lamMax t.lamport e.lam })) (.intake p)
        match readSound s1 p addr 1 with
        | none => raiseEvent s1 p 6 1 e.addr 0
        | some d =>
          let h := parseHeader d
          match readLaunch s1 p e.q addr h with
          | some l => modPart s1 p (fun t => { t with launches := t.launches ++ [l] })
          | none =>
            let s2 := refuseRecords s1 p (h.comp / 64 * 64) (min h.n 256)
            if h.n = 0 then raiseEvent s2 p 6 2 e.addr 0 else if 256 < h.n then raiseEvent s2 p 6 3 e.addr 0 else s2)

/-! ## Faults of nodes (R127) -/

/-- Nodes reached along the successor lists from a set, within `fuel` steps. -/
def reach (l : Launch) : Nat → List Nat → List Nat
  | 0, set => set
  | fuel + 1, set =>
    let next := (set.flatMap (fun i => match l.nodes[i]? with | some n => n.succs | none => [])).filter (fun j => !set.contains j)
    if next.isEmpty then set else reach l fuel (set ++ next.eraseDups)

/-- A node faults (R127): its cores' parts end, the queue of its priority freezes, and error tokens cancel what follows it; its
record follows the drains, and gives the die cycle and the clock at this step as the completion (assumption 89). A saved core
keeps its state until SAVE_CANCEL (R247). -/
def faultNode (s : State) (p q i : Nat) (st : NodeState) (fault : Option (Nat × Nat × Nat)) : State :=
  match liveLaunch s p q with
  | none => s
  | some l =>
    let n := l.nodes[i]?
    let cores := match n with | some n => n.cores.filter (fun c => !n.signals.contains c) | none => []
    let s1 := cores.foldl (fun s c => if (getCore s c).save == .saved || (getCore s c).ended then s else endPart s c) s
    let fin := (s.cycle, (getPart s p).lamport)
    let s2 := modNode s1 p q i (fun n => { n with st := st, fault := fault, fin := fin })
    let s3 := modPart s2 p (fun t =>
      { t with frozen := t.frozen.set l.prio true, bars := t.bars.filter (fun b => !(b.q == q && b.node == i)) })
    let hit := (reach l 256 [i]).filter (fun j => j != i && (match l.nodes[j]? with
      | some n => !n.over && n.st != .running
      | none => false))
    let s4 := hit.foldl (fun s j => modNode s p q j (fun n => { n with st := .cancelled, by_ := i, fin := fin })) s3
    (i :: hit).foldl (fun s j => writeRecord s p q j) s4

/-- Whether a placed node has run past its launch's watchdog at a die cycle (R127). -/
def Launch.overran (l : Launch) (x : Node) (at_ : Nat) : Bool :=
  l.watchdog != 0 && decide (x.placed.1 + cyclesPerUs * l.watchdog < at_)

/-- NODE_FAULT (R127): the scheduler acts on the oldest fault handed to it, for the node that the core worked for at the fault; a
node faults once, by its watchdog where that had run out before the fault. -/
def execNodeFault (p : Nat) (s : State) : Out :=
  .next (match (getPart s p).faults with
    | [] => s
    | f :: rest =>
      let s1 := modPart s p (fun t => { t with faults := rest })
      match f.task with
      | none => s1
      | some (q, i) =>
        match (liveLaunch s1 p q).bind (fun l => (l.nodes[i]?).map (fun n => (l, n))) with
        | some (l, n) =>
          if n.st != .running then s1
          else if l.overran n f.at_ then faultNode s1 p q i .watchdog none
          else faultNode s1 p q i .faulted (some (f.slot, f.core, f.cause))
        | none => s1)

/-- The die cycle up to which a running node has run: with all its signals there, the receipt of the last (R125, R127). -/
def Node.ranTo (n : Node) (cycle : Nat) : Nat := if n.signalled then n.fin.1 else cycle

/-- Whether a fault of a node waits for its scheduler. -/
def faultPending (s : State) (p q n : Nat) : Bool := (getPart s p).faults.any (fun f => f.task == some (q, n))

/-- WATCHDOG_EXPIRY (R127): a node has run longer than its launch's watchdog; an earlier fault of it goes first. -/
def execWatchdogExpiry (p q n : Nat) (s : State) : Out :=
  .next (match liveLaunch s p q with
    | none => s
    | some l =>
      match l.nodes[n]? with
      | none => s
      | some x =>
        if x.st == .running && l.overran x (x.ranTo s.cycle) && !faultPending s p q n then
          faultNode s p q n .watchdog none
        else s)

/-- FREEZE_CLEAR (R127, R257): a 1 in `mask` unfreezes that priority's queue. -/
def execFreezeClear (p : Nat) (mask : BitVec 3) (s : State) : Out :=
  .next (modPart s p (fun t => { t with frozen := t.frozen.zipIdx.map (fun e => e.1 && !mask.getLsbD e.2) }))

/-! ## Placement (R114, R119 to R121) -/

/-- Ready nodes that may be placed, in the scheduler's order: priority, acceptance, node index. A launch begins with its
first placement, and a frozen queue begins none (R114, R127). -/
def readyNodes (t : Partition) : List (Launch × Nat × Node) :=
  [0, 1, 2].flatMap (fun pr =>
    (t.launches.filter (fun l => l.live && l.prio == pr && (l.begun || !t.frozen.getD pr false))).flatMap (fun l =>
      (l.nodes.zipIdx.filter (fun e => e.1.st == .ready)).map (fun e => (l, e.2, e.1))))

/-- Whether the rectangles of a group, taken at a base position, fall on free cores of the partition (R120). The target of a vent
under way is not free, nor is a core that is being saved or is saved (assumption 75). -/
def fits (s : State) (t : Partition) (g : List Rect) (line col : Nat) : Bool :=
  g.all (fun r => decide (col + r.col + r.width ≤ 64 ∧ line + r.line + r.height ≤ 640) &&
    r.positions.all (fun x =>
      let c := 64 * line + col + x
      t.owns c && (getCore s c).task.isNone && !(getCore s c).ended && (getCore s c).save == .no && !t.moves.any (fun m => m.2 == pcnOf s c)))

/-- Hottest junction reading of a physical bay. -/
def bayTemp (s : State) (b : Nat) : Nat := ((s.junction.filter (fun e => bayOf e.1 == b)).map (·.2)).foldl max 0

/-- Headroom of the hottest bay that cores touch, in steps of 5 °C below 105 °C (R120). -/
def headroom (s : State) (cs : List Nat) : Int :=
  let hot := (cs.map (fun c => bayTemp s (bayOf (pcnOf s c)))).foldl max 0
  (105 - (hot : Int)) / 5

/-- Pairs of active voltage rows that touch along a mesh line or across adjacent mesh lines (R120): row v is at line v / 4. -/
def touching (rows : List Nat) : Nat :=
  (rows.map (fun v => (if v % 4 ≠ 3 ∧ rows.contains (v + 1) = true then 1 else 0) +
    (if rows.contains (v + 4) = true then 1 else 0))).foldl (· + ·) 0

/-- Active voltage rows (R120): those of cores that hold a task, one that is saved, or whose part has ended and drains, included
(assumption 118). -/
def activeRows (s : State) : List Nat :=
  ((s.cores.filter (fun (e : Nat × Core) => e.2.task.isSome)).map (fun e => coreRow s e.1)).eraseDups

/-- A candidate base position with its keys of preference. -/
structure Spot where
  base : Nat
  room : Int
  pairs : Nat
deriving DecidableEq, Repr

/-- Order of preference (R120). -/
def Spot.before (a b : Spot) : Bool :=
  decide (b.room < a.room) || (a.room == b.room && (decide (a.pairs < b.pairs) ||
    (a.pairs == b.pairs && decide (a.base < b.base))))

/-- The base position a ready node takes (R120): bay starts, columns 0, 16, 32, 48. -/
def findSpot (s : State) (t : Partition) (g : List Rect) : Option Nat :=
  let at_ := (List.range 160).flatMap (fun b => [0, 16, 32, 48].map (fun c => (4 * b, c)))
  let spots := (at_.filter (fun x => fits s t g x.1 x.2)).map (fun x =>
    let base := 64 * x.1 + x.2
    let cs := (groupPositions g).map (· + base)
    ({ base := base, room := headroom s cs,
       pairs := touching (activeRows s ++ cs.map (coreRow s)).eraseDups } : Spot))
  match spots with
  | [] => none
  | a :: r => some (r.foldl (fun b x => if x.before b then x else b) a).base

/-- Whether a node has waited 1 ms (R114). -/
def Node.waited (n : Node) (cycle : Nat) : Bool := n.starved || decide (n.since + 1000 * cyclesPerUs ≤ cycle)

/-- The node placed next: the first in order that finds a position, where none of lower priority passes a node that has waited
1 ms (R114). -/
def nextPlacement (s : State) (t : Partition) : Option Nat → List (Launch × Nat × Node) → Option (Launch × Nat × Node × Nat)
  | _, [] => none
  | lim, (l, i, n) :: r =>
    let barred := match lim with | some x => decide (x < l.prio) | none => false
    match if barred then none else findSpot s t (l.groups.getD n.group []) with
    | some b => some (l, i, n, b)
    | none => nextPlacement s t (if n.waited s.cycle && lim.isNone then some l.prio else lim) r

/-- A node's scratchpad image and bitmap through the partition's translation, or the cause code of the fault: 4 without a
translation or the r right, 10 for bad data (R121, R127); with both, 4 (assumption 119). -/
def readImage (s : State) (p : Nat) (n : Node) : Except Nat (List Byte × List Byte) :=
  match vreadLines s p n.imgAddr n.imgLen, vreadLines s p (n.imgAddr + 64 * n.imgLen) ((n.imgLen + 63) / 64) with
  | some a, some b => if a.2 || b.2 then .error 10 else .ok (a.1, b.1)
  | _, _ => .error 4

/-- A slot as placement starts it, or leaves it empty (R121, Table 5.1); the debugger's settings stay. -/
def startSlot (t : Partition) (n : Node) (rank size k : Nat) (old : Slot) : Slot :=
  let base : Slot := { Slot.reset with evec := BitVec.ofNat 48 (bitsOf t.conf.trap 47 0), catchBkpt := old.catchBkpt,
                                       stepTrap := old.stepTrap }
  if n.mask / 2 ^ k % 2 = 1 then
    let l := ((base.setS 1 (BitVec.ofNat 64 n.args)).setS 2 (BitVec.ofNat 64 rank)).setS 3 (BitVec.ofNat 64 size)
    { l with st := .runnable, pc := BitVec.ofNat 48 (n.text + n.entries.getD k 0) }
  else base

/-- A core as placement loads it (R59, R121, R239): the image, zero and empty beyond it; structures and counts empty. The start of
a part is an acquire: bounded loads wait for the counters as they stand (R171, Table 9.2). Copies of other launches' region lines
leave L1. -/
def loadCore (t : Partition) (n : Node) (img bits : List Byte) (tk : Task) (lam : W64) (k : Core) : Core :=
  { k with
    slots := slotNums.map (fun j => (j, startSlot t n tk.rank tk.size j (k.slot j))),
    sp := ssetRange 0 [] 0 img,
    fe := ssetRange false [] 0 ((List.range (8 * n.imgLen)).map (fun w => (bits.getD (w / 8) 0).toNat / 2 ^ (w % 8) % 2 == 1)),
    spBad := [], dq := [], bq := [], chans := [], mb := [], mbFull := [], mbRel := [], dqHead := 0, dqTail := 0, landings := 0,
    failedSteals := 0, search := 0, xdMarks := [], shadow := [], spin := false, gearEff := false, autosoak := false, restoreReq := none,
    task := some tk, ended := false, bars := [], engTraps := [], lamport := lamMax k.lamport lam,
    viewNeed := k.viewNeed ++ k.owed t, l1 := k.l1.filter (fun e => match e.tag with | some (q, _, _) => q == tk.q | none => true) }

/-- The task part of one core of a node placed at `base`. -/
def taskOf (l : Launch) (i base : Nat) (cs : List Nat) (c : Nat) : Task :=
  { q := l.q, node := i, rank := (cs.findIdx? (· == c)).getD 0, size := cs.length,
    groups := (List.range l.groups.length).filter (fun g => (l.groups.getD g []).any (·.covers (c - base))) }

/-- Place a node (R119, R121, R126, R255): the scheduler steps its clock, every core is loaded, and the slots start; a node
whose image cannot be read faults with none started. -/
def placeNode (s : State) (p : Nat) (l : Launch) (i : Nat) (n : Node) (base : Nat) : State :=
  let t := getPart s p
  let lam := t.lamport + 1
  let cs := (groupPositions (l.groups.getD n.group [])).map (· + base)
  let s1 := modPart s p (fun t => { t with lamport := lam, orders := t.orders + 1 })
  let s2 := modLaunch s1 p l.q (fun l => { l with begun := true })
  let s3 := modNode s2 p l.q i (fun n => { n with st := .running, cores := cs, order := t.orders, placed := (s.cycle, lam) })
  match readImage s p n with
  | .ok (img, bits) =>
    cs.foldl (fun s c => modCore s c (loadCore t n img bits (taskOf l i base cs c) lam)) s3
  | .error code =>
    let s4 := cs.foldl (fun s c => modCore s c (loadCore t { n with mask := 0 } [] [] (taskOf l i base cs c) lam)) s3
    faultNode s4 p l.q i .faulted (some (0, cs.headD 0, code))

/-- NODE_PLACEMENT (R114, R120, R121). -/
def execNodePlacement (p : Nat) (s : State) : Out :=
  let t := getPart s p
  .next (match nextPlacement s t none (readyNodes t) with
    | some (l, i, n, b) => placeNode s p l i n b
    | none => s)

/-- PLACEMENT_STARVATION (R114): a ready node has waited 1 ms. -/
def execPlacementStarvation (p q n : Nat) (s : State) : Out :=
  .next (match (liveLaunch s p q).bind (fun l => l.nodes[n]?) with
    | some x =>
      if x.st == .ready && x.waited s.cycle then
        modNode s p q n (fun x => { x with starved := true })
      else s
    | none => s)

/-! ## Completion (R125, R126) -/

/-- Whether a press operation came from core `c`'s slots. -/
def PressOp.from_ (o : PressOp) (own : Bool) (c : Nat) : Bool :=
  match o.src with
  | .loc _ => own
  | .share i _ _ => i == c
  | .cmd i _ => i == c

/-- Press work that core `c`'s slots issued and that core `t` has not performed (R125). -/
def pressOwed (c t : Nat) (k : Core) : Bool :=
  [k.pressEnd, k.pressRun, k.pressWait].any (fun o => match o with | some o => o.from_ (c == t) c | none => false) ||
  k.shareQ.any (fun h => h.issuer == c) || k.cmdQ.any (fun h => h.issuer == c)

/-- Carriers whose effect is a write or press work that core `c`'s part still owes (R125): its window stores, its shares and PCMD
steps, also those that a saved member has spilled, the increments that complete its PCMD steps (R203), and the counts of its SLICEs,
which leave as slot 7's (R214). -/
def Packet.owed (c : Nat) (p : Packet) : Bool :=
  match p.body with
  | .winWrite .. => p.src == c
  | .share _ h | .spill _ (.share h) => h.issuer == c
  | .pcmd _ st | .spill _ (.cmd st) => st.issuer == c
  | .countInc t _ _ => t == c || (p.src == c && p.slot == 7)
  | _ => false

/-- Whether everything that core `c`'s part posted is performed, with its increments and DCFENCEs, which its completion signal
releases (R125, R150, R153, R175). -/
def partDrained (s : State) (c : Nat) : Bool :=
  let k := getCore s c
  k.psb.isEmpty && k.rounds.isEmpty && k.passes.isEmpty && k.slots.all (fun e => e.2.dcf.isEmpty) && k.copies.isEmpty &&
  k.accOps.isEmpty && k.seamBusy.isEmpty &&
  !s.cores.any (fun e => pressOwed c e.1 e.2) && !s.net.any (Packet.owed c) &&
  !s.parts.any (fun e => e.2.hamper.any (Packet.owed c))

/-- CORE_COMPLETION_SIGNAL (R125, R126, R255): core `c`'s part has ended and its drains are done. A running node's core steps
its clock and the scheduler receives the signal; the receipt of a node's last one is its completion, with the die cycle and the scheduler's
clock then. The core is free for another task. -/
def execCoreCompletionSignal (c : Nat) (s : State) : Out :=
  let k := getCore s c
  .next (if !k.ended || k.away || !partDrained s c then s
    else
      let free := fun (k : Core) => { k with task := none, ended := false, bars := [], xdMarks := [] }
      match partOf s c, k.task with
      | some p, some t =>
        let lam := k.lamport + 1
        let got := lamMax (getPart s p).lamport lam
        let sig := fun (n : Node) =>
          let m := { n with signals := n.signals ++ [c], search := n.search + k.search, failed := n.failed + k.failedSteals }
          if m.st == .running && m.signalled then { m with fin := (s.cycle, got) } else m
        let runs : Bool := match (liveLaunch s p t.q).bind (fun l => l.nodes[t.node]?) with
          | some n => n.st == .running
          | none => false
        let s1 := modNode (modCore s c free) p t.q t.node sig
        if runs then modPart (modCore s1 c (fun k => { k with lamport := lam })) p (fun t => { t with lamport := got })
        else s1
      | _, _ => modCore s c free)

/-- NODE_COMPLETION (R125 to R127, R379): with the last signal a running node is done, unless a fault of it is still to be acted on
or it had run past its watchdog by then; its record is written, and its successors wait for one node less. The record of a node
already over that waited for drains is written. -/
def execNodeCompletion (p q n : Nat) (s : State) : Out :=
  .next (match liveLaunch s p q with
    | none => s
    | some l =>
      match l.nodes[n]? with
      | none => s
      | some x =>
        if x.st == .running then
          if faultPending s p q n || !x.signalled then s
          else if l.overran x x.fin.1 then faultNode s p q n .watchdog none
          else
            let s1 := modNode s p q n (fun x => { x with st := .done })
            let s2 := modPart s1 p (fun t => { t with bars := t.bars.filter (fun b => !(b.q == q && b.node == n)) })
            let s3 := x.succs.foldl (fun s j => modNode s p q j (fun y =>
              let y1 := { y with deps := y.deps - 1 }
              if y1.deps = 0 ∧ y1.st = .waiting then { y1 with st := .ready, since := s.cycle } else y1)) s2
            writeRecord s3 p q n
        else writeRecord s p q n)

end Sys2Proof.Machine
end

