-- ==== Sys2Proof/Machine/Kazcia.lean ====
section
/-! DEFINITION. The Kazcia controller: partitions and their keys, boot, lifecycle, bleach, attestation, debug unlock; and reset
(R20, R264 to R269). -/

namespace Sys2Proof.Machine

/-! ## Partitions (R264, R265) -/

/-- Whether the part runs partitions (R266, Table 20.3). -/
def partitionsRun (s : State) : Bool :=
  s.kaz.booted && !s.kaz.keysLost && (s.kaz.life == .deployed || s.kaz.life == .debug)

/-- The bandwidth of a CXL port that live partitions own, in percent. -/
def cxlOwned (s : State) (port : Nat) : Nat :=
  (s.parts.map (fun e => if e.2.live then sget 0 e.2.cxl port else 0)).foldl (· + ·) 0

/-- Whether a request for a partition keeps R263 and R264: whole bays, slices on their dies, ports in the bays, shares of the CXL
ports within what is left, nothing that another partition owns. -/
def partitionOk (s : State) (bays slices chans ports : List Nat) (cxl : List (Nat × Nat)) : Bool :=
  let free := fun (f : Partition → List Nat) (l : List Nat) =>
    s.parts.all (fun e => !e.2.live || l.all (fun x => !(f e.2).contains x))
  bays.all (fun b => decide (b < 160)) &&
  slices.all (fun x => decide (x < 4 * slicesPerDie) && bays.any (fun b => b / 40 == x / slicesPerDie)) &&
  chans.all (fun x => decide (x < 64)) &&
  ports.all (fun j => decide (j < 24) && [0, 1, 2, 3].all (fun i => bays.contains (bayOf (gatewayCore j i)))) &&
  cxl.all (fun e => decide (e.1 < 4 ∧ cxlOwned s e.1 + e.2 ≤ 100)) &&
  [bays, slices, chans, ports, cxl.map (·.1)].all (fun l => l.eraseDups.length == l.length) &&
  free (·.bays) bays && free (·.slices) slices && free (·.chans) chans && free (·.ports) ports

/-- Whether a live partition's key encrypted a far line. -/
def farOwned (s : State) (line : Nat) : Bool := s.parts.any (fun e => e.2.live && e.2.keyNo == sget 0 s.farMark line)

/-- Memory as a new partition finds it under its key: the channel pairs' bytes are unpredictable and never poisoned, as are those of
far lines of its expanders that no live partition's key encrypted, and compressed blocks hold unpredictable data (R262, R265). Each
port's expander holds one range of 4 TiB of the far addresses, in the order of the ports (assumption 57). -/
def scramble (s : State) (chans : List Nat) (cxl : List (Nat × Nat)) : State :=
  let mine := fun (line : Nat) => chans.contains (pairOf line)
  let fars := cxl.map (·.1)
  { s with
    pairKeys := chans.foldl (fun m i => sset 0 m i (s.keys + 1)) s.pairKeys,
    keys := s.keys + 1,
    badLines := s.badLines.filter (fun e =>
      !((e.1 == .dev && mine e.2) || (e.1 == .far && fars.contains (64 * e.2 / 2 ^ 42) && !farOwned s e.2))),
    gran := s.gran.filter (fun (e : Nat × Nat) => !mine (4 * e.1)) }

/-- PARTITION_CREATE (R264, R265): the partition owns what it asked for and has a key of its own. -/
def execPartitionCreate (p : Nat) (bays slices chans : List Nat) (ports : PortGrant) (s : State) : Out :=
  .next (if p < 16 ∧ (getPart s p).live = false ∧ partitionsRun s = true ∧
      partitionOk s bays slices chans ports.salden ports.cxl = true then
      modPart (scramble s chans ports.cxl) p (fun _ => { Partition.none_ with
        live := true, bays := bays, slices := slices, chans := chans, ports := ports.salden,
        cxl := ports.cxl.foldl (fun m e => sset 0 m e.1 e.2) [], key := true, keyNo := s.keys + 1 })
    else s)

/-- A core whose partition is torn down: nothing of its task is left; its clocks, its number of moves and the debugger's
settings stay. -/
def Core.wipe (k : Core) : Core :=
  { Core.reset with
    cyc := k.cyc, lamport := k.lamport, pressLam := k.pressLam, copyLam := k.copyLam, vents := k.vents, tick := k.tick,
    creditTick := k.creditTick, nextId := k.nextId, freeze := k.freeze,
    slots := k.slots.map (fun (e : Nat × Slot) => (e.1, { Slot.reset with catchBkpt := e.2.catchBkpt, stepTrap := e.2.stepTrap })) }

/-- The parts of a partition's cores end, their irons pass to rest, and their work is drained in its orders, as far as its targets
take it (R125, R127, R175, R264). -/
def drainPart (s : State) (p : Nat) : State :=
  let cs := (s.cores.map (·.1)).filter (getPart s p).owns
  let s1 := cs.foldl (fun s c => if (getCore s c).task.isSome && !(getCore s c).ended then endPart s c else s) s
  drainBy (fun s => cs.foldl (sweepCore p) s) ((cs.map (fun c => (getCore s1 c).work)).foldl (· + ·) 0) s1

/-- Whether a carrier is a partition's: its sender or its target is one of the cores, or it goes to one of its barriers. -/
def carrierOf (q : Nat) (t : Partition) (p : Packet) : Bool :=
  t.owns p.src || t.owns p.body.target || (match p.body with | .barArrive x _ _ _ _ _ _ => x == q | _ => false)

/-- Tear down a partition (R264): its nodes are cancelled without records, its work drained and its cores empty; its key is
erased; the management function receives an event record of kind 4, with the scheduler's clock as it stands (R260; assumption 57). -/
def tearDown (s : State) (p : Nat) : State :=
  let t := getPart s p
  if !t.live then s
  else
    let s1 := mapCores (drainPart s p) (fun c k => if t.owns c then k.wipe else k)
    let s2 := { s1 with
      net := s1.net.filter (fun x => !(carrierOf p t x)),
      rowTlb := s1.rowTlb.filter (fun e => !t.bays.contains (e.1 / 16)),
      ports := s1.ports.map (fun (e : Nat × Port) =>
        if t.ports.contains e.1 then (e.1, { Port.reset with lamport := e.2.lamport }) else e) }
    let kz := { s2.kaz with mgmtEvents := s2.kaz.mgmtEvents ++
      [(BitVec.ofNat 64 (4 * 2 ^ 56 + p), BitVec.ofNat 64 s.cycle, t.lamport, 0)] }
    let s3 := modPart { s2 with kaz := kz } p (fun _ => Partition.none_)
    [0, 1, 2, 3].foldl wakeRows s3

/-- Every partition is torn down. -/
def tearDownAll (s : State) : State := (List.range 16).foldl tearDown s

/-- PARTITION_TEARDOWN (R264). -/
def execPartitionTeardown (p : Nat) (s : State) : Out := .next (tearDown s p)

/-! ## Boot and lifecycle (R266) -/

/-- BOOT (R266): the image is measured and verified against the vendor key and the anti-rollback counter; one that fails is not
run, and the part stays in reset. -/
def execBoot (imageOk : Bool) (version : Nat) (meas : BitVec 384) (s : State) : Out :=
  let ok := imageOk && decide (s.kaz.rollback ≤ version)
  .next (if s.kaz.booted then s
    else
      let kz := { s.kaz with meas := meas, booted := ok, failed := !ok }
      { s with kaz := kz })

/-- The transitions that a fuse write makes (Table 20.3); DEBUG is entered by an unlock alone. -/
def Lifecycle.goesTo : Lifecycle → Lifecycle → Bool
  | .manufacture, .provisioned | .provisioned, .deployed => true
  | .retired, .retired => false
  | _, .retired => true
  | _, _ => false

/-- LIFECYCLE_TRANSITION (R266): a fuse write; a retired part's keys are erased for good, and its partitions with them. It is served
also before a boot or after a failed one (assumption 121). -/
def execLifecycleTransition (dest : Lifecycle) (s : State) : Out :=
  .next (if s.kaz.life.goesTo dest then
      let s1 := if dest = .retired then tearDownAll s else s
      let kz := { s1.kaz with life := dest, keysLost := s1.kaz.keysLost || dest == .retired,
                              attKey := s1.kaz.attKey && dest != .retired }
      { s1 with kaz := kz }
    else s)

/-! ## Bleach, attestation, unlock (R267 to R269) -/

/-- Whether a cause is of class B (R267). -/
def bleachClassB : BleachCause → Bool
  | .glitch | .temperature => false
  | .tamperMesh | .lifecycleViolation => true

/-- BLEACH_ALARM (R267): every partition key is erased and every partition torn down; class B disables the attestation working
key too. -/
def execBleachAlarm (cause : BleachCause) (s : State) : Out :=
  let s1 := tearDownAll s
  let kz := { s1.kaz with attKey := s1.kaz.attKey && !bleachClassB cause }
  .next { s1 with kaz := kz }

/-- The attestation working key is provisioned again (R267); a retired part's keys are erased for good (R266). -/
def keyProvision (s : State) : State :=
  let kz := { s.kaz with attKey := s.kaz.life != .retired }
  { s with kaz := kz }

/-- The fields of a configuration block. -/
def Config64.fields (f : Config64) : List Nat := [f.root, f.trap, f.handles, f.save, f.hamper, f.trace].map BitVec.toNat

/-- The numbers of the partition configuration that a report's hash covers: what each partition owns, and its committed block
(R261, R264, R268). -/
def configNumbers (s : State) : List (List Nat) :=
  (s.parts.filter (fun e => e.2.live)).flatMap (fun e =>
    [[e.1], e.2.bays, e.2.slices, e.2.chans, e.2.ports, e.2.cxl.flatMap (fun x => [x.1, x.2]), e.2.conf.fields])

/-- ATTESTATION_REPORT (R268): a report signed with the attestation working key; the signature is a free value. It is served also before
a boot or after a failed one (assumption 121). -/
def execAttestationReport (nonce : BitVec 256) (s : State) : Out :=
  .next (if s.kaz.attKey then
      let f := drawFree s 768
      let r : Report := { device := Config.deviceId, life := s.kaz.life, meas := s.kaz.meas, rollback := s.kaz.rollback,
                          opened := s.kaz.debugOpened, config := Config.configHash (configNumbers s), nonce := nonce,
                          sig := f.1 }
      let kz := { f.2.kaz with reports := f.2.kaz.reports ++ [r] }
      { f.2 with kaz := kz }
    else s)

/-- DEBUG_UNLOCK (R269): a token that does not verify, or is for another lifecycle state, changes nothing; else every partition is
torn down, the port opens, the state is DEBUG, and the measurement is extended. It is served also before a boot or after a failed one
(assumption 121). -/
def execDebugUnlock (tokenOk : Bool) (hash : BitVec 384) (s : State) : Out :=
  .next (if tokenOk && s.kaz.life == .deployed then
      let s1 := tearDownAll s
      let kz := { s1.kaz with life := .debug, debugOpened := true, meas := Config.extendMeas s1.kaz.meas hash }
      { s1 with kaz := kz }
    else s)

/-! ## Reset (R20) -/

/-- RESET (R20): every slot is empty and every register has its reset value. The memories, the fuses and reports stay, and so do
the readings of temperature, which are no registers. -/
def execReset (s : State) : Out :=
  let kz := { s.kaz with booted := false, failed := false }
  .next { State.reset with
    agenda := s.agenda, turns := s.turns, free := s.free, dm := s.dm, fm := s.fm, hm := s.hm, badLines := s.badLines,
    gran := s.gran, pairKeys := s.pairKeys, keys := s.keys, farMark := s.farMark, junction := s.junction, lpddr := s.lpddr,
    cxlShare := s.cxlShare, kaz := kz }

end Sys2Proof.Machine
end

