-- ==== Sys2Proof/Machine/Probe.lean ====
section
/-! DEFINITION. Deadlock detection: wait-for probes and the DEADLOCK trap (R111 to R113). -/

namespace Sys2Proof.Machine

/-- The wait-for edge of a slot parked on a probing RECV (R111). -/
def Slot.edge (l : Slot) : Option Nat :=
  match l.st with
  | .parked (.res _ e) => e
  | _ => none

/-- Whether a slot's park counts towards its core being blocked (R112): a probing RECV, an own data or branch-outcome queue
or mailbox, or its own deque empty. A slot that has been woken is on its way out of park. -/
def Slot.blockedIn (l : Slot) (c : Nat) : Bool :=
  l.wake.isNone && (match l.st with
    | .parked (.res _ (some _)) => true
    | .parked (.res (.struct x k _ filling) none) =>
      x == c && (k == .dataQueue || k == .outcomeQueue || k == .mailbox || (k == .deque && !filling))
    | _ => false)

/-- Whether a core is blocked (R112); one that is being saved or is saved counts as not blocked (assumption 94). -/
def Core.blocked (k : Core) (c : Nat) : Bool := !k.away && k.slots.all (fun e => e.2.st == .empty || e.2.blockedIn c)

/-- PROBE_SEND (R111): the probe starts along the slot's edge, 4,096 mesh cycles after the slot parked and every 65,536 mesh cycles
from then on. -/
def execProbeSend (c k : Nat) (s : State) : Out :=
  let l := getSlot s c k
  let d := s.cycle - l.parkedAt.2
  .next (match l.edge with
    | some t => if 4096 ≤ d ∧ (d - 4096) % 65536 = 0 then sendFrom s c k 0 (.probe t [(c, k, l.parkedAt.1)]) else s
    | none => s)

/-- PROBE_ARRIVAL (R112): a core that is not blocked discards the probe, as does one already on the path or a full path;
a blocked core forwards it along the edge of each of its probing slots. A probe back at its origin is DEADLOCK_CONFIRM's. -/
def execProbeArrival (i : Nat) (s : State) : Out :=
  .next (match canArrive s i noOrder with
    | some p =>
      match p.body with
      | .probe t path =>
        let k := getCore s t
        let s1 := dropNet s i
        if (path.headD (noCore, 0, 0)).1 = t then s
        else if !k.blocked t || decide (64 ≤ path.length) || path.any (fun e => e.1 == t) then s1
        else slotNums.foldl (fun s j => match (k.slot j).edge with
          | some u => sendFrom s t j 0 (.probe u (path ++ [(t, j, (k.slot j).parkedAt.1)]))
          | none => s) s1
      | _ => s
    | none => s)

/-- Each recorded slot is still in the park that the probe recorded, and waits for the core recorded next, the last for the
originating one (R113). -/
def chainHolds (s : State) (orig : Nat) : List (Nat × Nat × Nat) → Bool
  | [] => true
  | (c, k, at_) :: r =>
    (getSlot s c k).edge == some ((r.head?.map (·.1)).getD orig) && (getSlot s c k).parkedAt.1 == at_ && chainHolds s orig r

/-- Whether a carrier could end a wait of one of the cores: a message for a channel, or a reply for a block, that a slot of the core
is parked on, or a message for a channel whose interrupt a slot accepts (R100, R113). -/
def Body.endsWait (s : State) (cores : List Nat) : Body → Bool
  | .msg t ch _ _ => cores.contains t && (getCore s t).slots.any (fun e => e.2.parkedOn (fun r =>
      match r with | .struct x .channel j _ => x == t && j == ch | _ => false) || (e.2.park?.isSome && e.2.msgEn.getLsbD ch))
  | .reply t blk _ => cores.contains t && (getCore s t).slots.any (fun e => e.2.parkedOn (fun r => r == .reply t blk))
  | _ => false

/-- Whether a returned probe is confirmed (R113): at this instant the recorded slots are parked as recorded, every core on
the path is blocked, and nothing in flight could end a wait. -/
def confirmed (s : State) (orig : Nat) (path : List (Nat × Nat × Nat)) : Bool :=
  let cores := path.map (·.1)
  chainHolds s orig path && cores.all (fun c => (getCore s c).blocked c) &&
  !s.net.any (fun p => p.body.endsWait s cores) && !s.parts.any (fun e => e.2.hamper.any (fun p => p.body.endsWait s cores))

/-- DEADLOCK_CONFIRM (R113): a probe has returned to its originating core; confirmed, every recorded slot leaves park and
takes DEADLOCK at its RECV. -/
def execDeadlockConfirm (i : Nat) (s : State) : Out :=
  .next (match canArrive s i noOrder with
    | some p =>
      match p.body with
      | .probe t path =>
        if (path.headD (noCore, 0, 0)).1 ≠ t then s
        else if !confirmed s t path then dropNet s i
        else path.foldl (fun s e =>
          let pc := (getSlot s e.1 e.2.1).pc
          takeTrap (modSlotAt s e.1 e.2.1 (fun l => { l with st := .runnable, wake := none })) e.1 e.2.1 .deadlock 0 pc) (dropNet s i)
      | _ => s
    | none => s)

end Sys2Proof.Machine
end

