-- ==== Sys2Proof/Machine/Sys.lean ====
section
/-! DEFINITION. Major 0x00: control registers, traps and returns, halts, fences, and the requests to TLBs and memory
controllers (R71, R82 to R86, R149, R219, R221, R283, R290, R293, R294, R298, R310, R321, R359, R367, R375). -/

namespace Sys2Proof.Machine

/-- Control registers by number (Table 5.1). -/
inductive Ctl where
  | status | pc | epc | ecause | evec | msgvec | msgmask | pfmt | pgam | rnd
  | nt (i : Nat)
  | lcn | part | gear | admission | cycle | lamport | vents
deriving DecidableEq, Repr

/-- The register a number names (Table 5.1); an unlisted number is ILLEGAL. -/
def ctlOf (n : Nat) : Option Ctl :=
  match n with
  | 0x000 => some .status | 0x001 => some .pc | 0x002 => some .epc | 0x003 => some .ecause | 0x004 => some .evec
  | 0x005 => some .msgvec | 0x006 => some .msgmask | 0x007 => some .pfmt | 0x008 => some .pgam | 0x009 => some .rnd
  | 0x010 => some (.nt 0) | 0x011 => some (.nt 1) | 0x012 => some (.nt 2) | 0x013 => some (.nt 3)
  | 0x100 => some .lcn | 0x101 => some .part | 0x102 => some .gear | 0x103 => some .admission | 0x104 => some .cycle
  | 0x105 => some .lamport | 0x106 => some .vents
  | _ => none

/-- Registers that only system mode reaches (Table 5.1). -/
def Ctl.sysOnly : Ctl → Bool
  | .epc | .ecause | .evec => true
  | _ => false

/-- Registers read-only in every mode (Table 5.1). -/
def Ctl.readOnly : Ctl → Bool
  | .pc | .lcn | .part | .admission | .cycle | .lamport | .vents => true
  | _ => false

/-- the admission register: bits 7:0 the units of the row, bit 8 its conservative-margin pin (R82, R236). -/
def admitWord (s : State) : W64 :=
  let v := coreRow s s.curCore
  BitVec.ofNat 64 (rowUnits s v % 256 + (if (sget RowGauge.reset s.rows v).pinned then 256 else 0))

/-- Value of a control register (Table 5.1), reserved bits zero. -/
def ctlRead (s : State) (r : Ctl) : W64 :=
  let l := slot s
  match r with
  | .status => statusWord (cur s) l
  | .pc => l.pc.setWidth 64
  | .epc => l.epc.setWidth 64
  | .ecause => l.ecause
  | .evec => l.evec.setWidth 64
  | .msgvec => l.msgvec.setWidth 64
  | .msgmask => msgmaskWord l
  | .pfmt => l.pfmt.setWidth 64
  | .pgam => l.pgam.setWidth 64
  | .rnd => l.rnd.setWidth 64
  | .nt i => (sget 0 l.nt i).setWidth 64
  | .lcn => BitVec.ofNat 64 (s.curCore % 65536)
  | .part => BitVec.ofNat 64 (curPart s % 16)
  | .gear => gearWord (cur s)
  | .admission => admitWord s
  | .cycle => BitVec.ofNat 64 s.cycle
  | .lamport => (cur s).lamport
  | .vents => (cur s).vents.setWidth 64

/-- Write the RW fields of a control register (R290); read-only registers are refused before. -/
def ctlWrite (s : State) (r : Ctl) (v : W64) : State :=
  match r with
  | .status => modSlot s (fun l => l.putStatus v)
  | .epc => modSlot s (fun l => { l with epc := v.setWidth 48 })
  | .ecause => modSlot s (fun l => { l with ecause := v &&& 0x1F1F })
  | .evec => modSlot s (fun l => { l with evec := v.setWidth 48 })
  | .msgvec => modSlot s (fun l => { l with msgvec := v.setWidth 48 })
  | .msgmask => modSlot s (fun l => { l with msgEn := v.setWidth 8 })
  | .pfmt => modSlot s (fun l => { l with pfmt := v.setWidth 3 })
  | .pgam => modSlot s (fun l => { l with pgam := v.setWidth 32 })
  | .rnd => modSlot s (fun l => { l with rnd := v.setWidth 2 })
  | .nt i => modSlot s (fun l => { l with nt := sset 0 l.nt i (v.setWidth 48) })
  | .gear => modCur s (fun k => { k with autosoak := bitOf v 1 })
  | _ => s

/-- Value checks of a write (R83, R85). -/
def ctlValueOk (r : Ctl) (v : W64) : Bool :=
  match r with
  | .status => ncauseOk v
  | .pfmt => decide (bitsOf v 2 0 ≤ 2)
  | _ => true

/-- NOP (R328). -/
def execNop (s : State) : Out := .next (advance s)

/-- TRAP (R367): `epc` is the TRAP + 4. -/
def execTrap (code : BitVec 5) (s : State) : Out :=
  .next (takeTrap s s.curCore s.curSlot .trap code.toNat ((slot s).pc + 4))

/-- ERET (R244, R298). -/
def execEret (s : State) : Out := .next (if (slot s).sys then trapReturn s else raise s .priv)

/-- HALT (R310): in system mode the node faults with cause code 15 (R127). -/
def execHalt (s : State) : Out :=
  .next (if (slot s).sys then nodeFaultAt s s.curCore s.curSlot 15 else haltSlot s)

/-- BKPT (R283): a set catch bit stops the slot instead (R251). -/
def execBkpt (code : BitVec 5) (s : State) : Out :=
  .next (if (slot s).catchBkpt then stopSlot s s.curCore s.curSlot
    else takeTrap s s.curCore s.curSlot .bkpt code.toNat (slot s).pc)

/-- CTLR (R290). -/
def execCtlr (d : SReg) (n : BitVec 10) (s : State) : Out :=
  match ctlOf n.toNat with
  | none => .next (raise s .illegal)
  | some r =>
    if r.sysOnly && !(slot s).sys then .next (raise s .priv)
    else .next (advance (wrS s d (ctlRead s r)))

/-- CTLW (R290). -/
def execCtlw (a : SReg) (n : BitVec 10) (s : State) : Out :=
  match ctlOf n.toNat with
  | none => .next (raise s .illegal)
  | some r =>
    if r.sysOnly && !(slot s).sys then .next (raise s .priv)
    else if r.readOnly then .next (raise s .illegal)
    else if !ctlValueOk r (rdS s a) then .next (raise s .illegal)
    else .next (advance (ctlWrite s r (rdS s a)))

/-- The number after the last RMW of slot `n` that has lost its result and is unperformed: its read is the slot's only one that can be
so behind the instruction it belongs to (R278). -/
def Core.lostMark (k : Core) (n : Nat) : Nat :=
  (k.psb.filter (fun e => e.slot == n && e.am.isSome)).foldl (fun m e => max m (e.id + 1)) 0

/-- FENCE (R149, R150): later accesses are refused until the posted work they are ordered after is performed; reads are
performed when they complete, so kind `ld` leaves open only those of RMWs that have lost their results (R278). Every scope is met
alike on Zeleus (R150). -/
def execFence (_sc : Scope) (k : FenceKind) (s : State) : Out :=
  let m := postMark s
  let r := (cur s).lostMark s.curSlot
  .next (advance (modSlot s (fun l =>
    match k with
    | .full => { l with hold := none, ldMark := m, stMark := m }
    | .ld => { l with hold := none, ldMark := max l.ldMark r, stMark := max l.stMark r }
    | .st => { l with hold := none, stMark := m })))

/-- DCFENCE (R219, R293): the range, bit 46 ignored, joins the ranges under way, with its number among the core's work. -/
def execDcfence (a b : SReg) (s : State) : Out :=
  let base := plainVa (rdS s a).toNat
  let len := (rdS s b).toNat
  if (rdS s a).toNat % 256 ≠ 0 ∨ len % 256 ≠ 0 then .next (raise s .align)
  else if bitsOf (rdS s a) 63 48 ≠ 0 ∨ 2 ^ 46 < base % 2 ^ 46 + len then .next (raise s .prot)
  else if len = 0 then .next (advance (dropHold s))
  else
    let s1 := modCur (dropHold s) (fun k => { k with nextId := k.nextId + 1 })
    .next (advance (modSlot s1 (fun l => { l with dcf := l.dcf ++ [(base, len, postMark s)] })))

/-- XLINV (R375): the request goes to every TLB and walker of the partition. -/
def execXlinv (a : SReg) (k : InvKind) (s : State) : Out :=
  if !(slot s).sys then .next (raise s .priv)
  else if k == .page && bitsOf (rdS s a) 63 48 != 0 then .next (raise s .prot)
  else
    let page := match k with | .page => some (plainVa (rdS s a).toNat / 4096) | .all => none
    let r : InvReq := { page := page, core := s.curCore, cslot := s.curSlot }
    .next (advance (modPart s (curPart s) (fun t => { t with invs := t.invs ++ [r] })))

/-- DICTLD (R221, R294): the reload is handed to the partition's memory controllers. -/
def execDictld (a : SReg) (lo : BitVec 5) (hi : BitVec 1) (s : State) : Out :=
  if !(slot s).sys then .next (raise s .priv)
  else if (rdS s a).toNat % 16 ≠ 0 then .next (raise s .align)
  else if bitsOf (rdS s a) 63 48 ≠ 0 then .next (raise s .prot)
  else
    let r : DictReq := { addr := (rdS s a).toNat, slot := hi.toNat * 32 + lo.toNat, core := s.curCore,
                         cslot := s.curSlot, after := postMark s }
    .next (advance (modPart s (curPart s) (fun t => { t with dicts := t.dicts ++ [r] })))

/-- LTRD (R321): the table entry of an LCN, bit 63 while a vent moves it. -/
def execLtrd (d a : SReg) (s : State) : Out :=
  if !(slot s).sys then .next (raise s .priv)
  else
    let l := lo16 (rdS s a)
    if !inPart s l then .next (raise s .prot)
    else
      let moving := (getPart s (curPart s)).moves.any (fun e => e.1 == l)
      .next (advance (wrS s d (BitVec.ofNat 64 (pcnOf s l + (if moving then 2 ^ 63 else 0)))))

/-- STAMP (R359): the die cycle counter, and a trace record of kind 5. -/
def execStamp (d : SReg) (s : State) : Out :=
  let pc := (slot s).pc
  .next (advance (wrS (tracePost s s.curCore s.curSlot 5 0 pc) d (BitVec.ofNat 64 s.cycle)))

end Sys2Proof.Machine
end

