-- ==== Sys2Proof/Machine/Vector.lean ====
section
/-! DEFINITION. The vector instructions, majors 0x12 to 0x14 (R74, R75, R323, R368 to R374). -/

namespace Sys2Proof.Machine

/-! ## Lanes (R368) -/

/-- Lane `i` of width `w`. -/
def lane (w : Nat) (v : V512) (i : Nat) : Nat := v.toNat / 2 ^ (w * i) % 2 ^ w

/-- A vector from its lanes. -/
def ofLanes (w : Nat) : List Nat → Nat
  | [] => 0
  | x :: xs => x % 2 ^ w + 2 ^ w * ofLanes w xs

/-- Lanes 0 to L − 1 of a new value, an inactive lane keeping the old one. -/
def mapLanes (t : LaneTy) (mask : W64) (old : V512) (f : Nat → Nat) : V512 :=
  BitVec.ofNat 512 (ofLanes t.width ((List.range t.lanes).map (fun i =>
    if mask.getLsbD i then f i else lane t.width old i)))

/-- Signed reading of a `w`-bit value. -/
def sval (w x : Nat) : Int := if x < 2 ^ (w - 1) then x else (x : Int) - 2 ^ w

/-- The `w`-bit pattern of an integer, wrapping. -/
def wrap (w : Nat) (v : Int) : Nat := (v % 2 ^ w).toNat

/-- The `w`-bit pattern of an integer saturated to the signed range. -/
def satS (w : Nat) (v : Int) : Nat := wrap w (max (-2 ^ (w - 1)) (min (2 ^ (w - 1) - 1) v))

/-- Floating-point format of a lane type. -/
def LaneTy.fmt : LaneTy → FloatFmt
  | .f16 => Machine.f16 | .bf16 => Machine.bf16 | _ => Machine.f32

/-- Lane value as a floating-point value. -/
def fval (t : LaneTy) (x : Nat) : Fv := unpack t.fmt x

/-- A lane-wise result: v[d] ← f, under the mask, and the PC advances. -/
def vecResult (s : State) (d : VReg) (m : MReg) (t : LaneTy) (f : Nat → Nat) : Out :=
  .next (advance (wrV s d (mapLanes t (rdM s m) (rdV s d) f)))

/-- A lane-wise operation of two sources. -/
def vec2 (s : State) (d a b : VReg) (m : MReg) (t : LaneTy) (f : Nat → Nat → Nat) : Out :=
  vecResult s d m t (fun i => f (lane t.width (rdV s a) i) (lane t.width (rdV s b) i))

/-- A lane-wise operation of one source. -/
def vec1 (s : State) (d a : VReg) (m : MReg) (t : LaneTy) (f : Nat → Nat) : Out :=
  vecResult s d m t (fun i => f (lane t.width (rdV s a) i))

/-- Addition of Table 24.3. -/
def laneAdd (t : LaneTy) (mode x y : Nat) : Nat := if t.isInt then x + y else fAdd t.fmt mode (fval t x) (fval t y)
/-- Subtraction. -/
def laneSub (t : LaneTy) (mode x y : Nat) : Nat :=
  if t.isInt then wrap t.width ((x : Int) - y) else fAdd t.fmt mode (fval t x) (fval t y).neg
/-- Multiplication. -/
def laneMul (t : LaneTy) (mode x y : Nat) : Nat := if t.isInt then x * y else fMul t.fmt mode (fval t x) (fval t y)
/-- The smaller, signed or by R180. -/
def laneMin (t : LaneTy) (x y : Nat) : Nat :=
  if t.isInt then (if sval t.width y < sval t.width x then y else x) else fMin t.fmt x y
/-- The larger, signed or by R180. -/
def laneMax (t : LaneTy) (x y : Nat) : Nat :=
  if t.isInt then (if sval t.width x < sval t.width y then y else x) else fMax t.fmt x y
/-- Absolute value. -/
def laneAbs (t : LaneTy) (x : Nat) : Nat :=
  if t.isInt then wrap t.width ((sval t.width x).natAbs : Int)
  else if fval t x = .nan then t.fmt.nan else x % 2 ^ (t.width - 1)
/-- Negation. -/
def laneNeg (t : LaneTy) (x : Nat) : Nat :=
  if t.isInt then wrap t.width (-(x : Int))
  else if fval t x = .nan then t.fmt.nan
  else if x < 2 ^ (t.width - 1) then x + 2 ^ (t.width - 1) else x - 2 ^ (t.width - 1)
/-- High half of the exact signed product. -/
def laneMulh (t : LaneTy) (x y : Nat) : Nat := wrap t.width (sval t.width x * sval t.width y / 2 ^ t.width)
/-- Arithmetic right shift. -/
def laneSra (t : LaneTy) (x k : Nat) : Nat := wrap t.width (sval t.width x / 2 ^ k)

def execVadd (d a b : VReg) (m : MReg) (t : LaneTy) (s : State) : Out := vec2 s d a b m t (laneAdd t (rndOf s))
def execVsub (d a b : VReg) (m : MReg) (t : LaneTy) (s : State) : Out := vec2 s d a b m t (laneSub t (rndOf s))
def execVmul (d a b : VReg) (m : MReg) (t : LaneTy) (s : State) : Out := vec2 s d a b m t (laneMul t (rndOf s))
def execVfma (d a b : VReg) (m : MReg) (t : LaneTy) (s : State) : Out :=
  vecResult s d m t (fun i => fFma t.fmt (rndOf s) (fval t (lane t.width (rdV s a) i))
    (fval t (lane t.width (rdV s b) i)) (fval t (lane t.width (rdV s d) i)))
def execVmin (d a b : VReg) (m : MReg) (t : LaneTy) (s : State) : Out := vec2 s d a b m t (laneMin t)
def execVmax (d a b : VReg) (m : MReg) (t : LaneTy) (s : State) : Out := vec2 s d a b m t (laneMax t)
def execVminz (d a b : VReg) (m : MReg) (t : LaneTy) (s : State) : Out := vec2 s d a b m t (fun x y => min x y)
def execVmaxz (d a b : VReg) (m : MReg) (t : LaneTy) (s : State) : Out := vec2 s d a b m t (fun x y => max x y)
def execVabs (d a : VReg) (m : MReg) (t : LaneTy) (s : State) : Out := vec1 s d a m t (laneAbs t)
def execVneg (d a : VReg) (m : MReg) (t : LaneTy) (s : State) : Out := vec1 s d a m t (laneNeg t)
def execVadds (d a b : VReg) (m : MReg) (t : LaneTy) (s : State) : Out :=
  vec2 s d a b m t (fun x y => satS t.width (sval t.width x + sval t.width y))
def execVsubs (d a b : VReg) (m : MReg) (t : LaneTy) (s : State) : Out :=
  vec2 s d a b m t (fun x y => satS t.width (sval t.width x - sval t.width y))
def execVmulh (d a b : VReg) (m : MReg) (t : LaneTy) (s : State) : Out := vec2 s d a b m t (laneMulh t)
def execVand (d a b : VReg) (m : MReg) (t : LaneTy) (s : State) : Out := vec2 s d a b m t (fun x y => x &&& y)
def execVor (d a b : VReg) (m : MReg) (t : LaneTy) (s : State) : Out := vec2 s d a b m t (fun x y => x ||| y)
def execVxor (d a b : VReg) (m : MReg) (t : LaneTy) (s : State) : Out := vec2 s d a b m t (fun x y => x ^^^ y)
def execVshl (d a b : VReg) (m : MReg) (t : LaneTy) (s : State) : Out :=
  vec2 s d a b m t (fun x y => x * 2 ^ (y % t.width))
def execVshr (d a b : VReg) (m : MReg) (t : LaneTy) (s : State) : Out :=
  vec2 s d a b m t (fun x y => x / 2 ^ (y % t.width))
def execVsra (d a b : VReg) (m : MReg) (t : LaneTy) (s : State) : Out :=
  vec2 s d a b m t (fun x y => laneSra t x (y % t.width))

/-! ## Conversions and moves (R371, R372) -/

/-- One lane converted (Table 24.4). -/
def laneCvt (src dst : LaneTy) (mode x : Nat) : Nat :=
  if src.isInt then
    (if dst.isInt then satS dst.width (sval src.width x) else fOfInt dst.fmt mode (sval src.width x))
  else if dst.isInt then
    wrap dst.width (fToInt mode (fval src x) (-2 ^ (dst.width - 1)) (2 ^ (dst.width - 1) - 1))
  else if src = dst then canon src.fmt x
  else fRound dst.fmt mode (fval src x)

def execVcvt (d a : VReg) (dt : LaneTy) (m : MReg) (t : LaneTy) (s : State) : Out :=
  vecResult s d m dt (fun i =>
    if i < min t.lanes dt.lanes then laneCvt t dt (rndOf s) (lane t.width (rdV s a) i) else 0)
def execVperm (d a b : VReg) (m : MReg) (t : LaneTy) (s : State) : Out :=
  vecResult s d m t (fun i => lane t.width (rdV s a) (lane t.width (rdV s b) i % t.lanes))
def execVbcst (d : VReg) (a : SReg) (m : MReg) (t : LaneTy) (s : State) : Out :=
  vecResult s d m t (fun _ => (rdS s a).toNat % 2 ^ t.width)
def execVmovs (d : SReg) (a : VReg) (lane_ : BitVec 5) (t : LaneTy) (s : State) : Out :=
  let x := lane t.width (rdV s a) lane_.toNat
  scalarResult s d (if t.isInt then BitVec.ofInt 64 (sval t.width x) else BitVec.ofNat 64 x)

/-! ## Reductions (R373) -/

/-- Values of the active lanes. -/
def activeLanes (t : LaneTy) (mask : W64) (v : V512) : List Nat :=
  ((List.range t.lanes).filter (fun i => mask.getLsbD i)).map (lane t.width v)

/-- Exact sum of finite values over the exponent `lo`. -/
def sumScaled (lo : Int) : List Fv → Int
  | [] => 0
  | .num n m e :: r => scaled n m e lo + sumScaled lo r
  | _ :: r => sumScaled lo r

/-- Least exponent of the finite values. -/
def minExp : List Fv → Int
  | [] => 0
  | .num _ _ e :: r => min e (minExp r)
  | _ :: r => minExp r

/-- Floating-point `add`: the exact sum rounded once; an exact zero takes the sign R373 gives. -/
def fpSum (f : FloatFmt) (mode : Nat) (xs : List Fv) : Nat :=
  if xs.isEmpty then 0
  else if xs.contains .nan || (xs.contains (.inf false) && xs.contains (.inf true)) then f.nan
  else if xs.contains (.inf false) then f.inf false
  else if xs.contains (.inf true) then f.inf true
  else
    let lo := minExp xs
    let v := sumScaled lo xs
    let zero := fun (n : Bool) => xs.all (fun x => match x with | .num a m _ => a == n && m == 0 | _ => false)
    let neg := if v = 0 then (if zero false then false else if zero true then true else mode == 3) else decide (v < 0)
    roundTo f mode neg v.natAbs lo false

/-- VRED of the active lanes, as a register holds it (Table 24.6). -/
def reduce (f : RedFn) (t : LaneTy) (mode : Nat) (xs : List Nat) : W64 :=
  let w := t.width
  if t.isInt then
    match f with
    | .add => BitVec.ofInt 64 (sval w (xs.foldl (· + ·) 0 % 2 ^ w))
    | .min => BitVec.ofInt 64 (xs.foldl (fun a x => min a (sval w x)) (2 ^ (w - 1) - 1))
    | .max => BitVec.ofInt 64 (xs.foldl (fun a x => max a (sval w x)) (-2 ^ (w - 1)))
    | .minz => BitVec.ofNat 64 (xs.foldl min (2 ^ w - 1))
    | .maxz => BitVec.ofNat 64 (xs.foldl max 0)
    | .and => BitVec.ofNat 64 (xs.foldl (· &&& ·) (2 ^ w - 1))
    | .or => BitVec.ofNat 64 (xs.foldl (· ||| ·) 0)
    | .xor => BitVec.ofNat 64 (xs.foldl (· ^^^ ·) 0)
  else
    match f with
    | .add => BitVec.ofNat 64 (fpSum t.fmt mode (xs.map (fval t)))
    | .min => BitVec.ofNat 64 (if xs.isEmpty then t.fmt.inf false else xs.foldl (fMin t.fmt) t.fmt.nan)
    | .max => BitVec.ofNat 64 (if xs.isEmpty then t.fmt.inf true else xs.foldl (fMax t.fmt) t.fmt.nan)
    | _ => 0

def execVred (d : SReg) (a : VReg) (f : RedFn) (m : MReg) (t : LaneTy) (s : State) : Out :=
  scalarResult s d (reduce f t (rndOf s) (activeLanes t (rdM s m) (rdV s a)))

/-! ## Elementary functions (R374) -/

def execVrcp (d a : VReg) (m : MReg) (s : State) : Out :=
  vec1 s d a m .f32 (fun x => fRcp (rndOf s) (unpack f32 x))
def execVrsq (d a : VReg) (m : MReg) (s : State) : Out :=
  vec1 s d a m .f32 (fun x => fRsq (rndOf s) (unpack f32 x))
def execVexp2 (d a : VReg) (m : MReg) (s : State) : Out :=
  vec1 s d a m .f32 (fun x => fExp2 (rndOf s) (unpack f32 x))
def execVlog2 (d a : VReg) (m : MReg) (s : State) : Out :=
  vec1 s d a m .f32 (fun x => fLog2 (rndOf s) (unpack f32 x))

/-! ## Masks (R323, R370) -/

/-- A VCMP condition on one lane. -/
def laneCmp (c : VCond) (t : LaneTy) (x y : Nat) : Bool :=
  if t.isInt then
    match c with
    | .eq => x == y
    | .ne => x != y
    | .lt => decide (sval t.width x < sval t.width y)
    | .le => decide (sval t.width x ≤ sval t.width y)
    | .ltz => decide (x < y)
    | .lez => decide (x ≤ y)
    | .un => false
  else
    match c with
    | .eq => fCompare .eq (fval t x) (fval t y)
    | .ne => fCompare .ne (fval t x) (fval t y)
    | .lt => fCompare .lt (fval t x) (fval t y)
    | .le => fCompare .le (fval t x) (fval t y)
    | .un => fCompare .un (fval t x) (fval t y)
    | _ => false

/-- A 64-bit value whose bit i, below `n`, is `f i`. -/
def ofBits (f : Nat → Bool) : Nat → Nat
  | 0 => 0
  | n + 1 => ofBits f n + (if f n then 2 ^ n else 0)

/-- A mask result. -/
def maskResult (s : State) (d : MReg) (v : W64) : Out := .next (advance (wrM s d v))

def execVcmp (d : MReg) (a b : VReg) (m : MReg) (t : LaneTy) (c : VCond) (s : State) : Out :=
  maskResult s d (BitVec.ofNat 64 (ofBits (fun i =>
    (rdM s m).getLsbD i && laneCmp c t (lane t.width (rdV s a) i) (lane t.width (rdV s b) i)) t.lanes))
def execMand (d a b : MReg) (s : State) : Out := maskResult s d (rdM s a &&& rdM s b)
def execMor (d a b : MReg) (s : State) : Out := maskResult s d (rdM s a ||| rdM s b)
def execMnot (d a : MReg) (s : State) : Out := maskResult s d (~~~ rdM s a)
def execMcnt (d : SReg) (a : MReg) (s : State) : Out :=
  scalarResult s d (BitVec.ofNat 64 (popCount (rdM s a).toNat 64))

end Sys2Proof.Machine
end

