-- ==== Sys2Proof/Machine/Dispatch.lean ====
section
/-! DEFINITION. One arm per constructor of Instr: a direct call of its meaning, or its rejection by name. -/

namespace Sys2Proof.Machine

def exec (i : Instr) (s : State) : Host.Outcome State Fault Refusal :=
  match i with
  | .nop => Sys2Proof.Machine.execNop s
  | .trap code => Sys2Proof.Machine.execTrap code s
  | .eret => Sys2Proof.Machine.execEret s
  | .halt => Sys2Proof.Machine.execHalt s
  | .bkpt code => Sys2Proof.Machine.execBkpt code s
  | .ctlr d n => Sys2Proof.Machine.execCtlr d n s
  | .ctlw a n => Sys2Proof.Machine.execCtlw a n s
  | .fence sc k => Sys2Proof.Machine.execFence sc k s
  | .dcfence a b => Sys2Proof.Machine.execDcfence a b s
  | .xlinv a k => Sys2Proof.Machine.execXlinv a k s
  | .dictld a lo hi => Sys2Proof.Machine.execDictld a lo hi s
  | .ltrd d a => Sys2Proof.Machine.execLtrd d a s
  | .stamp d => Sys2Proof.Machine.execStamp d s
  | .add d a b => Sys2Proof.Machine.execAdd d a b s
  | .sub d a b => Sys2Proof.Machine.execSub d a b s
  | .and_ d a b => Sys2Proof.Machine.execAnd d a b s
  | .or_ d a b => Sys2Proof.Machine.execOr d a b s
  | .xor d a b => Sys2Proof.Machine.execXor d a b s
  | .shl d a b => Sys2Proof.Machine.execShl d a b s
  | .shr d a b => Sys2Proof.Machine.execShr d a b s
  | .sra d a b => Sys2Proof.Machine.execSra d a b s
  | .mul d a b => Sys2Proof.Machine.execMul d a b s
  | .mulh d a b => Sys2Proof.Machine.execMulh d a b s
  | .mulhz d a b => Sys2Proof.Machine.execMulhz d a b s
  | .div d a b => Sys2Proof.Machine.execDiv d a b s
  | .divz d a b => Sys2Proof.Machine.execDivz d a b s
  | .rem d a b => Sys2Proof.Machine.execRem d a b s
  | .remz d a b => Sys2Proof.Machine.execRemz d a b s
  | .min d a b => Sys2Proof.Machine.execMin d a b s
  | .max d a b => Sys2Proof.Machine.execMax d a b s
  | .minz d a b => Sys2Proof.Machine.execMinz d a b s
  | .maxz d a b => Sys2Proof.Machine.execMaxz d a b s
  | .slt d a b => Sys2Proof.Machine.execSlt d a b s
  | .sltz d a b => Sys2Proof.Machine.execSltz d a b s
  | .seq d a b => Sys2Proof.Machine.execSeq d a b s
  | .sel d a b e => Sys2Proof.Machine.execSel d a b e s
  | .clz d a => Sys2Proof.Machine.execClz d a s
  | .popc d a => Sys2Proof.Machine.execPopc d a s
  | .addi d a imm => Sys2Proof.Machine.execAddi d a imm s
  | .andi d a imm => Sys2Proof.Machine.execAndi d a imm s
  | .ori d a imm => Sys2Proof.Machine.execOri d a imm s
  | .xori d a imm => Sys2Proof.Machine.execXori d a imm s
  | .shi d a k n => Sys2Proof.Machine.execShi d a k n s
  | .lui d imm => Sys2Proof.Machine.execLui d imm s
  | .slti d a imm => Sys2Proof.Machine.execSlti d a imm s
  | .muli d a imm => Sys2Proof.Machine.execMuli d a imm s
  | .brc c a b off => Sys2Proof.Machine.execBrc c a b off s
  | .brci c a imm off => Sys2Proof.Machine.execBrci c a imm off s
  | .j off => Sys2Proof.Machine.execJ off s
  | .call off => Sys2Proof.Machine.execCall off s
  | .jr a => Sys2Proof.Machine.execJr a s
  | .callr d a => Sys2Proof.Machine.execCallr d a s
  | .bnr off => Sys2Proof.Machine.execBnr off s
  | .rpt count len sd sa sb sx => Sys2Proof.Machine.execRpt count len sd sa sb sx s
  | .fadd d a b => Sys2Proof.Machine.execFadd d a b s
  | .fsub d a b => Sys2Proof.Machine.execFsub d a b s
  | .fmul d a b => Sys2Proof.Machine.execFmul d a b s
  | .ffma d a b e => Sys2Proof.Machine.execFfma d a b e s
  | .fdiv d a b => Sys2Proof.Machine.execFdiv d a b s
  | .fsqrt d a => Sys2Proof.Machine.execFsqrt d a s
  | .fmin d a b => Sys2Proof.Machine.execFmin d a b s
  | .fmax d a b => Sys2Proof.Machine.execFmax d a b s
  | .fcmp d a b c => Sys2Proof.Machine.execFcmp d a b c s
  | .fcvt d a k => Sys2Proof.Machine.execFcvt d a k s
  | .fclass d a => Sys2Proof.Machine.execFclass d a s
  | .vadd d a b m t => Sys2Proof.Machine.execVadd d a b m t s
  | .vsub d a b m t => Sys2Proof.Machine.execVsub d a b m t s
  | .vmul d a b m t => Sys2Proof.Machine.execVmul d a b m t s
  | .vfma d a b m t => Sys2Proof.Machine.execVfma d a b m t s
  | .vmin d a b m t => Sys2Proof.Machine.execVmin d a b m t s
  | .vmax d a b m t => Sys2Proof.Machine.execVmax d a b m t s
  | .vminz d a b m t => Sys2Proof.Machine.execVminz d a b m t s
  | .vmaxz d a b m t => Sys2Proof.Machine.execVmaxz d a b m t s
  | .vabs d a m t => Sys2Proof.Machine.execVabs d a m t s
  | .vneg d a m t => Sys2Proof.Machine.execVneg d a m t s
  | .vadds d a b m t => Sys2Proof.Machine.execVadds d a b m t s
  | .vsubs d a b m t => Sys2Proof.Machine.execVsubs d a b m t s
  | .vmulh d a b m t => Sys2Proof.Machine.execVmulh d a b m t s
  | .vand d a b m t => Sys2Proof.Machine.execVand d a b m t s
  | .vor d a b m t => Sys2Proof.Machine.execVor d a b m t s
  | .vxor d a b m t => Sys2Proof.Machine.execVxor d a b m t s
  | .vshl d a b m t => Sys2Proof.Machine.execVshl d a b m t s
  | .vshr d a b m t => Sys2Proof.Machine.execVshr d a b m t s
  | .vsra d a b m t => Sys2Proof.Machine.execVsra d a b m t s
  | .vcvt d a dt m t => Sys2Proof.Machine.execVcvt d a dt m t s
  | .vperm d a b m t => Sys2Proof.Machine.execVperm d a b m t s
  | .vred d a f m t => Sys2Proof.Machine.execVred d a f m t s
  | .vbcst d a m t => Sys2Proof.Machine.execVbcst d a m t s
  | .vmovs d a lane t => Sys2Proof.Machine.execVmovs d a lane t s
  | .vrcp d a m => Sys2Proof.Machine.execVrcp d a m s
  | .vrsq d a m => Sys2Proof.Machine.execVrsq d a m s
  | .vexp2 d a m => Sys2Proof.Machine.execVexp2 d a m s
  | .vlog2 d a m => Sys2Proof.Machine.execVlog2 d a m s
  | .vcmp d a b m t c => Sys2Proof.Machine.execVcmp d a b m t c s
  | .mand d a b => Sys2Proof.Machine.execMand d a b s
  | .mor d a b => Sys2Proof.Machine.execMor d a b s
  | .mnot d a => Sys2Proof.Machine.execMnot d a s
  | .mcnt d a => Sys2Proof.Machine.execMcnt d a s
  | .pmac x a b nr md pl => Sys2Proof.Machine.execPmac x a b nr md pl s
  | .pgrp x a b nr md pl => Sys2Proof.Machine.execPgrp x a b nr md pl s
  | .pcmd x a b nr md pl => Sys2Proof.Machine.execPcmd x a b nr md pl s
  | .accz x nr => Sys2Proof.Machine.execAccz x nr s
  | .accrd x a b nr => Sys2Proof.Machine.execAccrd x a b nr s
  | .accwr x a b nr => Sys2Proof.Machine.execAccwr x a b nr s
  | .accst x a fill nr dest => Sys2Proof.Machine.execAccst x a fill nr dest s
  | .accld x a nr => Sys2Proof.Machine.execAccld x a nr s
  | .seam x a b nr role => Sys2Proof.Machine.execSeam x a b nr role s
  | .baddq d a b dxb4 => Sys2Proof.Machine.execBaddq d a b dxb4 s
  | .dxbpk d a b dxb4 => Sys2Proof.Machine.execDxbpk d a b dxb4 s
  | .dxbun d a hi dxb4 => Sys2Proof.Machine.execDxbun d a hi dxb4 s
  | .lds d a sz imm => Sys2Proof.Machine.execLds d a sz imm s
  | .sts d a sz imm => Sys2Proof.Machine.execSts d a sz imm s
  | .ldw d a nr sz ord off => Sys2Proof.Machine.execLdw d a nr sz ord off s
  | .stw d a nr sz ord off => Sys2Proof.Machine.execStw d a nr sz ord off s
  | .ldl d a nr sz ord off => Sys2Proof.Machine.execLdl d a nr sz ord off s
  | .stl d a nr sz ord off => Sys2Proof.Machine.execStl d a nr sz ord off s
  | .ldd d a nr sz ord st off => Sys2Proof.Machine.execLdd d a nr sz ord st off s
  | .std d a nr sz ord off => Sys2Proof.Machine.execStd d a nr sz ord off s
  | .ldf d a nr sz ord off => Sys2Proof.Machine.execLdf d a nr sz ord off s
  | .stf d a nr sz ord off => Sys2Proof.Machine.execStf d a nr sz ord off s
  | .ldh d a nr sz ord off => Sys2Proof.Machine.execLdh d a nr sz ord off s
  | .sth d a nr sz ord off => Sys2Proof.Machine.execSth d a nr sz ord off s
  | .ldc d a nr sz peek off => Sys2Proof.Machine.execLdc d a nr sz peek off s
  | .stp d a nr sz off => Sys2Proof.Machine.execStp d a nr sz off s
  | .feset a nr x => Sys2Proof.Machine.execFeset a nr x s
  | .feclr a nr x => Sys2Proof.Machine.execFeclr a nr x s
  | .fepeek d a nr x => Sys2Proof.Machine.execFepeek d a nr x s
  | .amadd d a nr w b ord sys => Sys2Proof.Machine.execAmadd d a nr w b ord sys s
  | .amand d a nr w b ord sys => Sys2Proof.Machine.execAmand d a nr w b ord sys s
  | .amor d a nr w b ord sys => Sys2Proof.Machine.execAmor d a nr w b ord sys s
  | .amxor d a nr w b ord sys => Sys2Proof.Machine.execAmxor d a nr w b ord sys s
  | .ammin d a nr w b ord sys => Sys2Proof.Machine.execAmmin d a nr w b ord sys s
  | .ammax d a nr w b ord sys => Sys2Proof.Machine.execAmmax d a nr w b ord sys s
  | .amminz d a nr w b ord sys => Sys2Proof.Machine.execAmminz d a nr w b ord sys s
  | .ammaxz d a nr w b ord sys => Sys2Proof.Machine.execAmmaxz d a nr w b ord sys s
  | .amswp d a nr w b ord sys => Sys2Proof.Machine.execAmswp d a nr w b ord sys s
  | .amcas d a nr w b ord sys => Sys2Proof.Machine.execAmcas d a nr w b ord sys s
  | .redadd a nr w b => Sys2Proof.Machine.execRedadd a nr w b s
  | .redfadd a nr b => Sys2Proof.Machine.execRedfadd a nr b s
  | .redmin a nr w b => Sys2Proof.Machine.execRedmin a nr w b s
  | .redmax a nr w b => Sys2Proof.Machine.execRedmax a nr w b s
  | .redand a nr w b => Sys2Proof.Machine.execRedand a nr w b s
  | .redor a nr w b => Sys2Proof.Machine.execRedor a nr w b s
  | .redxor a nr w b => Sys2Proof.Machine.execRedxor a nr w b s
  | .send d a nr ch rel => Sys2Proof.Machine.execSend d a nr ch rel s
  | .recv d a nr ch probe acq => Sys2Proof.Machine.execRecv d a nr ch probe acq s
  | .recvReply d a nr probe acq => Sys2Proof.Machine.execRecvReply d a nr probe acq s
  | .rcall d a nr v rel ch => Sys2Proof.Machine.execRcall d a nr v rel ch s
  | .rret d a => Sys2Proof.Machine.execRret d a s
  | .mmask a => Sys2Proof.Machine.execMmask a s
  | .munmask => Sys2Proof.Machine.execMunmask s
  | .mvec => Sys2Proof.Machine.execMvec s
  | .qpush a nr q => Sys2Proof.Machine.execQpush a nr q s
  | .qpop d nr q => Sys2Proof.Machine.execQpop d nr q s
  | .boq a nr q => Sys2Proof.Machine.execBoq a nr q s
  | .brq nr q off => Sys2Proof.Machine.execBrq nr q off s
  | .lnkp d nr dir => Sys2Proof.Machine.execLnkp d nr dir s
  | .lnkpForward d nr dir => Sys2Proof.Machine.execLnkpForward d nr dir s
  | .lnkw a nr dir => Sys2Proof.Machine.execLnkw a nr dir s
  | .garr a rel => Sys2Proof.Machine.execGarr a rel s
  | .garrr a b rel => Sys2Proof.Machine.execGarrr a b rel s
  | .gwait d a nr => Sys2Proof.Machine.execGwait d a nr s
  | .mon a nr sp e => Sys2Proof.Machine.execMon a nr sp e s
  | .park d a => Sys2Proof.Machine.execPark d a s
  | .spawn a nr => Sys2Proof.Machine.execSpawn a nr s
  | .take d nr => Sys2Proof.Machine.execTake d nr s
  | .steal d a nr => Sys2Proof.Machine.execSteal d a nr s
  | .xpost a nr b => Sys2Proof.Machine.execXpost a nr b s
  | .xtake d nr b => Sys2Proof.Machine.execXtake d nr b s
  | .copy a nr => Sys2Proof.Machine.execCopy a nr s
  | .gath a nr => Sys2Proof.Machine.execGath a nr s
  | .slice a nr => Sys2Proof.Machine.execSlice a nr s
  | .lease d a nr => Sys2Proof.Machine.execLease d a nr s
  | .unlease a => Sys2Proof.Machine.execUnlease a s
  | .cwait d a nr => Sys2Proof.Machine.execCwait d a nr s
  | .cwset d a => Sys2Proof.Machine.execCwset d a s
  | .round a nr => Sys2Proof.Machine.execRound a nr s
  | .rview d a acq => Sys2Proof.Machine.execRview d a acq s
  | .irget a nr => Sys2Proof.Machine.execIrget a nr s
  | .irpass a t => Sys2Proof.Machine.execIrpass a t s
  | .gear nr spin => Sys2Proof.Machine.execGear nr spin s
  | .launch d a nr => Sys2Proof.Machine.execLaunch d a nr s
  | .done => Sys2Proof.Machine.execDone s
  | .claimExpiry c k => Sys2Proof.Machine.execClaimExpiry c k s
  | .parkTimeout c k => Sys2Proof.Machine.execParkTimeout c k s
  | .mmaskExpiry c k => Sys2Proof.Machine.execMmaskExpiry c k s
  | .messageInterrupt c k => Sys2Proof.Machine.execMessageInterrupt c k s
  | .postedStorePerform c j => Sys2Proof.Machine.execPostedStorePerform c j s
  | .loadReadAtTarget c k => Sys2Proof.Machine.execLoadReadAtTarget c k s
  | .pageWalkComplete c j ev => Sys2Proof.Machine.execPageWalkComplete c j ev s
  | .lineFillComplete c j ev => Sys2Proof.Machine.execLineFillComplete c j ev s
  | .atomicAtHome c k => Sys2Proof.Machine.execAtomicAtHome c k s
  | .reductionAtHome c j => Sys2Proof.Machine.execReductionAtHome c j s
  | .windowAccessPerform c k => Sys2Proof.Machine.execWindowAccessPerform c k s
  | .mailboxStoreDeliver c j => Sys2Proof.Machine.execMailboxStoreDeliver c j s
  | .messageArrival j => Sys2Proof.Machine.execMessageArrival j s
  | .creditRequestArrival j => Sys2Proof.Machine.execCreditRequestArrival j s
  | .creditGrantArrival j => Sys2Proof.Machine.execCreditGrantArrival j s
  | .creditReturnArrival j => Sys2Proof.Machine.execCreditReturnArrival j s
  | .replyArrival j => Sys2Proof.Machine.execReplyArrival j s
  | .linkWordArrival j => Sys2Proof.Machine.execLinkWordArrival j s
  | .linkCreditReturn j => Sys2Proof.Machine.execLinkCreditReturn j s
  | .probeSend c k => Sys2Proof.Machine.execProbeSend c k s
  | .probeArrival j => Sys2Proof.Machine.execProbeArrival j s
  | .deadlockConfirm j => Sys2Proof.Machine.execDeadlockConfirm j s
  | .stealRequestArrival j => Sys2Proof.Machine.execStealRequestArrival j s
  | .stealAnswerLanding j => Sys2Proof.Machine.execStealAnswerLanding j s
  | .launchIntake p => Sys2Proof.Machine.execLaunchIntake p s
  | .nodePlacement p => Sys2Proof.Machine.execNodePlacement p s
  | .placementStarvation p q n => Sys2Proof.Machine.execPlacementStarvation p q n s
  | .coreCompletionSignal c => Sys2Proof.Machine.execCoreCompletionSignal c s
  | .nodeCompletion p q n => Sys2Proof.Machine.execNodeCompletion p q n s
  | .watchdogExpiry p q n => Sys2Proof.Machine.execWatchdogExpiry p q n s
  | .nodeFault p => Sys2Proof.Machine.execNodeFault p s
  | .copyDestWrite c j off => Sys2Proof.Machine.execCopyDestWrite c j off s
  | .copyRecordWrite c j => Sys2Proof.Machine.execCopyRecordWrite c j s
  | .pressOpStart c => Sys2Proof.Machine.execPressOpStart c s
  | .pressPlaneRead c => Sys2Proof.Machine.execPressPlaneRead c s
  | .pressOpComplete c => Sys2Proof.Machine.execPressOpComplete c s
  | .engineTrapDelivery c j => Sys2Proof.Machine.execEngineTrapDelivery c j s
  | .pgrpShareArrival j => Sys2Proof.Machine.execPgrpShareArrival j s
  | .pgrpShareEnd c j => Sys2Proof.Machine.execPgrpShareEnd c j s
  | .pcmdStepArrival j => Sys2Proof.Machine.execPcmdStepArrival j s
  | .pcmdStepEnd j => Sys2Proof.Machine.execPcmdStepEnd j s
  | .accEngineComplete c j => Sys2Proof.Machine.execAccEngineComplete c j s
  | .seamForwardArrival j => Sys2Proof.Machine.execSeamForwardArrival j s
  | .roundIncrement p q n => Sys2Proof.Machine.execRoundIncrement p q n s
  | .ironPassComplete p q n => Sys2Proof.Machine.execIronPassComplete p q n s
  | .roundNoticeArrival j => Sys2Proof.Machine.execRoundNoticeArrival j s
  | .viewInstall c j => Sys2Proof.Machine.execViewInstall c j s
  | .publishWriteArrival p q n off data => Sys2Proof.Machine.execPublishWriteArrival p q n off data s
  | .publishRoundArrival p q n val => Sys2Proof.Machine.execPublishRoundArrival p q n val s
  | .subscriptionLost p q n => Sys2Proof.Machine.execSubscriptionLost p q n s
  | .barrierArrival j => Sys2Proof.Machine.execBarrierArrival j s
  | .barrierNoticeArrival j => Sys2Proof.Machine.execBarrierNoticeArrival j s
  | .gearChangeEffect c => Sys2Proof.Machine.execGearChangeEffect c s
  | .restoreRequestGrant c => Sys2Proof.Machine.execRestoreRequestGrant c s
  | .transitionWindowClose die => Sys2Proof.Machine.execTransitionWindowClose die s
  | .unitLimitSet die n => Sys2Proof.Machine.execUnitLimitSet die n s
  | .autosoakDrop c => Sys2Proof.Machine.execAutosoakDrop c s
  | .vent c temps => Sys2Proof.Machine.execVent c temps s
  | .ventForceSoak c temps => Sys2Proof.Machine.execVentForceSoak c temps s
  | .marginReplan row => Sys2Proof.Machine.execMarginReplan row s
  | .sramRailStep row bad => Sys2Proof.Machine.execSramRailStep row bad s
  | .rowUncorrectableError c k => Sys2Proof.Machine.execRowUncorrectableError c k s
  | .lpddrThermalThreshold stack temp => Sys2Proof.Machine.execLpddrThermalThreshold stack temp s
  | .preempt c => Sys2Proof.Machine.execPreempt c s
  | .saveCancel c => Sys2Proof.Machine.execSaveCancel c s
  | .restore c => Sys2Proof.Machine.execRestore c s
  | .leaseExpiry p j => Sys2Proof.Machine.execLeaseExpiry p j s
  | .leaseEnd p j => Sys2Proof.Machine.execLeaseEnd p j s
  | .paletteReload p => Sys2Proof.Machine.execPaletteReload p s
  | .xlinvComplete p => Sys2Proof.Machine.execXlinvComplete p s
  | .dcfenceWriteback c k => Sys2Proof.Machine.execDcfenceWriteback c k s
  | .gatewayBlockArrival port idx red blk => Sys2Proof.Machine.execGatewayBlockArrival port idx red blk s
  | .debugStop c k => Sys2Proof.Machine.execDebugStop c k s
  | .debugResume c k => Sys2Proof.Machine.execDebugResume c k s
  | .debugStep c k => Sys2Proof.Machine.execDebugStep c k s
  | .hostWindowAccess p win off len wdata => Sys2Proof.Machine.execHostWindowAccess p win off len wdata s
  | .launchDoorbell p addr => Sys2Proof.Machine.execLaunchDoorbell p addr s
  | .windowErrorCountRead p => Sys2Proof.Machine.execWindowErrorCountRead p s
  | .traceDropCountRead p => Sys2Proof.Machine.execTraceDropCountRead p s
  | .configCommit p val => Sys2Proof.Machine.execConfigCommit p val s
  | .controlPageWrite p reg val => Sys2Proof.Machine.execControlPageWrite p reg val s
  | .partitionCreate p bays slices chans ports => Sys2Proof.Machine.execPartitionCreate p bays slices chans ports s
  | .partitionTeardown p => Sys2Proof.Machine.execPartitionTeardown p s
  | .boot imageOk version meas => Sys2Proof.Machine.execBoot imageOk version meas s
  | .lifecycleTransition dest => Sys2Proof.Machine.execLifecycleTransition dest s
  | .bleachAlarm cause => Sys2Proof.Machine.execBleachAlarm cause s
  | .attestationReport nonce => Sys2Proof.Machine.execAttestationReport nonce s
  | .debugUnlock tokenOk hash => Sys2Proof.Machine.execDebugUnlock tokenOk hash s
  | .reset => Sys2Proof.Machine.execReset s
  | .illegalInstruction => Sys2Proof.Machine.execIllegalInstruction s
  | .fetchFault => Sys2Proof.Machine.execFetchFault s
  | .seamOwnBusyEnd c j => Sys2Proof.Machine.execSeamOwnBusyEnd c j s
  | .freezeClear p mask => Sys2Proof.Machine.execFreezeClear p mask s
  | .junctionCooled c temp => Sys2Proof.Machine.execJunctionCooled c temp s
  | .expanderReportsThrottling port share => Sys2Proof.Machine.execExpanderReportsThrottling port share s
  | .routeTableWrite port routes ring => Sys2Proof.Machine.execRouteTableWrite port routes ring s

end Sys2Proof.Machine
end

