-- ==== Sys2Proof/Machine/Issue.lean ====
section
/-! DEFINITION. One core cycle (R21, R24, R40, R100, R243, R246, R251) and one turn of the device (assumption 1). -/

namespace Sys2Proof.Machine

/-- After an issue under a debugger's step (R251): the slot stops again, or takes STEP in step mode `trap`; one that the step has parked,
by `nr=park` or by PARK, ends parked and stopped in either mode (assumption 108). -/
def afterStep (s : State) : State :=
  let l := slot s
  if l.stepping then
    let s := modSlot s (fun l => { l with stepping := false })
    match l.st with
    | .empty => s
    | st =>
      if l.stepTrap && st == .runnable then takeTrap s s.curCore s.curSlot .step 0 l.pc
      else stopSlot s s.curCore s.curSlot
  else s

/-- The current slot issues: fetch, decode, perform. -/
def issue (s : State) : Out :=
  match fetchNow s with
  | .error (t, epc) => .next (takeTrap s s.curCore s.curSlot t 0 epc)
  | .ok (w, fr) =>
    let s1 := modSlot (fetchMark s) (fun l => { l with frame := fr })
    match decodeNow s1 w with
    | none => .next (raise s1 .illegal)
    | some i => exec i s1

/-- The current slot's cycle: a debug stop, a message interrupt in place of issuing at the PC, or an issue; a slot that is
not runnable stays idle. -/
def slotCycle (s : State) : Out :=
  if (slot s).stopReq then .next (stopSlot s s.curCore s.curSlot)
  else
    let s1 := modCur s (fun k => k.tryInt s.curSlot)
    if runnableNow s1 then
      match issue s1 with
      | .next t => .next (afterStep t)
      | o => o
    else .next s1

/-- A core whose conditions for an autosoak drop do not hold begins to count anew (R232). -/
def Core.stir (k : Core) : Core := if k.mayDrop then k else { k with calm := 0 }

/-- The next core cycle of core `c` (R21): the slot that owns it has its cycle. A core that is being saved issues nothing, though
its rotations still count (R37, R246), and a saved core counts nothing (R248). A sibling's cycle is its own also while
a slot runs its trap handler, and no claim of a saved slot expires (R256, Table 19.4). -/
def coreCycle (s : State) (c : Nat) : Out :=
  let k := getCore s c
  match k.save with
  | .saved => .next s
  | .saving => .next (endCycleAt (modCore s c Core.ageNow) c)
  | .no =>
    let n := k.cyc % 8
    let s1 := { modCore s c (fun k => k.startCycle.stir) with curCore := c, curSlot := n }
    if (getCore s1 c).save == .saving then .next (endCycleAt s1 c)
    else
      match slotCycle s1 with
      | .next t => .next (endCycleAt t c)
      | o => o

/-- Whether a core counts as searching (R126): it runs a part, and every non-empty slot's last TAKE or STEAL was refused. -/
def Core.searching (k : Core) : Bool :=
  k.task.isSome && !k.allEmpty && k.slots.all (fun e => e.2.st == .empty || e.2.refused)

/-- A tick of the mesh clock (R18, R126, R232). -/
def meshTick (s : State) : State :=
  { mapCores s (fun _ k => { k with search := if k.searching then k.search + 1 else k.search,
                                    calm := if k.mayDrop then k.calm + 1 else 0 }) with cycle := s.cycle + 1 }

/-- Whether a step belongs to a slot's own core cycle (R21, R243): an encoded instruction, the traps of its fetch and decoding,
and a message interrupt, which takes the place of issuing. -/
def Instr.inCycle : Instr → Bool
  | .fetchFault | .illegalInstruction | .messageInterrupt _ _ => true
  | i => i.isEncoded

/-- Perform one turn. A step that belongs to a core cycle happens only there, so as a turn of its own it does nothing. -/
def takeTurn (t : Turn) (s : State) : Out :=
  match t with
  | .coreCycle c => if c < 40960 then coreCycle s c else .next s
  | .meshTick => .next (meshTick s)
  | .act i => if Instr.inCycle i then .next s else exec i s
  | .debugWrite c u a d => .next (debugWrite s c u a d)
  | .debugRead c u a n => .next (debugRead s c u a n)
  | .portRetry j => .next (landHead s j)
  | .farPoison l => .next (farPoison s l)
  | .keyProvision => .next (keyProvision s)

end Sys2Proof.Machine
end

