-- ==== Sys2Proof/Machine/Step.lean ====
section
/-! DEFINITION. One step of the device: the next turn of the agenda, or a free turn when it lists none (assumption 1); and
how the host places an instruction where the next step fetches. -/

namespace Sys2Proof.Machine

/-- The turn a state takes next. -/
def nextTurn (s : State) : Turn :=
  match s.agenda with
  | t :: _ => t
  | [] => Config.freeTurn s.turns

/-- One step. -/
def step (s : State) : Host.Outcome State Fault Refusal :=
  takeTurn (nextTurn s) { s with agenda := s.agenda.drop 1, turns := s.turns + 1 }

/-- `s` set up so that the next step fetches and runs the instruction: partition 0 with bay 0 and a committed page-table
root at 0x1000, whose entry maps the first GiB of virtual addresses onto physical memory; the word at the PC of slot 0 of
core 0, which is runnable; and that core's cycle as the next turn. It stands for a launch that placed a task there
(assumption 7). -/
def State.withFetchWord (s : State) (nbits w : Nat) : State :=
  let word := if nbits ≤ 32 then w % 2 ^ 32 else 0
  let s1 := memWrite s .dev 0x1000 (toBytes 8 0x2001)
  let s2 := memWrite s1 .dev 0x2000 (toBytes 8 0xFD)
  let s3 := memWrite s2 .dev 0x10000 (toBytes 4 word)
  let s4 := modPart s3 0 (fun p =>
    let cf := { p.conf with root := 0x1001 }
    { p with live := true, bays := [0], conf := cf })
  let s5 := modCore s4 0 (fun k =>
    let k1 := k.modSlot 0 (fun l =>
      { l with st := .runnable, pc := 0x10000, frame := none, stopReq := false, wake := none })
    { k1 with cyc := 0, save := .no, preReq := false })
  { s5 with agenda := [.coreCycle 0] }

end Sys2Proof.Machine
end

