-- ==== Sys2Proof/Safety.lean ====
section
/-! DEFINITION. The terms the claims use: what a step changes and what it leaves alone, how a ready and a not-ready outcome
look, and the invariants of the device. -/

namespace Sys2Proof.Safety

open Sys2Proof.Machine

/-! ## Frames -/

/-- What an instruction may change beside the PC: registers of the current slot, and places of scratchpads, full/empty bits,
accumulators and memories. -/
structure Changes where
  sreg : List SReg := []
  vreg : List VReg := []
  mreg : List MReg := []
  /-- Scratchpad bytes: core and address. -/
  pad : Nat → Nat → Prop := fun _ _ => False
  /-- Full/empty bits: core and word. -/
  fe : Nat → Nat → Prop := fun _ _ => False
  /-- Accumulator elements: core and place. -/
  acc : Nat → Nat → Prop := fun _ _ => False
  /-- Bytes of the three memories. -/
  mem : Target → Nat → Prop := fun _ _ => False
  /-- Cores whose Lamport clock may step. -/
  lam : Nat → Prop := fun _ => False

/-- Two slots agree in every special register but `status`, the trap registers among them. -/
structure SameSpecials (l m : Slot) : Prop where
  epc : m.epc = l.epc
  ecause : m.ecause = l.ecause
  evec : m.evec = l.evec
  msgvec : m.msgvec = l.msgvec
  msgEn : m.msgEn = l.msgEn
  msgMasked : m.msgMasked = l.msgMasked
  msgLeft : m.msgLeft = l.msgLeft
  pfmt : m.pfmt = l.pfmt
  pgam : m.pgam = l.pgam
  rnd : m.rnd = l.rnd
  nt : m.nt = l.nt

/-- `t` keeps what `s` holds but for the listed changes, the current slot's PC and its `status.nr` and `ncause`, which a
statement gives by itself. -/
structure Keeps (s t : State) (ch : Changes) : Prop where
  core : t.curCore = s.curCore
  slot : t.curSlot = s.curSlot
  scalar : ∀ c n r, (c = s.curCore → n = s.curSlot → r ∉ ch.sreg) → (getSlot t c n).getS r = (getSlot s c n).getS r
  vector : ∀ c n r, (c = s.curCore → n = s.curSlot → r ∉ ch.vreg) → (getSlot t c n).getV r = (getSlot s c n).getV r
  mask : ∀ c n r, (c = s.curCore → n = s.curSlot → r ∉ ch.mreg) → (getSlot t c n).getM r = (getSlot s c n).getM r
  otherPc : ∀ c n, ¬ (c = s.curCore ∧ n = s.curSlot) → (getSlot t c n).pc = (getSlot s c n).pc
  otherStatus : ∀ c n, ¬ (c = s.curCore ∧ n = s.curSlot) →
    (getSlot t c n).nr = (getSlot s c n).nr ∧ (getSlot t c n).ncause = (getSlot s c n).ncause
  mode : ∀ c n, (getSlot t c n).sys = (getSlot s c n).sys
  specials : ∀ c n, SameSpecials (getSlot s c n) (getSlot t c n)
  gear : ∀ c, (getCore t c).spin = (getCore s c).spin ∧ (getCore t c).gearEff = (getCore s c).gearEff ∧
    (getCore t c).autosoak = (getCore s c).autosoak
  clocks : t.cycle = s.cycle ∧ ∀ c, (getCore t c).vents = (getCore s c).vents
  lamport : ∀ c, ¬ ch.lam c → (getCore t c).lamport = (getCore s c).lamport
  pad : ∀ c a, ¬ ch.pad c a → sget 0 (getCore t c).sp a = sget 0 (getCore s c).sp a
  fe : ∀ c w, ¬ ch.fe c w → (getCore t c).feBit w = (getCore s c).feBit w
  acc : ∀ c e, ¬ ch.acc c e → sget 0 (getCore t c).acc e = sget 0 (getCore s c).acc e
  mem : ∀ tg a, ¬ ch.mem tg a → readByte t tg a = readByte s tg a

/-- What R26 names beside the registers is the same in two cores: data and outcome queues, link buffers and their credits, channels,
mailboxes, deque indices, channel and press credits, round views. -/
structure SameStructs (k m : Core) : Prop where
  dq : m.dq = k.dq
  bq : m.bq = k.bq
  link : m.link = k.link
  linkCr : m.linkCr = k.linkCr
  chans : m.chans = k.chans
  chFree : m.chFree = k.chFree
  mb : m.mb = k.mb
  mbFull : m.mbFull = k.mbFull
  dqHead : m.dqHead = k.dqHead
  dqTail : m.dqTail = k.dqTail
  landings : m.landings = k.landings
  credits : m.credits = k.credits
  pressCr : m.pressCr = k.pressCr
  view : m.view = k.view

/-- Beside registers nothing has moved: no structure of a core, no posted store, no packet, no claim, no monitor, no handler mark. -/
structure Untouched (s t : State) : Prop where
  structs : ∀ c, SameStructs (getCore s c) (getCore t c)
  psb : ∀ c, (getCore t c).psb = (getCore s c).psb
  net : t.net = s.net
  slots : ∀ c n, (getSlot t c n).claims = (getSlot s c n).claims ∧ (getSlot t c n).mons = (getSlot s c n).mons ∧
    (getSlot t c n).inHandler = (getSlot s c n).inHandler

/-- The PC after an instruction that falls through: PC + 4 outside repeat frames (R198 gives it inside one). -/
def nextPc (s : State) : VA := (slot s).advance.pc

/-! ## Outcomes -/

/-- The current slot has fallen through with `status.nr` and `ncause` as they were: the end of an instruction that has no
not-ready outcome. -/
def FallsThrough (s t : State) : Prop :=
  (slot t).pc = nextPc s ∧ (slot t).nr = (slot s).nr ∧ (slot t).ncause = (slot s).ncause

/-- The current slot has fallen through ready: `status.nr` and `ncause` are 0 (R28). -/
def Ready (s t : State) : Prop := (slot t).pc = nextPc s ∧ (slot t).nr = false ∧ (slot t).ncause = 0

/-- An instruction completes with `v` in scalar register `d` and changes nothing else; a write to s0 is discarded (R79). -/
def ScalarEffect (i : Instr) (s : State) (d : SReg) (v : W64) : Prop :=
  ∃ t, exec i s = .next t ∧ rdS t d = (if d = 0 then 0 else v) ∧ FallsThrough s t ∧ Keeps s t { sreg := [d] } ∧
    Untouched s t

/-- An instruction completes with `v` in vector register `d` and changes nothing else. -/
def VectorEffect (i : Instr) (s : State) (d : VReg) (v : V512) : Prop :=
  ∃ t, exec i s = .next t ∧ rdV t d = v ∧ FallsThrough s t ∧ Keeps s t { vreg := [d] } ∧ Untouched s t

/-- A lane-wise instruction completes with `f i` in each active lane i of vector register `d`; an inactive lane keeps its
value (R368). -/
def LaneEffect (i : Instr) (s : State) (d : VReg) (m : MReg) (t : LaneTy) (f : Nat → Nat) : Prop :=
  ∃ v, VectorEffect i s d v ∧ ∀ j, j < t.lanes →
    lane t.width v j = (if (rdM s m).getLsbD j then f j % 2 ^ t.width else lane t.width (rdV s d) j)

/-- An instruction completes with `v` in mask register `d` and changes nothing else; a write to m0 is discarded (R79). -/
def MaskEffect (i : Instr) (s : State) (d : MReg) (v : W64) : Prop :=
  ∃ t, exec i s = .next t ∧ rdM t d = (if d = 0 then BitVec.allOnes 64 else v) ∧ FallsThrough s t ∧
    Keeps s t { mreg := [d] } ∧ Untouched s t

/-- An instruction continues at `pc` and changes nothing but the scalar registers listed. -/
def JumpEffect (i : Instr) (s : State) (pc : VA) (ds : List SReg) : Prop :=
  ∃ t, exec i s = .next t ∧ (slot t).pc = pc ∧ (slot t).nr = (slot s).nr ∧ (slot t).ncause = (slot s).ncause ∧
    Keeps s t { sreg := ds } ∧ Untouched s t

/-- An instruction that has no not-ready outcome completes, changes what `ch` lists, and leaves a state with `P`. -/
def Completes (i : Instr) (s : State) (ch : Changes) (P : State → Prop) : Prop :=
  ∃ t, exec i s = .next t ∧ FallsThrough s t ∧ Keeps s t ch ∧ P t

/-- An instruction completes ready (R28), changes what `ch` lists, and leaves a state with `P`. -/
def CompletesReady (i : Instr) (s : State) (ch : Changes) (P : State → Prop) : Prop :=
  ∃ t, exec i s = .next t ∧ Ready s t ∧ Keeps s t ch ∧ P t

/-- An event of the device takes its effect, which leaves a state with `P`. -/
def Happens (i : Instr) (s : State) (P : State → Prop) : Prop := ∃ t, exec i s = .next t ∧ P t

/-- No slot's registers, PC, mode, status or saved trap values differ: what an event beside the slots' own issue leaves alone. -/
def SlotsSame (s t : State) : Prop := ∀ c k,
  (getSlot t c k).regs = (getSlot s c k).regs ∧ (getSlot t c k).vregs = (getSlot s c k).vregs ∧
  (getSlot t c k).mregs = (getSlot s c k).mregs ∧ (getSlot t c k).pc = (getSlot s c k).pc ∧
  (getSlot t c k).sys = (getSlot s c k).sys ∧ (getSlot t c k).nr = (getSlot s c k).nr ∧
  (getSlot t c k).ncause = (getSlot s c k).ncause ∧ (getSlot t c k).epc = (getSlot s c k).epc ∧
  (getSlot t c k).ecause = (getSlot s c k).ecause

/-- No byte of a memory differs. -/
def MemSame (s t : State) : Prop := ∀ tg a, readByte t tg a = readByte s tg a

/-- No byte of a memory differs but for `n` bytes from `a` on in memory `tg`. -/
def MemOutside (s t : State) (tg : Target) (a n : Nat) : Prop :=
  ∀ g x, (g = tg → x < a ∨ a + n ≤ x) → readByte t g x = readByte s g x

/-- An event of the device takes its effect, changes no slot's registers and no byte of memory, and leaves a state with `P`. -/
def HappensQuietly (i : Instr) (s : State) (P : State → Prop) : Prop :=
  ∃ t, exec i s = .next t ∧ SlotsSame s t ∧ MemSame s t ∧ P t

/-- Slot `k` of core `c` takes a trap (R243): the epc and cause are saved, system mode is entered and the PC becomes `evec`. -/
def Entered (s t : State) (c k cause : Nat) (epc : VA) : Prop :=
  (getSlot t c k).epc = epc ∧ (getSlot t c k).ecause = BitVec.ofNat 64 cause ∧ (getSlot t c k).sys = true ∧
  (getSlot t c k).pc = (getSlot s c k).evec

/-- Packet `p` at place `i` of the mesh may arrive: the posted work it follows is performed, and no packet for the same target is
ahead of it (R150, R255). -/
def Arrives (s : State) (i : Nat) (p : Packet) : Prop :=
  s.net[i]? = some p ∧ (getCore s p.src).openBefore p.slot p.after = false ∧
  ∀ q ∈ s.net.take i, q.body.target ≠ p.body.target

/-- The packets of the mesh but the one at place `i`. -/
def netWithout (s : State) (i : Nat) : List Packet := s.net.eraseIdx i

/-- The packet the current slot sends: a stamped one carries the core's next Lamport value (R255), a release follows the slot's
posted work, and any other the work that an earlier FENCE covers (R149, R150). -/
def sent (s : State) (rel stamped : Bool) (b : Body) : Packet :=
  { src := s.curCore, slot := s.curSlot, after := (if rel then (cur s).nextId else max (slot s).ldMark (slot s).stMark),
    lam := (if stamped then (cur s).lamport + 1 else 0), body := b }

/-- The register a load of a size writes (Table 4.3): v[d] for size `v`, else s[d]. -/
def loadChange (d : SReg) (sz : Size) : Changes :=
  if sz = .v then { vreg := [⟨d.val % 16, Nat.mod_lt _ (by decide)⟩] } else { sreg := [d] }

/-- The destination of a load holds its bytes (Table 4.3): `b`, `h` and `w` sign-extend, `bz`, `hz` and `wz` zero-extend. -/
def Loaded (t : State) (d : SReg) (sz : Size) (bytes : List Byte) : Prop :=
  let v := leNat bytes
  let s := fun (x : W64) => rdS t d = (if d = 0 then 0 else x)
  match sz with
  | .v => sget 0 (slot t).vregs d.val = BitVec.ofNat 512 v
  | .b => s ((BitVec.ofNat 8 v).signExtend 64)
  | .h => s ((BitVec.ofNat 16 v).signExtend 64)
  | .w => s ((BitVec.ofNat 32 v).signExtend 64)
  | .d | .bz | .hz | .wz => s (BitVec.ofNat 64 v)

/-- The bytes a store of a size writes: v[d] for size `v`, else the low bytes of s[d]. -/
def storeBytes (s : State) (d : SReg) (sz : Size) : List Byte :=
  if sz = .v then toBytes 64 (sget 0 (slot s).vregs d.val).toNat else toBytes sz.bytes (rdS s d).toNat

/-- What an atomic or a reduction leaves in memory (Tables 21.3 and 23.5); AMCAS that fails leaves the old value. -/
def atomValue {n : Nat} (op : AtomOp) (old val cmp : BitVec n) : BitVec n :=
  match op with
  | .add => old + val
  | .and => old &&& val
  | .or => old ||| val
  | .xor => old ^^^ val
  | .min => if val.toInt < old.toInt then val else old
  | .max => if old.toInt < val.toInt then val else old
  | .minz => if val.toNat < old.toNat then val else old
  | .maxz => if old.toNat < val.toNat then val else old
  | .swp => val
  | .cas => if old = cmp then val else old
  | .fadd => BitVec.ofNat n (fAdd f32 0 (unpack f32 (old.toNat % 2 ^ 32)) (unpack f32 (val.toNat % 2 ^ 32)))

/-- Whether byte `y` of a window unit's register file is writable: s1 to s31, v0 to v15, m1 to m7 and nt0 to nt3 of a slot, and the
accumulators (Table 8.3). -/
def windowWritable (u y : Nat) : Prop :=
  let i := y % 0x800 / 8
  u = 2 ∨ (u = 1 ∧ ((1 ≤ i ∧ i < 160) ∨ (161 ≤ i ∧ i < 168) ∨ (168 ≤ i ∧ i < 172 ∧ y % 8 < 6)))

/-- A window store has reached the registers (`u` = 1) or the accumulators (`u` = 2) of core `m` (R130, Table 8.3): the writable bytes
it covers have its data, and every other byte of the unit is as it was. -/
def WindowStored (s t : State) (m u a : Nat) (d : List Byte) : Prop :=
  ∀ y, (u = 1 → y < 0x4000) →
    (windowWritable u y → a ≤ y → y < a + d.length → (getCore t m).winByte u y = d.getD (y - a) 0) ∧
    ((¬ windowWritable u y ∨ y < a ∨ a + d.length ≤ y) → (getCore t m).winByte u y = (getCore s m).winByte u y)

/-- A write inside a live lease changes exactly its bytes of the lease's storage (R138, R140). -/
def LeaseStored (s : State) (o k gen a : Nat) (d : List Byte) (happens : (State → Prop) → Prop) : Prop :=
  let store := fun (t : State) => (sget LeaseEnt.reset (getPart t o).leases k).store
  let x := sget LeaseEnt.reset (getPart s o).leases k
  x.live = true → x.gen = gen → a + d.length ≤ x.size → happens (fun t => sgetRange 0 (store t) a d.length = d ∧
    ∀ y, (y < a ∨ a + d.length ≤ y) → sget 0 (store t) y = sget 0 (store s) y)

/-- Every byte of a plan's rows has a place in its space. -/
def RowsPlaced (s : State) (p : Plan) : Prop :=
  ∀ r ∈ p.rows, ∀ o, o < r.len →
    (r.at_ = none → (placeOf s p.dc (r.dst + BitVec.ofNat 64 o) true).isSome = true) ∧
    (∀ a, r.src = some a → (placeOf s p.sc (a + BitVec.ofNat 64 o) false).isSome = true)

/-- The writes of a row of a copy (R211): one after the other they have the row's bytes, each inside one line of its destination or
one block between compressed views; each goes where its first byte has its place, and has the row's pad byte, or source
pieces that lie where their own bytes have their places. -/
def RowCut (s : State) (p : Plan) (r : Row) (gs : List Segment) : Prop :=
  (gs.map (·.len)).sum = r.len ∧
  ∀ pre g post, gs = pre ++ g :: post →
    let o := BitVec.ofNat 64 (pre.map (·.len)).sum
    (if g.dview then g.len = 256 else 1 ≤ g.len ∧ (r.dst + o).toNat % 64 + g.len ≤ 64) ∧
    g.ctl = r.at_ ∧ g.pad = BitVec.ofNat 8 p.pad ∧
    (match r.at_ with
      | some m => g.dst = .win m 0 ∧ g.daddr = (r.dst + o).toNat ∧ g.dview = false
      | none => ∃ x, placeOf s p.dc (r.dst + o) true = some x ∧ g.dst = x.sp ∧ g.daddr = x.addr ∧ g.dcomp = x.comp ∧
          g.dview = x.view) ∧
    (match r.src with
      | none => g.src = []
      | some a => (g.src.map (·.len)).sum = g.len ∧ ∀ pre2 x post2, g.src = pre2 ++ x :: post2 →
          ∃ y, placeOf s p.sc (a + o + BitVec.ofNat 64 (pre2.map (·.len)).sum) false = some y ∧ x.sp = y.sp ∧
            x.addr = y.addr ∧ x.comp = y.comp ∧ x.view = y.view)

/-- The current slot has taken a trap in user mode (R243): `epc` and `ecause` are written, system mode is entered, the PC becomes
`evec`. No other register changes; the claim table, the monitors, a repeat frame and the handler mark stand as they were, and so do
every other slot, every core's structures, the packets, scratchpads, full/empty bits, accumulators and memories; a posted store can
only come from an atomic in flight, whose result is lost (R278). -/
structure Trapped (s t : State) (cause code : Nat) (epc : VA) : Prop where
  epc : (slot t).epc = epc
  ecause : (slot t).ecause = BitVec.ofNat 64 (256 * code + cause)
  mode : (slot t).sys = true
  pc : (slot t).pc = (slot s).evec
  evec : (slot t).evec = (slot s).evec
  status : (slot t).nr = (slot s).nr ∧ (slot t).ncause = (slot s).ncause
  msgvec : (slot t).msgvec = (slot s).msgvec
  msgmask : (slot t).msgEn = (slot s).msgEn ∧ (slot t).msgMasked = (slot s).msgMasked ∧ (slot t).msgLeft = (slot s).msgLeft
  press : (slot t).pfmt = (slot s).pfmt ∧ (slot t).pgam = (slot s).pgam
  rnd : (slot t).rnd = (slot s).rnd
  nt : (slot t).nt = (slot s).nt
  claims : (slot t).claims = (slot s).claims
  mons : (slot t).mons = (slot s).mons
  frame : (slot t).frame = (slot s).frame
  inHandler : (slot t).inHandler = (slot s).inHandler
  scalar : ∀ r, rdS t r = rdS s r
  vector : ∀ r, rdV t r = rdV s r
  mask : ∀ r, rdM t r = rdM s r
  others : ∀ c n, ¬ (c = s.curCore ∧ n = s.curSlot) → getSlot t c n = getSlot s c n
  structs : ∀ c, SameStructs (getCore s c) (getCore t c)
  psb : (slot s).atom = none → ∀ c, (getCore t c).psb = (getCore s c).psb
  net : t.net = s.net
  pad : ∀ c a, sget 0 (getCore t c).sp a = sget 0 (getCore s c).sp a
  fe : ∀ c w, (getCore t c).feBit w = (getCore s c).feBit w
  acc : ∀ c e, sget 0 (getCore t c).acc e = sget 0 (getCore s c).acc e
  mem : ∀ tg a, readByte t tg a = readByte s tg a

/-- The current instruction takes a trap in user mode. -/
def Traps (i : Instr) (s : State) (cause code : Nat) (epc : VA) : Prop :=
  ∃ t, exec i s = .next t ∧ Trapped s t cause code epc

/-- A scalar or vector instruction word of major 0x01 with function `fn` is ILLEGAL when one of the fields of the mask is not
zero (R72). -/
def IllegalFields (fn hi lo : Nat) : Prop :=
  ∀ w : BitVec 32, fld w.toNat 31 26 = 1 → fld w.toNat 5 0 = fn → fld w.toNat hi lo ≠ 0 → decode w = none

/-- The current instruction is not ready with a cause on a resource (R26, Table 2.2): `status` says so, a claim is recorded,
and the disposition decides what follows. No register, scratchpad byte, full/empty bit, accumulator or memory byte changes, no queue,
link, channel, mailbox, deque, credit or round view, and no posted store; a CREDIT refusal may ask the target for credits (R97,
R203), and nothing else is sent. -/
def NotReady (i : Instr) (s : State) (nr : Disp) (cause : Cause) (r : Resource) : Prop :=
  ∃ t, exec i s = .next t ∧ (slot t).nr = true ∧ (slot t).ncause = cause.code ∧
    ((slot t).claimAt (slot s).pc r).isSome = true ∧
    (match nr with
      | .flag => (slot t).pc = nextPc s
      | .park => (slot t).pc = (slot s).pc ∧ (slot t).parkedOn (fun x => x == r) = true
      | .nt0 => (slot t).pc = sget 0 (slot s).nt 0
      | .nt1 => (slot t).pc = sget 0 (slot s).nt 1
      | .nt2 => (slot t).pc = sget 0 (slot s).nt 2
      | .nt3 => (slot t).pc = sget 0 (slot s).nt 3) ∧
    Keeps s t {} ∧ (∀ c, SameStructs (getCore s c) (getCore t c)) ∧ (∀ c, (getCore t c).psb = (getCore s c).psb) ∧
    ∃ asked, t.net = s.net ++ asked ∧ ∀ pk ∈ asked, cause = .credit ∧ ∃ u,
      pk.body = .cmdReq u s.curCore ∨ ∃ ch, pk.body = .creditReq u ch s.curCore

/-- No XLINV or DICTLD of the slot is under way, and no obligation of an earlier FENCE is open (R77, R150, R294, R375). -/
def Unbarred (s : State) : Prop := invBarred s = false ∧ localBarred s = false

/-- An access without a translation, past its state causes: while one of those is under way or open it is not-ready FILL, claimed as
assumption 11 says; else `P`. -/
def Passes (i : Instr) (s : State) (nr : Disp) (P : Prop) : Prop :=
  (Unbarred s → P) ∧ (¬ Unbarred s → NotReady i s nr .fill (orderRes s.curCore s.curSlot))

/-- The buffer holds no store of the current slot that its own access to unit `u` of its own core would perform first (R131, R156;
assumption 113). -/
def OwnDone (s : State) (u : Nat) : Prop := ∀ e ∈ (cur s).psb, ownStore s u e = false

/-- An instruction runs as it would with the slot's own stores to unit `u` of its own core performed (R131, R156; assumption 113). -/
def AfterOwn (i : Instr) (s : State) (u : Nat) : Prop := exec i s = exec i (ownPerformed s u)

/-- The current slot keeps no value that a load has read for its retry (R223). -/
def NoRead (t : State) : Prop := ∀ h m b p, (slot t).hold = some h → h.op = .load m → h.ans ≠ .got b p

/-- What byte `x` of the own core's unit `u` holds once the slot's own stores there are performed, oldest first. -/
def ownByte (s : State) (u x : Nat) (old : Byte) : Byte :=
  ((cur s).psb.filter (ownStore s u)).foldl
    (fun b e => if e.addr ≤ x ∧ x < e.addr + e.data.length then e.data.getD (x - e.addr) 0 else b) old

/-! ## Invariants -/

/-- The memories keep their canonical form. -/
def MemoriesWf (s : State) : Prop := Memory.wf s.dm = true ∧ Memory.wf s.fm = true ∧ Memory.wf s.hm = true

/-- How far a device's lifecycle has gone (R266). -/
def lifeRank : Lifecycle → Nat
  | .manufacture => 0 | .provisioned => 1 | .deployed => 2 | .debug => 3 | .retired => 4

end Sys2Proof.Safety
end

