-- ==== Sys2Proof/Certificates/Slice0/Obligations.lean ====
section
/-! DEFINITION. The statements for the provers. -/

open Sys2Proof Sys2Proof.Machine Sys2Proof.Safety


/-! ## Scalar integers -/

/-- ADD, SUB, AND, OR, XOR, MUL, MULH, MULHZ and their immediate forms write their result to s[d] and change nothing else (no other
register, no claim or monitor, no structure of a core, no posted store, no memory byte, and nothing is sent); the
immediate is sign-extended, and a non-zero e is ILLEGAL (R275, R280, R327, R329, R365, R376). -/
def Obligations.ScalarArithmeticResults : Prop :=
  (∀ (s : State) (d a b : SReg) (imm : BitVec 16),
    let x := rdS s a
    let y := rdS s b
    let i := imm.signExtend 64
    ScalarEffect (.add d a b) s d (x + y) ∧ ScalarEffect (.addi d a imm) s d (x + i) ∧
    ScalarEffect (.sub d a b) s d (x - y) ∧
    ScalarEffect (.and_ d a b) s d (x &&& y) ∧ ScalarEffect (.andi d a imm) s d (x &&& i) ∧
    ScalarEffect (.or_ d a b) s d (x ||| y) ∧ ScalarEffect (.ori d a imm) s d (x ||| i) ∧
    ScalarEffect (.xor d a b) s d (x ^^^ y) ∧ ScalarEffect (.xori d a imm) s d (x ^^^ i) ∧
    ScalarEffect (.mul d a b) s d (x * y) ∧ ScalarEffect (.muli d a imm) s d (x * i) ∧
    ScalarEffect (.mulh d a b) s d ((x.signExtend 128 * y.signExtend 128).extractLsb' 64 64) ∧
    ScalarEffect (.mulhz d a b) s d ((x.setWidth 128 * y.setWidth 128).extractLsb' 64 64)) ∧
  decode 0x05E07002 = some (.sub 15 0 14) ∧
  (∀ fn ∈ [0x01, 0x02, 0x03, 0x04, 0x05, 0x10, 0x11, 0x12], IllegalFields fn 10 6)

/-- The shifts take bits 5:0 of s[b] or of the immediate; DIV, DIVZ, REM and REMZ follow Table 12.1: the quotient is truncated
toward zero, a divisor of 0 gives all ones and the dividend, and −2^63 by −1 gives −2^63 and 0; LUI writes SignExt(imm21) ×
2^16. A non-zero e, a kind of 11 and non-zero bits 13:6 of SHI are ILLEGAL (R295, R322, R344, R355). -/
def Obligations.ScalarShiftAndDivision : Prop :=
  (∀ (s : State) (d a b : SReg) (n : BitVec 6) (up : BitVec 21),
    let x := rdS s a
    let y := rdS s b
    let k := y.toNat % 64
    ScalarEffect (.shl d a b) s d (x <<< k) ∧ ScalarEffect (.shi d a .l n) s d (x <<< n.toNat) ∧
    ScalarEffect (.shr d a b) s d (x >>> k) ∧ ScalarEffect (.shi d a .r n) s d (x >>> n.toNat) ∧
    ScalarEffect (.sra d a b) s d (x.sshiftRight k) ∧ ScalarEffect (.shi d a .ra n) s d (x.sshiftRight n.toNat) ∧
    ScalarEffect (.lui d up) s d (BitVec.ofInt 64 (up.toInt * 2 ^ 16)) ∧
    ScalarEffect (.div d a b) s d (if y = 0 then BitVec.allOnes 64 else x.sdiv y) ∧
    ScalarEffect (.divz d a b) s d (if y = 0 then BitVec.allOnes 64 else x.udiv y) ∧
    ScalarEffect (.rem d a b) s d (if y = 0 then x else x.srem y) ∧
    ScalarEffect (.remz d a b) s d (if y = 0 then x else x.umod y) ∧
    (y = BitVec.allOnes 64 → x = BitVec.intMin 64 →
      ScalarEffect (.div d a b) s d (BitVec.intMin 64) ∧ ScalarEffect (.rem d a b) s d 0)) ∧
  (∀ fn ∈ [0x06, 0x07, 0x08, 0x13, 0x14, 0x15, 0x16], IllegalFields fn 10 6) ∧
  (∀ w : BitVec 32, fld w.toNat 31 26 = 6 → (fld w.toNat 15 14 = 3 ∨ fld w.toNat 13 6 ≠ 0) → decode w = none)

/-- MIN, MAX, MINZ and MAXZ choose an operand; SLT, SLTZ, SLTI and SEQ write 0 or 1; SEL chooses by s[e]; a non-zero e field of MIN,
MAX, MINZ, MAXZ, SLT, SLTZ or SEQ is ILLEGAL (R72, R324, R352, R354, R357). -/
def Obligations.ScalarChoiceResults : Prop :=
  (∀ (s : State) (d a b e : SReg) (imm : BitVec 16),
    let x := rdS s a
    let y := rdS s b
    ScalarEffect (.min d a b) s d (if x.toInt ≤ y.toInt then x else y) ∧
    ScalarEffect (.max d a b) s d (if x.toInt ≤ y.toInt then y else x) ∧
    ScalarEffect (.minz d a b) s d (if x.toNat ≤ y.toNat then x else y) ∧
    ScalarEffect (.maxz d a b) s d (if x.toNat ≤ y.toNat then y else x) ∧
    ScalarEffect (.slt d a b) s d (if x.toInt < y.toInt then 1 else 0) ∧
    ScalarEffect (.slti d a imm) s d (if x.toInt < imm.toInt then 1 else 0) ∧
    ScalarEffect (.sltz d a b) s d (if x.toNat < y.toNat then 1 else 0) ∧
    ScalarEffect (.seq d a b) s d (if x = y then 1 else 0) ∧
    ScalarEffect (.sel d a b e) s d (if rdS s e = 0 then y else x)) ∧
  decode 0x04A63822 = some (.seq 5 6 7) ∧ decode 0x04A63A23 = some (.sel 5 6 7 8) ∧
  (∀ fn ∈ [0x18, 0x19, 0x1A, 0x1B, 0x20, 0x21, 0x22], IllegalFields fn 10 6)

/-- CLZ writes the number of zero bits above the most significant one bit, 64 for zero, and POPC the number of set bits; a
non-zero b or e field is ILLEGAL (R288, R337). -/
def Obligations.BitCountResults : Prop :=
  (∀ (s : State) (d a : SReg), ∃ n : Nat,
    ScalarEffect (.clz d a) s d (BitVec.ofNat 64 n) ∧ n ≤ 64 ∧ (n = 64 ↔ rdS s a = 0) ∧
    (∀ j, j < n → (rdS s a).getLsbD (63 - j) = false) ∧ (n < 64 → (rdS s a).getLsbD (63 - n) = true)) ∧
  (∀ (s : State) (d a : SReg), ScalarEffect (.popc d a) s d
    (BitVec.ofNat 64 ((List.range 64).filter (fun j => (rdS s a).getLsbD j)).length)) ∧
  decode 0x05EE0029 = some (.popc 15 14) ∧
  (∀ fn ∈ [0x28, 0x29], IllegalFields fn 15 11 ∧ IllegalFields fn 10 6)

/-! ## Branches and repeat frames -/

/-- Branches and jumps: BRC and BRCI compare by Table 4.5a, with BRCI's immediate zero-extended for `ltz` and `gez`; targets
are PC + 4 × offset; CALL and CALLR write PC + 4, CALLR reading its target first; BNR reads `status.nr`
(R63, R69, R284, R286, R287, R312, R313). -/
def Obligations.BranchEffects : Prop :=
  ∀ (s : State) (d a b : SReg) (off : BitVec 12) (far : BitVec 26) (imm : BitVec 5),
    let here := (slot s).pc
    let near := here + 4 * off.signExtend 48
    let target := here + 4 * far.signExtend 48
    let x := rdS s a
    let branch := fun (i : Instr) (taken : Prop) (go : VA) =>
      (taken → JumpEffect i s go []) ∧ (¬ taken → JumpEffect i s (nextPc s) [])
    branch (.brc .eq a b off) (x = rdS s b) near ∧
    branch (.brc .ne a b off) (x ≠ rdS s b) near ∧
    branch (.brc .lt a b off) (x.toInt < (rdS s b).toInt) near ∧
    branch (.brc .ge a b off) ((rdS s b).toInt ≤ x.toInt) near ∧
    branch (.brc .ltz a b off) (x.toNat < (rdS s b).toNat) near ∧
    branch (.brc .gez a b off) ((rdS s b).toNat ≤ x.toNat) near ∧
    branch (.brci .eq a imm off) (x.toInt = imm.toInt) near ∧
    branch (.brci .ne a imm off) (x.toInt ≠ imm.toInt) near ∧
    branch (.brci .lt a imm off) (x.toInt < imm.toInt) near ∧
    branch (.brci .ge a imm off) (imm.toInt ≤ x.toInt) near ∧
    branch (.brci .ltz a imm off) (x.toNat < imm.toNat) near ∧
    branch (.brci .gez a imm off) (imm.toNat ≤ x.toNat) near ∧
    branch (.bnr far) ((slot s).nr = true) target ∧
    JumpEffect (.j far) s target [] ∧
    JumpEffect (.jr a) s (x.setWidth 48) [] ∧
    (∃ t, exec (.call far) s = .next t ∧ (slot t).pc = target ∧ rdS t 30 = (here + 4).setWidth 64 ∧
      Keeps s t { sreg := [30] } ∧ Untouched s t) ∧
    (∃ t, exec (.callr d a) s = .next t ∧ (slot t).pc = x.setWidth 48 ∧
      rdS t d = (if d = 0 then 0 else (here + 4).setWidth 64) ∧ Keeps s t { sreg := [d] } ∧ Untouched s t)

/-- RPT opens a frame of `len` members (0: 16) replayed `count` times (0: 256) at PC + 4, and a slot that holds a frame raises
ILLEGAL instead; inside a frame the PC runs through the members, replays from the first, and leaves the frame behind the last
(R198, R347). -/
def Obligations.RepeatFrames : Prop :=
  (∀ (s : State) (count : BitVec 8) (len : BitVec 4) (sd sa sb sx : BitVec 3), (slot s).frame = none →
    ∃ t, exec (.rpt count len sd sa sb sx) s = .next t ∧ (slot t).pc = (slot s).pc + 4 ∧
      (slot t).frame = some { start := (slot s).pc + 4, len := (if len = 0 then 16 else len.toNat),
                              count := (if count = 0 then 256 else count.toNat), rep := 0, sd := sd.toNat, sa := sa.toNat,
                              sb := sb.toNat, sx := sx.toNat, words := [], again := false } ∧
      (slot t).nr = (slot s).nr ∧ (slot t).ncause = (slot s).ncause ∧ Keeps s t {} ∧ Untouched s t) ∧
  (∀ (s : State) (count : BitVec 8) (len : BitVec 4) (sd sa sb sx : BitVec 3), (slot s).frame ≠ none →
    (slot s).sys = false → Traps (.rpt count len sd sa sb sx) s 1 0 (slot s).pc) ∧
  (∀ (l : Slot) (f : Frame) (k : Nat), l.frame = some f → f.len ≤ 16 → k < f.len → l.pc = f.start + BitVec.ofNat 48 (4 * k) →
    (k + 1 < f.len → l.advance.pc = f.start + BitVec.ofNat 48 (4 * (k + 1)) ∧ l.advance.frame = some f) ∧
    (k + 1 = f.len → f.rep + 1 < f.count →
      l.advance.pc = f.start ∧ l.advance.frame = some { f with rep := f.rep + 1 }) ∧
    (k + 1 = f.len → f.count ≤ f.rep + 1 →
      l.advance.pc = f.start + BitVec.ofNat 48 (4 * f.len) ∧ l.advance.frame = none))

/-! ## Floating point -/

/-- Scalar floating point works on bits 31:0 as FP32, rounds once by `rnd` and changes nothing but s[d] (no other register, no
structure of a core, no posted store, no memory byte, and nothing is sent); FCVT writes by its
kind (R179, R180, R299 to R302). -/
def Obligations.ScalarFloatResults : Prop :=
  ∀ (s : State) (d a b e : SReg),
    let x := (rdS s a).toNat % 2 ^ 32
    let y := (rdS s b).toNat % 2 ^ 32
    let u := unpack f32
    let rm := (slot s).rnd.toNat
    ScalarEffect (.fadd d a b) s d (BitVec.ofNat 64 (fAdd f32 rm (u x) (u y))) ∧
    ScalarEffect (.fsub d a b) s d (BitVec.ofNat 64 (fAdd f32 rm (u x) (u y).neg)) ∧
    ScalarEffect (.fmul d a b) s d (BitVec.ofNat 64 (fMul f32 rm (u x) (u y))) ∧
    ScalarEffect (.ffma d a b e) s d
      (BitVec.ofNat 64 (fAdd f32 rm ((u x).mul (u y)) (u ((rdS s e).toNat % 2 ^ 32)))) ∧
    ScalarEffect (.fdiv d a b) s d (BitVec.ofNat 64 (fDiv f32 rm (u x) (u y))) ∧
    ScalarEffect (.fsqrt d a) s d (BitVec.ofNat 64 (fSqrt f32 rm (u x))) ∧
    ScalarEffect (.fmin d a b) s d (BitVec.ofNat 64 (fMin f32 x y)) ∧
    ScalarEffect (.fmax d a b) s d (BitVec.ofNat 64 (fMax f32 x y)) ∧
    ScalarEffect (.fcvt d a .toi) s d (BitVec.ofInt 64 (fToInt rm (u x) (-2 ^ 63) (2 ^ 63 - 1))) ∧
    ScalarEffect (.fcvt d a .toz) s d (BitVec.ofInt 64 (fToInt rm (u x) 0 (2 ^ 64 - 1))) ∧
    ScalarEffect (.fcvt d a .tow) s d (BitVec.ofInt 64 (fToInt rm (u x) (-2 ^ 31) (2 ^ 31 - 1))) ∧
    ScalarEffect (.fcvt d a .fromi) s d (BitVec.ofNat 64 (fOfInt f32 rm (rdS s a).toInt)) ∧
    ScalarEffect (.fcvt d a .fromz) s d (BitVec.ofNat 64 (fOfInt f32 rm (rdS s a).toNat)) ∧
    ScalarEffect (.fcvt d a .toh) s d (BitVec.ofNat 64 (fRound f16 rm (u x))) ∧
    ScalarEffect (.fcvt d a .tobh) s d (BitVec.ofNat 64 (fRound bf16 rm (u x))) ∧
    ScalarEffect (.fcvt d a .fromh) s d (BitVec.ofNat 64 (fRound f32 rm (unpack f16 (x % 2 ^ 16)))) ∧
    ScalarEffect (.fcvt d a .frombh) s d (BitVec.ofNat 64 (fRound f32 rm (unpack bf16 (x % 2 ^ 16))))

/-- FCMP: `eq`, `lt` and `le` are false with a NaN, `ne` is true with one, `un` exactly then, and −0 equals +0; FCLASS sets
exactly one bit, the one Table 22.4 gives (R300, R302). -/
def Obligations.FloatCompareAndClass : Prop :=
  (∀ (s : State) (d a b : SReg) (c : FCond),
    ∃ r : Bool, ScalarEffect (.fcmp d a b c) s d (if r then 1 else 0) ∧
      let x := unpack f32 ((rdS s a).toNat % 2 ^ 32)
      let y := unpack f32 ((rdS s b).toNat % 2 ^ 32)
      (x = .nan ∨ y = .nan → (r = true ↔ (c = .ne ∨ c = .un))) ∧
      (x ≠ .nan → y ≠ .nan → c = .un → r = false) ∧
      (x ≠ .nan → y ≠ .nan → c = .ne → r = !(x.eq y)) ∧
      (x ≠ .nan → y ≠ .nan → c = .eq → r = x.eq y) ∧
      (x ≠ .nan → y ≠ .nan → c = .lt → r = x.lt y) ∧
      (x ≠ .nan → y ≠ .nan → c = .le → r = (x.lt y || x.eq y)) ∧
      ((rdS s a).toNat % 2 ^ 31 = 0 → (rdS s b).toNat % 2 ^ 31 = 0 → (c = .eq ∨ c = .le) → r = true) ∧
      ((rdS s a).toNat % 2 ^ 31 = 0 → (rdS s b).toNat % 2 ^ 31 = 0 → (c = .ne ∨ c = .lt) → r = false)) ∧
  (∀ (s : State) (d a : SReg), ∃ k : Nat,
    ScalarEffect (.fclass d a) s d (BitVec.ofNat 64 (2 ^ k)) ∧ k < 10 ∧
    let x := (rdS s a).toNat % 2 ^ 32
    (k = 0 ↔ x = 0xFF800000) ∧ (k = 3 ↔ x = 0x80000000) ∧ (k = 4 ↔ x = 0) ∧ (k = 7 ↔ x = 0x7F800000) ∧
    (8 ≤ k ↔ unpack f32 x = .nan) ∧
    (k = 9 ↔ unpack f32 x = .nan ∧ x / 2 ^ 22 % 2 = 1) ∧
    (k = 1 ∨ k = 2 → 2 ^ 31 < x) ∧ (k = 5 ∨ k = 6 → x < 2 ^ 31) ∧
    (k = 2 ∨ k = 5 ↔ x / 2 ^ 23 % 2 ^ 8 = 0 ∧ x % 2 ^ 23 ≠ 0))

/-! ## Vectors -/

/-- The lane operations of major 0x12: integer lanes wrap or saturate, floating-point lanes round once by `rnd`; inactive lanes
keep their value (R368, R369). -/
def Obligations.VectorLaneResults : Prop :=
  ∀ (s : State) (d a b : VReg) (m : MReg) (t : LaneTy),
    let w := t.width
    let x := fun i => lane w (rdV s a) i
    let y := fun i => lane w (rdV s b) i
    let sx := fun i => sval w (x i)
    let sy := fun i => sval w (y i)
    let fx := fun i => unpack t.fmt (x i)
    let fy := fun i => unpack t.fmt (y i)
    let rm := (slot s).rnd.toNat
    let eff := fun (i : Instr) (f : Nat → Nat) => LaneEffect i s d m t f
    (t.isInt = true →
      eff (.vadd d a b m t) (fun i => x i + y i) ∧
      eff (.vsub d a b m t) (fun i => x i + 2 ^ w - y i) ∧
      eff (.vmul d a b m t) (fun i => x i * y i) ∧
      eff (.vmin d a b m t) (fun i => if sx i ≤ sy i then x i else y i) ∧
      eff (.vmax d a b m t) (fun i => if sx i ≤ sy i then y i else x i) ∧
      eff (.vminz d a b m t) (fun i => if x i ≤ y i then x i else y i) ∧
      eff (.vmaxz d a b m t) (fun i => if x i ≤ y i then y i else x i) ∧
      eff (.vabs d a m t) (fun i => if sx i < 0 then 2 ^ w - x i else x i) ∧
      eff (.vneg d a m t) (fun i => 2 ^ w - x i) ∧
      eff (.vadds d a b m t)
        (fun i => ((max (-2 ^ (w - 1)) (min (2 ^ (w - 1) - 1) (sx i + sy i))) % (2 ^ w : Int)).toNat) ∧
      eff (.vsubs d a b m t)
        (fun i => ((max (-2 ^ (w - 1)) (min (2 ^ (w - 1) - 1) (sx i - sy i))) % (2 ^ w : Int)).toNat) ∧
      eff (.vmulh d a b m t) (fun i => ((sx i * sy i / (2 ^ w : Int)) % (2 ^ w : Int)).toNat) ∧
      eff (.vand d a b m t) (fun i => x i &&& y i) ∧
      eff (.vor d a b m t) (fun i => x i ||| y i) ∧
      eff (.vxor d a b m t) (fun i => x i ^^^ y i) ∧
      eff (.vshl d a b m t) (fun i => x i * 2 ^ (y i % w)) ∧
      eff (.vshr d a b m t) (fun i => x i / 2 ^ (y i % w)) ∧
      eff (.vsra d a b m t) (fun i => ((sx i / (2 ^ (y i % w) : Int)) % (2 ^ w : Int)).toNat)) ∧
    (t.isInt = false →
      eff (.vadd d a b m t) (fun i => fAdd t.fmt rm (fx i) (fy i)) ∧
      eff (.vsub d a b m t) (fun i => fAdd t.fmt rm (fx i) (fy i).neg) ∧
      eff (.vmul d a b m t) (fun i => fMul t.fmt rm (fx i) (fy i)) ∧
      eff (.vfma d a b m t)
        (fun i => fAdd t.fmt rm ((fx i).mul (fy i)) (unpack t.fmt (lane w (rdV s d) i))) ∧
      eff (.vmin d a b m t) (fun i => fMin t.fmt (x i) (y i)) ∧
      eff (.vmax d a b m t) (fun i => fMax t.fmt (x i) (y i)) ∧
      eff (.vabs d a m t) (fun i => if fx i = .nan then t.fmt.nan else x i % 2 ^ (w - 1)) ∧
      eff (.vneg d a m t) (fun i => if fx i = .nan then t.fmt.nan else (x i + 2 ^ (w - 1)) % 2 ^ w))

/-- VPERM picks lanes of v[a] by v[b], VBCST copies the low bits of s[a], VCVT converts the lanes both types have and clears the
others, and the four elementary functions round their exact value once; VCMP sets bit i of m[d] for an active lane whose condition
holds and clears every other bit; the mask operations work on all 64 bits; MCNT counts; VMOVS extends one lane; VRED folds the
active lanes (R323, R370, R371, R372, R373, R374). -/
def Obligations.VectorMoveResults : Prop :=
  (∀ (s : State) (d a b : VReg) (r : SReg) (m : MReg) (t dt : LaneTy),
    let rm := (slot s).rnd.toNat
    LaneEffect (.vperm d a b m t) s d m t
      (fun i => lane t.width (rdV s a) (lane t.width (rdV s b) i % t.lanes)) ∧
    LaneEffect (.vbcst d r m t) s d m t (fun _ => (rdS s r).toNat) ∧
    LaneEffect (.vcvt d a dt m t) s d m dt
      (fun i => if i < t.lanes ∧ i < dt.lanes then laneCvt t dt rm (lane t.width (rdV s a) i) else 0) ∧
    LaneEffect (.vrcp d a m) s d m .f32 (fun i => fRcp rm (unpack f32 (lane 32 (rdV s a) i))) ∧
    LaneEffect (.vrsq d a m) s d m .f32 (fun i => fRsq rm (unpack f32 (lane 32 (rdV s a) i))) ∧
    LaneEffect (.vexp2 d a m) s d m .f32 (fun i => fExp2 rm (unpack f32 (lane 32 (rdV s a) i))) ∧
    LaneEffect (.vlog2 d a m) s d m .f32 (fun i => fLog2 rm (unpack f32 (lane 32 (rdV s a) i)))) ∧
  (∀ (s : State) (a b : VReg) (p q r m : MReg) (g : SReg) (t : LaneTy) (c : VCond) (f : RedFn) (n : BitVec 5),
    (∃ v, MaskEffect (.vcmp p a b m t c) s p v ∧ ∀ i, v.getLsbD i =
      (decide (i < t.lanes) && (rdM s m).getLsbD i &&
        laneCmp c t (lane t.width (rdV s a) i) (lane t.width (rdV s b) i))) ∧
    MaskEffect (.mand p q r) s p (rdM s q &&& rdM s r) ∧
    MaskEffect (.mor p q r) s p (rdM s q ||| rdM s r) ∧
    MaskEffect (.mnot p q) s p (~~~ rdM s q) ∧
    ScalarEffect (.mcnt g q) s g (BitVec.ofNat 64 ((List.range 64).filter (fun j => (rdM s q).getLsbD j)).length) ∧
    ScalarEffect (.vmovs g a n t) s g
      (if t.isInt then BitVec.ofInt 64 (sval t.width (lane t.width (rdV s a) n.toNat))
        else BitVec.ofNat 64 (lane t.width (rdV s a) n.toNat)) ∧
    ScalarEffect (.vred g a f m t) s g (reduce f t (slot s).rnd.toNat
      (((List.range t.lanes).filter (fun i => (rdM s m).getLsbD i)).map (lane t.width (rdV s a)))))

/-! ## System instructions -/

/-- NOP changes nothing but the PC; its word is 0x0000_0001 alone, since a non-zero field is ILLEGAL; it is no frame member
(R328). -/
def Obligations.NopEffect : Prop :=
  (∀ s : State, ∃ t, exec .nop s = .next t ∧ t = modSlot s Slot.advance ∧ FallsThrough s t ∧ Keeps s t {}) ∧
  decode 0x00000001 = some .nop ∧
  (∀ w : BitVec 32, fld w.toNat 31 26 = 0 → fld w.toNat 5 0 = 1 → w ≠ 1 → decode w = none) ∧
  frameMember .nop = false

/-- Trap entry by TRAP and BKPT in user mode: `ecause` holds the cause in bits 4:0 and the e code in bits 12:8, `epc` the TRAP + 4 or the
BKPT itself, the mode becomes system and the PC the handler's; nothing else of the slot changes but that an atomic is discarded, and with
it a value held for a retry on its line, and nothing of the other slots, structures and memories. An atomic in flight stays behind as a
release in the posted-store buffer, which the slot's later writes wait for, and where it acquires every later access (assumptions 27 and
103). This entry is the two instructions' own effect. A set catch bit stops the slot at the BKPT instead (R243, R251, R278, R283,
R367). -/
def Obligations.TrapEntry : Prop :=
  (∀ (s : State) (code : BitVec 5), (slot s).sys = false →
    let enters := fun (i : Instr) (cause : Nat) (epc : VA) =>
      ∃ t, exec i s = .next t ∧ Trapped s t cause code.toNat epc ∧
        slot t = { slot s with epc := epc, ecause := BitVec.ofNat 64 (256 * code.toNat + cause), sys := true,
                               pc := (slot s).evec, atom := none, hold := (slot t).hold, ldMark := (slot t).ldMark,
                               stMark := (slot t).stMark } ∧
        ((slot s).atom = none → (slot t).hold = (slot s).hold) ∧
        ((∀ g, (slot s).atom = some g → g.ans ≠ .pending) →
          (slot t).ldMark = (slot s).ldMark ∧ (slot t).stMark = (slot s).stMark ∧ (cur t).psb = (cur s).psb) ∧
        (∀ g, (slot s).atom = some g →
          (∀ h, (slot t).hold = some h → (slot s).hold = some h ∧ g.acq = false ∧
            (h.sp = .dev → h.addr / 64 ≠ g.addr / 64)) ∧
          (g.ans = .pending → (slot t).stMark = (cur t).nextId ∧ (g.acq = true → (slot t).ldMark = (cur t).nextId) ∧
            (cur t).nextId = (cur s).nextId + 1 ∧ ∃ e : Posted, (cur t).psb = (cur s).psb ++ [e] ∧ e.id = (cur s).nextId ∧
              e.slot = s.curSlot ∧ e.sp = .dev ∧ e.addr = g.addr ∧ e.rel = true ∧ e.red = some (g.op, g.wide)))
    enters (.trap code) 14 ((slot s).pc + 4) ∧
    ((slot s).catchBkpt = false → enters (.bkpt code) 12 (slot s).pc)) ∧
  (∀ (s : State) (code : BitVec 5), (slot s).catchBkpt = true → (slot s).st = .runnable →
    ∃ t, exec (.bkpt code) s = .next t ∧ (slot t).st = .stopped none ∧ (slot t).pc = (slot s).pc ∧
      (slot t).sys = (slot s).sys ∧ Keeps s t {})

/-- ERET raises PRIV in user mode; in system mode it loads the PC from `epc`, clears `status.mode` and changes nothing else. A
misaligned PC, or one that cannot be fetched, then traps at the fetch with `epc` at that address (R298). -/
def Obligations.TrapReturn : Prop :=
  (∀ s : State, (slot s).sys = false → Traps .eret s 2 0 (slot s).pc) ∧
  (∀ s : State, (slot s).sys = true →
    ∃ t, exec .eret s = .next t ∧ t = modSlot s (fun l => { l with pc := l.epc, sys := false })) ∧
  (∀ (s : State) (p : Nat) (pc : VA), pc.toNat % 4 ≠ 0 → fetchAt s p pc = .error .align) ∧
  (∀ (s : State) (e : TrapCause), (slot s).st = .runnable → (slot s).frame = none → (slot s).sys = false →
    fetchAt s (curPart s) (slot s).pc = .error e → Traps .fetchFault s e.code 0 (slot s).pc)

/-- A trap of any cause in system mode faults the node instead of being taken, and so do HALT and DONE: the slot is empty and its
scheduler is handed the core, its part, the slot and the cause (15 for HALT and DONE); shown for the entry itself with every
cause, and for instructions and fetches that raise each (R127, R243, R296, R310). -/
def Obligations.SystemModeFaultsNode : Prop :=
  ∀ (s : State) (p : Nat), (slot s).sys = true → partOf s s.curCore = some p →
    let faulted := fun (t : State) (cause : Nat) => (slot t).st = .empty ∧
      (getPart t p).faults = (getPart s p).faults ++
        [{ task := (cur s).task.map (fun x => (x.q, x.node)), core := s.curCore, slot := s.curSlot, cause := cause,
           at_ := s.cycle }] ∧
      Keeps s t {}
    let faults := fun (i : Instr) (cause : Nat) => ∃ t, exec i s = .next t ∧ faulted t cause
    (∀ (cause : TrapCause) (code : Nat) (epc : VA), faulted (takeTrap s s.curCore s.curSlot cause code epc) cause.code) ∧
    (∀ code : BitVec 5, faults (.trap code) 14 ∧ ((slot s).catchBkpt = false → faults (.bkpt code) 12)) ∧
    faults .halt 15 ∧ faults .done 15 ∧ faults .mvec 1 ∧
    (∀ (d a : SReg) (sz : Size) (imm : BitVec 13),
      let ea := (rdS s a + imm.signExtend 64).toNat % 2 ^ 16
      (ea % sz.bytes ≠ 0 → faults (.lds d a sz imm) 3 ∧ faults (.sts d a sz imm) 3) ∧
      (ea % sz.bytes = 0 → 0xF800 < ea + sz.bytes → faults (.lds d a sz imm) 7 ∧ faults (.sts d a sz imm) 7) ∧
      (ea % sz.bytes = 0 → ea + sz.bytes ≤ 0xF800 → (cur s).spBadIn ea sz.bytes = true →
        (sget RowGauge.reset s.rows (coreRow s s.curCore)).rail = 0 → faults (.lds d a sz imm) 10)) ∧
    (∀ (d a : SReg) (nr : Disp) (sz : Size) (ord : Ord2) (off : BitVec 8),
      let ea := rdS s a + BitVec.ofNat 64 sz.bytes * off.signExtend 64
      (ea.toNat % sz.bytes = 0 → 2 ^ 36 ≤ ea.toNat →
        faults (.ldl d a nr sz ord off) 9 ∧ faults (.stl d a nr sz ord off) 9) ∧
      (ea.toNat % sz.bytes = 0 → ea.toNat < 2 ^ 48 → invBarred s = false →
        (∀ c, xlate s ea.toNat .far true false = .bad c → faults (.ldf d a nr sz ord off) c.code) ∧
        (∀ c, ea.toNat / 2 ^ 46 % 2 = 0 → xlate s ea.toNat .far false true = .bad c →
          faults (.stf d a nr sz ord off) c.code))) ∧
    (∀ e : TrapCause, (slot s).st = .runnable → (slot s).frame = none → fetchAt s (curPart s) (slot s).pc = .error e →
      faults .fetchFault e.code)

/-- HALT in user mode empties its slot and abandons its claims, monitors, frame and held values; a sibling keeps running; inside a
message handler it also swaps s28 to s31 back with the core's shadow bank and clears the handler mark; the last HALT of a core ends
its part of the task and drops it to SOAK (R125, R239, R310). -/
def Obligations.HaltEffect : Prop :=
  ∀ s : State, (slot s).sys = false →
    (∀ n, n < 8 → n ≠ s.curSlot → (getSlot s s.curCore n).st ≠ .empty →
      ∃ t, exec .halt s = .next t ∧ (slot t).st = .empty ∧ (slot t).claims = [none, none, none, none] ∧
        (slot t).mons = [] ∧ (slot t).frame = none ∧ (slot t).atom = none ∧ (slot t).hold = none ∧
        (slot t).inHandler = false ∧ (∀ c, SameStructs (getCore s c) (getCore t c)) ∧ t.net = s.net ∧
        (getSlot t s.curCore n).st = (getSlot s s.curCore n).st ∧ (cur t).ended = (cur s).ended ∧
        ((slot s).inHandler = false → Keeps s t {} ∧ (cur t).shadow = (cur s).shadow) ∧
        ((slot s).inHandler = true → Keeps s t { sreg := [28, 29, 30, 31] } ∧ ∀ i, i < 4 →
          sget 0 (slot t).regs (28 + i) = sget 0 (cur s).shadow i ∧
          sget 0 (cur t).shadow i = sget 0 (slot s).regs (28 + i))) ∧
    ((∀ n, n < 8 → n ≠ s.curSlot → (getSlot s s.curCore n).st = .empty) →
      ∃ t, exec .halt s = .next t ∧ (cur t).ended = true ∧ (cur t).spin = false ∧ (cur t).allEmpty = true ∧
        (cur t).dq = [] ∧ (cur t).bq = [] ∧ (cur t).chans = [])

/-- CTLR reads every register of Table 5.1, those marked "sys" only in system mode; CTLW writes the writable fields of a
register and nothing else, the reserved bits being ignored; STAMP writes the die cycle counter to s[d] and changes no other register
and no memory byte, and when the partition places no trace ring its trace record is dropped and counted, saturating
(R5, R81, R82, R83, R84, R85, R86, R254, R290, R359). -/
def Obligations.ControlRegisterAccess : Prop :=
  (∀ (s : State) (d : SReg),
    let l := slot s
    let k := cur s
    let bit := fun (b : Bool) (i : Nat) => if b then 2 ^ i else 0
    let reads := fun (n : BitVec 10) (v : W64) => ScalarEffect (.ctlr d n) s d v
    reads 0x000 (BitVec.ofNat 64 (bit l.nr 0 + 16 * l.ncause.toNat + bit l.sys 8 + bit k.gearEff 11)) ∧
    reads 0x001 (l.pc.setWidth 64) ∧
    reads 0x005 (l.msgvec.setWidth 64) ∧
    reads 0x006 (BitVec.ofNat 64 (l.msgEn.toNat + bit l.msgMasked 8 + 512 * l.msgLeft)) ∧
    reads 0x007 (l.pfmt.setWidth 64) ∧ reads 0x008 (l.pgam.setWidth 64) ∧ reads 0x009 (l.rnd.setWidth 64) ∧
    reads 0x010 ((sget 0 l.nt 0).setWidth 64) ∧ reads 0x011 ((sget 0 l.nt 1).setWidth 64) ∧
    reads 0x012 ((sget 0 l.nt 2).setWidth 64) ∧ reads 0x013 ((sget 0 l.nt 3).setWidth 64) ∧
    reads 0x100 (BitVec.ofNat 64 (s.curCore % 2 ^ 16)) ∧
    reads 0x101 (BitVec.ofNat 64 (((partOf s s.curCore).getD 0) % 2 ^ 4)) ∧
    reads 0x102 (BitVec.ofNat 64
      (bit k.spin 0 + bit k.autosoak 1 + bit (k.spin != k.gearEff || k.restoreReq.isSome) 2)) ∧
    reads 0x103 (BitVec.ofNat 64 (rowUnits s (coreRow s s.curCore) % 256 +
      bit (sget RowGauge.reset s.rows (coreRow s s.curCore)).pinned 8)) ∧
    reads 0x104 (BitVec.ofNat 64 s.cycle) ∧ reads 0x105 k.lamport ∧ reads 0x106 (k.vents.setWidth 64) ∧
    (l.sys = true →
      reads 0x002 (l.epc.setWidth 64) ∧ reads 0x003 l.ecause ∧ reads 0x004 (l.evec.setWidth 64))) ∧
  (∀ (s : State) (a : SReg),
    let v := rdS s a
    let writes := fun (n : BitVec 10) (f : Slot → Slot) =>
      exec (.ctlw a n) s = .next (modSlot (modSlot s f) Slot.advance)
    (v.toNat / 16 % 16 < 14 →
      writes 0x000 (fun l => { l with nr := v.getLsbD 0, ncause := BitVec.ofNat 4 (v.toNat / 16 % 16) })) ∧
    writes 0x005 (fun l => { l with msgvec := v.setWidth 48 }) ∧
    writes 0x006 (fun l => { l with msgEn := v.setWidth 8 }) ∧
    (v.toNat % 8 ≤ 2 → writes 0x007 (fun l => { l with pfmt := v.setWidth 3 })) ∧
    writes 0x008 (fun l => { l with pgam := v.setWidth 32 }) ∧
    writes 0x009 (fun l => { l with rnd := v.setWidth 2 }) ∧
    writes 0x010 (fun l => { l with nt := sset 0 l.nt 0 (v.setWidth 48) }) ∧
    writes 0x011 (fun l => { l with nt := sset 0 l.nt 1 (v.setWidth 48) }) ∧
    writes 0x012 (fun l => { l with nt := sset 0 l.nt 2 (v.setWidth 48) }) ∧
    writes 0x013 (fun l => { l with nt := sset 0 l.nt 3 (v.setWidth 48) }) ∧
    exec (.ctlw a 0x102) s = .next (advance (modCur s (fun k => { k with autosoak := v.getLsbD 1 }))) ∧
    ((slot s).sys = true →
      writes 0x002 (fun l => { l with epc := v.setWidth 48 }) ∧
      writes 0x003 (fun l => { l with ecause := v &&& 0x1F1F }) ∧
      writes 0x004 (fun l => { l with evec := v.setWidth 48 }))) ∧
  (∀ (s : State) (d : SReg),
    Completes (.stamp d) s { sreg := [d] } (fun t => rdS t d = if d = 0 then 0 else BitVec.ofNat 64 s.cycle) ∧
    ((getPart s ((partOf s s.curCore).getD 0)).conf.trace.toNat / 2 ^ 48 = 0 →
      ∃ t, exec (.stamp d) s = .next t ∧ Untouched s t ∧ (getPart t ((partOf s s.curCore).getD 0)).drops =
        min ((getPart s ((partOf s s.curCore).getD 0)).drops + 1) (2 ^ 64 - 1)))

/-- Refusals of CTLR and CTLW: an unlisted number is ILLEGAL; in user mode a "sys" register is PRIV; a write of a register
read-only in every mode is ILLEGAL, and so is one that fails a value check (R82, R83, R85, R290). -/
def Obligations.ControlRegisterTraps : Prop :=
  ∀ (s : State) (d a : SReg) (n : BitVec 10), (slot s).sys = false →
    let listed := [0x000, 0x001, 0x002, 0x003, 0x004, 0x005, 0x006, 0x007, 0x008, 0x009, 0x010, 0x011, 0x012, 0x013,
      0x100, 0x101, 0x102, 0x103, 0x104, 0x105, 0x106]
    let v := (rdS s a).toNat
    (n.toNat ∉ listed → Traps (.ctlr d n) s 1 0 (slot s).pc ∧ Traps (.ctlw a n) s 1 0 (slot s).pc) ∧
    (n.toNat ∈ [0x002, 0x003, 0x004] → Traps (.ctlr d n) s 2 0 (slot s).pc ∧ Traps (.ctlw a n) s 2 0 (slot s).pc) ∧
    (n.toNat ∈ [0x001, 0x100, 0x101, 0x103, 0x104, 0x105, 0x106] → Traps (.ctlw a n) s 1 0 (slot s).pc) ∧
    (n = 0x000 → 14 ≤ v / 16 % 16 → Traps (.ctlw a n) s 1 0 (slot s).pc) ∧
    (n = 0x007 → 3 ≤ v % 8 → Traps (.ctlw a n) s 1 0 (slot s).pc)

/-- FENCE completes in its issue cycle and discards a held value. After kind `full` a later read, and after kinds `full` and `st` a later
write, is held off while work from before the fence is unperformed: the slot's posted stores, increments of rounds and passes (assumption
49) and write-backs, and in slot 7 the work of the slots whose requests it has taken. This is said of the state that the fence leaves and
of every later one in which the slot has the fence's marks. Kind `ld` finds reads unperformed only where an RMW has lost its result
(assumption 27), which later accesses then wait for. DCFENCE checks its alignment and range, then adds the range, read without bit 46, to
those whose accesses wait, as work of the slot that its later releases follow; a length of zero adds none (R149, R150, R153, R219, R293,
R304). -/
def Obligations.FenceEffects : Prop :=
  (∀ (s : State) (sc : Scope) (k : FenceKind),
    ∃ t, exec (.fence sc k) s = .next t ∧ FallsThrough s t ∧ Keeps s t {} ∧ (slot t).hold = none ∧
      (cur t).psb = (cur s).psb ∧
      (k = .full → ldBarred t = anyOpen s ∧ stBarred t = anyOpen s) ∧
      (k = .st → ldBarred t = ldBarred s ∧ stBarred t = anyOpen s) ∧
      (k = .ld → (∀ e ∈ (cur s).psb, e.slot = s.curSlot → e.am = none) →
        ldBarred t = ldBarred s ∧ stBarred t = stBarred s) ∧
      (k = .ld → (∃ e ∈ (cur s).psb, e.slot = s.curSlot ∧ e.am ≠ none) → ldBarred t = true ∧ stBarred t = true) ∧
      ∀ u : State, u.curCore = s.curCore → u.curSlot = s.curSlot →
        let m := (cur s).nextId
        let left := (∃ e ∈ (cur u).psb, e.slot = s.curSlot ∧ e.id < m) ∨
          (∃ r ∈ (cur u).rounds ++ (cur u).passes, r.slot = s.curSlot ∧ r.id < m) ∨
          (∃ e ∈ (slot u).dcf, e.2.2 < m) ∨
          (s.curSlot = 7 ∧ m ≠ 0 ∧ ∃ x ∈ (cur u).xdMarks, (cur u).workBefore x.1 x.2 = true)
        (k = .full → (slot u).ldMark = (slot t).ldMark → (ldBarred u = true ↔ left)) ∧
        (k ≠ .ld → (slot u).stMark = (slot t).stMark → (stBarred u = true ↔ left))) ∧
  (∀ (s : State) (a b : SReg),
    let v := (rdS s a).toNat
    let n := (rdS s b).toNat
    let base := if v / 2 ^ 46 % 2 = 1 then v - 2 ^ 46 else v
    ((v % 256 ≠ 0 ∨ n % 256 ≠ 0) → (slot s).sys = false → Traps (.dcfence a b) s 3 0 (slot s).pc) ∧
    (v % 256 = 0 → n % 256 = 0 → (2 ^ 48 ≤ v ∨ 2 ^ 46 < base % 2 ^ 46 + n) → (slot s).sys = false →
      Traps (.dcfence a b) s 7 0 (slot s).pc) ∧
    (v % 256 = 0 → n % 256 = 0 → v < 2 ^ 48 → base % 2 ^ 46 + n ≤ 2 ^ 46 →
      ∃ t, exec (.dcfence a b) s = .next t ∧ FallsThrough s t ∧ Keeps s t {} ∧ (slot t).hold = none ∧
        (slot t).dcf = (if n = 0 then (slot s).dcf else (slot s).dcf ++ [(base, n, (cur s).nextId)]) ∧
        (n ≠ 0 → anyOpen t = true)))

/-- XLINV, DICTLD and LTRD raise PRIV in user mode (R81). In system mode XLINV hands its page, or everything, to the
partition's TLBs, DICTLD its source and palette slot to the controllers, and LTRD reads the table entry of a core of the
partition, bit 63 set while a vent moves it; a misaligned source is ALIGN, and an address with bits 63:48 or a core of another
partition PROT (R294, R321, R375). -/
def Obligations.PrivilegedEffects : Prop :=
  (∀ (s : State) (d a : SReg) (lo : BitVec 5) (hi : BitVec 1) (k : InvKind), (slot s).sys = false →
    Traps (.xlinv a k) s 2 0 (slot s).pc ∧ Traps (.dictld a lo hi) s 2 0 (slot s).pc ∧
    Traps (.ltrd d a) s 2 0 (slot s).pc) ∧
  (∀ (s : State) (d a : SReg) (lo : BitVec 5) (hi : BitVec 1), (slot s).sys = true →
    let v := (rdS s a).toNat
    let p := curPart s
    (∃ t, exec (.xlinv a .all) s = .next t ∧ FallsThrough s t ∧ Keeps s t {} ∧
      (getPart t p).invs = (getPart s p).invs ++ [{ page := none, core := s.curCore, cslot := s.curSlot }]) ∧
    (v < 2 ^ 48 → ∃ t, exec (.xlinv a .page) s = .next t ∧ FallsThrough s t ∧ Keeps s t {} ∧
      (getPart t p).invs = (getPart s p).invs ++
        [{ page := some ((if v / 2 ^ 46 % 2 = 1 then v - 2 ^ 46 else v) / 4096), core := s.curCore,
           cslot := s.curSlot }]) ∧
    (v % 16 = 0 → v < 2 ^ 48 → ∃ t, exec (.dictld a lo hi) s = .next t ∧ FallsThrough s t ∧ Keeps s t {} ∧
      (getPart t p).dicts = (getPart s p).dicts ++
        [{ addr := v, slot := 32 * hi.toNat + lo.toNat, core := s.curCore, cslot := s.curSlot,
           after := (cur s).nextId }]) ∧
    (2 ^ 48 ≤ v → exec (.xlinv a .page) s = .next (raise s .prot) ∧
      (v % 16 = 0 → exec (.dictld a lo hi) s = .next (raise s .prot))) ∧
    (v % 16 ≠ 0 → exec (.dictld a lo hi) s = .next (raise s .align)) ∧
    (inPart s (v % 2 ^ 16) = false → exec (.ltrd d a) s = .next (raise s .prot)) ∧
    (inPart s (v % 2 ^ 16) = true → ScalarEffect (.ltrd d a) s d
      (BitVec.ofNat 64 (pcnOf s (v % 2 ^ 16) +
        (if ∃ e ∈ (getPart s p).moves, e.1 = v % 2 ^ 16 then 2 ^ 63 else 0)))))

/-! ## Memory -/

/-- LDS and STS: the scratchpad address is bits 15:0 of s[a] plus the sign-extended offset; a misaligned one is ALIGN, one
that reaches 0xF800 is PROT; a load, or a store of less than 8 bytes, that meets an uncorrectable word is MEMUE, which on an
undervolted row also brings the rails back and pins the row; else a load extends its bytes and a store changes exactly its own
(R65, R128, R236, R318, R364, Table 4.3). A slot whose own posted stores reach that scratchpad finds them performed (R131, R156;
the model's moment, assumption 113): OwnWindowStores says so. -/
def Obligations.ScratchpadAccess : Prop :=
  ∀ (s : State) (d a : SReg) (sz : Size) (imm : BitVec 13), (sz = .v → d.val < 16) →
    let ea := (rdS s a + imm.signExtend 64).toNat % 2 ^ 16
    let both := fun (P : Instr → Prop) => P (.lds d a sz imm) ∧ P (.sts d a sz imm)
    let row := fun (t : State) => sget RowGauge.reset t.rows (coreRow s s.curCore)
    let memue := fun (i : Instr) => ((row s).rail = 0 → Traps i s 10 0 (slot s).pc) ∧
      ((row s).rail ≠ 0 → Happens i s (fun t => Entered s t s.curCore s.curSlot 10 (slot s).pc ∧
        row t = { pinned := true, rail := 0 }))
    ((slot s).sys = false → ea % sz.bytes ≠ 0 → both (fun i => Traps i s 3 0 (slot s).pc)) ∧
    ((slot s).sys = false → ea % sz.bytes = 0 → 0xF800 < ea + sz.bytes → both (fun i => Traps i s 7 0 (slot s).pc)) ∧
    (OwnDone s 0 → (slot s).sys = false → ea % sz.bytes = 0 → ea + sz.bytes ≤ 0xF800 → (cur s).spBadIn ea sz.bytes = true →
      memue (.lds d a sz imm) ∧ (sz.bytes < 8 → memue (.sts d a sz imm))) ∧
    (OwnDone s 0 → ea % sz.bytes = 0 → ea + sz.bytes ≤ 0xF800 → (cur s).spBadIn ea sz.bytes = false →
      Completes (.lds d a sz imm) s (loadChange d sz)
        (fun t => Loaded t d sz ((cur s).spRead ea sz.bytes) ∧ (slot t).hold = none)) ∧
    (OwnDone s 0 → ea % sz.bytes = 0 → ea + sz.bytes ≤ 0xF800 → (8 ≤ sz.bytes ∨ (cur s).spBadIn ea sz.bytes = false) →
      Completes (.sts d a sz imm) s { pad := fun c x => c = s.curCore ∧ ea ≤ x ∧ x < ea + sz.bytes }
        (fun t => (cur t).spRead ea sz.bytes = storeBytes s d sz))

/-- The slot's own stores to its core's window, posted and not yet performed, are performed where an access of its own to the
scratchpad (unit 0) or the accumulators (unit 2) follows (R131, R156; the moment is the model's, assumption 113): they leave the
buffer, oldest first, the unit's bytes are theirs, and nothing else changes but wakes and monitors. LDS, STS, CWAIT, CWSET, RECV of a
reply, RCALL, PGRP and the accumulator instructions run as after that, so a load reads what its own slot has stored and a later
store's bytes stand. -/
def Obligations.OwnWindowStores : Prop :=
  (∀ (s : State) (u : Nat), (u = 0 ∨ u = 2) →
    let t := ownPerformed s u
    OwnDone t u ∧ (cur t).psb = (cur s).psb.filter (fun e => !ownStore s u e) ∧
    (∀ x, (cur t).winByte u x = ownByte s u x ((cur s).winByte u x)) ∧
    Keeps s t { pad := fun c _ => u = 0 ∧ c = s.curCore, acc := fun c _ => u = 2 ∧ c = s.curCore } ∧
    (slot t).pc = (slot s).pc ∧ (slot t).nr = (slot s).nr ∧ (slot t).ncause = (slot s).ncause ∧
    (∀ c, SameStructs (getCore s c) (getCore t c)) ∧ t.net = s.net) ∧
  (∀ (s : State) (d a b : SReg) (v : VReg) (x y : Acc) (nr : Disp) (sz : Size) (imm : BitVec 13) (probe acq rel : Bool) (ch : BitVec 3)
      (md : PMode) (pl : BitVec 3) (f : Fmt) (n : Nat) (role : Role) (fill : Bool) (dest : AccDest),
    let ea := (rdS s a + imm.signExtend 64).toNat % 2 ^ 16
    let va := (rdS s a).toNat
    let ra := va % 2 ^ 16
    let rb := (rdS s b).toNat % 2 ^ 16
    let blk := va / 2 ^ 16 % 2 ^ 16
    let inOwn := fun (m : Nat) => va % 64 = 0 ∧ (spAddr s (rdS s a) m).isSome = true
    (ea % sz.bytes = 0 → ea + sz.bytes ≤ 0xF800 → ∀ i ∈ [Instr.lds d a sz imm, .sts d a sz imm], AfterOwn i s 0) ∧
    (va % 16 = 0 → va < 0xF800 → ∀ i ∈ [Instr.cwait d a nr, .cwset d a], AfterOwn i s 0) ∧
    (va / 2 ^ 26 = 32 → ra = s.curCore → va / 2 ^ 16 % 2 ^ 10 * 64 + 64 ≤ 0xF7C0 → (probe = true → nr = .park) →
      AfterOwn (.recvReply v a nr probe acq) s 0) ∧
    (blk % 64 = 0 → blk + 64 ≤ 0xF7C0 → AfterOwn (.rcall d a nr v rel ch) s 0) ∧
    (pressForm s pl = some (f, n) → ra % 16 = 0 → rb % 16 = 0 → ra + 16 ≤ 0xF800 → rb + 32 ≤ 0xF800 →
      AfterOwn (.pgrp x a b nr md pl) s 0) ∧
    (∀ i ∈ [Instr.accz x nr, .accrd x v b nr, .accwr x v b nr], AfterOwn i s 2) ∧
    (inOwn 4096 → AfterOwn (.accld x a nr) s 0 ∧ AfterOwn (.accld x a nr) (ownPerformed s 0) 2) ∧
    (inOwn dest.bytes → AfterOwn (.accst x a fill nr dest) s 0 ∧ AfterOwn (.accst x a fill nr dest) (ownPerformed s 0) 2) ∧
    (fmtOf (slot s).pfmt = some f → (role = .tail ∨ (inPart s ra = true ∧ ra ≠ s.curCore)) →
      AfterOwn (.seam x a y nr role) s 2)) ∧
  (∀ (s : State) (d a : SReg) (sz : Size) (imm : BitVec 13) (e : Posted), (sz = .v → d.val < 16) →
    let ea := (rdS s a + imm.signExtend 64).toNat % 2 ^ 16
    ea % sz.bytes = 0 → ea + sz.bytes ≤ 0xF800 → (cur s).spBadIn ea sz.bytes = false →
    (cur s).psb = [e] → ownStore s 0 e = true → e.addr = ea → e.data.length = sz.bytes →
    let pad := fun c x => c = s.curCore ∧ ea ≤ x ∧ x < ea + sz.bytes
    Completes (.lds d a sz imm) s { loadChange d sz with pad := pad } (fun t => Loaded t d sz e.data ∧ (cur t).psb = []) ∧
    Completes (.sts d a sz imm) s { pad := pad }
      (fun t => (cur t).spRead ea sz.bytes = storeBytes s d sz ∧ (cur t).psb = []))

/-- Loads of the other five spaces (R27, R129, R130, R131, R139, R141, R144, R169, R316, R317): the first attempt is not-ready FILL
on the line, and a retry that finds its answer completes with it; an own window, and an L1 hit, are ready at once, a busy
accumulator is BUSY; LDL waits for its descriptor; a bounded load of a region is FILL without view or copy, STALE when the
copy is too old, which also counts a write that the copy missed (R160; assumption 91); a missing translation is FILL on the walk,
and a walk's fault is raised at the retry; a poisoned or uncorrectable word, or one found poisoned in a copy, is MEMUE in user mode
when its value would be returned, and a target's refusal, which is PROT for a region that may not be read (R172), traps at the retry.
While an XLINV or a DICTLD of the slot is under way, an earlier fence or a DCFENCE of the range is open, or a posted store of its own to
the line is unperformed, every load is FILL (R150, R293, R294, R375; the resource of the first three is assumption 11); with an atomic in
flight a load that acquires is BUSY (R278). -/
def Obligations.LoadResults : Prop :=
  ∀ (s : State) (d a : SReg) (nr : Disp) (sz : Size) (ord : Ord2) (st : BitVec 3) (off : BitVec 8) (short : BitVec 5)
    (bytes : List Byte),
    (sz = .v → d.val < 16) →
    let n := sz.bytes
    let ea := rdS s a + BitVec.ofNat 64 n * off.signExtend 64
    let eaD := rdS s a + BitVec.ofNat 64 n * short.signExtend 64
    let ldw := Instr.ldw d a nr sz ord off
    let ldl := Instr.ldl d a nr sz ord off
    let ldd := Instr.ldd d a nr sz ord st short
    let loads := fun (i : Instr) (b : List Byte) =>
      CompletesReady i s (loadChange d sz) (fun t => Loaded t d sz b ∧ (slot t).hold = none)
    let memue := fun (i : Instr) => (slot s).sys = false → Traps i s 10 0 (slot s).pc
    let fill := fun (i : Instr) (sp : Space) (addr : Nat) => NotReady i s nr .fill (.line sp (addr / 64))
    let open_ := fun (i : Instr) => NotReady i s nr .fill (orderRes s.curCore s.curSlot)
    let behind := fun (i : Instr) (sp : Space) (addr : Nat) (fenced : Prop) =>
      ((ldBarred s = true ∨ fenced) → open_ i) ∧
      (ldBarred s = false → ¬ fenced → lineOpen s sp (addr / 64) = true → fill i sp addr) ∧
      (ldBarred s = false → ¬ fenced → lineOpen s sp (addr / 64) = false → ord ≠ .rlx → (slot s).atom ≠ none →
        NotReady i s nr .busy (.engine s.curCore))
    let held := fun (i : Instr) (tg : Target) (e : W64) => e.toNat % n = 0 → e.toNat < 2 ^ 48 →
      (invBarred s = true → open_ i) ∧
      (∀ pa x, invBarred s = false → xlate s e.toNat tg true false = .ok pa x →
        behind i (spaceOf tg) pa (dcfBarred s e.toNat n = true))
    (∀ w, ea.toNat % n = 0 → winAddr s ea n = some w → (invBarred s = true → open_ ldw) ∧
      (invBarred s = false → behind ldw (.win w.core w.unit) w.off False)) ∧
    (ea.toNat % n = 0 → ea.toNat < 2 ^ 36 → (invBarred s = true → open_ ldl) ∧
      (∀ x, invBarred s = false → (cur s).leaseAt.contains (ea.toNat / 2 ^ 20 % 2 ^ 8, ea.toNat / 2 ^ 28) = true →
        leaseAddr s ea n = some x → behind ldl (leaseSpace s x.1) x.2 False)) ∧
    held ldd .dev eaD ∧ held (.ldf d a nr sz ord off) .far ea ∧ held (.ldh d a nr sz ord off) .host ea ∧
    (invBarred s = false → ldBarred s = false → (ord ≠ .rlx → (slot s).atom = none) →
    let answer := fun (sp : Space) (addr : Nat) (view : Bool) (x : Answer) => ∃ h, (slot s).hold = some h ∧
      h.pc = (slot s).pc ∧ h.sp = sp ∧ h.addr = addr ∧ h.view = view ∧ h.op = .load n ∧ h.ans = x
    let twoSteps := fun (i : Instr) (sp : Space) (addr : Nat) (view : Bool) => lineOpen s sp (addr / 64) = false →
      ((slot s).hold = none → fill i sp addr) ∧
      (answer sp addr view (.got bytes false) → lineHeld s sp (addr / 64) = false → loads i bytes) ∧
      (answer sp addr view (.got bytes true) → lineHeld s sp (addr / 64) = false → memue i) ∧
      (∀ c, answer sp addr view (.denied c) → (slot s).sys = false → Traps i s c.code 0 (slot s).pc) ∧
      (∀ c r, answer sp addr view (.wait c r) → NotReady i s nr c r)
    let mapped := fun (i : Instr) (tg : Target) (e : W64) => e.toNat % n = 0 → e.toNat < 2 ^ 48 →
      let view := decide (e.toNat / 2 ^ 46 % 2 = 1)
      (xlate s e.toNat tg true false = .miss → NotReady i s nr .fill (walkLine s e.toNat)) ∧
      (∀ f, faultHeld s s.curCore s.curSlot (slot s).pc e.toNat = some f → (slot s).sys = false →
        Traps i s (if f.invalid then 4 else 7) 0 (slot s).pc) ∧
      (∀ pa x, xlate s e.toNat tg true false = .ok pa x →
        (tg = .dev → regionOf s (curPart s) (pa / 64) = none) → dcfBarred s e.toNat n = false →
        ((cur s).l1Find (spaceOf tg) (pa / 64) view = none → twoSteps i (spaceOf tg) pa view) ∧
        (∀ c, ord = .rlx → (slot s).hold = none → lineOpen s (spaceOf tg) (pa / 64) = false →
          lineHeld s (spaceOf tg) (pa / 64) = false → (cur s).l1Find (spaceOf tg) (pa / 64) view = some c →
          (c.poison = false → loads i ((c.data.drop (pa % 64)).take n)) ∧ (c.poison = true → memue i)))
    (∀ w, ea.toNat % n = 0 → winAddr s ea n = some w →
      let acc : Resource := .acc s.curCore (w.off / 4096)
      (w.core ≠ s.curCore → twoSteps ldw (.win w.core w.unit) w.off false) ∧
      (w.core = s.curCore → lineOpen s (.win w.core w.unit) (w.off / 64) = false →
        (w.unit = 2 → (cur s).winBusy 2 w.off n = true → NotReady ldw s nr .busy acc) ∧
        ((w.unit = 2 → (cur s).winBusy 2 w.off n = false ∧ heldBackBy s acc (accOwn s s.curCore (w.off / 4096)) = false) →
          ((w.unit = 0 → (cur s).spBadIn w.off n = false) → loads ldw ((cur s).winRead w.unit w.off n)) ∧
          (w.unit = 0 → (cur s).spBadIn w.off n = true →
            (sget RowGauge.reset s.rows (coreRow s s.curCore)).rail = 0 → memue ldw)))) ∧
    (ea.toNat % n = 0 → ea.toNat < 2 ^ 36 →
      let ix := ea.toNat / 2 ^ 20 % 2 ^ 8
      let gen := ea.toNat / 2 ^ 28
      ((cur s).leaseAt.contains (ix, gen) = false → fill ldl (.lease (curPart s) ix gen) (ea.toNat % 2 ^ 20)) ∧
      (∀ x, (cur s).leaseAt.contains (ix, gen) = true → leaseAddr s ea n = some x →
        twoSteps ldl (leaseSpace s x.1) x.2 false)) ∧
    mapped ldd .dev eaD ∧ mapped (.ldf d a nr sz ord off) .far ea ∧ mapped (.ldh d a nr sz ord off) .host ea ∧
    (∀ pa x q i r, eaD.toNat % n = 0 → eaD.toNat < 2 ^ 48 → xlate s eaD.toNat .dev true false = .ok pa x →
      regionOf s (curPart s) (pa / 64) = some (q, i, r) →
      let bounded := ord = .rlx ∧ st ≠ 7 ∧ eaD.toNat / 2 ^ 46 % 2 = 0
      (dcfBarred s eaD.toNat n = false → lineOpen s .dev (pa / 64) = false →
        (¬ bounded → twoSteps ldd .dev pa (decide (eaD.toNat / 2 ^ 46 % 2 = 1))) ∧
        (bounded → (viewOf (cur s) q i = none ∨ (cur s).viewOwed q i = true) → fill ldd .dev pa) ∧
        (bounded → viewOf (cur s) q i ≠ none → (cur s).viewOwed q i = false → r.r = false → twoSteps ldd .dev pa false) ∧
        (bounded → r.r = true → (cur s).l1Round (pa / 64) q i = none → fill ldd .dev pa) ∧
        (∀ v c u, bounded → r.r = true → viewOf (cur s) q i = some v → (cur s).viewOwed q i = false →
          (cur s).l1Round (pa / 64) q i = some (c, u) →
          let near := ((v - u).toNat ≤ st.toNat ∨ (0 < (u - v).toNat ∧ (u - v).toNat < 2 ^ 31)) ∧
            ∀ m, c.missed = some m → 2 ^ 31 ≤ (v - BitVec.ofNat 32 st.toNat - m).toNat
          (¬ near → NotReady ldd s nr .stale (.line .dev (pa / 64))) ∧
          (near → lineHeld s .dev (pa / 64) = false →
            (c.poison = false → loads ldd ((c.data.drop (pa % 64)).take n)) ∧ (c.poison = true → memue ldd))))))

/-- Stores of the other five spaces are posted: ready at once, they take one place of the buffer with their bytes, their address and
their release mark, and no memory changes yet; a full buffer or an atomic in flight refuses them BUSY, and an open order of
R150 refuses a window store FILL and the others BUSY, and so an own window store that releases while earlier work of its slot is open
(not one to a mailbox, which waits in the buffer); STL waits FILL for its descriptor; a missing translation is FILL on the
walk, and a walk's fault is raised at the retry (R129, R130, R139, R144, R278, R360, R362; the resource that a refused window
store names is assumption 11; a region that the core may not write is PROT at once by assumption 80, where R172 has a FILL that
never comes before it). -/
def Obligations.StoresArePosted : Prop :=
  ∀ (s : State) (d a : SReg) (nr : Disp) (sz : Size) (ord : Ord2) (off : BitVec 8) (short : BitVec 5),
    invBarred s = false →
    let n := sz.bytes
    let ea := rdS s a + BitVec.ofNat 64 n * off.signExtend 64
    let eaD := rdS s a + BitVec.ofNat 64 n * short.signExtend 64
    let room := (slot s).atom = none ∧ (cur s).psb.length < 16 ∧ engineHeld s = false
    let posts := fun (i : Instr) (sp : Space) (addr : Nat) (comp : Option Nat) =>
      (stBarred s = false → room → CompletesReady i s {} (fun t => (cur t).nextId = (cur s).nextId + 1 ∧
        (cur t).psb = (cur s).psb ++ [
          { id := (cur s).nextId, slot := s.curSlot, sp := sp, addr := addr, data := storeBytes s d sz,
            rel := decide (ord ≠ .rlx), red := none, comp := comp }])) ∧
      (stBarred s = false → ¬ room → NotReady i s nr .busy (.engine s.curCore))
    let barred := fun (i : Instr) => stBarred s = true → NotReady i s nr .busy (.engine s.curCore)
    let mapped := fun (i : Instr) (tg : Target) (e : W64) => e.toNat % n = 0 → e.toNat < 2 ^ 48 →
      e.toNat / 2 ^ 46 % 2 = 0 →
      (xlate s e.toNat tg false true = .miss → NotReady i s nr .fill (walkLine s e.toNat)) ∧
      (∀ f, faultHeld s s.curCore s.curSlot (slot s).pc e.toNat = some f → (slot s).sys = false →
        Traps i s (if f.invalid then 5 else 7) 0 (slot s).pc) ∧
      (∀ pa x, xlate s e.toNat tg false true = .ok pa x →
        (tg = .dev → mayWriteLine s (curPart s) s.curCore (pa / 64) = true) → dcfBarred s e.toNat n = false →
        posts i (spaceOf tg) pa (if x.comp then some x.dslot else none) ∧ barred i) ∧
      (∀ pa x, xlate s e.toNat tg false true = .ok pa x → tg = .dev →
        mayWriteLine s (curPart s) s.curCore (pa / 64) = false → (slot s).sys = false → Traps i s 7 0 (slot s).pc)
    (∀ w, ea.toNat % n = 0 → winAddr s ea n = some w → (w.unit = 4 → sz = .v) →
      let behind := ord ≠ .rlx ∧ w.core = s.curCore ∧ w.unit ≠ 4 ∧ anyOpen s = true
      (¬ behind → posts (.stw d a nr sz ord off) (.win w.core w.unit) w.off none) ∧
      ((stBarred s = true ∨ behind) → NotReady (.stw d a nr sz ord off) s nr .fill (orderRes s.curCore s.curSlot))) ∧
    (ea.toNat % n = 0 → ea.toNat < 2 ^ 36 →
      let ix := ea.toNat / 2 ^ 20 % 2 ^ 8
      let gen := ea.toNat / 2 ^ 28
      let stl := Instr.stl d a nr sz ord off
      ((cur s).leaseAt.contains (ix, gen) = false →
        NotReady stl s nr .fill (.line (.lease (curPart s) ix gen) (ea.toNat % 2 ^ 20 / 64))) ∧
      (∀ x, (cur s).leaseAt.contains (ix, gen) = true → leaseAddr s ea n = some x →
        posts stl (leaseSpace s x.1) x.2 none ∧ barred stl)) ∧
    mapped (.std d a nr sz ord short) .dev eaD ∧ mapped (.stf d a nr sz ord off) .far ea ∧
    mapped (.sth d a nr sz ord off) .host ea

/-- Addressing traps of the memory instructions in user mode: a misaligned effective address is ALIGN; a window address that
is not one, and a mapped address with bits 63:48, are PROT; a lease address with bits 63:36, or whose descriptor names no live
lease, is BOUNDS; a store, an atomic or a reduction through the compressed view is PROT. An atomic or a reduction whose walk found
no entry is PFW, and one without the page's right, or on a region that the core may not write, PROT, at once where R172, R277 and R342
have FILL first for a tag that is not known (the model's choice, assumption 80). LDC, STP, FESET, FECLR and
FEPEEK are ALIGN off their size or off 8, and PROT when their words are no scratchpad of a core of the partition
(R33, R130, R133, R135, R138, R139, R142, R144, R172, R276, R277, R342). -/
def Obligations.AddressTraps : Prop :=
  ∀ (s : State) (d a b : SReg) (nr : Disp) (sz : Size) (ord : Ord2) (st : BitVec 3) (off x : BitVec 8) (short : BitVec 5)
    (w sys peek : Bool) (am : AmOrd),
    (slot s).sys = false →
    let n := sz.bytes
    let ea := rdS s a + BitVec.ofNat 64 n * off.signExtend 64
    let eaD := rdS s a + BitVec.ofNat 64 n * short.signExtend 64
    let traps := fun (c : Nat) (is : List Instr) => ∀ i ∈ is, Traps i s c 0 (slot s).pc
    (ea.toNat % n ≠ 0 → traps 3 [.ldw d a nr sz ord off, .stw d a nr sz ord off, .ldl d a nr sz ord off,
      .stl d a nr sz ord off, .ldf d a nr sz ord off, .stf d a nr sz ord off, .ldh d a nr sz ord off,
      .sth d a nr sz ord off]) ∧
    (eaD.toNat % n ≠ 0 → traps 3 [.ldd d a nr sz ord st short, .std d a nr sz ord short]) ∧
    (ea.toNat % n = 0 → winAddr s ea n = none → traps 7 [.ldw d a nr sz ord off, .stw d a nr sz ord off]) ∧
    (ea.toNat % n = 0 → (2 ^ 36 ≤ ea.toNat ∨ (invBarred s = false ∧ leaseAddr s ea n = none ∧
        (cur s).leaseAt.contains (ea.toNat / 2 ^ 20 % 2 ^ 8, ea.toNat / 2 ^ 28) = true)) →
      traps 9 [.ldl d a nr sz ord off, .stl d a nr sz ord off]) ∧
    (ea.toNat % n = 0 → 2 ^ 48 ≤ ea.toNat → traps 7 [.ldf d a nr sz ord off, .stf d a nr sz ord off,
      .ldh d a nr sz ord off, .sth d a nr sz ord off]) ∧
    (eaD.toNat % n = 0 → 2 ^ 48 ≤ eaD.toNat → traps 7 [.ldd d a nr sz ord st short, .std d a nr sz ord short]) ∧
    (eaD.toNat % n = 0 → eaD.toNat < 2 ^ 48 → eaD.toNat / 2 ^ 46 % 2 = 1 → traps 7 [.std d a nr sz ord short]) ∧
    (let base := rdS s a
     let m := 8 * (x.toNat + 1)
     let words : List Instr := [.ldc d a nr sz peek off, .stp d a nr sz off]
     let bits : List Instr := [Instr.feset a nr x, .feclr a nr x] ++ (if x.toNat < 64 then [Instr.fepeek d a nr x] else [])
     let rmw : Bool → List Instr := fun w => [Instr.amadd d a nr w b am sys, .amand d a nr w b am sys, .amor d a nr w b am sys,
       .amxor d a nr w b am sys, .ammin d a nr w b am sys, .ammax d a nr w b am sys, .amminz d a nr w b am sys,
       .ammaxz d a nr w b am sys, .amswp d a nr w b am sys, .amcas d a nr w b am sys]
     let red : Bool → List Instr := fun w => [Instr.redadd a nr w b, .redmin a nr w b, .redmax a nr w b, .redand a nr w b,
       .redor a nr w b, .redxor a nr w b] ++ (if w then [Instr.redfadd a nr b] else [])
     let bytes := if w then 4 else 8
     (ea.toNat % n ≠ 0 → traps 3 words) ∧ (ea.toNat % n = 0 → spAddr s ea n = none → traps 7 words) ∧
     (base.toNat % 8 ≠ 0 → traps 3 bits) ∧ (base.toNat % 8 = 0 → spAddr s base m = none → traps 7 bits) ∧
     (base.toNat % bytes ≠ 0 → traps 3 (rmw w ++ red w)) ∧
     (base.toNat % bytes = 0 → (2 ^ 48 ≤ base.toNat ∨ base.toNat / 2 ^ 46 % 2 = 1) → traps 7 (rmw w ++ red w)) ∧
     (base.toNat % bytes = 0 → base.toNat < 2 ^ 48 → base.toNat / 2 ^ 46 % 2 = 0 → invBarred s = false →
       (∀ f, faultHeld s s.curCore s.curSlot (slot s).pc base.toNat = some f →
         traps (if f.invalid then 5 else 7) (rmw w ++ red w)) ∧
       (xlate s base.toNat .dev true true = .bad .prot → traps 7 (rmw w)) ∧
       (xlate s base.toNat .dev false true = .bad .prot → traps 7 (red w)) ∧
       (∀ pa e, mayWriteLine s (curPart s) s.curCore (pa / 64) = false →
         (xlate s base.toNat .dev true true = .ok pa e → traps 7 (rmw w)) ∧
         (xlate s base.toNat .dev false true = .ok pa e → traps 7 (red w)))))

/-- Full/empty words: LDC and STP refuse FEWAIT on an empty, or a full, word, or behind an older claim; else LDC reads its bytes and
`consume` empties the word, STP writes its bytes and fills it; FESET, FECLR and FEPEEK set, clear and read the bits of x + 1 words.
A word that LDC reads, or that STP writes in part, and that is uncorrectable is MEMUE in user mode. The local form has no other
refusal but the BUSY of an STP whose slot has a posted store or a reduction unperformed; behind any other open order it acts on the state
in which its core's work is performed as far as the targets take it, and after an STP whose release that does not satisfy the slot's later
accesses wait; where such work is left, the core withholds the answers to window accesses of its scratchpad until it is performed
(assumption 67). The window
form is FILL under an open fence, LDC behind an own store to the line, STP behind any open work, and while an XLINV or DICTLD is under
way (R294, R375; assumption 11 for the resource of such a claim), and LDC and STP are BUSY while an atomic is in flight (R278). It is
so at the own core; at another core its first attempt is not-ready FILL, whatever is open, and LDC and STP act at the retry that finds
the word at hand (assumption 25, where R131 performs them at arrival), while FESET, FECLR and FEPEEK were performed at the target
A target that is saved or withholds its answers is asked anew at the retry (R130, R133, R134, R135, R150, R303, R315, R363). -/
def Obligations.FullEmptyWords : Prop :=
  ∀ (s : State) (d a : SReg) (nr : Disp) (sz : Size) (peek : Bool) (off : BitVec 8) (x : BitVec 8), sz.bytes ≤ 8 →
    let n := sz.bytes
    let ea := rdS s a + BitVec.ofNat 64 n * off.signExtend 64
    let order : Resource := orderRes s.curCore s.curSlot
    let eng : Resource := .engine s.curCore
    let fenced := ldBarred s = true ∨ stBarred s = true
    let free := invBarred s = false ∧ ¬ fenced
    let u := settle s
    let behind := fun (i : Instr) (P : State → Prop) => ∃ t, exec i s = .next t ∧ Ready u t ∧ P t
    let goesAhead := fun (t : State) => localBarred u = true → (cur t).withholds = true
    let memue := fun (i : Instr) (c : Nat) => (sget RowGauge.reset s.rows (coreRow s c)).rail = 0 → (slot s).sys = false →
      Traps i s 10 0 (slot s).pc
    let base := rdS s a
    let m := 8 * (x.toNat + 1)
    let ldc := Instr.ldc d a nr sz peek off
    let stp := Instr.stp d a nr sz off
    let full := fun (c w : Nat) => (getCore s c).feBit w = true ∧ heldBack s (.feWord c w false) = false
    let empty := fun (c w : Nat) => (getCore s c).feBit w = false ∧ heldBack s (.feWord c w true) = false
    let reads := fun (c o : Nat) =>
      let k := getCore s c
      (k.spBadIn o n = true → memue ldc c) ∧
      (k.spBadIn o n = false → CompletesReady ldc s { sreg := [d], fe := fun c2 v => c2 = c ∧ v = o / 8 }
        (fun t => Loaded t d sz (k.spRead o n) ∧ (getCore t c).feBit (o / 8) = peek))
    let writes := fun (c o : Nat) =>
      (n < 8 → (getCore s c).spBadIn o n = true → memue stp c) ∧
      ((n = 8 ∨ (getCore s c).spBadIn o n = false) →
        CompletesReady stp s { pad := fun c2 y => c2 = c ∧ o ≤ y ∧ y < o + n, fe := fun c2 v => c2 = c ∧ v = o / 8 }
          (fun t => (getCore t c).spRead o n = toBytes n (rdS s d).toNat ∧ (getCore t c).feBit (o / 8) = true))
    let ldcWin := fun (c o : Nat) =>
      let line : Resource := .line (.win c 0) (o / 64)
      (¬ full c (o / 8) → NotReady ldc s nr .fewait (.feWord c (o / 8) false)) ∧
      (full c (o / 8) → ¬ free → NotReady ldc s nr .fill order) ∧
      (full c (o / 8) → free → lineOpen s (.win c 0) (o / 64) = true → NotReady ldc s nr .fill line) ∧
      (full c (o / 8) → free → lineOpen s (.win c 0) (o / 64) = false →
        ((slot s).atom ≠ none → NotReady ldc s nr .busy eng) ∧ ((slot s).atom = none → reads c o))
    let stpWin := fun (c o : Nat) =>
      (¬ empty c (o / 8) → NotReady stp s nr .fewait (.feWord c (o / 8) true)) ∧
      (empty c (o / 8) → (invBarred s = true ∨ anyOpen s = true) → NotReady stp s nr .fill order) ∧
      (empty c (o / 8) → invBarred s = false → anyOpen s = false →
        ((slot s).atom ≠ none → NotReady stp s nr .busy eng) ∧ ((slot s).atom = none → writes c o))
    let inside := fun (c w c2 v : Nat) => c2 = c ∧ w ≤ v ∧ v < w + (x.toNat + 1)
    let ordered := ∀ i ∈ [Instr.feset a nr x, .feclr a nr x] ++ (if x.toNat < 64 then [.fepeek d a nr x] else []),
      ¬ free → NotReady i s nr .fill order
    let marks := fun (c w : Nat) => free →
      CompletesReady (.feset a nr x) s { fe := inside c w } (fun t => ∀ v, inside c w c v → (getCore t c).feBit v = true) ∧
      CompletesReady (.feclr a nr x) s { fe := inside c w } (fun t => ∀ v, inside c w c v → (getCore t c).feBit v = false) ∧
      (x.toNat < 64 → CompletesReady (.fepeek d a nr x) s { sreg := [d] } (fun t =>
        d ≠ 0 → ∀ j, (rdS t d).getLsbD j = (decide (j < x.toNat + 1) && (getCore s c).feBit (w + j))))
    let found := fun (c o : Nat) (op : WinOp) (b : List Byte) =>
      lineHeld s (.win c 0) (o / 64) = false ∧ ∃ h, (slot s).hold = some h ∧ h.pc = (slot s).pc ∧ h.sp = .win c 0 ∧
        h.addr = o ∧ h.view = false ∧ h.op = op ∧ h.ans = .got b false
    let keepsBack := fun (c : Nat) => (getCore s c).away = true ∨ (getCore s c).withholds = true
    let answered := fun (c o : Nat) (op : WinOp) (b : List Byte) => ¬ keepsBack c ∧ found c o op b
    let marked := fun (c o : Nat) (op : WinOp) (b : List Byte) => (getCore s c).away = false ∧ found c o op b
    let fills := fun (c o : Nat) (is : List Instr) => (slot s).hold = none →
      ∀ i ∈ is, NotReady i s nr .fill (.line (.win c 0) (o / 64))
    (ea.toNat % n = 0 → ea.toNat + n ≤ 0xF800 →
      let c := s.curCore
      let o := ea.toNat
      let clear := free ∧ lineOpen s (.win c 0) (o / 64) = false
      (¬ full c (o / 8) → NotReady ldc s nr .fewait (.feWord c (o / 8) false)) ∧
      (full c (o / 8) → clear → reads c o) ∧
      (full c (o / 8) → ¬ clear → (getCore u c).spBadIn o n = false →
        behind ldc (fun t => Loaded t d sz ((getCore u c).spRead o n) ∧ (peek = false → (getCore t c).feBit (o / 8) = false) ∧
          goesAhead t)) ∧
      (¬ empty c (o / 8) → NotReady stp s nr .fewait (.feWord c (o / 8) true)) ∧
      (empty c (o / 8) → postedOpen s = true → NotReady stp s nr .busy eng) ∧
      (empty c (o / 8) → postedOpen s = false → invBarred s = false → anyOpen s = false → writes c o) ∧
      (empty c (o / 8) → postedOpen s = false → (invBarred s = true ∨ anyOpen s = true) →
        ((getCore u c).feBit (o / 8) = true → ∃ t, exec stp s = .next t ∧ (slot t).nr = true ∧
          (slot t).ncause = Cause.fewait.code) ∧
        ((getCore u c).feBit (o / 8) = false → (n = 8 ∨ (getCore u c).spBadIn o n = false) →
          behind stp (fun t => (getCore t c).spRead o n = toBytes n (rdS u d).toNat ∧ (getCore t c).feBit (o / 8) = true ∧
            (anyOpen u = true → ldBarred t = true ∧ stBarred t = true ∧ (cur t).withholds = true))))) ∧
    (base.toNat % 8 = 0 → base.toNat + m ≤ 0xF800 →
      let c := s.curCore
      let w := base.toNat / 8
      marks c w ∧
      (¬ free →
        behind (.feset a nr x) (fun t => (∀ v, inside c w c v → (getCore t c).feBit v = true) ∧ goesAhead t) ∧
        behind (.feclr a nr x) (fun t => (∀ v, inside c w c v → (getCore t c).feBit v = false) ∧ goesAhead t) ∧
        (x.toNat < 64 → behind (.fepeek d a nr x) (fun t => goesAhead t ∧ (
          d ≠ 0 → ∀ j, (rdS t d).getLsbD j = (decide (j < x.toNat + 1) && (getCore u c).feBit (w + j))))))) ∧
    (64 ≤ x.toNat → (slot s).sys = false → Traps (.fepeek d a nr x) s 1 0 (slot s).pc) ∧
    (0x10000 ≤ ea.toNat ∧ 0x10000 ≤ base.toNat →
      (∀ w, ea.toNat % n = 0 → winAddr s ea n = some w → w.unit = 0 →
        (w.core = s.curCore → ldcWin w.core w.off ∧ stpWin w.core w.off) ∧
        (w.core ≠ s.curCore → fills w.core w.off [ldc, stp] ∧
          (∀ b, keepsBack w.core → found w.core w.off (.ldc n (!peek)) b →
            NotReady ldc s nr .fill (.line (.win w.core 0) (w.off / 64))) ∧
          (∀ b, keepsBack w.core → found w.core w.off (.stp (toBytes n (rdS s d).toNat)) b →
            NotReady stp s nr .fill (.line (.win w.core 0) (w.off / 64))) ∧
          (∀ b, answered w.core w.off (.ldc n (!peek)) b → ldcWin w.core w.off) ∧
          (∀ b, answered w.core w.off (.stp (toBytes n (rdS s d).toNat)) b → stpWin w.core w.off))) ∧
      (∀ w, base.toNat % 8 = 0 → winAddr s base m = some w → w.unit = 0 → ordered ∧
        (w.core = s.curCore → marks w.core (w.off / 8)) ∧
        (w.core ≠ s.curCore → free → fills w.core (8 * (w.off / 8)) [.feset a nr x, .feclr a nr x] ∧
          (x.toNat < 64 → fills w.core (8 * (w.off / 8)) [.fepeek d a nr x]) ∧
          (∀ b, marked w.core (8 * (w.off / 8)) (.feset (x.toNat + 1)) b → CompletesReady (.feset a nr x) s {} (fun _ => True)) ∧
          (∀ b, marked w.core (8 * (w.off / 8)) (.feclr (x.toNat + 1)) b → CompletesReady (.feclr a nr x) s {} (fun _ => True)) ∧
          (∀ b, x.toNat < 64 → marked w.core (8 * (w.off / 8)) (.fepeek (x.toNat + 1)) b →
            CompletesReady (.fepeek d a nr x) s { sreg := [d] }
              (fun t => rdS t d = if d = 0 then 0 else BitVec.ofNat 64 (leNat b))))))

/-- Atomics: the first attempt sends the operation to the home with the operands it samples and is not-ready FILL, also where the region
may not be read; while an open order or an own posted store to the line stands before it, it is FILL on the line and sends nothing. One
of the slot's that is in flight elsewhere loses its result to it and takes a place of the buffer, BUSY where none is free (assumption
27). The retry that finds the old value at its line writes it to s[d], a 32-bit one sign-extended, and one that finds the home's refusal,
or a poisoned line, is PROT, or MEMUE, in user mode. A retry that has its result and no translation walks first: no entry is PFW, a
missing right PROT, else the entry's A and D bits are set and the result collected (R144, assumption 103). Reductions are posted: ready
at once, one place of the buffer holds the operation and its operand until the home applies it, BUSY while all 16 are taken (assumption
83); REDFADD acts on 32 bits (R172, R276, R277, R278, R279, R341, R342, R343). -/
def Obligations.AtomicAndReductionIssue : Prop :=
  (∀ (s : State) (d a b : SReg) (nr : Disp) (w : Bool) (ord : AmOrd) (sys : Bool) (pa : Nat) (e : TlbEntry),
    let n := if w then 4 else 8
    let ea := rdS s a
    ea.toNat % n = 0 → ea.toNat < 2 ^ 48 → ea.toNat / 2 ^ 46 % 2 = 0 → invBarred s = false →
    xlate s ea.toNat .dev true true = .ok pa e → mayWriteLine s (curPart s) s.curCore (pa / 64) = true →
    let ops : List (Instr × AtomOp) := [(.amadd d a nr w b ord sys, .add), (.amand d a nr w b ord sys, .and),
      (.amor d a nr w b ord sys, .or), (.amxor d a nr w b ord sys, .xor), (.ammin d a nr w b ord sys, .min),
      (.ammax d a nr w b ord sys, .max), (.amminz d a nr w b ord sys, .minz), (.ammaxz d a nr w b ord sys, .maxz),
      (.amswp d a nr w b ord sys, .swp), (.amcas d a nr w b ord sys, .cas)]
    ∀ x ∈ ops,
      let waits := stBarred s = true ∨ ldBarred s = true ∨ dcfBarred s ea.toNat n = true ∨
        ((ord = .rel ∨ ord = .ar) ∧ anyOpen s = true) ∨ lineOpen s .dev (pa / 64) = true
      let elsewhere := ∀ g, (slot s).atom = some g → g.pc ≠ (slot s).pc ∨ g.addr / 64 ≠ pa / 64
      (elsewhere → waits → NotReady x.1 s nr .fill (.line .dev (pa / 64)) ∧
        ∃ t, exec x.1 s = .next t ∧ (slot t).atom = (slot s).atom) ∧
      let sent := fun (t : State) => (slot t).atom = some
        { pc := (slot s).pc, va := ea.toNat, addr := pa, op := x.2, wide := !w, val := rdS s b, cmp := rdS s d,
          comp := (if e.comp then some e.dslot else none), acq := decide (ord = .acq ∨ ord = .ar),
          rel := decide (ord = .rel ∨ ord = .ar), sys := sys, ans := .pending }
      ((slot s).atom = none → ¬ waits →
        NotReady x.1 s nr .fill (.line .dev (pa / 64)) ∧ ∃ t, exec x.1 s = .next t ∧ sent t) ∧
      (∀ g, (slot s).atom = some g → elsewhere → ¬ waits →
        (g.ans ≠ .pending → NotReady x.1 s nr .fill (.line .dev (pa / 64)) ∧ ∃ t, exec x.1 s = .next t ∧ sent t) ∧
        (g.ans = .pending → 16 ≤ (cur s).psb.length → NotReady x.1 s nr .busy (.engine s.curCore)) ∧
        (g.ans = .pending → (cur s).psb.length < 16 → engineHeld s = false → ∃ t, exec x.1 s = .next t ∧ (slot t).nr = true ∧
          (slot t).ncause = Cause.fill.code ∧ sent t ∧ ∃ l : Posted, (cur t).psb = (cur s).psb ++ [l] ∧ l.id = (cur s).nextId ∧
            l.addr = g.addr ∧ l.rel = true ∧ l.red = some (g.op, g.wide))) ∧
      (∀ g old, (slot s).atom = some g → g.pc = (slot s).pc → g.addr / 64 = pa / 64 → g.ans = .got old false →
        CompletesReady x.1 s { sreg := [d] } (fun t => (slot t).atom = none ∧
          rdS t d = (if d = 0 then 0 else if w then (BitVec.ofNat 32 (leNat old)).signExtend 64
            else BitVec.ofNat 64 (leNat old)))) ∧
      (∀ g, (slot s).atom = some g → g.pc = (slot s).pc → g.addr / 64 = pa / 64 → (slot s).sys = false →
        (∀ old, g.ans = .got old true → Traps x.1 s 10 0 (slot s).pc) ∧
        (∀ c, g.ans = .denied c → Traps x.1 s c.code 0 (slot s).pc))) ∧
  (∀ (s : State) (d a b : SReg) (nr : Disp) (w : Bool) (ord : AmOrd) (sys : Bool) (g : Atom) (old : List Byte),
    let ea := (rdS s a).toNat
    ea % (if w then 4 else 8) = 0 → ea < 2 ^ 48 → ea / 2 ^ 46 % 2 = 0 → invBarred s = false →
    xlate s ea .dev true true = .miss →
    (slot s).atom = some g → g.ans = .got old false → g.pc = (slot s).pc → g.va / 64 = ea / 64 →
    ∀ i ∈ [Instr.amadd d a nr w b ord sys, .amand d a nr w b ord sys, .amor d a nr w b ord sys, .amxor d a nr w b ord sys,
      .ammin d a nr w b ord sys, .ammax d a nr w b ord sys, .amminz d a nr w b ord sys, .ammaxz d a nr w b ord sys,
      .amswp d a nr w b ord sys, .amcas d a nr w b ord sys],
      let walk := walkTables s (curPart s) ea
      ((slot s).sys = false → walk = .invalid → Traps i s 5 0 (slot s).pc) ∧
      ((slot s).sys = false → walk = .prot → Traps i s 7 0 (slot s).pc) ∧
      (∀ e pte, walk = .ok e pte →
        ((slot s).sys = false → e.allows .dev true true false = false → Traps i s 7 0 (slot s).pc) ∧
        (e.allows .dev true true false = true → g.addr / 64 = e.phys ea / 64 →
          mayWriteLine (markPte s (curPart s) pte true) (curPart s) s.curCore (e.phys ea / 64) = true →
          CompletesReady i s { sreg := [d], mem := fun tg y => tg = .dev ∧ y = pte } (fun t => (slot t).atom = none ∧
            rdS t d = (if d = 0 then 0 else if w then (BitVec.ofNat 32 (leNat old)).signExtend 64
              else BitVec.ofNat 64 (leNat old)))))) ∧
  (∀ (s : State) (a b : SReg) (nr : Disp) (w : Bool) (pa : Nat) (e : TlbEntry),
    invBarred s = false → stBarred s = false → (slot s).atom = none →
    let ea := (rdS s a).toNat
    ea < 2 ^ 48 → ea / 2 ^ 46 % 2 = 0 → xlate s ea .dev false true = .ok pa e →
    mayWriteLine s (curPart s) s.curCore (pa / 64) = true →
    let posts := fun (i : Instr) (op : AtomOp) (w : Bool) =>
      let n := if w then 4 else 8
      ea % n = 0 → dcfBarred s ea n = false →
      (16 ≤ (cur s).psb.length → NotReady i s nr .busy (.engine s.curCore)) ∧
      ((cur s).psb.length < 16 → engineHeld s = false → CompletesReady i s {} (fun t => (cur t).psb = (cur s).psb ++
        [{ id := (cur s).nextId, slot := s.curSlot, sp := .dev, addr := pa, data := toBytes n (rdS s b).toNat,
           rel := false, red := some (op, !w), comp := if e.comp then some e.dslot else none }]))
    posts (.redadd a nr w b) .add w ∧ posts (.redmin a nr w b) .min w ∧ posts (.redmax a nr w b) .max w ∧
    posts (.redand a nr w b) .and w ∧ posts (.redor a nr w b) .or w ∧ posts (.redxor a nr w b) .xor w ∧
    posts (.redfadd a nr b) .fadd true)

/-- At the home: the atomic in flight of a slot is applied where it may stand at the execution that collects it (R148, R150, R278;
assumption 103) or for a save, which waits for it, the reduction at place i of a core's buffer in its turn; each changes exactly its
bytes to the value of its table, once, and the atomic keeps the old value for its slot; on a compressed page the operation is one
read-modify-write of its block, which is encoded anew, an AMCAS that finds another value writing nothing (R217, R220); on a poisoned line
nothing is written, and the atomic's answer is marked; of memory under another partition's key nothing changes (R2, R265; assumption 70).
In a region that the core may not write, or the atomic not read, the atomic is answered PROT, by assumption 26 also where the iron went
while it was in flight, and by assumption 41 the reduction waits, while an RMW that has lost its result leaves the buffer without effect
(R172, R277, R278, R342, Tables 21.3 and 23.5). -/
def Obligations.HomeOperations : Prop :=
  ∀ (s : State) (c : Nat),
    let p := (partOf s c).getD 0
    let may := fun (addr : Nat) => performsLine s p c (addr / 64) = true
    let reads := fun (addr : Nat) => mayReadLine s p (addr / 64) = true
    let mine := fun (addr : Nat) (wide : Bool) => ∀ i, i < (if wide then 8 else 4) → holdsKey s p .dev (addr + i) = true
    let mineBlock := fun (addr : Nat) => (blockLines (addr / 256)).all (fun l => holdsKey s p .dev (64 * l))
    let old := fun (addr : Nat) (wide : Bool) => devRead s p addr (if wide then 8 else 4)
    let result := fun (addr : Nat) (wide : Bool) (op : AtomOp) (val cmp : W64) (t : State) =>
      let n := if wide then 8 else 4
      let v := leNat (old addr wide)
      memRead t .dev addr n = toBytes n (if wide then (atomValue op (BitVec.ofNat 64 v) val cmp).toNat
        else (atomValue op (BitVec.ofNat 32 v) (val.setWidth 32) (cmp.setWidth 32)).toNat) ∧
      ∀ tg x, (tg = .dev → x < addr ∨ addr + n ≤ x) → readByte t tg x = readByte s tg x
    let recoded := fun (addr dslot : Nat) (wide : Bool) (op : AtomOp) (val cmp : W64) (blk : List Byte) (t : State) =>
      let n := if wide then 8 else 4
      let v := leNat ((blk.drop (addr % 256)).take n)
      let new := toBytes n (if wide then (atomValue op (BitVec.ofNat 64 v) val cmp).toNat
        else (atomValue op (BitVec.ofNat 32 v) (val.setWidth 32) (cmp.setWidth 32)).toNat)
      let enc := encodeBlock dslot (palOf s p dslot) (patch blk (addr % 256) new)
      granOf t (addr / 256) = enc.1 ∧ memRead t .dev (256 * (addr / 256)) 256 = enc.2 ∧
      MemOutside s t .dev (256 * (addr / 256)) 256
    let block := fun (addr : Nat) (wide : Bool) (b : List Byte) => lineBad s .dev addr = false ∧ b.length = 256 ∧
      addr % 256 + (if wide then 8 else 4) ≤ 256 ∧ plainBlock s p (addr / 256) = some b
    let equal := fun (old : List Byte) (wide : Bool) (cmp : W64) =>
      if wide then BitVec.ofNat 64 (leNat old) = cmp else BitVec.ofNat 32 (leNat old) = cmp.setWidth 32
    (∀ k g, (getSlot s c k).atom = some g → g.ans = .pending →
      let run := Instr.atomicAtHome c k
      let answered := fun (t : State) (x : Answer) => (getSlot t c k).atom = some { g with ans := x }
      let part := fun (b : List Byte) => (b.drop (g.addr % 256)).take (if g.wide then 8 else 4)
      (atomDue s c k g = false → exec run s = .next s) ∧
      (atomDue s c k g = true → may g.addr → reads g.addr →
        (g.comp = none → lineBad s .dev g.addr = false → mine g.addr g.wide →
          Happens run s (fun t => result g.addr g.wide g.op g.val g.cmp t ∧ answered t (.got (old g.addr g.wide) false))) ∧
        (g.comp = none → lineBad s .dev g.addr = false → holdsKey s p .dev g.addr = false →
          HappensQuietly run s (fun t => answered t (.got (old g.addr g.wide) false))) ∧
        (g.comp = none → lineBad s .dev g.addr = true →
          HappensQuietly run s (fun t => answered t (.got (old g.addr g.wide) true))) ∧
        (∀ dslot b, g.comp = some dslot → block g.addr g.wide b → g.op ≠ .cas →
          (mineBlock g.addr = true → Happens run s (fun t => recoded g.addr dslot g.wide g.op g.val g.cmp b t ∧
            answered t (.got (part b) false))) ∧
          (mineBlock g.addr = false → HappensQuietly run s (fun t => answered t (.got (part b) false)))) ∧
        (∀ dslot b, g.comp = some dslot → block g.addr g.wide b → g.op = .cas →
          (equal (part b) g.wide g.cmp → mineBlock g.addr = true → Happens run s (fun t =>
            recoded g.addr dslot g.wide .swp g.val g.cmp b t ∧ answered t (.got (part b) false))) ∧
          ((¬ equal (part b) g.wide g.cmp ∨ mineBlock g.addr = false) →
            HappensQuietly run s (fun t => answered t (.got (part b) false))))) ∧
      (atomDue s c k g = true → (¬ may g.addr ∨ ¬ reads g.addr) →
        HappensQuietly run s (fun t => answered t (.denied .prot)))) ∧
    (∀ i e op wide, (getCore s c).psb[i]? = some e → e.red = some (op, wide) →
      let run := Instr.reductionAtHome c i
      let gone := fun (t : State) => (getCore t c).psb = (getCore s c).psb.eraseIdx i
      let part := (fun (b : List Byte) => (b.drop (e.addr % 256)).take (if wide then 8 else 4))
      ((getCore s c).performable i = true → e.am ≠ none → (¬ may e.addr ∨ ¬ reads e.addr) → HappensQuietly run s gone) ∧
      ((getCore s c).performable i = true → may e.addr → (e.am ≠ none → reads e.addr) →
        (e.comp = none → lineBad s .dev e.addr = false → mine e.addr wide →
          Happens run s (fun t => result e.addr wide op (BitVec.ofNat 64 (leNat e.data)) e.cmp t ∧ gone t)) ∧
        (e.comp = none → (lineBad s .dev e.addr = true ∨ holdsKey s p .dev e.addr = false) → HappensQuietly run s gone) ∧
        (∀ dslot b, e.comp = some dslot → block e.addr wide b → op ≠ .cas →
          (mineBlock e.addr = true →
            Happens run s (fun t => recoded e.addr dslot wide op (BitVec.ofNat 64 (leNat e.data)) e.cmp b t ∧ gone t)) ∧
          (mineBlock e.addr = false → HappensQuietly run s gone)) ∧
        (∀ dslot b, e.comp = some dslot → block e.addr wide b → op = .cas →
          (equal (part b) wide e.cmp → mineBlock e.addr = true → Happens run s (fun t =>
            recoded e.addr dslot wide .swp (BitVec.ofNat 64 (leNat e.data)) e.cmp b t ∧ gone t)) ∧
          ((¬ equal (part b) wide e.cmp ∨ mineBlock e.addr = false) → HappensQuietly run s gone))) ∧
      (((getCore s c).performable i = false ∨ (¬ may e.addr ∧ e.am = none)) → exec run s = .next s))

/-! ## Messages and calls -/

/-- SEND and RCALL spend a credit of the target's channel and send the message with the sender word, or with the reply handle after the
reply block is marked empty and names the callee; without a credit, or behind an older claim, they are not-ready CREDIT, outside the
partition PROT, and behind the order of an earlier FENCE FILL. RRET, always ready, sends its reply behind the slot's posted work (R38,
R95, R103, R104, R105, R150, R255). RCALL finds the slot's own stores to its scratchpad performed (OwnWindowStores). -/
def Obligations.MessageSends : Prop :=
  ∀ (s : State) (d a : SReg) (v : VReg) (nr : Disp) (ch : BitVec 3) (rel : Bool),
    let x := (rdS s a).toNat
    let c := s.curCore
    let u := x % 2 ^ 16
    let blk := x / 2 ^ 16 % 2 ^ 16
    let credit := (cur s).creditsFor u ch.toNat
    let free := (rel = true → (slot s).atom = none) ∧ heldBack s (.credit c u ch.toNat) = false
    let blkOk := blk % 64 = 0 ∧ blk + 64 ≤ 0xF7C0
    let handle := BitVec.ofNat 64 (2 ^ 31 + blk / 64 * 2 ^ 16 + c)
    let lam := fun c2 => c2 = c
    ((slot s).sys = false → inPart s u = false →
      Traps (.send v a nr ch rel) s 7 0 (slot s).pc ∧ (blkOk → Traps (.rcall d a nr v rel ch) s 7 0 (slot s).pc)) ∧
    ((slot s).sys = false → blk % 64 ≠ 0 → Traps (.rcall d a nr v rel ch) s 3 0 (slot s).pc) ∧
    ((slot s).sys = false → blk % 64 = 0 → 0xF7C0 < blk + 64 → Traps (.rcall d a nr v rel ch) s 7 0 (slot s).pc) ∧
    (inPart s u = true → (credit = 0 ∨ heldBack s (.credit c u ch.toNat) = true) →
      NotReady (.send v a nr ch rel) s nr .credit (.credit c u ch.toNat) ∧
      (blkOk → OwnDone s 0 → NotReady (.rcall d a nr v rel ch) s nr .credit (.credit c u ch.toNat))) ∧
    (inPart s u = true → credit ≠ 0 → free →
      Passes (.send v a nr ch rel) s nr (CompletesReady (.send v a nr ch rel) s { lam := lam } (fun t =>
        (cur t).creditsFor u ch.toNat = credit - 1 ∧
        t.net = s.net ++ [sent s rel true (.msg u ch.toNat (rdV s v) (BitVec.ofNat 64 c))])) ∧
      (blkOk → OwnDone s 0 → Passes (.rcall d a nr v rel ch) s nr (CompletesReady (.rcall d a nr v rel ch) s
        { sreg := [d], lam := lam, pad := fun c2 y => c2 = c ∧ blk ≤ y ∧ y < blk + 8,
          fe := fun c2 w => c2 = c ∧ blk / 8 ≤ w ∧ w < blk / 8 + 8 }
        (fun t => rdS t d = (if d = 0 then 0 else handle) ∧ (cur t).creditsFor u ch.toNat = credit - 1 ∧
          (cur t).spRead blk 8 = toBytes 8 u ∧ (∀ w, w < 8 → (cur t).feBit (blk / 8 + w) = false) ∧
          t.net = s.net ++ [sent s rel true (.msg u ch.toNat (rdV s v) handle)])))) ∧
    ((slot s).sys = false → (x / 2 ^ 26 ≠ 32 ∨ 0xF7C0 < x / 2 ^ 16 % 2 ^ 10 * 64 + 64) →
      Traps (.rret v a) s 9 0 (slot s).pc) ∧
    ((slot s).sys = false → x / 2 ^ 26 = 32 → x / 2 ^ 16 % 2 ^ 10 * 64 + 64 ≤ 0xF7C0 → inPart s u = false →
      Traps (.rret v a) s 7 0 (slot s).pc) ∧
    (x / 2 ^ 26 = 32 → x / 2 ^ 16 % 2 ^ 10 * 64 + 64 ≤ 0xF7C0 → inPart s u = true →
      CompletesReady (.rret v a) s {} (fun t => (slot t).hold = none ∧
        t.net = s.net ++ [sent s true false (.reply u (x / 2 ^ 16 % 2 ^ 10) (rdV s v))]))

/-- RECV takes the oldest message of an own channel, its payload, its sender word and its credit, or the reply in the block its handle
names; an empty channel is QEMPTY, an empty block REPLY, either behind the order of an earlier FENCE FILL, an uncorrectable block MEMUE
in user mode; `probe` without `park` is ILLEGAL before all else (R33, R60; assumption 60, since R106 lists BOUNDS first), a handle that
is not the core's own is BOUNDS, and a `probe` on a channel of another partition's core PROT (R96, R106, R111, R340). A reply is looked
for with the slot's own stores to its scratchpad performed (OwnWindowStores). -/
def Obligations.MessageReceives : Prop :=
  ∀ (s : State) (d : VReg) (a : SReg) (nr : Disp) (ch : BitVec 3) (probe acq : Bool),
    (probe = true → nr = .park ∧ inPart s ((rdS s a).toNat % 2 ^ 16) = true) →
    let c := s.curCore
    let chan : Resource := .struct c .channel ch.toNat false
    let blk := (rdS s a).toNat / 2 ^ 16 % 2 ^ 10
    let mine := (rdS s a).toNat = 2 ^ 31 + blk * 2 ^ 16 + c ∧ c < 2 ^ 16 ∧ blk * 64 + 64 ≤ 0xF7C0
    let free := acq = true → (slot s).atom = none
    (sget [] (cur s).chans ch.toNat = [] → NotReady (.recv d a nr ch probe acq) s nr .qempty chan) ∧
    (∀ m rest, sget [] (cur s).chans ch.toNat = m :: rest → heldBack s chan = false → free →
      Passes (.recv d a nr ch probe acq) s nr (
        CompletesReady (.recv d a nr ch probe acq) s { vreg := [d], sreg := [a] } (fun t =>
          rdV t d = m.pay ∧ rdS t a = (if a = 0 then 0 else m.word) ∧ sget [] (cur t).chans ch.toNat = rest ∧
          t.net = s.net ++ [sent s false false (.creditBack m.from_ c ch.toNat)]))) ∧
    (mine → OwnDone s 0 → (cur s).feBit (8 * blk) = false → NotReady (.recvReply d a nr probe acq) s nr .reply (.reply c blk)) ∧
    (mine → OwnDone s 0 → (cur s).feBit (8 * blk) = true → heldBack s (.reply c blk) = false → free →
      Passes (.recvReply d a nr probe acq) s nr (
      ((cur s).spBadIn (64 * blk) 64 = true → (sget RowGauge.reset s.rows (coreRow s c)).rail = 0 → (slot s).sys = false →
        Traps (.recvReply d a nr probe acq) s 10 0 (slot s).pc) ∧
      ((cur s).spBadIn (64 * blk) 64 = false → CompletesReady (.recvReply d a nr probe acq) s
        { vreg := [d], fe := fun c2 w => c2 = c ∧ 8 * blk ≤ w ∧ w < 8 * blk + 8 } (fun t =>
        rdV t d = BitVec.ofNat 512 (leNat ((cur s).spRead (64 * blk) 64)) ∧
        ∀ w, w < 8 → (cur t).feBit (8 * blk + w) = false)))) ∧
    ((slot s).sys = false → nr ≠ .park → Traps (.recv d a nr ch true acq) s 1 0 (slot s).pc ∧
      Traps (.recvReply d a nr true acq) s 1 0 (slot s).pc) ∧
    ((slot s).sys = false → ¬ mine → Traps (.recvReply d a nr probe acq) s 9 0 (slot s).pc) ∧
    ((slot s).sys = false → nr = .park → inPart s ((rdS s a).toNat % 2 ^ 16) = false →
      Traps (.recv d a nr ch true acq) s 7 0 (slot s).pc)

/-- MMASK masks for 1 to 256 rotations (0 or more than 256: 256) unless the slot is masked already, MUNMASK unmasks; MVEC is
ILLEGAL outside a handler and in system mode, else swaps the shadow bank back and continues at the old s28. Claims expire at 1,024
rotations, a mask whose count has run out clears, and a due message interrupt is accepted by an eligible slot of a core that is not
being saved, running or parked: the shadow bank is swapped in, s28 holds the return address, s29 the channel, s30 and s31 the
old shadow entries 2 and 3, and the PC is `msgvec`; a PARK first writes its wake word (R37, R100, R101, R102, R246, R325, R326). -/
def Obligations.HandlersAndSlotCounts : Prop :=
  (∀ (s : State) (a : SReg),
    let v := (rdS s a).toNat
    (∃ t, exec (.mmask a) s = .next t ∧ FallsThrough s t ∧ t = modSlot (modSlot s (fun l =>
      { l with msgMasked := true, msgLeft := if l.msgMasked then l.msgLeft else if v = 0 ∨ 256 < v then 256 else v }))
      Slot.advance) ∧
    (∃ t, exec .munmask s = .next t ∧ FallsThrough s t ∧
      t = modSlot (modSlot s (fun l => { l with msgMasked := false, msgLeft := 0 })) Slot.advance) ∧
    ((slot s).sys = false → (slot s).inHandler = false → Traps .mvec s 1 0 (slot s).pc) ∧
    ((slot s).sys = false → (slot s).inHandler = true →
      ∃ t, exec .mvec s = .next t ∧ (slot t).inHandler = false ∧ (slot t).pc = (rdS s 28).setWidth 48 ∧
        (∀ i : Fin 4, rdS t ⟨28 + i.val, by omega⟩ = sget 0 (cur s).shadow i.val ∧
          sget 0 (cur t).shadow i.val = rdS s ⟨28 + i.val, by omega⟩) ∧
        Keeps s t { sreg := [28, 29, 30, 31] })) ∧
  (∀ (s : State) (c k : Nat),
    let l := getSlot s c k
    let due := fun (ch : Nat) => (getCore s c).cyc % 8 = k ∧ (getCore s c).save = .no ∧
      (getCore s c).intEligible k = true ∧ (getCore s c).intChannel k = some ch
    let enters := fun (ch : Nat) (ret : VA) (t : State) => MemSame s t ∧ (getSlot t c k).inHandler = true ∧
      (getSlot t c k).st = .runnable ∧ (getSlot t c k).pc = l.msgvec ∧ (getSlot t c k).getS 28 = ret.setWidth 64 ∧
      (getSlot t c k).getS 29 = BitVec.ofNat 64 ch ∧ (getSlot t c k).getS 30 = sget 0 (getCore s c).shadow 2 ∧
      (getSlot t c k).getS 31 = sget 0 (getCore s c).shadow 3
    HappensQuietly (.claimExpiry c k) s (fun t =>
      (getSlot t c k).claims = l.claims.map (fun x => match x with
        | some e => if e.age < 1024 then some e else none
        | none => none)) ∧
    (l.msgMasked = true → l.msgLeft = 0 → HappensQuietly (.mmaskExpiry c k) s (fun t =>
      (getSlot t c k).msgMasked = false)) ∧
    (l.msgMasked = true → l.msgLeft ≠ 0 → HappensQuietly (.mmaskExpiry c k) s (fun t =>
      (getSlot t c k).msgMasked = true ∧ (getSlot t c k).msgLeft = l.msgLeft)) ∧
    (∀ ch, due ch → (l.st = .runnable ∨ ∃ r e, l.st = .parked (.res r e)) →
      Happens (.messageInterrupt c k) s (fun t => enters ch l.pc t ∧
        (∀ r : SReg, r.val < 28 → (getSlot t c k).getS r = l.getS r) ∧
        ∀ i : Fin 4, sget 0 (getCore t c).shadow i.val = l.getS ⟨28 + i.val, by omega⟩)) ∧
    (∀ ch d n, due ch → l.st = .parked (.park d n) →
      Happens (.messageInterrupt c k) s (fun t => enters ch l.advance.pc t ∧
        (d.val < 28 → d ≠ 0 → (getSlot t c k).getS d =
          BitVec.ofNat 64 (16 * l.hits + (match l.wake with | some (r, _) => min r 3 | none => 3))) ∧
        ∀ r : SReg, r.val < 28 → r ≠ d → (getSlot t c k).getS r = l.getS r)) ∧
    (((getCore s c).intEligible k = false ∨ (getCore s c).intChannel k = none) →
      HappensQuietly (.messageInterrupt c k) s (fun t => (getSlot t c k).inHandler = l.inHandler)) ∧
    ((getCore s c).save ≠ .no → exec (.messageInterrupt c k) s = .next s))

/-! ## Queues and links -/

/-- QPUSH and BOQ append to a queue of 4, or of 32 bits, and refuse QFULL; QPOP and BRQ take the oldest and refuse QEMPTY; BRQ branches
on the bit it pops; each is FILL behind the order of an earlier FENCE (R150). LNKW spends a credit of its direction and sends v[a] to the
neighbour, LNKP takes the oldest word of a side and returns its credit, and the forwarding LNKP does both with one word; QFULL without a
credit, QEMPTY without a word, PROT at the edge of the mesh line (R107, R109, R110, R285, R320, R338). -/
def Obligations.QueueAndLinkOperations : Prop :=
  (∀ (s : State) (d : VReg) (a : SReg) (nr : Disp) (q : BitVec 2) (o : BitVec 1) (off : BitVec 8),
    let c := s.curCore
    let dq := sget [] (cur s).dq q.toNat
    let bq := sget [] (cur s).bq o.toNat
    let dRes := fun b => Resource.struct c .dataQueue q.toNat b
    let bRes := fun b => Resource.struct c .outcomeQueue o.toNat b
    (4 ≤ dq.length → NotReady (.qpush d nr q) s nr .qfull (dRes true)) ∧
    (dq.length < 4 → heldBack s (dRes true) = false → Passes (.qpush d nr q) s nr (CompletesReady (.qpush d nr q) s {} (fun t =>
      ∀ j, sget [] (cur t).dq j = if j = q.toNat then dq ++ [rdV s d] else sget [] (cur s).dq j))) ∧
    (dq = [] → NotReady (.qpop d nr q) s nr .qempty (dRes false)) ∧
    (∀ v rest, dq = v :: rest → heldBack s (dRes false) = false →
      Passes (.qpop d nr q) s nr (CompletesReady (.qpop d nr q) s { vreg := [d] } (fun t => rdV t d = v ∧
        ∀ j, sget [] (cur t).dq j = if j = q.toNat then rest else sget [] (cur s).dq j))) ∧
    (32 ≤ bq.length → NotReady (.boq a nr o) s nr .qfull (bRes true)) ∧
    (bq.length < 32 → heldBack s (bRes true) = false → Passes (.boq a nr o) s nr (CompletesReady (.boq a nr o) s {} (fun t =>
      ∀ j, sget [] (cur t).bq j = if j = o.toNat then bq ++ [decide (rdS s a ≠ 0)] else sget [] (cur s).bq j))) ∧
    (bq = [] → NotReady (.brq nr o off) s nr .qempty (bRes false)) ∧
    (∀ v rest, bq = v :: rest → heldBack s (bRes false) = false →
      Passes (.brq nr o off) s nr (
        ∃ t, exec (.brq nr o off) s = .next t ∧ (slot t).nr = false ∧ (slot t).ncause = 0 ∧ Keeps s t {} ∧
          (slot t).pc = (if v then (slot s).pc + 4 * off.signExtend 48 else nextPc s) ∧
          ∀ j, sget [] (cur t).bq j = if j = o.toNat then rest else sget [] (cur s).bq j))) ∧
  (∀ (s : State) (v : VReg) (nr : Disp) (dir : Dir),
    let c := s.curCore
    let edge := fun (e : Dir) => if e = .east then c % 64 = 63 else c % 64 = 0
    let side := fun (e : Dir) => if e = .east then c + 1 else c - 1
    let out : Resource := .struct c .link dir.code true
    let back : Resource := .struct c .link dir.flip.code true
    let into : Resource := .struct c .link dir.code false
    let free := fun (b : Bool) (r : Resource) => heldBackBy s r (linkOwn s b) = false
    let credit := fun (t : State) (e : Dir) => (cur t).linkCredits e
    ((slot s).sys = false → edge dir → Traps (.lnkw v nr dir) s 7 0 (slot s).pc ∧ Traps (.lnkp v nr dir) s 7 0 (slot s).pc ∧
      Traps (.lnkpForward v nr dir) s 7 0 (slot s).pc) ∧
    ((slot s).sys = false → edge dir.flip → Traps (.lnkpForward v nr dir) s 7 0 (slot s).pc) ∧
    (¬ edge dir →
      (credit s dir = 0 → NotReady (.lnkw v nr dir) s nr .qfull out) ∧
      (credit s dir ≠ 0 → free true out → Passes (.lnkw v nr dir) s nr (CompletesReady (.lnkw v nr dir) s {} (fun t =>
        credit t dir = credit s dir - 1 ∧ credit t dir.flip = credit s dir.flip ∧
        t.net = s.net ++ [sent s false false (.linkWord (side dir) dir.flip (rdV s v))]))) ∧
      (sget [] (cur s).link dir.code = [] → NotReady (.lnkp v nr dir) s nr .qempty into) ∧
      (∀ w rest, sget [] (cur s).link dir.code = w :: rest → free false into →
        Passes (.lnkp v nr dir) s nr (CompletesReady (.lnkp v nr dir) s { vreg := [v] } (fun t => rdV t v = w ∧
          sget [] (cur t).link dir.code = rest ∧
          t.net = s.net ++ [sent s false false (.linkCredit (side dir) dir.flip)])))) ∧
    (¬ edge dir → ¬ edge dir.flip → sget [] (cur s).link dir.code = [] →
      NotReady (.lnkpForward v nr dir) s nr .qempty into) ∧
    (¬ edge dir → ¬ edge dir.flip → ∀ w rest, sget [] (cur s).link dir.code = w :: rest →
      (credit s dir.flip = 0 → NotReady (.lnkpForward v nr dir) s nr .qfull back) ∧
      (credit s dir.flip ≠ 0 → free false into → free true back →
        Passes (.lnkpForward v nr dir) s nr (CompletesReady (.lnkpForward v nr dir) s { vreg := [v] } (fun t => rdV t v = w ∧
          sget [] (cur t).link dir.code = rest ∧ credit t dir.flip = credit s dir.flip - 1 ∧
          t.net = s.net ++ [sent s false false (.linkCredit (side dir) dir.flip),
                            sent s false false (.linkWord (side dir.flip) dir w)])))))

/-! ## Barriers, monitors, parking -/

/-- GARR counts an own arrival and sends it, GARRR sends one for another rank; GWAIT refuses PHASE while own arrivals exceed the phase
count, else writes the count, FILL behind the order of an earlier FENCE. A handle that is no index of the table, whose entry is not valid
or cannot be read, or matches no live launch or no group of it, is BOUNDS, and GARR and GWAIT of a core that is no member are PROT. An
arrival reaches its barrier's home: rank r's count advances, and the phase count becomes the least count of any rank; a notice raises a
core's record to its phase count and adds the arrivals it tells of, unless the core runs that node no longer. That an entry which cannot
be read is BOUNDS, where R305 has what is not valid, is assumption 101, and that a rank on whose behalf GARRR arrives counts that as an
arrival of its own is assumption 32 (R305, R306, R307). -/
def Obligations.BarrierOperations : Prop :=
  (∀ (s : State) (d a b : SReg) (nr : Disp) (rel : Bool), (slot s).sys = false →
    let h := (rdS s a).toNat
    let words := handleWords s (curPart s) h
    let bad := 0x400 ≤ h ∨ words = none ∨ ∃ w, words = some w ∧ (w.1 / 2 ^ 63 % 2 = 0 ∨
      launchTagged s (curPart s) w.2 = none ∨ ∃ l, launchTagged s (curPart s) w.2 = some l ∧ l.groups.length ≤ w.1 / 2 ^ 48 % 2 ^ 8)
    (bad → barrierOf s (rdS s a) = none) ∧
    (barrierOf s (rdS s a) = none → ∀ i ∈ [Instr.garr a rel, .garrr a b rel, .gwait d a nr], Traps i s 9 0 (slot s).pc) ∧
    (∀ l g, barrierOf s (rdS s a) = some (l, g) → rankIn s l g = none →
      ∀ i ∈ [Instr.garr a rel, .gwait d a nr], Traps i s 7 0 (slot s).pc)) ∧
  (∀ (s : State) (d a b : SReg) (nr : Disp) (rel : Bool) (l : Launch) (g : Nat), barrierOf s (rdS s a) = some (l, g) →
    let h := (rdS s a).toNat
    let k := (rdS s b).toNat
    let rec_ := fun (t : State) => (cur t).barRec g h
    (∀ node r, rankIn s l g = some (node, r) →
      CompletesReady (.garr a rel) s { lam := fun c => c = s.curCore } (fun t => (rec_ t).own = (rec_ s).own + 1 ∧
        (rec_ t).p = (rec_ s).p ∧ (slot t).hold = none ∧
        t.net = s.net ++ [sent s rel true (.barArrive (curPart s) h l.q node g r false)]) ∧
      ((rec_ s).p < (rec_ s).own → NotReady (.gwait d a nr) s nr .phase (.barrier (curPart s) h)) ∧
      ((rec_ s).own ≤ (rec_ s).p → (∀ own, heldBackBy s (.barrier (curPart s) h) own = false) →
        (slot s).atom = none →
        Passes (.gwait d a nr) s nr (CompletesReady (.gwait d a nr) s { sreg := [d] } (fun t =>
          rdS t d = if d = 0 then 0 else BitVec.ofNat 64 (rec_ s).p)))) ∧
    (∀ n, k < 2 ^ 16 → garrrNode s l g = some n →
      CompletesReady (.garrr a b rel) s { lam := fun c => c = s.curCore } (fun t => rec_ t = rec_ s ∧ (slot t).hold = none ∧
        t.net = s.net ++ [sent s rel true (.barArrive (curPart s) h l.q n g k true)])) ∧
    (k < 2 ^ 16 → garrrNode s l g = none → CompletesReady (.garrr a b rel) s {} (fun t => rec_ t = rec_ s ∧ t.net = s.net)) ∧
    ((slot s).sys = false → 2 ^ 16 ≤ k → Traps (.garrr a b rel) s 9 0 (slot s).pc)) ∧
  ((∀ (s : State) (i : Nat) (pk : Packet) (p h q node g r : Nat) (remote : Bool) (b : BarInst) (ms : List Nat),
    Arrives s i pk → pk.body = .barArrive p h q node g r remote → barInst s p h q node g = some (b, ms) →
    r < ms.length →
    let arr := fun (x : Nat) => if x = r then sget 0 b.arr x + 1 else sget 0 b.arr x
    Happens (.barrierArrival i) s (fun t => ∃ b2 ∈ (getPart t p).bars, b2.handle = h ∧ b2.q = q ∧ b2.node = node ∧
      (∀ x, sget 0 b2.arr x = arr x) ∧ (∀ x, x < ms.length → b2.p ≤ arr x) ∧ ∃ x, x < ms.length ∧ b2.p = arr x)) ∧
  (∀ (s : State) (i : Nat) (pk : Packet) (u q node g h p n : Nat), Arrives s i pk → pk.body = .barNotice u q node g h p n →
    (getCore s u).save = .no →
    let mine := ∃ x, (getCore s u).task = some x ∧ x.q = q ∧ x.node = node
    Happens (.barrierNoticeArrival i) s (fun t => t.net = netWithout s i ∧
      (mine → ((getCore t u).barRec g h).p = max ((getCore s u).barRec g h).p p ∧
        ((getCore t u).barRec g h).own = ((getCore s u).barRec g h).own + n) ∧
      (¬ mine → (getCore t u).bars = (getCore s u).bars))))

/-- MON arms, or with `off` frees, an entry with its hit bit clear; PARK with a hit returns it and reason 5 at once, clearing every hit,
else the slot leaves the rotation where it stands, ready in both cases; a PARK whose timeout has run out wakes with reason 2, stopped or
not; an XLINV or DICTLD under way refuses every MON but one that traps FILL, also the two forms that R41 has always ready (assumption
67), claimed as assumption 11 says (R28, R41, R42, R44, R294,
R375; a device line needs the page's read right alone, assumption 34, and a kept timeout of 1 is the last rotation, assumption 64). -/
def Obligations.MonitorAndPark : Prop :=
  ∀ (s : State) (d a : SReg) (nr : Disp) (e : BitVec 2),
    let v := rdS s a
    let entry := fun (t : State) (j : Nat) => sget none (slot t).mons j
    let arms := fun (ms : MonSpace) (m : Option Mon) => CompletesReady (.mon a nr ms e) s {} (fun t =>
      ∀ j, entry t j = if j = e.toNat then m else entry s j)
    (invBarred s = false →
      arms .off none ∧ arms .sp (some { scratch := true, line := v.toNat % 2 ^ 16 / 64, hit := false })) ∧
    (invBarred s = true →
      (∀ ms ∈ [MonSpace.off, .sp], NotReady (.mon a nr ms e) s nr .fill (orderRes s.curCore s.curSlot)) ∧
      (v.toNat < 2 ^ 48 → NotReady (.mon a nr .dev e) s nr .fill (orderRes s.curCore s.curSlot))) ∧
    (∀ pa x, v.toNat < 2 ^ 48 → invBarred s = false → xlate s v.toNat .dev true false = .ok pa x →
      arms .dev (some { scratch := false, line := pa / 64, hit := false })) ∧
    ((slot s).sys = false → 2 ^ 48 ≤ v.toNat → Traps (.mon a nr .dev e) s 7 0 (slot s).pc) ∧
    ((slot s).hits ≠ 0 → CompletesReady (.park d a) s { sreg := [d] } (fun t =>
      rdS t d = (if d = 0 then 0 else BitVec.ofNat 64 (16 * (slot s).hits + 5)) ∧
      ∀ j m, entry t j = some m → m.hit = false)) ∧
    ((slot s).hits = 0 → ∃ t, exec (.park d a) s = .next t ∧ Keeps s t {} ∧ (slot t).pc = (slot s).pc ∧
      (slot t).nr = false ∧ (slot t).ncause = 0 ∧ ∃ n, (slot t).st = .parked (.park d n) ∧ (n = 0 ↔ v.toNat % 2 ^ 32 = 0)) ∧
    (∀ c k, ((getSlot s c k).st = .parked (.park d 1) ∨ (getSlot s c k).st = .stopped (some (.park d 1))) →
      Happens (.parkTimeout c k) s (fun t =>
      ∃ r, (getSlot t c k).wake = some r ∧ r.1 ≤ 2 ∧ ((getSlot s c k).wake = none → r.1 = 2) ∧
        (getSlot t c k).pc = (getSlot s c k).pc))

/-! ## Deques, mailboxes, count words, leases -/

/-- SPAWN puts 32 bytes at the tail, TAKE takes the newest; STEAL reports the outcome of the last steal and sends the next
one, 3 when the own deque has no room and 2 from itself. XPOST fills an own mailbox, XTAKE of slot 7 empties one; QFULL, QEMPTY,
and PROT in another slot; an XPOST that follows a store of its slot's own to the mailbox in the window waits FILL for it (R156); each is
FILL behind the order of an earlier FENCE, but XTAKE where a full mailbox of its own core
holds back all that order covers (R150, assumption 67) (R122, R123, R132, R207, R358, R361, R366, R377). -/
def Obligations.DequeAndMailboxOperations : Prop :=
  (∀ (s : State) (v : VReg) (d a : SReg) (nr : Disp),
    let c := s.curCore
    let k := cur s
    let at_ := fun (i : Nat) => 0xF800 + 32 * (i % 64)
    let full : Resource := .struct c .deque 0 true
    let none_ : Resource := .struct c .deque 0 false
    let room := k.dqTail - k.dqHead + k.landings < 64
    let u := (rdS s a).toNat % 2 ^ 16
    let gets := fun (t : State) (x : W64) => rdS t d = if d = 0 then 0 else x
    (¬ room → NotReady (.spawn v nr) s nr .qfull full) ∧
    (room → heldBack s full = false →
      Passes (.spawn v nr) s nr (
        CompletesReady (.spawn v nr) s { pad := fun c2 y => c2 = c ∧ at_ k.dqTail ≤ y ∧ y < at_ k.dqTail + 32 } (fun t =>
          (cur t).spRead (at_ k.dqTail) 32 = toBytes 32 (rdV s v).toNat ∧ (cur t).dqTail = k.dqTail + 1 ∧
          (cur t).dqHead = k.dqHead))) ∧
    (k.dqTail ≤ k.dqHead → NotReady (.take v nr) s nr .qempty none_) ∧
    (k.dqHead < k.dqTail → heldBack s none_ = false → k.spBadIn (at_ (k.dqTail - 1)) 32 = false →
      Passes (.take v nr) s nr (CompletesReady (.take v nr) s { vreg := [v] } (fun t =>
        rdV t v = BitVec.ofNat 512 (leNat (k.spRead (at_ (k.dqTail - 1)) 32)) ∧ (cur t).dqTail = k.dqTail - 1 ∧
        (cur t).dqHead = k.dqHead))) ∧
    ((slot s).sys = false → inPart s u = false → Traps (.steal d a nr) s 7 0 (slot s).pc) ∧
    (inPart s u = true → (slot s).stealFly = true → NotReady (.steal d a nr) s nr .qempty (.steal c s.curSlot)) ∧
    (inPart s u = true → (slot s).stealFly = false → heldBack s (.steal c s.curSlot) = false → Passes (.steal d a nr) s nr (
      (¬ room → CompletesReady (.steal d a nr) s { sreg := [d] } (fun t => gets t 3 ∧ t.net = s.net)) ∧
      (room → u = c → CompletesReady (.steal d a nr) s { sreg := [d] } (fun t =>
        gets t (BitVec.ofNat 64 (slot s).stealOut) ∧ (slot t).stealOut = 2 ∧ t.net = s.net)) ∧
      (room → u ≠ c → CompletesReady (.steal d a nr) s { sreg := [d], lam := fun c2 => c2 = c } (fun t =>
        gets t (BitVec.ofNat 64 (slot s).stealOut) ∧ (slot t).stealFly = true ∧ (cur t).landings = k.landings + 1 ∧
        t.net = s.net ++ [sent s false true (.stealReq u c s.curSlot)]))))) ∧
  (∀ (s : State) (v : VReg) (nr : Disp) (b : BitVec 2), (slot s).atom = none →
    let i := b.toNat
    let res := fun (f : Bool) => Resource.struct s.curCore .mailbox i f
    let full := fun (t : State) => sget false (cur t).mbFull i
    (full s = true → NotReady (.xpost v nr b) s nr .qfull (res true)) ∧
    (full s = false → heldBack s (res true) = false → lineOpen s (.win s.curCore 4) i = true →
      NotReady (.xpost v nr b) s nr .fill (.line (.win s.curCore 4) i)) ∧
    (full s = false → heldBack s (res true) = false → lineOpen s (.win s.curCore 4) i = false → Passes (.xpost v nr b) s nr (CompletesReady (.xpost v nr b) s {} (fun t =>
      full t = true ∧ sget 0 (cur t).mb i = BitVec.ofNat 256 (rdV s v).toNat))) ∧
    (s.curSlot ≠ 7 → (slot s).sys = false → Traps (.xtake v nr b) s 7 0 (slot s).pc) ∧
    (s.curSlot = 7 → full s = false → NotReady (.xtake v nr b) s nr .qempty (res false)) ∧
    (s.curSlot = 7 → full s = true → heldBack s (res false) = false →
      ((invBarred s = true ∨ takeBarred s = true) → NotReady (.xtake v nr b) s nr .fill (orderRes s.curCore s.curSlot)) ∧
      (invBarred s = false → takeBarred s = false → CompletesReady (.xtake v nr b) s { vreg := [v] } (fun t =>
        rdV t v = BitVec.ofNat 512 (sget 0 (cur s).mb i).toNat ∧ full t = false))))

/-- CWAIT refuses COUNT while count < target, and FILL behind the order of an earlier FENCE; a match clears the count, sets early when
the count was above the target, adds one to the generation and writes the second doubleword; CWSET sets the target, clears count, early
and sat, and leaves the generation (R137, R291). The word is read with the slot's own stores to its scratchpad performed
(OwnWindowStores). -/
def Obligations.CountWords : Prop :=
  ∀ (s : State) (d a : SReg) (nr : Disp),
    let ea := (rdS s a).toNat
    let word := fun (t : State) (o n : Nat) => leNat ((cur t).spRead (ea + o) n)
    let flags := word s 8 4
    let gen := word s 12 2
    let rest := word s 14 2
    let pad := fun c y => c = s.curCore ∧ ea ≤ y ∧ y < ea + 16
    let both := fun (c : Nat) => Traps (.cwait d a nr) s c 0 (slot s).pc ∧ Traps (.cwset d a) s c 0 (slot s).pc
    ((slot s).sys = false → ea % 16 ≠ 0 → both 3) ∧
    ((slot s).sys = false → ea % 16 = 0 → 0xF800 ≤ ea → both 7) ∧
    (OwnDone s 0 → ea % 16 = 0 → ea < 0xF800 → (cur s).spBadIn ea 16 = false →
      (word s 0 4 < word s 4 4 → NotReady (.cwait d a nr) s nr .count (.count s.curCore ea)) ∧
      (word s 4 4 ≤ word s 0 4 → heldBack s (.count s.curCore ea) = false →
        (slot s).atom = none →
        Passes (.cwait d a nr) s nr (CompletesReady (.cwait d a nr) s { sreg := [d], pad := pad } (fun t =>
          word t 0 4 = 0 ∧ word t 4 4 = word s 4 4 ∧ word t 12 2 = (gen + 1) % 2 ^ 16 ∧ word t 14 2 = rest ∧
          word t 8 4 = flags - flags / 2 % 2 * 2 + (if word s 4 4 < word s 0 4 then 2 else 0) ∧
          rdS t d = if d = 0 then 0 else BitVec.ofNat 64 (word t 8 8)))) ∧
      CompletesReady (.cwset d a) s { pad := pad } (fun t =>
        word t 0 4 = 0 ∧ word t 4 4 = (rdS s d).toNat % 2 ^ 32 ∧ word t 12 2 = gen ∧ word t 14 2 = rest ∧
        word t 8 4 = flags / 4 * 4))

/-- LEASE takes a free entry of the table, the lowest (the model's choice, assumption 93), for its lifetime and writes its address,
BOUNDS for a lifetime of 0, LEASE when it does not fit or an older LEASE of the device that fits waits for those slices (R38), FILL
behind the order of an earlier FENCE; UNLEASE names a live lease or is BOUNDS, and the lease ends once the core's posted stores to it are
performed and not before, or when its lifetime has run out: its contents are lost and its generation advances. The slices of a die are
128 numbers in a row, as the model numbers them (assumption 9) (R138, R139, R140, R319). -/
def Obligations.LeaseLife : Prop :=
  (∀ (s : State) (d a : SReg) (nr : Disp),
    let v := (rdS s a).toNat
    let p := curPart s
    let f := v % 2 ^ 9
    let c := v / 2 ^ 28 % 2 ^ 4 + 1
    let size := (v / 2 ^ 32 % 2 ^ 8 + 1) * 4096
    let own := f / 128 = (f + c - 1) / 128 ∧ ∀ j, j < c → f + j ∈ (getPart s p).slices
    let res : Resource := .slices p f c
    let ent := fun (t : State) (i : Nat) => sget LeaseEnt.reset (getPart t p).leases i
    ((slot s).sys = false → v / 2 ^ 48 = 0 → Traps (.lease d a nr) s 9 0 (slot s).pc) ∧
    ((slot s).sys = false → v / 2 ^ 48 ≠ 0 → ¬ own → Traps (.lease d a nr) s 7 0 (slot s).pc) ∧
    (v / 2 ^ 48 ≠ 0 → own → leaseFits (getPart s p) f c size = none → NotReady (.lease d a nr) s nr .lease res) ∧
    (∀ i, v / 2 ^ 48 ≠ 0 → own → leaseFits (getPart s p) f c size = some i → heldBackBy s res (leaseOwn s) = true →
      NotReady (.lease d a nr) s nr .lease res) ∧
    (∀ i, v / 2 ^ 48 ≠ 0 → own → leaseFits (getPart s p) f c size = some i → heldBackBy s res (leaseOwn s) = false →
      (i < 256 ∧ (ent s i).live = false ∧ ∀ j, j < i → (ent s j).live = true) ∧
      Passes (.lease d a nr) s nr (CompletesReady (.lease d a nr) s { sreg := [d] } (fun t =>
        rdS t d = (if d = 0 then 0 else BitVec.ofNat 64 ((ent s i).gen * 2 ^ 28 + i * 2 ^ 20)) ∧
        (ent t i).live = true ∧ (ent t i).gen = (ent s i).gen ∧ (ent t i).size = size ∧ (ent t i).store = [] ∧
        ∀ j, j ≠ i → ent t j = ent s j))) ∧
    let i := v / 2 ^ 20 % 2 ^ 8
    ((slot s).sys = false → (2 ^ 36 ≤ v ∨ (ent s i).live = false ∨ (ent s i).gen ≠ v / 2 ^ 28 % 2 ^ 8) →
      Traps (.unlease a) s 9 0 (slot s).pc) ∧
    (v < 2 ^ 36 → (ent s i).live = true → (ent s i).gen = v / 2 ^ 28 % 2 ^ 8 →
      CompletesReady (.unlease a) s {} (fun t =>
        (ent t i).ending = (ent s i).ending ++ [(s.curCore, (cur s).nextId)] ∧ (ent t i).live = true))) ∧
  (∀ (s : State) (p i : Nat),
    let ent := fun (t : State) => sget LeaseEnt.reset (getPart t p).leases i
    let ends := fun (j : Instr) => Happens j s (fun t => (ent t).live = false ∧ (ent t).store = [] ∧
      (ent t).gen = ((ent s).gen + 1) % 256)
    (ent s).live = true →
    ((ent s).until_ ≤ s.cycle → ends (.leaseExpiry p i)) ∧
    (s.cycle < (ent s).until_ → exec (.leaseExpiry p i) s = .next s) ∧
    (∀ m ∈ (ent s).ending, (∀ x ∈ (getCore s m.1).psb, x.sp = .lease p i (ent s).gen → m.2 ≤ x.id) →
      ends (.leaseEnd p i)) ∧
    ((∀ m ∈ (ent s).ending, ∃ x ∈ (getCore s m.1).psb, x.sp = .lease p i (ent s).gen ∧ x.id < m.2) →
      exec (.leaseEnd p i) s = .next s))

/-! ## The press -/

/-- PMAC takes a free position with its sampled operands, else BUSY, and FILL while a store of its slot to a window accumulator or
mailbox is unperformed (the model's choice, assumption 68; claimed as assumption 11 says); PGRP clears its record and sends one share to
each member, BUSY on its first accumulator (assumption 35) while the core's previous one is being delivered; PCMD spends a credit and
sends its step, CREDIT without one, BUSY while the posted-store buffer is full, CAPREF without an entry that can be read (assumption 101)
and allows it (the bounds of its window as assumptions 48 and 100 read them). A reserved pfmt and pl are ILLEGAL, misaligned operands
ALIGN, ranges past 0xF800 PROT, limits of a descriptor, of a handle or of PCMD's s[b] BOUNDS, an uncorrectable descriptor word MEMUE, and
so the record's second doubleword (the model's choice, assumption 102); each is FILL behind the order of an earlier FENCE (R150). PGRP
finds the slot's own stores to its scratchpad performed (OwnWindowStores) (R68, R191, R193, R200, R201, R203, R331, R332, R334). -/
def Obligations.PressIssue : Prop :=
  (∀ (s : State) (x : Acc) (a b : SReg) (nr : Disp) (md : PMode) (pl : BitVec 3),
    let pf := (slot s).pfmt.toNat
    (pressForm s pl = none ↔ (3 ≤ pf ∨ (pf = 0 ∧ 2 < pl.toNat) ∨ (pf = 1 ∧ 6 < pl.toNat) ∨ (pf = 2 ∧ pl ≠ 0))) ∧
    (pressForm s pl = none → (slot s).sys = false →
      ∀ i ∈ [Instr.pmac x a b nr md pl, .pgrp x a b nr md pl, .pcmd x a b nr md pl], Traps i s 1 0 (slot s).pc)) ∧
  (∀ (s : State) (x : Acc) (a b : SReg) (nr : Disp) (md : PMode) (pl : BitVec 3) (f : Fmt) (n : Nat),
    pressForm s pl = some (f, n) → (slot s).sys = false →
    let va := (rdS s a).toNat
    let vb := (rdS s b).toNat
    let ea := va % 2 ^ 16
    let eb := vb % 2 ^ 16
    let traps := fun (i : Instr) (cause : Nat) => Traps i s cause 0 (slot s).pc
    let pmac := Instr.pmac x a b nr md pl
    let pgrp := Instr.pgrp x a b nr md pl
    let pcmd := Instr.pcmd x a b nr md pl
    let d := grpDesc (leNat ((cur s).spRead ea 8)) (leNat ((cur s).spRead (ea + 8) 8))
    ((ea % 64 ≠ 0 ∨ eb % 64 ≠ 0) → traps pmac 3) ∧
    (ea % 64 = 0 → eb % 64 = 0 → (0xF800 < ea + f.tileBytes ∨ 0xF800 < eb + f.tileBytes) → traps pmac 7) ∧
    ((ea % 16 ≠ 0 ∨ eb % 16 ≠ 0) → traps pgrp 3) ∧
    (ea % 16 = 0 → eb % 16 = 0 → (0xF800 < ea + 16 ∨ 0xF800 < eb + 32) → traps pgrp 7) ∧
    (OwnDone s 0 → ea % 16 = 0 → eb % 16 = 0 → ea + 16 ≤ 0xF800 → eb + 32 ≤ 0xF800 →
      let bad := (cur s).spBadIn ea 16 || (cur s).spBadIn (eb + 8) 8
      (bad = true → (sget RowGauge.reset s.rows (coreRow s s.curCore)).rail = 0 → traps pgrp 10) ∧
      (bad = false → ((heldGroup s d.group = none ∨ d.reserved = true ∨ 12 < d.mt ∨ 20 < d.nt ∨
          ∃ ms, heldGroup s d.group = some ms ∧ (ms.length = 0 ∨ 64 < ms.length ∨
            let tpm := (d.mt * d.nt + ms.length - 1) / ms.length
            8 < tpm ∨ 8 < x.val + tpm)) → traps pgrp 9)) ∧
      (bad = false → (grpShare s x.val d).isSome = true → (d.abase % 64 ≠ 0 ∨ d.bbase % 64 ≠ 0) → traps pgrp 3)) ∧
    ((va / 2 ^ 10 ≠ 2 ∨ 2 ^ 48 ≤ vb) → traps pcmd 9) ∧
    (va / 2 ^ 10 = 2 → vb < 2 ^ 48 →
      let cw := vb / 2 ^ 32
      ((cw % 16 ≠ 0 ∨ eb % 64 ≠ 0 ∨ vb / 2 ^ 16 % 2 ^ 16 % 64 ≠ 0) → traps pcmd 3) ∧
      (cw % 16 = 0 → eb % 64 = 0 → vb / 2 ^ 16 % 2 ^ 16 % 64 = 0 → 0xF800 < cw + 16 → traps pcmd 7))) ∧
  (∀ (s : State) (x : Acc) (a b : SReg) (nr : Disp) (md : PMode) (pl : BitVec 3) (f : Fmt) (n : Nat),
    pressForm s pl = some (f, n) →
    let c := s.curCore
    let va := (rdS s a).toNat
    let vb := (rdS s b).toNat
    let ea := va % 2 ^ 16
    let eb := vb % 2 ^ 16
    let acc : Resource := .acc c x.val
    let free := heldBackBy s acc (accOwn s c x.val) = false
    let op : PressOp := PressOp.mk (cur s).nextId (.loc s.curSlot) x.val ea eb f md n (slot s).pgam none [] false
    (ea % 64 = 0 → eb % 64 = 0 → ea + f.tileBytes ≤ 0xF800 → eb + f.tileBytes ≤ 0xF800 →
      let mine := fun (e : Posted) => e.slot = s.curSlot ∨ (s.curSlot = 7 ∧ ∃ m ∈ (cur s).xdMarks, m.1 = e.slot ∧ e.id < m.2)
      let held := ∃ e ∈ (cur s).psb, mine e ∧ ∃ u, e.sp = .win u 2 ∨ e.sp = .win u 4
      ((cur s).accOtherBusy x.val = true ∨ (cur s).pressFree = false → NotReady (.pmac x a b nr md pl) s nr .busy acc) ∧
      ((cur s).accOtherBusy x.val = false → (cur s).pressFree = true → free → held →
        NotReady (.pmac x a b nr md pl) s nr .fill (orderRes c s.curSlot)) ∧
      ((cur s).accOtherBusy x.val = false → (cur s).pressFree = true → ¬ held → free →
        Passes (.pmac x a b nr md pl) s nr (CompletesReady (.pmac x a b nr md pl) s {} (fun t => NoRead t ∧
          (cur t).nextId = (cur s).nextId + 1 ∧
          (if (cur s).pressRun = none then (cur t).pressRun = some op ∧ (cur t).pressWait = none
            else (cur t).pressRun = (cur s).pressRun ∧ (cur t).pressWait = some op))))) ∧
    (∀ ms tpm, OwnDone s 0 → ea % 16 = 0 → eb % 16 = 0 → ea + 16 ≤ 0xF800 → eb + 32 ≤ 0xF800 →
      (cur s).spBadIn ea 16 = false → (cur s).spBadIn (eb + 8) 8 = false →
      let g := grpDesc (leNat ((cur s).spRead ea 8)) (leNat ((cur s).spRead (ea + 8) 8))
      grpShare s x.val g = some (ms, tpm) → g.abase % 64 = 0 → g.bbase % 64 = 0 →
      (pgrpOut s c = true → NotReady (.pgrp x a b nr md pl) s nr .busy acc) ∧
      (pgrpOut s c = false → free →
        Passes (.pgrp x a b nr md pl) s nr (
        CompletesReady (.pgrp x a b nr md pl) s { pad := fun c2 y => c2 = c ∧ eb ≤ y ∧ y < eb + 32 } (fun t =>
          (cur t).nextId = (cur s).nextId + 1 ∧ leNat ((cur t).spRead eb 4) = 0 ∧ leNat ((cur t).spRead (eb + 4) 4) = ms.length % 2 ^ 32 ∧
          leNat ((cur t).spRead (eb + 16) 16) = 0 ∧
          t.net = s.net ++ ms.zipIdx.map (fun e => sent s false false (.share e.1
            (Share.mk c (cur s).nextId s.curSlot eb e.2 x.val g.mt g.nt tpm g.abase g.bbase f md n (slot s).pgam 0
              false))))))) ∧
    (va / 2 ^ 10 = 2 → vb < 2 ^ 48 →
      let cw := vb / 2 ^ 32
      let bt := vb / 2 ^ 16 % 2 ^ 16
      cw % 16 = 0 → eb % 64 = 0 → bt % 64 = 0 → cw + 16 ≤ 0xF800 →
      (handleWords s (curPart s) va = none → (slot s).sys = false → Traps (.pcmd x a b nr md pl) s 8 0 (slot s).pc) ∧
      (∀ w, handleWords s (curPart s) va = some w → capAllows s w x.val md f eb bt = false → (slot s).sys = false →
        Traps (.pcmd x a b nr md pl) s 8 0 (slot s).pc) ∧
      (∀ w, handleWords s (curPart s) va = some w → capAllows s w x.val md f eb bt = true →
        let u := w.1 % 2 ^ 16
        ((cur s).cmdCredits u = 0 → NotReady (.pcmd x a b nr md pl) s nr .credit (.pressCredit c u)) ∧
        ((cur s).cmdCredits u ≠ 0 → heldBack s (.pressCredit c u) = false → 16 ≤ (cur s).psb.length →
          NotReady (.pcmd x a b nr md pl) s nr .busy (.engine c)) ∧
        ((cur s).cmdCredits u ≠ 0 → heldBack s (.pressCredit c u) = false → (cur s).psb.length < 16 →
          engineHeld s = false →
          Passes (.pcmd x a b nr md pl) s nr (CompletesReady (.pcmd x a b nr md pl) s { lam := fun c2 => c2 = c } (fun t =>
            (cur t).cmdCredits u = (cur s).cmdCredits u - 1 ∧
            t.net = s.net ++ [sent s false true (.pcmd u
              (PcmdStep.mk c cw x.val eb bt f md n (slot s).pgam))]))))))

/-- ACCZ clears a tile, ACCRD and ACCWR move one half row, each in its issue cycle; ACCLD and ACCST, on the own scratchpad or through a
window, read their source at once and keep the accumulator busy; a busy accumulator, or an older claim on it, refuses each of them BUSY,
a saved target core FILL, and so the order of an earlier FENCE (R150), a range that an own window store to another core has still to
reach, and for ACCLD a core that withholds its answers (R150). The slot's own stores to the accumulators, and for ACCLD and ACCST to its
scratchpad, are performed first (OwnWindowStores), and a value read for a load's retry is discarded (R223)
(R38, R133, R156, R195, R196, R197, R271, R272, R273). -/
def Obligations.AccumulatorOperations : Prop :=
  ∀ (s : State) (x : Acc) (v : VReg) (a b : SReg) (nr : Disp) (fill : Bool) (dest : AccDest),
    let c := s.curCore
    let n := x.val
    let half := 32 * ((rdS s b).toNat / 2 % 32) + 16 * ((rdS s b).toNat % 2)
    let all := fun c2 e => c2 = c ∧ 1024 * n ≤ e ∧ e < 1024 * n + 1024
    let some16 := fun c2 e => c2 = c ∧ 1024 * n + half ≤ e ∧ e < 1024 * n + half + 16
    let ea := rdS s a
    let held := (cur s).accBusy n = true ∨ heldBackBy s (.acc c n) (accOwn s c n) = true
    let busy := fun (i : Instr) => held → NotReady i s nr .busy (.acc c n)
    let moves := fun (i : Instr) (m : Nat) (load fl : Bool) (ok : Nat → Nat → Prop) (d : Nat → Nat → List Byte) =>
      ∀ c2 o, OwnDone s 0 → ea.toNat % 64 = 0 → spAddr s ea m = some (c2, o) →
        let away := c2 ≠ c ∧ ((getCore s c2).away = true ∨ (load = true ∧ (getCore s c2).withholds = true))
        (away → NotReady i s nr .fill (.line (.win c2 0) (o / 64))) ∧
        (∀ l, ¬ away → l ∈ linesOf o m → lineOpen s (.win c2 0) l = true →
          (∀ j ∈ linesOf o m, j < l → lineOpen s (.win c2 0) j = false) → NotReady i s nr .fill (.line (.win c2 0) l)) ∧
        (¬ away → (∀ l ∈ linesOf o m, lineOpen s (.win c2 0) l = false) → busy i ∧
          (¬ held → ok c2 o → Passes i s nr (CompletesReady i s {} (fun t => (cur t).accBusy n = true ∧ NoRead t ∧
            (cur t).accOps = (cur s).accOps ++ [AccOp.mk (cur s).nextId n load c2 o (d c2 o) fl]))))
    ((slot s).sys = false → ea.toNat % 64 ≠ 0 →
      Traps (.accld x a nr) s 3 0 (slot s).pc ∧ Traps (.accst x a fill nr dest) s 3 0 (slot s).pc) ∧
    ((slot s).sys = false → ea.toNat % 64 = 0 →
      (spAddr s ea 4096 = none → Traps (.accld x a nr) s 7 0 (slot s).pc) ∧
      (spAddr s ea dest.bytes = none → Traps (.accst x a fill nr dest) s 7 0 (slot s).pc)) ∧
    (OwnDone s 2 →
    busy (.accz x nr) ∧ busy (.accrd x v b nr) ∧ busy (.accwr x v b nr) ∧
    (¬ held →
      Passes (.accz x nr) s nr (
        CompletesReady (.accz x nr) s { acc := all } (fun t => NoRead t ∧ ∀ e, e < 1024 → (cur t).accElt n e = 0)) ∧
      Passes (.accrd x v b nr) s nr (CompletesReady (.accrd x v b nr) s { vreg := [v] }
        (fun t => NoRead t ∧ ∀ i, i < 16 → lane32 (rdV t v) i = ((cur s).accElt n (half + i)).toNat)) ∧
      Passes (.accwr x v b nr) s nr (CompletesReady (.accwr x v b nr) s { acc := some16 }
        (fun t => NoRead t ∧ ∀ i, i < 16 → ((cur t).accElt n (half + i)).toNat = lane32 (rdV s v) i))) ∧
    moves (.accld x a nr) 4096 true false (fun c2 o => (getCore s c2).spBadIn o 4096 = false)
      (fun c2 o => (getCore s c2).spRead o 4096) ∧
    moves (.accst x a fill nr dest) dest.bytes false fill (fun _ _ => True) (fun _ _ => encodeTile dest ((cur s).tile n)))

/-- SEAM adds the incoming tile to its own accumulator and forwards the sum unless it is the tail; a link or tail waits FEWAIT for its
guard and empties it; behind the order of an earlier FENCE it is FILL (R150); the successor must be another core of the partition (R190,
R204, R350). The slot's own stores to the accumulators are performed first (OwnWindowStores). -/
def Obligations.SeamOperation : Prop :=
  ∀ (s : State) (x b : Acc) (a : SReg) (nr : Disp) (role : Role) (f : Fmt), fmtOf (slot s).pfmt = some f → x ≠ b →
    let c := s.curCore
    let u := (rdS s a).toNat % 2 ^ 16
    let guard := (0xF7C0 + 8 * b.val) / 8
    let own := fun (m : Nat) => (cur s).accBusy m = false ∧ heldBackBy s (.acc c m) (accOwn s c m) = false
    let tile := fun (e : Nat) => seamAdd f (if role = .head then 0 else (cur s).accElt b.val e) ((cur s).accElt x.val e)
    let i := Instr.seam x a b nr role
    ((slot s).sys = false → role ≠ .tail → (inPart s u = false ∨ u = c) → Traps i s 7 0 (slot s).pc) ∧
    (OwnDone s 2 → (role = .tail ∨ (inPart s u = true ∧ u ≠ c)) →
      (role ≠ .head → (cur s).feBit guard = false → NotReady i s nr .fewait (.feWord c guard false)) ∧
      (((role = .head ∨ ((cur s).feBit guard = true ∧ heldBack s (.feWord c guard false) = false ∧ own b.val)) ∧
          own x.val ∧ (slot s).atom = none) →
        Passes i s nr (CompletesReady i s
          { acc := fun c2 e => c2 = c ∧ 1024 * x.val ≤ e ∧ e < 1024 * x.val + 1024,
            fe := fun c2 w => c2 = c ∧ w = guard ∧ role ≠ .head } (fun t =>
          (∀ e, e < 1024 → (cur t).accElt x.val e = tile e) ∧ (cur t).accBusy x.val = true ∧
          (role ≠ .head → (cur t).feBit guard = false) ∧
          (role = .tail → t.net = s.net) ∧
          (role ≠ .tail → ∃ g : Forward, t.net = s.net ++ [sent s true false (.forward u g)] ∧ g.src = c ∧ g.acc = b.val ∧
            g.tile.length = 1024 ∧ ∀ e, e < 1024 → g.tile.getD e 0 = tile e)))))

/-- Requantising 32 exact values (R188): any NaN or infinity poisons the block; all zeros give codes 0; else E1 is the smallest code
whose range holds every value, and E0 lies δ below it, at least 1. BADDQ requantises the exact sums and DXBPK the lanes of two
vectors, and DXBUN decodes and rounds one half (R188, R189, R281, R282, R297). -/
def Obligations.BlockOperations : Prop :=
  (∀ (b4 : Bool) (xs : List Fv), xs.length = 32 →
    let q := requantise b4 xs
    let finite := ∀ x ∈ xs, x.finite?.isSome
    let zero := ∀ x ∈ xs, ∃ g e, x = .num g 0 e
    let fits := fun (code : Nat) => ∀ x ∈ xs, ∀ g m e, x.finite? = some (g, m, e) →
      magLe m e (if b4 then 3 else 63) ((code : Int) - (if b4 then 128 else 132)) = true
    q.elts.length = 32 ∧
    (¬ finite → q.e0 = 255 ∧ q.e1 = 255 ∧ ∀ y ∈ q.elts, y = ⟨false, false, 0⟩) ∧
    (zero → q.e0 = 0 ∧ q.e1 = 0 ∧ ∀ y ∈ q.elts, y.sel = false ∧ y.m = 0) ∧
    (finite → ¬ zero → ∀ e1, 1 ≤ e1 → e1 ≤ 254 → fits e1 → (∀ k, 1 ≤ k → k < e1 → ¬ fits k) →
      q.e1 = e1 ∧ q.e0 = max (e1 - (if b4 then 1 else 3)) 1) ∧
    (finite → ¬ zero → (∀ k, 1 ≤ k → k ≤ 254 → ¬ fits k) → q.e0 = 255 ∧ q.e1 = 255)) ∧
  (∀ (s : State) (d a b : VReg) (b4 hi : Bool),
    let vals := fun (r : VReg) => (DxbBlock.ofVec b4 (rdV s r)).values b4
    let lanes := fun (r : VReg) => (List.range 16).map (fun i => unpack f32 (lane 32 (rdV s r) i))
    VectorEffect (.baddq d a b b4) s d ((requantise b4 (List.zipWith exactSum (vals a) (vals b))).toVec b4) ∧
    VectorEffect (.dxbpk d a b b4) s d ((requantise b4 (lanes a ++ lanes b)).toVec b4) ∧
    (∃ v, VectorEffect (.dxbun d a hi b4) s d v ∧ ∀ i, i < 16 →
      lane 32 v i = fRound f32 0 ((vals a).getD ((if hi then 16 else 0) + i) .nan)))

/-! ## Copies -/

/-- COPY, GATH and SLICE: PROT outside slot 7, BOUNDS for a request that breaks a limit, BUSY while the engine holds four requests or is
halted; else accepted: the request joins the engine, its rows cut into writes each inside one line of its destination, every write with
the place and the source bytes its row gives it; only a request without bytes and record leaves the engine as it was. At work, a write
from a scratchpad, a register file or accumulator behind a window, a lease, device, far or host memory reads its source when it is
performed and writes exactly those bytes to a scratchpad, the registers, an accumulator or a mailbox of a core, a lease or device memory,
or nothing of memory under another partition's key (R2; assumption 70), and with count set adds its bytes to the count word; a poisoned
source line poisons the device line it writes and the core's own copy of it. Its reads follow every write and DCFENCE that a marked slot
made before its mark (R159, case 1; R208), but in a core being saved no store held at a mailbox (assumption 114), and a scratchpad whose
core withholds its answers is not read (R150); with every write performed and the record's word empty, the
record is written and its word filled. The model's own choices: writes are cut at the lines of the destination (assumption 45), the
bytes of a poisoned line in device memory are zeros, the control block's bounds matter where count or record use it alone (assumption
44), and the bytes written of a SLICE count every write the request performs (assumption 78) (R137, R209, R210, R211, R215, R289, R308,
R356). -/
def Obligations.CopyOperations : Prop :=
  (∀ (s : State) (v : VReg) (nr : Disp),
    let r := reqOf (rdV s v)
    let kinds : List (Instr × Option Plan) :=
      [(.copy v nr, copyPlan r), (.gath v nr, gathPlan r), (.slice v nr, slicePlan s r)]
    ∀ k ∈ kinds,
      ((slot s).sys = false → s.curSlot ≠ 7 → Traps k.1 s 7 0 (slot s).pc) ∧
      ((slot s).sys = false → s.curSlot = 7 → k.2 = none → Traps k.1 s 9 0 (slot s).pc) ∧
      (∀ p, s.curSlot = 7 → k.2 = some p → planBounds s p = false → r.cblk % 32 = 0 → planAlign p = false →
        (r.d3 / 2 ^ 55 % 4 ≠ 0 → r.cblk + 32 ≤ 0xF800) → planProt s p = false → invBarred s = false → planXlat s p = none →
        planFenced s p = false → (p.kind = .slice → r.d1 % 2 ^ 16 % 64 = 0 ∧ r.d1 % 2 ^ 16 + r.d2 % 2 ^ 17 ≤ 0xF800) →
        ((4 ≤ (cur s).copies.length ∨ (cur s).halted = true) → NotReady k.1 s nr .busy (.engine s.curCore)) ∧
        ((cur s).copies.length < 4 → (cur s).halted = false → engineHeld s = false → RowsPlaced s p →
          CompletesReady k.1 s {} (fun t => ∃ cuts : List (List Segment), List.Forall₂ (RowCut s p) p.rows cuts ∧
            if cuts.flatten = [] ∧ r.d3 / 2 ^ 55 % 2 = 0 then (cur t).copies = (cur s).copies
            else ∃ q : CopyReq, (cur t).copies = (cur s).copies ++ [q] ∧ q.segs = cuts.flatten ∧ q.kind = p.kind ∧ q.cblk = r.cblk ∧
              q.written = 0 ∧ q.poison = false ∧ q.fill = decide (r.d3 / 2 ^ 57 % 2 = 1) ∧
              q.count = decide (r.d3 / 2 ^ 56 % 2 = 1) ∧ q.record = decide (r.d3 / 2 ^ 55 % 2 = 1) ∧
              q.padded = (p.rows.filter (fun w => w.src.isNone)).length ∧
              ((∀ g ∈ q.segs, ∀ h ∈ q.segs, ∀ x ∈ g.src, x.meets h.dst h.daddr h.len = false) → q.source = []))))) ∧
  (∀ (s : State) (c i off : Nat) (q : CopyReq) (g : Segment), (getCore s c).copies[i]? = some q → q.segs[off]? = some g →
    g.dview = false → q.source = [] → q.count = false → (getCore s c).halted = false → (getCore s c).save = .no →
    (g.src ≠ [] → q.mustWait (getCore s c) = false) →
    let p := (partOf s c).getD 0
    let leaves := fun (bad : Bool) (t : State) => (getCore t c).copies = (if (q.segs.eraseIdx off).isEmpty && !q.record
      then (getCore s c).copies.eraseIdx i
      else (getCore s c).copies.set i
        { q with segs := q.segs.eraseIdx off, written := q.written + g.len, poison := q.poison || bad })
    let left := leaves false
    let bytes := if g.src = [] then List.replicate g.len g.pad else g.src.flatMap (fun x => (getCore s c).spRead x.addr x.len)
    (g.dst = .win c 0 → (∀ x ∈ g.src, x.sp = .win c 0 ∧ (getCore s c).spBadIn x.addr x.len = false) → bytes.length = g.len →
      1 ≤ g.len →
      Happens (.copyDestWrite c i off) s (fun t => (getCore t c).spRead g.daddr g.len = bytes ∧ left t ∧
        (∀ x, (x < g.daddr ∨ g.daddr + g.len ≤ x) → sget 0 (getCore t c).sp x = sget 0 (getCore s c).sp x) ∧
        (q.fill = true → ∀ w, g.daddr / 8 ≤ w → 8 * w < g.daddr + g.len → (getCore t c).feBit w = true))) ∧
    (∀ x, g.src = [x] → g.daddr % 64 + g.len ≤ 64 → g.dst = .dev → g.dcomp = none → x.sp = .dev → x.comp = none → x.len = g.len →
      lineBad s .dev g.daddr = false → (∀ l ∈ linesOf g.daddr g.len, performsLine s p c l = true) →
      (holdsKey s p .dev g.daddr = false →
        HappensQuietly (.copyDestWrite c i off) s (leaves (lineBad s .dev x.addr))) ∧
      (holdsKey s p .dev g.daddr = true → lineBad s .dev x.addr = false →
        Happens (.copyDestWrite c i off) s (fun t => memRead t .dev g.daddr g.len = devRead s p x.addr g.len ∧ left t ∧
          MemOutside s t .dev g.daddr g.len)) ∧
      (holdsKey s p .dev g.daddr = true → lineBad s .dev x.addr = true →
        Happens (.copyDestWrite c i off) s (fun t => memRead t .dev g.daddr g.len = List.replicate g.len 0 ∧ leaves true t ∧
          lineBad t .dev g.daddr = true ∧ MemOutside s t .dev g.daddr g.len ∧
          ∀ e ∈ (getCore t c).l1, e.sp = .dev → e.line = g.daddr / 64 → e.view = false → e.poison = true)))) ∧
  (∀ (s : State) (c i off : Nat) (q : CopyReq) (g : Segment) (x : Piece), (getCore s c).copies[i]? = some q →
    q.segs[off]? = some g → g.dview = false → q.source = [] → (getCore s c).halted = false → (getCore s c).save = .no →
    (g.src ≠ [] → q.mustWait (getCore s c) = false) → g.src = [x] → x.len = g.len → 1 ≤ g.len →
    x.comp = none → x.view = false →
    let p := (partOf s c).getD 0
    let there := fun (m : Nat) => m = c ∨ (getCore s m).save = .no
    let stored := fun (tg : Target) (d : List Byte) => lineBad s tg x.addr = false ∧ d = readFor s p tg x.addr x.len
    let reads := fun (d : List Byte) => (x.sp = .dev ∧ stored .dev d) ∨ (x.sp = .far ∧ stored .far d) ∨
      (x.sp = .host ∧ stored .host d) ∨
      (∃ m u, x.sp = .win m u ∧ there m ∧ (m = c ∨ u ≠ 0 ∨ (getCore s m).withholds = false) ∧ (getCore s m).winBusy u x.addr x.len = false ∧
        (u = 0 → (getCore s m).spBadIn x.addr x.len = false) ∧ d = (getCore s m).winRead u x.addr x.len) ∨
      ∃ o n gen, x.sp = .lease o n gen ∧
        let e := sget LeaseEnt.reset (getPart s o).leases n
        e.live = true ∧ e.gen = gen ∧ d = sgetRange 0 e.store x.addr x.len
    let n := g.ctl.getD c
    let counted := q.count = true → there n ∧ (getCore s n).spBadIn q.cblk 16 = false ∧
      (g.dst = .win n 0 → g.daddr + g.len ≤ q.cblk ∨ q.cblk + 16 ≤ g.daddr)
    ∀ d, reads d → counted →
      let writes := fun (P : State → Prop) => Happens (.copyDestWrite c i off) s (fun t => P t ∧
        (getCore t c).copies = (if (q.segs.eraseIdx off).isEmpty && !q.record then (getCore s c).copies.eraseIdx i
          else (getCore s c).copies.set i { q with segs := q.segs.eraseIdx off, written := q.written + g.len }) ∧
        (q.count = true → leNat ((getCore t n).spRead q.cblk 4) =
          min (leNat ((getCore s n).spRead q.cblk 4) + g.len) (2 ^ 32 - 1)))
      (∀ m, g.dst = .win m 0 → there m → writes (fun t => (getCore t m).spRead g.daddr g.len = d ∧ MemSame s t ∧
        (q.fill = true → ∀ w, g.daddr / 8 ≤ w → 8 * w < g.daddr + g.len → (getCore t m).feBit w = true))) ∧
      (∀ m u, g.dst = .win m u → (u = 1 ∨ u = 2) → there m → (getCore s m).winBusy u g.daddr g.len = false →
        writes (fun t => WindowStored s t m u g.daddr d ∧ MemSame s t)) ∧
      (∀ m b, g.dst = .win m 4 → g.daddr = 64 * b → there m → sget false (getCore s m).mbFull b = false →
        writes (fun t => sget false (getCore t m).mbFull b = true ∧
          sget 0 (getCore t m).mb b = BitVec.ofNat 256 (leNat (d.take 32)) ∧ MemSame s t)) ∧
      (∀ o k gen, g.dst = .lease o k gen → LeaseStored s o k gen g.daddr d writes) ∧
      (g.daddr % 64 + g.len ≤ 64 → g.dst = .dev → g.dcomp = none → lineBad s .dev g.daddr = false → (∀ l ∈ linesOf g.daddr g.len, performsLine s p c l = true) →
        writes (fun t => (holdsKey s p .dev g.daddr = true → memRead t .dev g.daddr g.len = d ∧
          MemOutside s t .dev g.daddr g.len) ∧ (holdsKey s p .dev g.daddr = false → MemSame s t)))) ∧
  (∀ (s : State) (c i off : Nat) (q : CopyReq) (g : Segment), (getCore s c).copies[i]? = some q → q.segs[off]? = some g →
    g.src ≠ [] → (∃ m ∈ q.xdMarks,
      (∃ e ∈ (getCore s c).psb, e.slot = m.1 ∧ e.id < m.2 ∧ ((getCore s c).save = .no ∨ ∀ u, e.sp ≠ .win u 4)) ∨
      ∃ e ∈ (getSlot s c m.1).dcf, e.2.2 < m.2) →
    exec (.copyDestWrite c i off) s = .next s) ∧
  (∀ (s : State) (c i : Nat) (q : CopyReq), (getCore s c).copies[i]? = some q → q.segs = [] → q.record = true →
    (getCore s c).halted = false → (getCore s c).save = .no → (getCore s c).feBit ((q.cblk + 16) / 8) = false →
    Happens (.copyRecordWrite c i) s (fun t =>
      leNat ((getCore t c).spRead (q.cblk + 16) 8) = q.padded % 2 ^ 32 + (if q.poison then 2 ^ 63 else 0) ∧
      leNat ((getCore t c).spRead (q.cblk + 24) 8) = q.written % 2 ^ 32 ∧
      (getCore t c).feBit ((q.cblk + 16) / 8) = true ∧ (getCore t c).copies = (getCore s c).copies.eraseIdx i))

/-! ## Regions -/

/-- ROUND posts an increment for the holder of the iron, PROT for a core that may not hold it any more or yet; RVIEW reads the own view,
or 0 while it is not installed, always ready; IRGET takes an iron at rest or offered, or refuses TOKEN, both FILL behind the order of an
earlier FENCE (R150); IRPASS begins a pass, enters its increment among the core's work, as ROUND does (assumption 49), and drops the
region's lines of L1 (R165, R166, R167, R172, R173, R174). -/
def Obligations.RegionOperations : Prop :=
  ∀ (s : State) (d a u : SReg) (nr : Disp) (acq : Bool),
    let h := rdS s a
    let p := curPart s
    let c := s.curCore
    ((slot s).sys = false → regionHandle s h = none → ∀ i ∈ [Instr.round a nr, .rview d a acq, .irget a nr, .irpass a u],
      Traps i s 9 0 (slot s).pc) ∧
    (∀ q n r, regionHandle s h = some (q, n, r) →
      let iron : Resource := .iron p q n
      let free := heldBackBy s iron (ironOwn s r) = false ∧ (slot s).atom = none
      let now := fun (t : State) => getRegion t p q n
      let dest := (rdS s u).toNat % 2 ^ 16
      let away := fun (x : Nat) => r.iron = .offered x ∨ ∃ k y m, r.iron = .passing x k y m
      (r.iron = .held c → free → Passes (.round a nr) s nr (
        CompletesReady (.round a nr) s {} (fun t => now t = some r ∧ (slot t).hold = none ∧
          (cur t).rounds = (cur s).rounds ++ [{ id := (cur s).nextId, slot := s.curSlot, q := q, n := n }] ∧
          (cur t).nextId = (cur s).nextId + 1))) ∧
      (∀ x, (r.iron = .held x ∨ away x) → x ≠ c → NotReady (.round a nr) s nr .token iron) ∧
      ((slot s).sys = false → (r.iron = .rest ∨ away c) → Traps (.round a nr) s 7 0 (slot s).pc) ∧
      (∀ v, viewOf (cur s) q n = some v → CompletesReady (.rview d a acq) s { sreg := [d] } (fun t =>
        (acq = true → (slot t).hold = none) ∧
        rdS t d = if d = 0 then 0 else BitVec.ofNat 64 (v.toNat + 2 ^ 32 + (if r.lost then 2 ^ 33 else 0)))) ∧
      (viewOf (cur s) q n = none → CompletesReady (.rview d a acq) s { sreg := [d] } (fun t =>
        rdS t d = 0 ∧ (q, n) ∈ (cur t).viewAsk)) ∧
      (r.w = true → r.mode ≠ 2 → (r.iron = .rest ∨ r.iron = .held c ∨ r.iron = .offered c) → free →
        Passes (.irget a nr) s nr (
          CompletesReady (.irget a nr) s {} (fun t => now t = some { r with iron := .held c } ∧ (slot t).hold = none))) ∧
      (r.w = true → r.mode ≠ 2 → ((∃ x, x ≠ c ∧ (r.iron = .held x ∨ r.iron = .offered x)) ∨
          ∃ x k y m, r.iron = .passing x k y m) → NotReady (.irget a nr) s nr .token iron) ∧
      ((slot s).sys = false → (r.w = false ∨ r.mode = 2) → Traps (.irget a nr) s 7 0 (slot s).pc) ∧
      (r.iron = .held c → (dest = 0xFFFF ∨ inPart s dest = true) → CompletesReady (.irpass a u) s {} (fun t =>
        now t = some { r with iron := .passing c s.curSlot dest (cur s).nextId } ∧ (slot t).hold = none ∧
        (cur t).passes = (cur s).passes ++ [{ id := (cur s).nextId, slot := s.curSlot, q := q, n := n }] ∧
        (cur t).nextId = (cur s).nextId + 1 ∧
        ∀ e ∈ (cur t).l1, ∀ g, e.tag ≠ some (q, n, g))) ∧
      ((slot s).sys = false → (r.iron ≠ .held c ∨ (dest ≠ 0xFFFF ∧ inPart s dest = false)) →
        Traps (.irpass a u) s 7 0 (slot s).pc))

/-- At the home of a region: the oldest increment, and the end of a pass, wait for their core's earlier writes to the region
and for all work that a release of their slot covers (R150, R174; read so in assumption 49), then add one to the counter, and
the passed iron comes to rest or is offered; with each new value a notice goes to every other core of the partition that holds the
region in its view, and to no other; a
notice and an install bring a counter's value into a view; a published value sets the subscriber's counter, a published write its
bytes, and a lost subscription is marked (R166, R167, R172, R173, R176). -/
def Obligations.RegionEvents : Prop :=
  (∀ (s : State) (p q n : Nat) (r : Region), getRegion s p q n = some r →
    let now := fun (t : State) => getRegion t p q n
    let notices := fun (c : Nat) (v : BitVec 32) (t : State) =>
      (∀ u, u ≠ c → partOf s u = some p → viewOf (getCore s u) q n ≠ none → ∃ pk ∈ t.net, pk.body = .notice u q n v) ∧
      (∀ pk ∈ t.net, pk ∉ s.net → ∀ u x y w, pk.body = .notice u x y w →
        partOf s u = some p ∧ u ≠ c ∧ viewOf (getCore s u) q n ≠ none ∧ x = q ∧ y = n ∧ w = v)
    (∀ c i rest, roundsOf s p q n = (c, i) :: rest →
      (regionOpen s c r i.id = false → (getCore s c).openBefore i.slot i.id = false →
        Happens (.roundIncrement p q n) s (fun t => now t = some { r with counter := r.counter + 1 } ∧ MemSame s t ∧
          (getCore t c).rounds = (getCore s c).rounds.filter (fun x => x.id != i.id) ∧
          notices c (r.counter + 1) t)) ∧
      ((regionOpen s c r i.id = true ∨ (getCore s c).openBefore i.slot i.id = true) →
        exec (.roundIncrement p q n) s = .next s)) ∧
    (∀ c k u m, r.iron = .passing c k u m →
      (roundsOf s p q n = [] → regionOpen s c r m = false → passWaits (getCore s c) k m = false →
        Happens (.ironPassComplete p q n) s (fun t => MemSame s t ∧ now t = some
          { r with counter := r.counter + 1, iron := if u = 0xFFFF then .rest else .offered u } ∧
          (∀ e ∈ (getCore t c).passes, ¬ (e.q = q ∧ e.n = n)) ∧ notices c (r.counter + 1) t)) ∧
      ((roundsOf s p q n ≠ [] ∨ regionOpen s c r m = true ∨ passWaits (getCore s c) k m = true) →
        exec (.ironPassComplete p q n) s = .next s)) ∧
    (∀ val, r.mode = 2 → r.lost = false → portHeld s p r.sub = false →
      Happens (.publishRoundArrival p q n val) s (fun t => now t = some { r with counter := val } ∧ notices noCore val t)) ∧
    (r.mode = 2 → r.lost = false →
      Happens (.subscriptionLost p q n) s (fun t => now t = some { r with lost := true })) ∧
    (∀ off data, r.mode = 2 → r.lost = false → portHeld s p r.sub = false → off + data.length ≤ 64 * r.lines →
      off % 64 + data.length ≤ 64 →
      (∀ e pte, walkTables s p (r.base + off) = .ok e pte → e.comp = false) → lineBad s .dev (r.physOf off) = false →
      holdsKey s p .dev (r.physOf off) = true →
      Happens (.publishWriteArrival p q n off data) s (fun t =>
        memRead t .dev (r.physOf off) data.length = data ∧
        ∀ tg x, (tg = .dev → x < r.physOf off ∨ r.physOf off + data.length ≤ x) → readByte t tg x = readByte s tg x))) ∧
  (∀ (s : State) (i c q n : Nat) (r : Region), (getCore s c).viewAsk[i]? = some (q, n) →
    getRegion s ((partOf s c).getD 0) q n = some r →
    Happens (.viewInstall c i) s (fun t => viewOf (getCore t c) q n = some r.counter ∧
      (getCore t c).viewAsk = (getCore s c).viewAsk.eraseIdx i)) ∧
  (∀ (s : State) (i u q n : Nat) (pk : Packet) (new old : BitVec 32), Arrives s i pk → pk.body = .notice u q n new →
    (getCore s u).save = .no → viewOf (getCore s u) q n = some old →
    Happens (.roundNoticeArrival i) s (fun t => t.net = netWithout s i ∧
      viewOf (getCore t u) q n = some (if 0 < (new - old).toNat ∧ (new - old).toNat < 2 ^ 31 then new else old)))

/-! ## Gears, launches, the end of a part -/

/-- GEAR soak returns the unit at once; GEAR spin is ready in SPIN, granted by the governor, or refused ADMISSION, as it is while another
row of the die has an older active claim, but for one of a core that its temperature holds in SOAK (R230; assumption 110); no register
and no memory byte changes. While an XLINV or DICTLD of the slot is under way soak, and a spin that the governor would not refuse, are
FILL (R77; assumption 67, claimed as assumption 11 says). A grant takes effect at a rotation's start (R225, R226, R227, R229). -/
def Obligations.GearOperation : Prop :=
  (∀ (s : State) (nr : Disp),
    let c := s.curCore
    let row : Resource := .row (coreRow s c)
    let grants := governorServes s c ((slot s).claimAt (slot s).pc row)
    let gear := fun (spin : Bool) (b : Bool) => ∃ t, exec (.gear nr spin) s = .next t ∧ Ready s t ∧ (cur t).spin = b ∧
      (cur t).gearEff = (cur s).gearEff ∧ (cur t).autosoak = (cur s).autosoak ∧ (slot t).sys = (slot s).sys ∧
      SameSpecials (slot s) (slot t) ∧ (∀ r, rdS t r = rdS s r) ∧ (∀ r, rdV t r = rdV s r) ∧ (∀ r, rdM t r = rdM s r) ∧
      MemSame s t ∧ (cur t).sp = (cur s).sp ∧ (cur t).acc = (cur s).acc ∧ (cur t).fe = (cur s).fe ∧
      (∀ c2, c2 ≠ c → (getCore t c2).spin = (getCore s c2).spin)
    (invBarred s = false → gear false false) ∧
    (invBarred s = true → NotReady (.gear nr false) s nr .fill (orderRes c s.curSlot)) ∧
    (invBarred s = false → (cur s).spin = true → gear true true) ∧
    (invBarred s = false → (cur s).spin = false → grants = true → gear true true) ∧
    ((cur s).spin = false → grants = false → NotReady (.gear nr true) s nr .admission row) ∧
    (invBarred s = true → ((cur s).spin = true ∨ grants = true) →
      NotReady (.gear nr true) s nr .fill (orderRes c s.curSlot))) ∧
  (∀ (s : State) (c u n : Nat) (mine cl : Claim) (v : Nat), (u, n, cl) ∈ claimsOf s → cl.active = true → cl.res = .row v →
    v ≠ coreRow s c → dieOf (16 * v) = dieOf (pcnOf s c) → pcnOf s u ∉ s.forced → cl.stamp < mine.stamp →
    governorServes s c (some mine) = false) ∧
  (∀ (s : State) (c : Nat), (getCore s c).cyc % 8 = 0 → (getCore s c).save = .no →
    Happens (.gearChangeEffect c) s (fun t => (getCore t c).gearEff = (getCore s c).spin ∧
      (getCore t c).spin = (getCore s c).spin))

/-- LAUNCH enters its address into the partition's intake with the next sequence number, ALIGN when it is not 64-byte aligned and QFULL
at 64 entries, FILL behind the order of an earlier FENCE; DONE in user mode ends the core's part: its slots are empty and its structures
abandoned (R114, R117, R125, R296, R314). -/
def Obligations.LaunchAndDone : Prop :=
  ∀ (s : State) (d a : SReg) (nr : Disp),
    let v := (rdS s a).toNat
    let p := curPart s
    let part := fun (t : State) => getPart t p
    ((slot s).sys = false → v % 64 ≠ 0 → Traps (.launch d a nr) s 3 0 (slot s).pc) ∧
    (v % 64 = 0 → 64 ≤ (part s).intake.length → NotReady (.launch d a nr) s nr .qfull (.intake p)) ∧
    (v % 64 = 0 → (part s).intake.length < 64 → heldBack s (.intake p) = false →
      (slot s).atom = none →
      Passes (.launch d a nr) s nr (CompletesReady (.launch d a nr) s { sreg := [d], lam := fun c => c = s.curCore } (fun t =>
        rdS t d = (if d = 0 then 0 else BitVec.ofNat 64 (part s).seq) ∧
        (part t).seq = ((part s).seq + 1) % 2 ^ 32 ∧
        (part t).intake = (part s).intake ++ [IntakeEnt.mk (v % 2 ^ 48) (part s).seq ((cur s).lamport + 1)
          (some (s.curCore, s.curSlot, (cur s).nextId))]))) ∧
    ((slot s).sys = false → ∃ t, exec .done s = .next t ∧ (cur t).ended = true ∧ (cur t).spin = false ∧
      (cur t).allEmpty = true ∧ (cur t).dq = [] ∧ (cur t).bq = [] ∧ (cur t).chans = [] ∧ (cur t).mbFull = [] ∧
      (∀ x, sget 0 (cur t).sp x = sget 0 (cur s).sp x) ∧ ∀ tg x, readByte t tg x = readByte s tg x)

/-! ## Encodings, steps, reset, invariants -/

/-- One step whose turn is a core cycle gives the slot that owns it its cycle: the word that its PC fetches, decoded, is performed; a
word that is no instruction raises ILLEGAL, a fetch that faults traps at its target, and an idle slot only lets the cycle pass; inside a
repeat frame the first replay fetches and keeps its members, later ones perform the kept words with their registers moved on, a
misaligned PC is ALIGN there too, a word that is no frame member is ILLEGAL, and a restored frame is fetched again as a whole, its fault
saving the frame's start (R90). A slot under a stop request stops, a core whose save begins or runs issues nothing, a saved one has no
cycle. A turn that is an event performs it, and one that only a core cycle performs passes. Turns are the model's (assumption 1), and so
are a fetch that reads the tables as they stand (assumption 10) and a frame kept while the PC is no member (assumption 42) (R21, R24,
R29, R60, R61, R78, R90, R142, R198, R199, R243, R246, R248, R251). -/
def Obligations.StepRunsDecoded : Prop :=
  (∀ (s : State) (c : Nat) (rest : List Turn), s.agenda = .coreCycle c :: rest → c < 40960 →
    let sTurn := { s with agenda := rest, turns := s.turns + 1 }
    ((getCore s c).save = .saved → step s = .next sTurn) ∧
    ((getCore s c).save = .saving → step s = .next (endCycleAt (modCore sTurn c Core.ageNow) c)) ∧
    ((getCore s c).save = .no →
    let n := (getCore s c).cyc % 8
    let s0 := { sTurn with curCore := c, curSlot := n }
    let s1 := modCur s0 (fun k => k.startCycle.stir)
    let s2 := modCur s1 (fun k => k.tryInt n)
    let p := curPart s2
    let pc := (slot s2).pc
    let ends := fun (t : State) => step s = .next (endCycleAt t c)
    ((cur s1).save = .saving → ends s1) ∧
    ((cur s1).save ≠ .saving → (slot s1).stopReq = true → ends (stopSlot s1 c n)) ∧
    ((cur s1).save ≠ .saving → (slot s1).stopReq = false →
    ((slot s2).st ≠ .runnable → ends s2) ∧
    ((slot s2).st = .runnable → (slot s2).frame = none →
      let s3 := modSlot (fetchMark s2) (fun l => { l with frame := none })
      (∀ w i t, fetchAt s2 p pc = .ok w → decode w = some i → exec i s3 = .next t → ends (afterStep t)) ∧
      (∀ w, fetchAt s2 p pc = .ok w → decode w = none → ends (afterStep (raise s3 .illegal))) ∧
      (∀ e, fetchAt s2 p pc = .error e → ends (afterStep (takeTrap s2 c n e 0 pc)))) ∧
    (∀ f, (slot s2).st = .runnable → (slot s2).frame = some f →
      let k := f.index pc
      let into := fun (g : Frame) (m : State) => modSlot m (fun l => { l with frame := some g })
      let runs := fun (g : Frame) (m : State) (i : Instr) => ∀ t, exec i (into g m) = .next t → ends (afterStep t)
      let illegal := fun (g : Frame) (m : State) => ends (afterStep (raise (into g m) .illegal))
      let member := fun (g : Frame) (m : State) (w : BitVec 32) =>
        (∀ i, decode w = some i → frameMember i = true → runs g m (rewriteMember g i)) ∧
        (∀ i, decode w = some i → frameMember i = false → illegal g m) ∧ (decode w = none → illegal g m)
      let faults := fun (e : TrapCause) (epc : VA) => ends (afterStep (takeTrap s2 c n e 0 epc))
      (f.covers pc = false →
        (∀ w, fetchAt s2 p pc = .ok w → (∀ i, decode w = some i → runs f (fetchMark s2) i) ∧
          (decode w = none → illegal f (fetchMark s2))) ∧
        (∀ e, fetchAt s2 p pc = .error e → faults e pc)) ∧
      (f.covers pc = true → pc.toNat % 4 ≠ 0 → faults .align pc) ∧
      (f.covers pc = true → pc.toNat % 4 = 0 → f.rep = 0 → f.again = false → k ≤ f.words.length →
        (∀ w, fetchAt s2 p pc = .ok w → member { f with words := f.words.take k ++ [w] } (fetchMark s2) w) ∧
        (∀ e, fetchAt s2 p pc = .error e → faults e pc)) ∧
      (f.covers pc = true → pc.toNat % 4 = 0 → f.rep ≠ 0 → f.again = false → ∀ w, f.words[k]? = some w → member f s2 w) ∧
      (f.covers pc = true → pc.toNat % 4 = 0 → f.again = true → f.words = [] →
        (∀ ws : List (BitVec 32), ws.length = f.len →
          (∀ j, j < f.len → fetchAt s2 p (f.start + BitVec.ofNat 48 (4 * j)) = .ok (ws.getD j 0)) →
          member { f with words := ws, again := false } (fetchMark s2) (ws.getD k 0)) ∧
        (∀ j e, j < f.len → (∀ h, h < j → ∃ w, fetchAt s2 p (f.start + BitVec.ofNat 48 (4 * h)) = .ok w) →
          fetchAt s2 p (f.start + BitVec.ofNat 48 (4 * j)) = .error e → faults e f.start)))))) ∧
  (∀ (s : State) (i : Instr) (rest : List Turn), s.agenda = .act i :: rest →
    let s0 := { s with agenda := rest, turns := s.turns + 1 }
    (Instr.inCycle i = false → step s = exec i s0) ∧ (Instr.inCycle i = true → step s = .next s0)) ∧
  (∀ (s : State) (p : Nat) (pc : VA) (e : TlbEntry) (pte : Nat), pc.toNat % 4 = 0 → pc.toNat / 2 ^ 46 % 2 = 0 →
    walkTables s p pc.toNat = .ok e pte → e.x = true → e.tgt = .dev → e.comp = false →
    lineBad s .dev (e.phys pc.toNat) = false →
    let b := fun i => (devByte s p (e.phys pc.toNat + i)).toNat
    fetchAt s p pc = .ok (BitVec.ofNat 32 (b 0 + 2 ^ 8 * b 1 + 2 ^ 16 * b 2 + 2 ^ 24 * b 3))) ∧
  (∀ (s : State), (slot s).st = .runnable → (slot s).frame = none → (slot s).sys = false →
    (∀ e, fetchAt s (curPart s) (slot s).pc = .error e → Traps .fetchFault s e.code 0 (slot s).pc) ∧
    (∀ w, fetchAt s (curPart s) (slot s).pc = .ok w → decode w = none → Traps .illegalInstruction s 1 0 (slot s).pc))

/-- Words written out from the encodings of spec/ decode to the instructions they stand for. -/
def Obligations.DecodeWords : Prop :=
  decode 0x04611001 = some (.add 3 1 2) ∧
  decode 0x08A4FFFF = some (.addi 5 4 0xFFFF) ∧
  decode 0x05EE0029 = some (.popc 15 14) ∧
  decode 0x00A001C8 = some (.ctlr 5 0x007) ∧
  decode 0x00090449 = some (.ctlw 9 0x011) ∧
  decode 0x00000003 = some .eret ∧
  decode 0x28822FFD = some (.brc .lt 1 2 0xFFD) ∧
  decode 0x78A3A8E2 = some (.ldd 5 3 .nt1 .w .rlx 7 2) ∧
  decode 0x9CEB2030 = some (.amadd 7 11 .park false 6 .rlx false) ∧
  decode 0xA4442301 = some (.send 2 4 .park 3 true) ∧
  decode 0x5514C600 = some (.pmac 2 5 6 .park .dec 0) ∧
  decode 0x4C222060 = some (.vcvt 1 2 .f16 0 .f32) ∧
  decode 0xD80B2200 = some (.irget 11 .park) ∧
  decode 0x00000000 = none ∧ decode 0xFFFFFFFF = none

/-- Every well-formed instruction with an encoding is the decoding of its word, with every operand at every value, and a decoded word
is the encoding of what it decodes to: no two words stand for one instruction. -/
def Obligations.EncodingRoundTrip : Prop :=
  (∀ i : Instr, i.isEncoded = true → i.wf = true → ∃ w, encode i = some w ∧ decode w = some i) ∧
  (∀ (w : BitVec 32) (i : Instr), decode w = some i → encode i = some w)

/-- Every step keeps the canonical form of the three memories. -/
def Obligations.MemoriesKeepForm : Prop :=
  ∀ s t : State, MemoriesWf s → step s = .next t → MemoriesWf t

/-- No step takes the device back in its lifecycle (R266). -/
def Obligations.LifecycleNeverFalls : Prop :=
  ∀ s t : State, step s = .next t → lifeRank s.kaz.life ≤ lifeRank t.kaz.life

/-- After reset every slot is empty and user, with Table 5.1's values, every core in SOAK, the cycle counter at 0 and no partition
alive; memories have their canonical form. RESET brings slots, cores and partitions there; that it keeps the memories is the
model's choice (assumption 59) (R20, R82 to R86, R126; values without a source in spec/ are the model's, assumption 2). -/
def Obligations.ResetValues : Prop :=
  let asReset := fun (s : State) =>
    (∀ c k, let l := getSlot s c k
      l.st = .empty ∧ l.sys = false ∧ l.nr = false ∧ l.ncause = 0 ∧ l.epc = 0 ∧ l.ecause = 0 ∧ l.msgvec = 0 ∧
      l.msgEn = 0 ∧ l.msgMasked = false ∧ l.msgLeft = 0 ∧ l.pfmt = 0 ∧ l.pgam = 0x3F800000 ∧ l.rnd = 0 ∧ l.nt = [] ∧
      l.claims = [none, none, none, none] ∧ l.mons = [] ∧ l.frame = none) ∧
    (∀ c, (getCore s c).spin = false ∧ (getCore s c).gearEff = false ∧ (getCore s c).task = none) ∧
    s.cycle = 0 ∧ (∀ p, (getPart s p).live = false)
  asReset State.reset ∧ MemoriesWf State.reset ∧
  ∀ s : State, Happens .reset s (fun t => asReset t ∧ MemSame s t ∧ t.kaz.life = s.kaz.life)

/-! ## Memory work behind the instructions -/

/-- Posted stores, reads, window accesses, mailbox stores, walks and fills take their effect at their targets: exactly the posted
bytes are written, but none of device memory under another partition's key (R2; assumption 70) and none beyond what a memory holds, whose
bytes read as free values (R14; assumption 111), and a read's bytes are held for the
retry, device and far memory as the partition's key reads them (R265). A busy accumulator
or an order that its core still owes keeps a window access waiting, and so does a region's iron a store; a read without the right is
PROT; a walk's fault is held while its claim is; a line of a region is filled with its round. The model's choices: a store held at
its target stays in its sender's buffer (assumption 41), a walk changes its leaf entry alone (assumption 37), and a fetched lease
descriptor is kept in leaseAt (assumption 81) (R129 to R132, R139, R141, R143, R144, R150, R169, R360). -/
def Obligations.MemoryEvents : Prop :=
  (∀ (s : State) (c i : Nat) (e : Posted), (getCore s c).psb[i]? = some e → e.red = none → (getCore s c).performable i = true →
    let gone := fun (t : State) => (getCore t c).psb = (getCore s c).psb.eraseIdx i
    let p := (partOf s c).getD 0
    (e.sp = .far → e.comp = none → lineBad s .far e.addr = false → memHolds .far e.addr = false →
      HappensQuietly (.postedStorePerform c i) s gone) ∧
    (e.sp = .far → e.comp = none → lineBad s .far e.addr = false → e.addr % 64 + e.data.length ≤ 64 → memHolds .far e.addr = true →
      Happens (.postedStorePerform c i) s (fun t => farRead t p e.addr e.data.length = e.data ∧
        (∀ x, (x < e.addr ∨ e.addr + e.data.length ≤ x) → farByte t p x = farByte s p x) ∧
        (∀ tg x, tg ≠ .far → readByte t tg x = readByte s tg x) ∧ SlotsSame s t ∧ gone t)) ∧
    (∀ tg, e.sp = spaceOf tg → tg ≠ .far → e.comp = none → lineBad s tg e.addr = false →
      (tg = .dev → performsLine s p c (e.addr / 64) = true) →
      (holdsKey s p tg e.addr = false → HappensQuietly (.postedStorePerform c i) s gone) ∧
      (holdsKey s p tg e.addr = true → e.addr % 64 + e.data.length ≤ 64 → Happens (.postedStorePerform c i) s (fun t => memRead t tg e.addr e.data.length = e.data ∧
        MemOutside s t tg e.addr e.data.length ∧ SlotsSame s t ∧ gone t))) ∧
    (e.sp = .dev → performsLine s p c (e.addr / 64) = false →
      exec (.postedStorePerform c i) s = .next s) ∧
    (∀ u, e.sp = .win u 0 → (getCore s u).save = .no →
      HappensQuietly (.postedStorePerform c i) s (fun t => (getCore t u).spRead e.addr e.data.length = e.data ∧
        (∀ x, (x < e.addr ∨ e.addr + e.data.length ≤ x) → sget 0 (getCore t u).sp x = sget 0 (getCore s u).sp x) ∧ gone t)) ∧
    (∀ u, e.sp = .win u 2 → (getCore s u).save = .no → (getCore s u).winBusy 2 e.addr e.data.length = true →
      exec (.postedStorePerform c i) s = .next s) ∧
    (∀ u w, e.sp = .win u w → (w = 1 ∨ w = 2) → (getCore s u).save = .no → (getCore s u).winBusy w e.addr e.data.length = false →
      Happens (.postedStorePerform c i) s (fun t => WindowStored s t u w e.addr e.data ∧ MemSame s t ∧ gone t)) ∧
    (∀ u k (r : SReg), e.sp = .win u 1 → (getCore s u).save = .no → k < 8 → r ≠ 0 → e.addr = 0x800 * k + 8 * r.val →
      e.data.length = 8 → Happens (.postedStorePerform c i) s (fun t =>
        (getSlot t u k).getS r = BitVec.ofNat 64 (leNat e.data) ∧ ∀ x, x ≠ r → (getSlot t u k).getS x = (getSlot s u k).getS x)) ∧
    (∀ o k gen, e.sp = .lease o k gen →
      LeaseStored s o k gen e.addr e.data (fun P => HappensQuietly (.postedStorePerform c i) s (fun t => P t ∧ gone t)) ∧
      (let x := sget LeaseEnt.reset (getPart s o).leases k
       (x.live = false ∨ x.gen ≠ gen) → HappensQuietly (.postedStorePerform c i) s (fun t =>
        (getPart t o).leases = (getPart s o).leases ∧ gone t))) ∧
    (∀ u b, e.sp = .win u 4 → e.addr = 64 * b → (getCore s u).save = .no → sget false (getCore s u).mbFull b = false →
      HappensQuietly (.mailboxStoreDeliver c i) s (fun t => sget false (getCore t u).mbFull b = true ∧
        sget 0 (getCore t u).mb b = BitVec.ofNat 256 (leNat (e.data.take 32)) ∧ gone t)) ∧
    (∀ u b, e.sp = .win u 4 → e.addr = 64 * b → (getCore s u).save = .no → sget false (getCore s u).mbFull b = true →
      exec (.mailboxStoreDeliver c i) s = .next s)) ∧
  (∀ (s : State) (tg : Target) (x : Nat), (memHolds tg x = false ↔ (tg = .dev ∧ 32 * 48 * 2 ^ 30 ≤ x) ∨ (tg = .far ∧ 16 * 2 ^ 40 ≤ x)) ∧
    (memHolds tg x = false → readByte s tg x = Config.absentByte (tg == .far) x)) ∧
  (∀ (s : State) (c k : Nat) (h : Hold) (n : Nat), (getSlot s c k).hold = some h → h.ans = .pending → h.op = .load n →
    let holds := fun (i : Instr) (a : Answer) => HappensQuietly i s (fun t => (getSlot t c k).hold = some { h with ans := a })
    let answers := fun (i : Instr) (d : List Byte) (bad : Bool) => holds i (.got d bad)
    let read := fun (tg : Target) => readFor s ((partOf s c).getD 0) tg h.addr n
    (∀ tg, h.sp = spaceOf tg → (h.comp = false ∨ tg ≠ .dev) →
      (tg = .dev → mayReadLine s ((partOf s c).getD 0) (h.addr / 64) = true) →
      answers (.loadReadAtTarget c k) (read tg) (lineBad s tg h.addr)) ∧
    (h.sp = .dev → mayReadLine s ((partOf s c).getD 0) (h.addr / 64) = false → holds (.loadReadAtTarget c k) (.denied .prot)) ∧
    (∀ u w, h.sp = .win u w → (getCore s u).save = .no → w ≠ 2 →
      (w = 0 → (getCore s u).spBadIn h.addr n = false ∧ (getCore s u).withholds = false) →
      answers (.windowAccessPerform c k) ((getCore s u).winRead w h.addr n) false) ∧
    (∀ u, h.sp = .win u 0 → (getCore s u).withholds = true → exec (.windowAccessPerform c k) s = .next s) ∧
    (∀ u, h.sp = .win u 2 → (getCore s u).save = .no →
      let r : Resource := .acc u (h.addr / 4096)
      let busy := (getCore s u).winBusy 2 h.addr n
      (busy = true → holds (.windowAccessPerform c k) (.wait .busy r)) ∧
      (busy = false → heldBackAt s c k h.pc r (accOwn s u (h.addr / 4096)) = false →
        answers (.windowAccessPerform c k) ((getCore s u).winRead 2 h.addr n) false))) ∧
  (∀ (s : State) (c i : Nat) (ev : List Nat) (w : Walk), (getCore s c).walks[i]? = some w →
    let found := walkTables s ((partOf s c).getD 0) (w.page * 4096)
    let gone := fun (t : State) => (getCore t c).walks = (getCore s c).walks.eraseIdx i
    (walkRuns s c w = false → exec (.pageWalkComplete c i ev) s = .next s) ∧
    (∀ e pte, walkRuns s c w = true → found = .ok e pte → lineBad s .dev pte = false →
      Happens (.pageWalkComplete c i ev) s (fun t => gone t ∧ MemOutside s t .dev pte 1 ∧
      (∃ rest, (getCore t c).utlb = { e with dirty := e.dirty || (w.write && e.w) } :: rest) ∧
      (holdsKey s ((partOf s c).getD 0) .dev pte = true → (readByte t .dev pte).toNat / 128 % 2 = 1))) ∧
    (∀ inv : Bool, walkRuns s c w = true → found = (if inv then .invalid else .prot) →
      let r := walkLineOf s ((partOf s c).getD 0) (4096 * w.page)
      HappensQuietly (.pageWalkComplete c i ev) s (fun t => gone t ∧
        (WalkFault.mk w.pc w.page r inv ∈ (getSlot t c w.slot).walkFaults ↔
          ((getSlot s c w.slot).claimAt w.pc r).isSome = true)))) ∧
  (∀ (s : State) (c i : Nat) (ev : List Nat) (f : Fill) (q x g : Nat), (getCore s c).fills[i]? = some f → f.sp = .lease q x g →
    HappensQuietly (.lineFillComplete c i ev) s (fun t => (x, g) ∈ (getCore t c).leaseAt)) ∧
  (∀ (s : State) (c i : Nat) (ev : List Nat) (f : Fill) (tg : Target), (getCore s c).fills[i]? = some f → f.sp = spaceOf tg →
    f.comp = false → f.view = false →
    let region := if tg = .dev then regionOf s ((partOf s c).getD 0) f.line else none
    let read := readFor s ((partOf s c).getD 0) tg
    (∀ e, region = some e → e.2.2.r = true) →
    HappensQuietly (.lineFillComplete c i ev) s (fun t => (getCore t c).fills = (getCore s c).fills.eraseIdx i ∧
      (∃ rest, (getCore t c).l1 = { sp := f.sp, line := f.line, view := false, data := read (64 * f.line) 64,
                                    poison := lineBad s tg (64 * f.line),
                                    tag := region.map (fun e => (e.1, e.2.1, e.2.2.counter)) } :: rest) ∧
      ∀ k h n, (getSlot s c k).hold = some h → h.ans = .pending → h.op = .load n → h.sp = f.sp → h.addr / 64 = f.line →
        h.view = false → h.addr % 64 + n ≤ 64 →
        (getSlot t c k).hold = some { h with ans := .got (read h.addr n) (lineBad s tg (64 * f.line)) }))

/-! ## Carriers -/

/-- Messages, credits, replies and link words arrive: a message enters its channel with its sender and the receipt rule, so that the
receipt's record sorts after the sending's, or returns its credit when the part has ended; a request is granted up to two free credits
or held; a reply fills an empty block only; a grant that reaches a core being saved, or saved, answers its request and goes back. A
hamper's messages to one channel of a restored core enter it in their order; no claim of a saved core is among those that hold back a
younger one; no operation of the press and no atomic in flight is left at a save; records sort by Lamport value, then by cycle within
one device, then by device, core and slot (R93, R97, R98, R105, R109, R248, R250, R255, R256, R296). -/
def Obligations.CarrierEvents : Prop :=
  (∀ (s : State) (i u x ch n : Nat) (pk : Packet), Arrives s i pk → pk.body = .creditGrant u x ch n → portOf u = none →
    (getCore s u).save ≠ .no → HappensQuietly (.creditGrantArrival i) s (fun t =>
      t.net = netWithout s i ++ [Packet.mk u 0 0 0 (.creditReturn x ch n)] ∧
      (getCore t u).credits = (getCore s u).credits ∧ (x, ch) ∉ (getCore t u).creditAsked)) ∧
  (∀ (s : State) (i u : Nat) (pk : Packet), Arrives s i pk → (getCore s u).save = .no →
    let k := getCore s u
    let gets := fun (e : Instr) (P : State → Prop) => HappensQuietly e s P
    let net := netWithout s i
    let quiet := fun (t : State) => t.net = net
    (∀ ch pay w, pk.body = .msg u ch pay w →
      (k.allEmpty = false → gets (.messageArrival i) (fun t => quiet t ∧
        (getCore t u).lamport = (if k.lamport.toNat < pk.lam.toNat then pk.lam else k.lamport) + 1 ∧
        (k.lamport.toNat + 1 < 2 ^ 64 → pk.lam.toNat + 1 < 2 ^ 64 → ∀ d e kind kind2 n n2 x x2 y y2 pc pc2 now now2,
          let rec1 := traceRecord kind n x y pc pk.lam now
          let rec2 := traceRecord kind2 n2 x2 y2 pc2 (getCore t u).lamport now2
          recordBefore d e rec1 rec2 = true ∧ recordBefore e d rec2 rec1 = false) ∧
        sget [] (getCore t u).chans ch = sget [] k.chans ch ++ [{ pay := pay, word := w, from_ := pk.src, stamp := k.cyc }])) ∧
      (k.allEmpty = true → sget [] k.chHeld ch = [] → gets (.messageArrival i) (fun t => quiet t ∧
        (getCore t u).chans = k.chans ∧ sget 4 (getCore t u).chFree ch = sget 4 k.chFree ch + 1))) ∧
    (∀ ch a, pk.body = .creditReq u ch a →
      let free := sget 4 k.chFree ch
      (free = 0 → gets (.creditRequestArrival i) (fun t => quiet t ∧
        sget [] (getCore t u).chHeld ch = sget [] k.chHeld ch ++ [a])) ∧
      (free ≠ 0 → gets (.creditRequestArrival i) (fun t => sget 4 (getCore t u).chFree ch = free - min free 2 ∧
        t.net = net ++ [Packet.mk u 0 0 0 (.creditGrant a u ch (min free 2))]))) ∧
    (∀ x ch n, pk.body = .creditGrant u x ch n → portOf u = none → k.creditsFor x ch + n ≤ 2 → k.credits.length < 8 →
      gets (.creditGrantArrival i) (fun t => quiet t ∧ (getCore t u).creditsFor x ch = k.creditsFor x ch + n ∧
        (x, ch) ∉ (getCore t u).creditAsked)) ∧
    (∀ x ch, pk.body = .creditBack u x ch → portOf u = none →
      ((∃ e ∈ k.credits, e.tgt = x ∧ e.ch = ch) → k.creditsFor x ch < 2 →
        gets (.creditReturnArrival i) (fun t => quiet t ∧ (getCore t u).creditsFor x ch = k.creditsFor x ch + 1)) ∧
      ((∀ e ∈ k.credits, e.tgt = x → e.ch = ch → e.n = 2) →
        gets (.creditReturnArrival i) (fun t => t.net = net ++ [Packet.mk u 0 0 0 (.creditReturn x ch 1)] ∧
          (getCore t u).credits = k.credits))) ∧
    (∀ ch, pk.body = .creditReturn u ch 1 →
      (sget [] k.chHeld ch = [] → gets (.creditReturnArrival i) (fun t => quiet t ∧
        sget 4 (getCore t u).chFree ch = sget 4 k.chFree ch + 1)) ∧
      (∀ a rest, sget [] k.chHeld ch = a :: rest → gets (.creditReturnArrival i) (fun t =>
        sget [] (getCore t u).chHeld ch = rest ∧ t.net = net ++ [Packet.mk u 0 0 0 (.creditGrant a u ch 1)]))) ∧
    (∀ blk pay, pk.body = .reply u blk pay →
      (k.feBit (8 * blk) = false → gets (.replyArrival i) (fun t => quiet t ∧
        (getCore t u).spRead (64 * blk) 64 = toBytes 64 pay.toNat ∧
        ∀ j, j < 8 → (getCore t u).feBit (8 * blk + j) = true)) ∧
      (k.feBit (8 * blk) = true → gets (.replyArrival i) (fun t => quiet t ∧ (getCore t u).sp = k.sp))) ∧
    (∀ d w, pk.body = .linkWord u d w → gets (.linkWordArrival i) (fun t => quiet t ∧
      sget [] (getCore t u).link d.code = sget [] k.link d.code ++ [w])) ∧
    (∀ d, pk.body = .linkCredit u d → gets (.linkCreditReturn i) (fun t => quiet t ∧
      (getCore t u).linkCredits d = k.linkCredits d + 1))) ∧
  (∀ (s : State) (c ch : Nat) (ms : List (V512 × W64 × Nat × W64)), (getCore s c).allEmpty = false →
    let pks := ms.map (fun m => Packet.mk m.2.2.1 0 0 m.2.2.2 (.msg c ch m.1 m.2.1))
    let t := deliverAll s pks
    t.net = s.net ∧ sget [] (getCore t c).chans ch = sget [] (getCore s c).chans ch ++
      ms.map (fun m => { pay := m.1, word := m.2.1, from_ := m.2.2.1, stamp := (getCore s c).cyc })) ∧
  (∀ (s : State), ∀ x ∈ claimsOf s, ∃ e ∈ s.cores, e.2.save ≠ .saved ∧ x.1 = e.1) ∧
  (∀ (s : State) (c n : Nat), (getCore s c).save = .saving →
    let k := getCore s c
    (k.pressRun ≠ none ∨ k.pressWait ≠ none ∨ k.pressEnd ≠ none ∨ ∃ g, (getSlot s c n).atom = some g ∧ g.ans = .pending) →
    exec (.preempt c) s = .next s) ∧
  (∀ (d e : Nat) (kind kind2 n n2 x x2 c c2 : Nat) (pc pc2 : VA) (lam lam2 : W64) (now now2 : Nat),
    n < 8 → n2 < 8 → x < 2 ^ 16 → x2 < 2 ^ 16 → c < 2 ^ 16 → c2 < 2 ^ 16 → kind < 256 → kind2 < 256 → now < 2 ^ 64 → now2 < 2 ^ 64 →
    (recordBefore d e (traceRecord kind n x c pc lam now) (traceRecord kind2 n2 x2 c2 pc2 lam2 now2) = true ↔
      (lam.toNat < lam2.toNat ∨ (lam = lam2 ∧ ((d = e ∧ now < now2) ∨ ((d = e → now = now2) ∧
        (d < e ∨ (d = e ∧ (c < c2 ∨ (c = c2 ∧ n < n2))))))))))

/-- Probes and steals: a probe starts along its slot's edge at its times; a core that is not blocked, or is on the path, discards
it, and a blocked one sends it on along the edge of each of its probing slots, which joins the path; back at its origin it is
dropped unless confirmed, and then every recorded slot takes DEADLOCK at its RECV. A steal takes the victim's oldest record, which
lands at the thief's tail with outcome 1, or 2 when there was none (R111, R112, R113, R123, R124, R361). -/
def Obligations.ProbeAndStealEvents : Prop :=
  (∀ (s : State) (c k u : Nat), (getSlot s c k).edge = some u →
    let d := s.cycle - (getSlot s c k).parkedAt.2
    (4096 ≤ d → (d - 4096) % 65536 = 0 → HappensQuietly (.probeSend c k) s (fun t =>
      t.net = s.net ++ [Packet.mk c k 0 0 (.probe u [(c, k, (getSlot s c k).parkedAt.1)])])) ∧
    ((d < 4096 ∨ (d - 4096) % 65536 ≠ 0) → exec (.probeSend c k) s = .next s)) ∧
  (∀ (s : State) (i u : Nat) (pk : Packet) (path : List (Nat × Nat × Nat)), Arrives s i pk → pk.body = .probe u path →
    let orig := (path.headD (noCore, 0, 0)).1
    (orig ≠ u → ((getCore s u).blocked u = false ∨ 64 ≤ path.length ∨ ∃ e ∈ path, e.1 = u) →
      HappensQuietly (.probeArrival i) s (fun t => t.net = netWithout s i)) ∧
    (orig ≠ u → (getCore s u).blocked u = true → path.length < 64 → (∀ e ∈ path, e.1 ≠ u) →
      HappensQuietly (.probeArrival i) s (fun t => t.net = netWithout s i ++ slotNums.filterMap (fun j =>
        (getSlot s u j).edge.map (fun x => Packet.mk u j 0 0 (.probe x (path ++ [(u, j, (getSlot s u j).parkedAt.1)])))))) ∧
    (orig = u → confirmed s u path = false →
      HappensQuietly (.deadlockConfirm i) s (fun t => t.net = netWithout s i)) ∧
    (orig = u → confirmed s u path = true → path.Nodup → (∀ e ∈ path, (getSlot s e.1 e.2.1).sys = false) →
      Happens (.deadlockConfirm i) s (fun t => MemSame s t ∧ ∀ e ∈ path, (getSlot t e.1 e.2.1).st = .runnable ∧
        Entered s t e.1 e.2.1 11 (getSlot s e.1 e.2.1).pc))) ∧
  (∀ (s : State) (i v th sl : Nat) (pk : Packet), Arrives s i pk → pk.body = .stealReq v th sl →
    let k := getCore s v
    let lam := (if k.lamport.toNat < pk.lam.toNat then pk.lam else k.lamport) + 2
    let answers := fun (r : Option (BitVec 256)) (head : Nat) => HappensQuietly (.stealRequestArrival i) s (fun t =>
      t.net = netWithout s i ++ [Packet.mk v 0 0 lam (.stealAns th sl r)] ∧ (getCore t v).dqHead = head ∧
      (getCore t v).dqTail = k.dqTail ∧ (getCore t v).lamport = lam)
    ((k.dqTail ≤ k.dqHead ∨ k.save ≠ .no) → answers none k.dqHead) ∧
    (k.save = .no → k.dqHead < k.dqTail → k.spBadIn (0xF800 + 32 * (k.dqHead % 64)) 32 = false →
      answers (some (BitVec.ofNat 256 (leNat (k.spRead (0xF800 + 32 * (k.dqHead % 64)) 32)))) (k.dqHead + 1))) ∧
  (∀ (s : State) (i th sl : Nat) (pk : Packet) (r : Option (BitVec 256)), Arrives s i pk → pk.body = .stealAns th sl r →
    sl < 8 →
    let k := getCore s th
    HappensQuietly (.stealAnswerLanding i) s (fun t => t.net = netWithout s i ∧
      (getSlot t th sl).stealFly = false ∧ (getCore t th).landings = k.landings - 1 ∧
      (r = none → (getSlot t th sl).stealOut = 2 ∧ (getCore t th).dqTail = k.dqTail) ∧
      ∀ v, r = some v → (getSlot t th sl).stealOut = 1 ∧ (getCore t th).dqTail = k.dqTail + 1 ∧
        (getCore t th).spRead (0xF800 + 32 * (k.dqTail % 64)) 32 = toBytes 32 v.toNat))

/-! ## The scheduler -/

/-- The scheduler takes the oldest intake entry and queues its launch, or does not; a placed node's cores each hold their part, with the
slots of the mask runnable at their entries, and none of lower priority passes one that has waited 1 ms; the last signal completes the
node, at the cycle and the clock of its receipt; a fault or the watchdog, whichever comes first, ends it and freezes the queue of its
priority, which FREEZE_CLEAR releases. The model's choices: a record is read at its address with bits 5:0 cleared (assumption 16), the
scheduler's reads leave page-table bits alone (assumption 29), and what placement sets beyond Table 5.1 (assumption 46) (R114, R116,
R121, R125, R126, R127, Table 5.1). -/
def Obligations.SchedulerEvents : Prop :=
  (∀ (s : State) (p i b : Nat) (l : Launch) (n : Node),
    nextPlacement s (getPart s p) none (readyNodes (getPart s p)) = some (l, i, n, b) →
    ∀ e ∈ readyNodes (getPart s p), e.1.prio < l.prio → e.2.2.starved = false ∧ s.cycle < e.2.2.since + 1500000) ∧
  (∀ (s : State) (p : Nat) (e : IntakeEnt) (rest : List IntakeEnt), (getPart s p).intake = e :: rest →
    (∀ x, e.src = some x → (getCore s x.1).openBefore x.2.1 x.2.2 = false) →
    let lam := fun (x : Partition) => { x with intake := rest, lamport := lamMax x.lamport e.lam }
    let s1 := wakeRes (modPart s p lam) (.intake p)
    let before := (getPart s p).launches
    ∀ d, readSound s1 p (e.addr / 64 * 64) 1 = some d →
      (∀ l, readLaunch s1 p e.q (e.addr / 64 * 64) (parseHeader d) = some l →
        HappensQuietly (.launchIntake p) s (fun t => (getPart t p).intake = rest ∧ (getPart t p).launches = before ++ [l])) ∧
      (readLaunch s1 p e.q (e.addr / 64 * 64) (parseHeader d) = none →
        Happens (.launchIntake p) s (fun t => (getPart t p).intake = rest ∧ (getPart t p).launches = before))) ∧
  (∀ (s : State) (p b i : Nat) (l : Launch) (n : Node) (d : List Byte × List Byte),
    nextPlacement s (getPart s p) none (readyNodes (getPart s p)) = some (l, i, n, b) → readImage s p n = .ok d →
    let cs := (groupPositions (l.groups.getD n.group [])).map (· + b)
    Happens (.nodePlacement p) s (fun t => MemSame s t ∧ ∀ c ∈ cs, ∃ tk, (getCore t c).task = some tk ∧ tk.q = l.q ∧
      tk.node = i ∧ (getCore t c).ended = false ∧ (getCore t c).spin = false ∧ ∀ k, k < 8 →
        let m := getSlot t c k
        (n.mask / 2 ^ k % 2 = 0 → m.st = .empty) ∧
        (n.mask / 2 ^ k % 2 = 1 → m.st = .runnable ∧ m.pc = BitVec.ofNat 48 (n.text + n.entries.getD k 0) ∧
          m.sys = false ∧ m.evec = BitVec.ofNat 48 ((getPart s p).conf.trap.toNat % 2 ^ 48) ∧ m.pgam = 0x3F800000 ∧
          m.getS 1 = BitVec.ofNat 64 n.args ∧ m.getS 2 = BitVec.ofNat 64 tk.rank ∧
          m.getS 3 = BitVec.ofNat 64 cs.length))) ∧
  (∀ (s : State) (p q j : Nat) (l : Launch) (x : Node), liveLaunch s p q = some l → l.nodes[j]? = some x →
    let now := fun (t : State) (m : Nat) (P : Node → Prop) => ∃ l2 ∈ (getPart t p).launches, l2.q = q ∧
      ∃ y, l2.nodes[m]? = some y ∧ P y
    (x.st = .ready → x.since + 1500000 ≤ s.cycle →
      HappensQuietly (.placementStarvation p q j) s (fun t => now t j (fun y => y.starved = true))) ∧
    (x.st = .ready → x.starved = false → s.cycle < x.since + 1500000 → exec (.placementStarvation p q j) s = .next s) ∧
    let late := fun (at_ : Nat) => l.watchdog ≠ 0 ∧ x.placed.1 + 1500 * l.watchdog < at_
    let quick := ∀ f ∈ (getPart s p).faults, f.task ≠ some (q, j)
    let froze := fun (t : State) => (getPart t p).frozen.getD l.prio false = true
    (x.st = .running → (∀ c ∈ x.cores, c ∈ x.signals) → quick → ¬ late x.fin.1 →
      Happens (.nodeCompletion p q j) s (fun t => now t j (fun y => y.st = .done) ∧
        ∀ m y, m ≠ j → x.succs.count m = 1 → l.nodes[m]? = some y → y.st = .waiting → y.deps = 1 →
          now t m (fun z => z.st = .ready))) ∧
    (x.st = .running → ((∃ c ∈ x.cores, c ∉ x.signals) ∨ ¬ quick) → exec (.nodeCompletion p q j) s = .next s) ∧
    let ran := if x.cores.all (fun c => x.signals.contains c) then x.fin.1 else s.cycle
    (x.st = .running → late ran → quick → (getPart s p).frozen.length = 3 → l.prio < 3 →
      Happens (.watchdogExpiry p q j) s (fun t => now t j (fun y => y.st = .watchdog) ∧ froze t) ∧
      ((∀ c ∈ x.cores, c ∈ x.signals) →
        Happens (.nodeCompletion p q j) s (fun t => now t j (fun y => y.st = .watchdog) ∧ froze t))) ∧
    (x.st = .running → (¬ late ran ∨ ¬ quick) → exec (.watchdogExpiry p q j) s = .next s) ∧
    (∀ f rest, (getPart s p).faults = f :: rest → f.task = some (q, j) →
      x.st = .running → (getPart s p).frozen.length = 3 → l.prio < 3 →
      (¬ late f.at_ → Happens (.nodeFault p) s (fun t => (getPart t p).faults = rest ∧ froze t ∧
        now t j (fun y => y.st = .faulted ∧ y.fault = some (f.slot, f.core, f.cause)))) ∧
      (late f.at_ → Happens (.nodeFault p) s (fun t => (getPart t p).faults = rest ∧ froze t ∧
        now t j (fun y => y.st = .watchdog))))) ∧
  (∀ (s : State) (c : Nat), (getCore s c).save = .no →
    ((getCore s c).ended = true → partDrained s c = true → HappensQuietly (.coreCompletionSignal c) s (fun t =>
      (getCore t c).task = none ∧ (getCore t c).ended = false)) ∧
    (((getCore s c).ended = false ∨ partDrained s c = false) → exec (.coreCompletionSignal c) s = .next s) ∧
    (∀ p tk l n, partOf s c = some p → (getCore s c).task = some tk → liveLaunch s p tk.q = some l → l.nodes[tk.node]? = some n →
      (getCore s c).ended = true → partDrained s c = true → n.st = .running → (∀ u ∈ n.cores, u = c ∨ u ∈ n.signals) →
      HappensQuietly (.coreCompletionSignal c) s (fun t => ∃ l2 ∈ (getPart t p).launches, l2.q = tk.q ∧
        ∃ m, l2.nodes[tk.node]? = some m ∧ m.signals = n.signals ++ [c] ∧
          m.fin = (s.cycle, lamMax (getPart s p).lamport ((getCore s c).lamport + 1))))) ∧
  (∀ (s : State) (p i : Nat) (mask : BitVec 3), i < (getPart s p).frozen.length →
    HappensQuietly (.freezeClear p mask) s (fun t => (getPart t p).frozen.getD i false =
      ((getPart s p).frozen.getD i false && !mask.getLsbD i)))

/-! ## The press behind the instructions -/

/-- The press and the engines at work: setup reads the header planes, each plane is read once, and the end writes the tile; shares and
steps of other cores enter, run and report; an engine trap is taken in its slot; ACCLD, ACCST and forwards take effect. The
model's choices: an engine trap of a parked slot saves the PC where it stands (assumption 15), and a start that waits for the
slot's earlier work leaves the operation where it is (assumption 68)
(R185, R191, R194, R195, R197, R201 to R204, R331, R332, R335, R350). -/
def Obligations.PressEvents : Prop :=
  (∀ (s : State) (c : Nat) (o : PressOp), (getCore s c).halted = false →
    let k := getCore s c
    let h := o.fmt.headBytes
    let off := h + 128 * o.mags.length
    (k.pressRun = none → k.pressWait = some o → pressWaits s c o = false → k.spBadIn o.a h = false → k.spBadIn o.b h = false →
      HappensQuietly (.pressOpStart c) s (fun t => (getCore t c).pressWait = none ∧
        (getCore t c).pressRun = some { o with heads := some (k.spRead o.a h, k.spRead o.b h) })) ∧
    (k.pressRun = some o → o.heads = none → pressWaits s c o = false → k.spBadIn o.a h = false → k.spBadIn o.b h = false →
      HappensQuietly (.pressOpStart c) s (fun t => (getCore t c).pressWait = k.pressWait ∧
        (getCore t c).pressRun = some { o with heads := some (k.spRead o.a h, k.spRead o.b h) })) ∧
    (k.pressRun = some o → o.heads = none → pressWaits s c o = true →
      HappensQuietly (.pressOpStart c) s (fun t => (getCore t c).pressRun = some o)) ∧
    (k.pressRun = some o → k.pressEnd = none → o.heads.isSome = true → o.mags.length < o.planes →
      k.spBadIn (o.a + off) 128 = false → k.spBadIn (o.b + off) 128 = false →
      HappensQuietly (.pressPlaneRead c) s (fun t => (getCore t c).pressRun =
        some { o with mags := (k.spRead (o.a + off) 128, k.spRead (o.b + off) 128) :: o.mags })) ∧
    (k.pressEnd = some o → HappensQuietly (.pressOpComplete c) s (fun t => (getCore t c).pressEnd = none ∧
      (∀ e, e < 1024 → (getCore t c).accElt o.acc e = (pressTile o (k.tile o.acc)).getD e 0) ∧
      ∀ x, (x < 1024 * o.acc ∨ 1024 * o.acc + 1024 ≤ x) → sget 0 (getCore t c).acc x = sget 0 k.acc x))) ∧
  (∀ (s : State) (c i m : Nat) (tc : TrapCause), (getCore s c).engTraps[i]? = some (some m, tc) → (getCore s c).save = .no →
    (getSlot s c m).trapable = true → (getSlot s c m).sys = false →
    Happens (.engineTrapDelivery c i) s (fun t => MemSame s t ∧ Entered s t c m tc.code (getSlot s c m).pc ∧
      (getSlot t c m).st = .runnable ∧ (getCore t c).engTraps = (getCore s c).engTraps.eraseIdx i)) ∧
  (∀ (s : State) (i u : Nat) (pk : Packet), Arrives s i pk → (getCore s u).save = .no →
    let k := getCore s u
    (∀ h, pk.body = .share u h →
      (h.outside = false → h.count ≠ 0 → k.takesShare h = true → HappensQuietly (.pgrpShareArrival i) s (fun t =>
        t.net = netWithout s i ∧ (getCore t u).shareQ = k.shareQ ++ [h])) ∧
      (h.outside = false → h.count ≠ 0 → k.takesShare h = false → exec (.pgrpShareArrival i) s = .next s) ∧
      (h.outside = true → canReport s h = true → (getCore s h.issuer).spBadIn h.rcd 32 = false →
        HappensQuietly (.pgrpShareArrival i) s (fun t =>
        (getCore t u).engTraps = k.engTraps ++ [(none, .prot)] ∧ (getCore t u).shareQ = k.shareQ))) ∧
    (∀ st, pk.body = .pcmd u st → HappensQuietly (.pcmdStepArrival i) s (fun t => t.net = netWithout s i ∧
      (getCore t u).cmdQ = k.cmdQ ++ [st])) ∧
    (∀ a, pk.body = .countInc u a 1 → k.spBadIn a 4 = false → k.spBadIn (a + 8) 1 = false →
      HappensQuietly (.pcmdStepEnd i) s (fun t => t.net = netWithout s i ∧
      leNat ((getCore t u).spRead a 4) = min (leNat (k.spRead a 4) + 1) (2 ^ 32 - 1))) ∧
    (∀ f, pk.body = .forward u f → f.tile.length = 1024 →
      (k.takesForward f = true → HappensQuietly (.seamForwardArrival i) s (fun t => t.net = netWithout s i ∧
        (∀ e, e < 1024 → (getCore t u).accElt f.acc e = f.tile.getD e 0) ∧
        (getCore t u).feBit ((0xF7C0 + 8 * f.acc) / 8) = true ∧
        (getCore t u).spRead (0xF7C0 + 8 * f.acc) 8 = toBytes 8 f.src)) ∧
      (k.takesForward f = false → exec (.seamForwardArrival i) s = .next s))) ∧
  (∀ (s : State) (c i : Nat) (h : Share), (getCore s c).shareQ[i]? = some h → (h.failed = true ∨ h.count ≤ h.next) →
    (∀ o, some o ∈ [(getCore s c).pressEnd, (getCore s c).pressRun, (getCore s c).pressWait] → o.ofShare h = false) →
    (getCore s h.issuer).save = .no → (getCore s h.issuer).spBadIn h.rcd 32 = false → h.rank < 64 →
    let word := fun (t : State) (o n : Nat) => leNat ((getCore t h.issuer).spRead (h.rcd + o) n)
    let map := if h.failed then 24 else 16
    HappensQuietly (.pgrpShareEnd c i) s (fun t => (getCore t c).shareQ = (getCore s c).shareQ.eraseIdx i ∧
      word t 0 4 = min (word s 0 4 + 1) (2 ^ 32 - 1) ∧ word t map 8 / 2 ^ h.rank % 2 = 1 ∧
      ∀ r, r ≠ h.rank → word t map 8 / 2 ^ r % 2 = word s map 8 / 2 ^ r % 2)) ∧
  (∀ (s : State) (c i : Nat) (o : AccOp), (getCore s c).accOps[i]? = some o →
    let d := o.data.take 64
    (o.load = true → HappensQuietly (.accEngineComplete c i) s (fun t =>
      (getCore t c).accOps = (getCore s c).accOps.eraseIdx i ∧
      (∀ e, e < 1024 → (getCore t c).accElt o.acc e = BitVec.ofNat 32 (leNat ((o.data.drop (4 * e)).take 4))) ∧
      ∀ x, (x < 1024 * o.acc ∨ 1024 * o.acc + 1024 ≤ x) → sget 0 (getCore t c).acc x = sget 0 (getCore s c).acc x)) ∧
    (o.load = false → o.core = c → HappensQuietly (.accEngineComplete c i) s (fun t =>
      (getCore t c).accOps = (if o.data.length ≤ 64 then (getCore s c).accOps.eraseIdx i
        else (getCore s c).accOps.set i { o with addr := o.addr + 64, data := o.data.drop 64 }) ∧
      (getCore t c).acc = (getCore s c).acc ∧ (getCore t c).spRead o.addr d.length = d ∧
      (∀ x, (x < o.addr ∨ o.addr + d.length ≤ x) → sget 0 (getCore t c).sp x = sget 0 (getCore s c).sp x) ∧
      (o.fill = true → d ≠ [] → ∀ w, o.addr / 8 ≤ w → 8 * w < o.addr + d.length → (getCore t c).feBit w = true)))) ∧
  (∀ (s : State) (c i : Nat) (b : SeamBusy), (getCore s c).seamBusy[i]? = some b →
    ((getCore s c).openBefore b.slot b.after = false → HappensQuietly (.seamOwnBusyEnd c i) s (fun t =>
      (getCore t c).seamBusy = (getCore s c).seamBusy.eraseIdx i)) ∧
    ((getCore s c).openBefore b.slot b.after = true → exec (.seamOwnBusyEnd c i) s = .next s))

/-! ## Gears, temperature, wear -/

/-- Governor and sensors: a served restore request of a core that is not saved is granted; a window keeps the grants of 1,500
mesh cycles, and a new limit revokes no unit; autosoak drops a core whose conditions have held for 3,000 mesh cycles; a hot
core with a target starts to move to the one preferred (own bay, lowest reading, lowest number), without one drops to SOAK until
it cools to 95 °C; an error on an undervolted row pins it and traps MEMUE. A restore request of a core that is being saved, or saved,
is not granted: the model's choice (assumption 69). That no stack has a number of 32 or more is assumption 9, and a mesh tick as a turn of
the agenda assumption 1 (R91, R229, R230, R232 to R237). -/
def Obligations.GearAndWearEvents : Prop :=
  (∀ (s : State) (c : Nat) (cl : Claim), (getCore s c).restoreReq = some cl →
    ((getCore s c).save = .no → governorServes s c (some cl) = true → HappensQuietly (.restoreRequestGrant c) s (fun t =>
      (getCore t c).spin = true ∧ (getCore t c).restoreReq = none)) ∧
    (((getCore s c).save ≠ .no ∨ governorServes s c (some cl) = false) → exec (.restoreRequestGrant c) s = .next s)) ∧
  (∀ (s : State) (d n : Nat),
    let same := fun (t : State) => ∀ c, (getCore t c).spin = (getCore s c).spin
    HappensQuietly (.transitionWindowClose d) s (fun t => (getGov t d).window =
      (getGov s d).window.filter (fun e => decide (s.cycle < e.2 + 1500)) ∧ same t) ∧
    HappensQuietly (.unitLimitSet d n) s (fun t => (getGov t d).limit = n ∧ same t)) ∧
  (∀ (s : State) (rest : List Turn), s.agenda = .meshTick :: rest → ∃ t, step s = .next t ∧ t.cycle = s.cycle + 1 ∧
    ∀ c, (getCore t c).calm = if (getCore s c).mayDrop then (getCore s c).calm + 1 else 0) ∧
  (∀ (s : State) (c : Nat), (getCore s c).calm < 3000 → exec (.autosoakDrop c) s = .next s) ∧
  (∀ (s : State) (c : Nat),
    let k := getCore s c
    k.spin = true → k.gearEff = true → k.autosoak = true → k.save = .no → k.pressEnd = none → k.pressRun = none →
    k.pressWait = none → k.copies = [] → 3000 ≤ k.calm →
    ((∀ e ∈ k.slots, e.2.st = .empty ∨ ∃ u, e.2.st = .parked u) →
      (∃ e ∈ k.slots, ∃ p h w, e.2.st = .parked (.res (.barrier p h) w)) →
      HappensQuietly (.autosoakDrop c) s (fun t => (getCore t c).spin = false)) ∧
    ((∃ e ∈ k.slots, e.2.st = .runnable) → exec (.autosoakDrop c) s = .next s)) ∧
  (∀ (s : State) (c p : Nat) (temps : List (Nat × Nat)), partOf s c = some p →
    let s1 := readJunctions s temps
    let near := fun (e : Nat × Nat) => bayOf e.2 = bayOf (pcnOf s c)
    let reads := fun (e : Nat × Nat) => sget 0 s1.junction e.2
    105 < sget 0 s1.junction (pcnOf s c) →
    (ventTargets s1 p c = [] → (∀ e ∈ (getPart s p).moves, e.1 ≠ c) → HappensQuietly (.ventForceSoak c temps) s (fun t =>
      pcnOf s c ∈ t.forced ∧ (getCore t c).spin = false ∧ (getCore t c).restoreReq = (getCore s c).restoreReq)) ∧
    ((ventTargets s1 p c ≠ [] ∨ ∃ e ∈ (getPart s p).moves, e.1 = c) → HappensQuietly (.ventForceSoak c temps) s (fun t =>
      t.forced = s1.forced ∧ (getCore t c).spin = (getCore s c).spin)) ∧
    ((getCore s c).save = .no → (∀ e ∈ (getPart s p).moves, e.1 ≠ c) → ventTargets s1 p c ≠ [] →
      HappensQuietly (.vent c temps) s (fun t => (getCore t c).preReq = true ∧
        ∃ v ∈ ventTargets s1 p c, (getPart t p).moves = (getPart s p).moves ++ [(c, v.2)] ∧
          ∀ w ∈ ventTargets s1 p c, (near w → near v) ∧
            ((near v ↔ near w) → reads v ≤ reads w ∧ (reads v = reads w → v.2 ≤ w.2))))) ∧
  (∀ (s : State) (c temp : Nat), temp ≤ 95 → HappensQuietly (.junctionCooled c temp) s (fun t =>
    pcnOf s c ∉ t.forced)) ∧
  (∀ (s : State) (v : Nat) (bad : List (Nat × Nat)),
    let row := fun (t : State) => sget RowGauge.reset t.rows v
    HappensQuietly (.marginReplan v) s (fun t => (row t).pinned = false ∧ (row t).rail = 0) ∧
    ((row s).pinned = false → HappensQuietly (.sramRailStep v bad) s (fun t => (row t).rail = (row s).rail + 1)) ∧
    ((row s).pinned = true → exec (.sramRailStep v bad) s = .next s)) ∧
  (∀ (s : State) (c k : Nat), (sget RowGauge.reset s.rows (coreRow s c)).rail ≠ 0 → (getCore s c).cyc % 8 = k →
    (getCore s c).save = .no → (getCore s c).preReq = false → (getSlot s c k).st = .runnable →
    (getSlot s c k).stopReq = false → (getSlot s c k).sys = false →
    Happens (.rowUncorrectableError c k) s (fun t => Entered s t c k 10 (getSlot s c k).pc ∧
      sget RowGauge.reset t.rows (coreRow s c) = { pinned := true, rail := 0 })) ∧
  (∀ (s : State) (stack temp : Nat), 95 ≤ temp →
    (stack < 32 → Happens (.lpddrThermalThreshold stack temp) s (fun t =>
      sget (false, false) t.lpddr stack = (true, true))) ∧
    (32 ≤ stack → exec (.lpddrThermalThreshold stack temp) s = .next s))

/-! ## Pre-emption, restore, reloads, debugging -/

/-- PREEMPT asks a core out of issue and, once drained, saves it; RESTORE of a readable image brings it back with its PCs; SAVE_CANCEL
ends a save whose node is over, which is not restored. A reload makes a palette slot's next generation, an invalidation leaves no
translation of its page, and a write-back behind its slot's stores ends its range. Under an open port a slot stops, resumes and steps,
and the debugger reads and writes registers of a stopped slot and idle accumulators, its store held at a busy accumulator, behind what is
so held, and diverted to the hamper at a saved core (R131, Table 19.2); a closed one does nothing, and on a saved core nothing resumes. A
restore waits where its area has no translation, and a core is saved although its image could not be written (assumption 73); an image
with a poisoned line is loaded as it reads (assumption 84). The model's own: what a debugger reaches (assumption 53), its reads and
writes as turns (assumption 82), the byte order of a palette (assumption 38), and reads of the controllers that set no accessed bit
(assumption 29) (R44, R144, R219, R221, R246, R247, R250, R251, R253, R266). -/
def Obligations.SaveReloadDebugEvents : Prop :=
  (∀ (s : State) (c p : Nat), partOf s c = some p →
    let k := getCore s c
    let img := vreadLines s p (saveAreaOf (getPart s p) c) (0x1B800 / 64)
    (k.save = .no → HappensQuietly (.preempt c) s (fun t => (getCore t c).preReq = true)) ∧
    (k.save = .saving → saveDrained s c = true → cancelled s c = false → Happens (.preempt c) s (fun t =>
      (getCore t c).save = .saved ∧ (getCore t c).l1 = [] ∧ (getCore t c).utlb = [] ∧ (getCore t c).dq = [] ∧
      (getCore t c).chans = [] ∧ (getCore t c).cmdQ = [] ∧ (getCore t c).shareQ = [] ∧ SlotsSame s t)) ∧
    (k.save = .saving → (saveDrained s c = false ∨ cancelled s c = true) → exec (.preempt c) s = .next s) ∧
    (k.save = .saved → exec (.preempt c) s = .next s) ∧
    (k.save = .saved → (img = none ∨ cancelled s c = true) → exec (.restore c) s = .next s) ∧
    (∀ d, k.save = .saved → cancelled s c = false → img = some d → Happens (.restore c) s (fun t => (getCore t c).save = .no ∧
      ((∀ v, (sget RowGauge.reset s.rows v).rail = 0) → MemSame s t) ∧
      ∀ n, n < 8 → (getSlot t c n).pc = BitVec.ofNat 48 (leNat ((d.1.drop (0x18400 + 0x640 * n + 0x500)).take 6)))) ∧
    (k.save ≠ .no → cancelled s c = true → Happens (.saveCancel c) s (fun t =>
      (getCore t c).save = .no ∧ (getCore t c).ended = true ∧ MemSame s t)) ∧
    (nodeRuns s c = true → exec (.saveCancel c) s = .next s)) ∧
  (∀ (s : State) (p i : Nat) (r : DictReq), nextReload s (getPart s p) = some (i, r) →
    let pal := fun (t : State) => sget Palette.reset (getPart t p).pal r.slot
    let gone := fun (t : State) => (getPart t p).dicts = (getPart s p).dicts.eraseIdx i
    (∀ d, reloadRead s p r.addr = .ok d → HappensQuietly (.paletteReload p) s (fun t => gone t ∧
      pal t = { gen := ((pal s).gen + 1) % 4, cur := BitVec.ofNat 128 (leNat d), prev := (pal s).cur })) ∧
    (∀ e, reloadRead s p r.addr = .error e → Happens (.paletteReload p) s (fun t => gone t ∧ pal t = pal s))) ∧
  (∀ (s : State) (p : Nat) (r : InvReq) (rest : List InvReq), (getPart s p).invs = r :: rest →
    HappensQuietly (.xlinvComplete p) s (fun t => (getPart t p).invs = rest ∧
      ∀ c, (getPart s p).owns c = true → (∀ e ∈ (getCore t c).utlb, r.hits e = false ∧ e ∈ (getCore s c).utlb) ∧
        ∀ n, ∀ e ∈ (getSlot t c n).gathered, r.hits e.2 = false)) ∧
  (∀ (s : State) (c k base len m : Nat) (rest : List (Nat × Nat × Nat)), (getSlot s c k).dcf = (base, len, m) :: rest →
    let fenced := fencedLine s ((partOf s c).getD 0) base len
    let walked := fun (x : Nat) => ∃ v e, base / 4096 ≤ v ∧ 4096 * v < base + len ∧
      walkTables s ((partOf s c).getD 0) (4096 * v) = .ok e x
    ((∀ e ∈ (getCore s c).psb, e.slot = k → e.id < m → e.sp = .dev → fenced (e.addr / 64) = false) →
      Happens (.dcfenceWriteback c k) s (fun t => SlotsSame s t ∧ (getSlot t c k).dcf = rest ∧
        (∀ u, ∀ e ∈ (getCore t u).l1, e.sp = .dev → fenced e.line = false) ∧
        (∀ tg x, (tg = .dev → ¬ walked x) → readByte t tg x = readByte s tg x) ∧
        ∀ x, walked x → lineBad s .dev x = false → holdsKey s ((partOf s c).getD 0) .dev x = true →
          (readByte t .dev x).toNat / 128 % 2 = 1)) ∧
    ((∃ e ∈ (getCore s c).psb, e.slot = k ∧ e.id < m ∧ e.sp = .dev ∧ fenced (e.addr / 64) = true) →
      exec (.dcfenceWriteback c k) s = .next s)) ∧
  (∀ (s : State) (c u off n : Nat) (d : List Byte) (rest : List Turn),
    let s0 := { s with agenda := rest, turns := s.turns + 1 }
    let reaches := c < 40960 ∧ (s.kaz.life = .manufacture ∨ s.kaz.life = .debug) ∧ (getCore s c).save = .no
    (s.agenda = .debugRead c u off n :: rest → step s = .next (if debugReaches s c u off n then
      { s0 with hostReply := (getCore s c).winRead u off n } else s0)) ∧
    let ahead := fun (u : Nat) => ∃ e ∈ (getCore s c).psb, e.slot = 8 ∧ e.sp = .win c u
    let held : Posted := { id := (getCore s c).nextId, slot := 8, sp := .win c u, addr := off, data := d, rel := false,
                           red := none, comp := none }
    (s.agenda = .debugWrite c u off d :: rest → debugStores s c u off d.length = false → step s = .next s0) ∧
    (s.agenda = .debugWrite c u off d :: rest → debugStores s c u off d.length = true →
      ((ahead u ∨ ((getCore s c).save = .no ∧ (getCore s c).winBusy u off d.length = true) ∨
          ((getCore s c).save ≠ .no ∧ hamperFull s ((partOf s c).getD 0) = true)) →
        ∃ t, step s = .next t ∧ (getCore t c).psb = (getCore s c).psb ++ [held] ∧ SlotsSame s t ∧ MemSame s t) ∧
      (¬ ahead u → (getCore s c).save ≠ .no → hamperFull s ((partOf s c).getD 0) = false →
        ∃ t, step s = .next t ∧ SlotsSame s t ∧ MemSame s t ∧ (getPart t ((partOf s c).getD 0)).hamper =
          (getPart s ((partOf s c).getD 0)).hamper ++ [Packet.mk c 8 0 0 (.winWrite c u off d false)])) ∧
    (∀ (k : Nat) (r : SReg), k < 8 → reaches → ¬ ahead 1 → (∃ x, (getSlot s c k).st = .stopped x) → d.length = 8 →
      s.agenda = .debugWrite c 1 (0x800 * k + 8 * r.val) d :: rest → ∃ t, step s = .next t ∧
        ∀ x : SReg, (getSlot t c k).getS x = if x = r ∧ r ≠ 0 then BitVec.ofNat 64 (leNat d) else (getSlot s c k).getS x) ∧
    (∀ e, e < 8192 → reaches → ¬ ahead 2 → (getCore s c).accBusy (e / 1024) = false → d.length = 4 →
      s.agenda = .debugWrite c 2 (4 * e) d :: rest → ∃ t, step s = .next t ∧
        ∀ x, sget 0 (getCore t c).acc x = if x = e then BitVec.ofNat 32 (leNat d) else sget 0 (getCore s c).acc x)) ∧
  (∀ (s : State) (c k : Nat), c < 40960 → k < 8 →
    let stop := (getSlot s c k).st
    let closed := s.kaz.life ≠ .manufacture ∧ s.kaz.life ≠ .debug
    (closed → ∀ i ∈ [Instr.debugStop c k, .debugResume c k, .debugStep c k], exec i s = .next s) ∧
    (¬ closed → HappensQuietly (.debugStop c k) s (fun t => (getSlot t c k).stopReq = true)) ∧
    ((getCore s c).save = .saved → ∀ i ∈ [Instr.debugResume c k, .debugStep c k], exec i s = .next s) ∧
    (¬ closed → (getCore s c).save ≠ .saved → ∀ u, stop = .stopped u →
      let goes := fun (t : State) => (getSlot t c k).st = (match u with | none => .runnable | some x => .parked x)
      HappensQuietly (.debugResume c k) s (fun t => goes t) ∧
      HappensQuietly (.debugStep c k) s (fun t => goes t ∧ (getSlot t c k).stepping = true)))

/-! ## Host, controller, ports -/

/-- The host port and the control page: a window access is refused for the first of its six causes in the port's order; a write that
passes its checks changes exactly its bytes, a read leaves its bytes as the answer, memory under another partition's key stays (R2, R265;
assumption 70), neither changes an L1 or a TLB, nor an accessed or dirty bit (the model's choice, assumption 29), and a copy of a written
line that stands in an L1 serves no plain load any more (R177; how R258 goes with it is assumption 90); a failed access is counted and
answers ones; the doorbell enters the intake or sets overflow; a commit takes the staged block, or names the first of the four reasons
that refuses it (which of several is assumption 54); a block lands at the port's next free place, and one held is tried at the next
arrival (assumption 55) (R176, R177, R205, R251, R254, R257 to R263). -/
def Obligations.HostPortEvents : Prop :=
  ∀ (s : State) (p : Nat), (getPart s p).live = true →
    let part := fun (t : State) => getPart t p
    (∀ n off len (write : Bool),
      let r := (sget 0 (part s).wins n).toNat
      let va := r / 2 ^ 16 % 2 ^ 32 * 65536 + off
      let view := viewBit va
      let check := windowCheck s p n off len write
      let c1 := r % 2 = 0 ∨ r / 2 ^ 64 % 2 ^ 20 * 65536 ≤ off
      let c5 := write = true ∧ view = true
      let valid := fun (e : TlbEntry) => va < 2 ^ 48 ∧ (∃ pte, walkTables s p (plainVa va) = .ok e pte) ∧ e.tgt = .dev ∧
        (view = true → e.comp = true)
      (c1 → check = .error 1) ∧ (¬ c1 → c5 → check = .error 5) ∧
      (¬ c1 → ¬ c5 → (∀ e, ¬ valid e) → check = .error 2) ∧
      (∀ e, ¬ c1 → ¬ c5 → valid e →
        let c3 := e.r = false ∨ (write = true ∧ (e.w = false ∨ r / 2 % 2 = 0))
        let c4 := write = true ∧ regionOf s p (e.phys (plainVa va) / 64) ≠ none
        let c6 := (homeRead s p .dev e.comp view (e.phys (plainVa va)) len).2 = true
        (c3 → check = .error 3) ∧ (¬ c3 → c4 → check = .error 4) ∧ (¬ c3 → ¬ c4 → c6 → check = .error 6) ∧
        (¬ c3 → ¬ c4 → ¬ c6 → check = .ok e))) ∧
    (let f := (part s).staged
     let s1 := modPart s p (fun t => { t with conf := f })
     let mapped := fun (va len : Nat) => va + len ≤ 2 ^ 48 ∧ ∀ x, va ≤ x → x < va + len →
       viewBit (4096 * (x / 4096)) = false ∧ ∃ e pte, walkTables s1 p (4096 * (x / 4096)) = .ok e pte ∧ e.tgt = .dev ∧
         e.r = true ∧ e.w = true
     let live := (∃ l ∈ (part s).launches, l.live = true) ∨ ∃ e ∈ s.cores, (part s).owns e.1 = true ∧ e.2.save = .saved
     let aligned := f.trap.toNat % 4 = 0 ∧ f.handles.toNat % 64 = 0 ∧ f.save.toNat % 65536 = 0
     let placed := mapped (f.handles.toNat % 2 ^ 48) 65536 ∧ mapped (f.save.toNat % 2 ^ 48) (0x1C000 * (256 * (part s).bays.length)) ∧
       mapped (f.hamper.toNat / 2 ^ 16 % 2 ^ 32 * 65536) (f.hamper.toNat / 2 ^ 48 * 65536) ∧
       mapped (f.trace.toNat / 2 ^ 5 % 2 ^ 43 * 32) (f.trace.toNat / 2 ^ 48 * 32)
     let root := pairOf (f.root.toNat / 2 ^ 12 % 2 ^ 40 * 4096 / 64) ∈ (part s).chans
     (live → commitRefusal s p = 1) ∧ (¬ live → ¬ (aligned ∧ placed) → commitRefusal s p = 2) ∧
     (¬ live → aligned → placed → ¬ root → commitRefusal s p = 3) ∧
     (¬ live → aligned → placed → root → f.hamper.toNat / 2 ^ 48 < 4 → commitRefusal s p = 4) ∧
     (¬ live → aligned → placed → root → 4 ≤ f.hamper.toNat / 2 ^ 48 → commitRefusal s p = 0)) ∧
    (∀ n off len e, let va := (sget 0 (part s).wins n).toNat / 2 ^ 16 % 2 ^ 32 * 65536 + off
      n < 4 → 1 ≤ len → va % 64 + len ≤ 64 →
      (∀ d, d.length = len → windowCheck s p n off len true = .ok e → e.comp = false →
        Happens (.hostWindowAccess p n off len (some d)) s (fun t =>
          (holdsKey s p .dev (e.phys va) = false → t = s) ∧
          (holdsKey s p .dev (e.phys va) = true → memRead t .dev (e.phys va) len = d ∧
            MemOutside s t .dev (e.phys va) len ∧ SlotsSame s t ∧ t.rowTlb = s.rowTlb ∧
            ∀ c, (getCore t c).l1 = (getCore s c).l1 ∧ (getCore t c).utlb = (getCore s c).utlb ∧
              (getCore t c).l1Find .dev (e.phys va / 64) false = none))) ∧
      (∀ d cause, windowCheck s p n off len true = .error cause →
        HappensQuietly (.hostWindowAccess p n off len (some d)) s (fun t =>
          (part t).winErrs = min ((part s).winErrs + 1) (2 ^ 64 - 1))) ∧
      (windowCheck s p n off len false = .ok e → e.comp = false → va < 2 ^ 46 →
        HappensQuietly (.hostWindowAccess p n off len none) s (fun t => t.hostReply = devRead s p (e.phys va) len)) ∧
      (∀ cause, windowCheck s p n off len false = .error cause →
        HappensQuietly (.hostWindowAccess p n off len none) s (fun t => t.hostReply = List.replicate len 0xFF ∧
          (part t).winErrs = min ((part s).winErrs + 1) (2 ^ 64 - 1)))) ∧
    HappensQuietly (.windowErrorCountRead p) s (fun t => t.hostReply = toBytes 8 (part s).winErrs ∧ (part t).winErrs = 0) ∧
    HappensQuietly (.traceDropCountRead p) s (fun t => t.hostReply = toBytes 8 (part s).drops ∧ (part t).drops = 0) ∧
    (∀ addr : BitVec 64,
      ((part s).intake.length < 64 → HappensQuietly (.launchDoorbell p addr) s (fun t =>
        (part t).intake = (part s).intake ++ [IntakeEnt.mk (addr.toNat % 2 ^ 48) (part s).seq (s.hostLam + 1) none] ∧
        (part t).seq = ((part s).seq + 1) % 2 ^ 32 ∧ t.hostLam = s.hostLam + 1)) ∧
      (64 ≤ (part s).intake.length → HappensQuietly (.launchDoorbell p addr) s (fun t =>
        (part t).intake = (part s).intake ∧ (part t).overflow = true))) ∧
    (commitRefusal s p = 0 → HappensQuietly (.configCommit p 1) s (fun t => (part t).conf = (part s).staged ∧
      (part t).committed = true ∧ (part t).refusedCommit = 0)) ∧
    (commitRefusal s p ≠ 0 → HappensQuietly (.configCommit p 1) s (fun t => (part t).conf = (part s).conf ∧
      (part t).committed = (part s).committed ∧ (part t).refusedCommit = commitRefusal s p)) ∧
    (∀ v : BitVec 128,
      HappensQuietly (.controlPageWrite p .intakeOverflow v) s (fun t =>
        (part t).overflow = ((part s).overflow && !v.getLsbD 8)) ∧
      HappensQuietly (.controlPageWrite p (.config 0x208) v) s (fun t =>
        (part t).staged.trap = BitVec.ofNat 64 (v.toNat % 2 ^ 48) ∧ (part t).conf = (part s).conf) ∧
      HappensQuietly (.controlPageWrite p .eventTail v) s (fun t => (part t).evTail = BitVec.ofNat 32 (v.toNat / 2 ^ 32)) ∧
      ∀ c k, c < 40960 → k < 8 → s.kaz.life = .debug →
        HappensQuietly (.controlPageWrite p (.catchBit c k) v) s (fun t => (getSlot t c k).catchBkpt = v.getLsbD 0)) ∧
    (∀ port share, port < 4 → HappensQuietly (.expanderReportsThrottling port share) s (fun t =>
      sget 100 t.cxlShare port = share)) ∧
    (∀ j routes, portPart s j = some p → HappensQuietly (.routeTableWrite j routes none) s (fun t =>
      (getPort t j).routes = routes)) ∧
    (∀ j idx red blk head rest, portPart s j = some p → (getPort s j).held ++ [(idx, red, blk)] = head :: rest →
      let u := lcnAt s (gatewayCore j (head.1 % 4))
      let ring := sget (0, 0) (getPort s j).rings (head.1 % 4)
      (ringNext s j (head.1 % 4) u = none →
        HappensQuietly (.gatewayBlockArrival j idx red blk) s (fun t => (getPort t j).held = head :: rest ∧ t.net = s.net)) ∧
      (∀ n, ringNext s j (head.1 % 4) u = some n → creditsIn (getPort s j).credits u 7 ≠ 0 → (getCore s u).save = .no →
        HappensQuietly (.gatewayBlockArrival j idx red blk) s (fun t => (getPort t j).held = rest ∧
          (getCore t u).spRead (ring.1 + 64 * n) 64 = toBytes 64 head.2.2.toNat ∧
          (∀ w, w < 8 → (getCore t u).feBit (ring.1 / 8 + 8 * n + w) = true) ∧
          creditsIn (getPort t j).credits u 7 = creditsIn (getPort s j).credits u 7 - 1 ∧
          ∃ lam pay w, t.net = s.net ++ [Packet.mk (portId j) 0 0 lam (.msg u 7 pay w)])))

/-- The Kazcia controller: a partition comes to be alone with what it asked for, under a key of its own, which its channel pairs have and
no other, and another partition's far bytes do not come out in the clear; a request that names a bay, slice, channel pair, port or
expander twice makes none; and its tear-down leaves its cores empty and reports it; an
image that fails is not run; a lifecycle write moves by Table 20.3 and does nothing outside it; an alarm tears every partition down; a
report carries the nonce and the measurement; an unlock opens the port only from DEPLOYED. The model's choices: a partition's key and the
record of a tear-down (assumption 57), scratchpads emptied there (assumption 56), requests that are turned away do nothing (assumption
58), and keyProvision as a turn (assumption 82) (R264 to R269). -/
def Obligations.ControllerEvents : Prop :=
  ∀ (s : State),
    (∀ (p : Nat) (bays slices chans ports : List Nat) (cxl : List (Nat × Nat)), p < 16 → (getPart s p).live = false → partitionsRun s = true →
      (partitionOk s bays slices chans ports cxl = true →
        Happens (.partitionCreate p bays slices chans ⟨ports, cxl⟩) s (fun t => SlotsSame s t ∧ (getPart t p).live = true ∧
          (getPart t p).bays = bays ∧ (getPart t p).slices = slices ∧ (getPart t p).chans = chans ∧
          (getPart t p).ports = ports ∧ (∀ q, q ≠ p → getPart t q = getPart s q) ∧
          (∀ e ∈ cxl, sget 0 (getPart t p).cxl e.1 = e.2) ∧
          (∀ x, pairOf (x / 64) ∉ chans → readByte t .dev x = readByte s .dev x) ∧
          (∀ x, pairOf (x / 64) ∈ chans → memHolds .dev x = true → holdsKey t p .dev x = true ∧
            ∀ q, q ≠ p → (getPart s q).keyNo ≠ s.keys + 1 → holdsKey t q .dev x = false) ∧
          (getPart t p).keyNo = s.keys + 1 ∧ t.keys = s.keys + 1 ∧
          (∀ x, (∀ q, q ≠ p → farByte t q x = farByte s q x) ∧
            farByte t p x = readByte s .far x + (if sget 0 s.farMark (x / 64) = s.keys + 1 then 0
              else Config.farCipher (sget 0 s.farMark (x / 64)) (s.keys + 1) x)) ∧
          (∀ x, readByte t .host x = readByte s .host x))) ∧
      (partitionOk s bays slices chans ports cxl = false →
        exec (.partitionCreate p bays slices chans ⟨ports, cxl⟩) s = .next s) ∧
      ((∃ l ∈ [bays, slices, chans, ports, cxl.map (·.1)], ¬ l.Nodup) → partitionOk s bays slices chans ports cxl = false)) ∧
    (∀ p : Nat, (getPart s p).live = true → Happens (.partitionTeardown p) s (fun t => (getPart t p).live = false ∧
      (∀ c, (getPart s p).owns c = true → (getCore t c).allEmpty = true ∧ (getCore t c).task = none ∧
        (getCore t c).psb = [] ∧ (getCore t c).sp = []) ∧
      t.kaz.mgmtEvents = s.kaz.mgmtEvents ++ [(BitVec.ofNat 64 (4 * 2 ^ 56 + p), BitVec.ofNat 64 s.cycle,
        (getPart s p).lamport, 0)])) ∧
    (∀ ok v meas, s.kaz.booted = false → HappensQuietly (.boot ok v meas) s (fun t => t.kaz.meas = meas ∧
      (t.kaz.booted = true ↔ ok = true ∧ s.kaz.rollback ≤ v))) ∧
    (∀ d, (s.kaz.life = .manufacture ∧ d = .provisioned) ∨ (s.kaz.life = .provisioned ∧ d = .deployed) →
      HappensQuietly (.lifecycleTransition d) s (fun t => t.kaz.life = d)) ∧
    (s.kaz.life ≠ .retired → Happens (.lifecycleTransition .retired) s (fun t => t.kaz.life = .retired ∧
      t.kaz.keysLost = true ∧ t.kaz.attKey = false ∧ ∀ p, p < 16 → (getPart t p).live = false)) ∧
    (∀ d, ¬ ((s.kaz.life = .manufacture ∧ d = .provisioned) ∨ (s.kaz.life = .provisioned ∧ d = .deployed) ∨
      (s.kaz.life ≠ .retired ∧ d = .retired)) → exec (.lifecycleTransition d) s = .next s) ∧
    (∀ cause, Happens (.bleachAlarm cause) s (fun t => (∀ p, p < 16 → (getPart t p).live = false) ∧
      (t.kaz.attKey = true ↔ s.kaz.attKey = true ∧ (cause = .glitch ∨ cause = .temperature)))) ∧
    (∀ rest, s.agenda = .keyProvision :: rest →
      ∃ t, step s = .next t ∧ t.kaz.attKey = (s.kaz.life != .retired) ∧ SlotsSame s t ∧ MemSame s t) ∧
    (∀ nonce, (s.kaz.attKey = true → HappensQuietly (.attestationReport nonce) s (fun t => ∃ r : Report,
        t.kaz.reports = s.kaz.reports ++ [r] ∧ r.nonce = nonce ∧ r.meas = s.kaz.meas ∧ r.life = s.kaz.life ∧
        r.rollback = s.kaz.rollback ∧ r.opened = s.kaz.debugOpened)) ∧
      (s.kaz.attKey = false → exec (.attestationReport nonce) s = .next s)) ∧
    (∀ ok hash, ((ok = false ∨ s.kaz.life ≠ .deployed) → exec (.debugUnlock ok hash) s = .next s) ∧
      (ok = true → s.kaz.life = .deployed → Happens (.debugUnlock ok hash) s (fun t => t.kaz.life = .debug ∧
        t.kaz.debugOpened = true ∧ ∀ p, p < 16 → (getPart t p).live = false)))
end

