-- ==== Sys2Proof/Laws/Sparse.lean ====
section
/-! SUPPORT. Reading after writing a sparse table, and the canonical form that every memory write keeps. -/

namespace Sys2Proof.Machine

variable {α : Type}

@[simp] theorem sget_nil (d : α) (k : Nat) : sget d [] k = d := rfl

/-- A read after a write of the same key. -/
@[simp] theorem sget_sput_self (d v : α) (m : Sparse α) (n : Nat) : sget d (sput m n v) n = v := by
  induction m with
  | nil => simp [sput, sget]
  | cons e r ih =>
    obtain ⟨k, w⟩ := e
    by_cases h1 : n < k
    · simp [sput, sget, h1]
    · by_cases h2 : n = k
      · simp [sput, sget, h2]
      · have h3 : ¬ k = n := fun h => h2 h.symm
        simp [sput, sget, h1, h2, h3, ih]

/-- A read after a write of another key. -/
theorem sget_sput_ne (d v : α) (m : Sparse α) {n k : Nat} (h : k ≠ n) : sget d (sput m n v) k = sget d m k := by
  have h' : ¬ n = k := fun e => h e.symm
  induction m with
  | nil => simp [sput, sget, h']
  | cons e r ih =>
    obtain ⟨j, w⟩ := e
    by_cases h1 : n < j
    · simp [sput, sget, h1, h']
    · by_cases h2 : n = j
      · subst h2; simp [sput, sget, h']
      · simp only [sput, h1, h2, if_false, sget, ih]

/-- A read after a write, by cases on the key. -/
theorem sget_sput (d v : α) (m : Sparse α) (n k : Nat) :
    sget d (sput m n v) k = if k = n then v else sget d m k := by
  split
  · rename_i h; rw [h, sget_sput_self]
  · rename_i h; exact sget_sput_ne d v m h

theorem sget_sdel (d : α) (m : Sparse α) (n k : Nat) : sget d (sdel m n) k = if k = n then d else sget d m k := by
  induction m with
  | nil => simp [sdel]
  | cons e r ih =>
    obtain ⟨j, w⟩ := e
    by_cases h1 : j = n
    · subst h1
      simp only [sdel, if_true, ih, sget]
      by_cases h2 : k = j
      · simp [h2]
      · have h3 : ¬ j = k := fun e => h2 e.symm
        simp [h2, h3]
    · simp only [sdel, h1, if_false, sget, ih]
      by_cases h2 : k = n
      · subst h2; simp [h1]
      · simp [h2]

/-- A read after a canonical write, by cases on the key. -/
theorem sget_sset [DecidableEq α] (d v : α) (m : Sparse α) (n k : Nat) :
    sget d (sset d m n v) k = if k = n then v else sget d m k := by
  unfold sset
  split
  · rename_i h; rw [sget_sdel, h]
  · exact sget_sput d v m n k

@[simp] theorem sget_sset_self [DecidableEq α] (d v : α) (m : Sparse α) (n : Nat) : sget d (sset d m n v) n = v := by
  rw [sget_sset]; simp

theorem sget_sset_ne [DecidableEq α] (d v : α) (m : Sparse α) {n k : Nat} (h : k ≠ n) :
    sget d (sset d m n v) k = sget d m k := by
  rw [sget_sset]; simp [h]

/-- A read after consecutive canonical writes, by cases on the key. -/
theorem sget_ssetRange [DecidableEq α] (d : α) (vs : List α) (m : Sparse α) (n k : Nat) :
    sget d (ssetRange d m n vs) k = if n ≤ k ∧ k < n + vs.length then vs.getD (k - n) d else sget d m k := by
  induction vs generalizing m n with
  | nil => simp [ssetRange, show ¬ (n ≤ k ∧ k < n) by omega]
  | cons v vs ih =>
    simp only [ssetRange, ih, sget_sset, List.length_cons]
    by_cases h1 : k = n
    · subst h1
      simp [show ¬ (k + 1 ≤ k) by omega]
    · by_cases h2 : n + 1 ≤ k ∧ k < n + 1 + vs.length
      · obtain ⟨j, hj⟩ : ∃ j, k - n = j + 1 := ⟨k - n - 1, by omega⟩
        have h3 : k - (n + 1) = j := by omega
        simp [h2, show n ≤ k ∧ k < n + (vs.length + 1) by omega, hj, h3]
      · rw [if_neg h2, if_neg h1, if_neg (show ¬ (n ≤ k ∧ k < n + (vs.length + 1)) by omega)]

theorem sgetRange_length (d : α) (m : Sparse α) (k n : Nat) : (sgetRange d m k n).length = n := by
  induction n generalizing k with
  | zero => rfl
  | succ n ih => simp [sgetRange, ih]

/-- Reading a map over a table's values. -/
theorem sget_map (d : α) (g : Nat → α → α) (m : Sparse α) (k : Nat) (h : g k d = d) :
    sget d (m.map (fun e => (e.1, g e.1 e.2))) k = g k (sget d m k) := by
  induction m with
  | nil => simp [h]
  | cons e r ih =>
    by_cases h1 : e.1 = k
    · simp [sget, h1]
    · simp [sget, h1, ih]

/-! ## The canonical form -/

section Canonical

variable [DecidableEq α] (d : α)

/-- A lower bound on the keys may be weakened. -/
theorem sparseWfFrom_none {lo : Option Nat} {m : Sparse α} (h : sparseWfFrom d lo m = true) :
    sparseWfFrom d none m = true := by
  cases m with
  | nil => rfl
  | cons e r =>
    simp only [sparseWfFrom, Bool.and_eq_true] at h ⊢
    exact ⟨⟨trivial, h.1.2⟩, h.2⟩

theorem sparseWfFrom_mono {a b : Nat} (hab : a ≤ b) {m : Sparse α} (h : sparseWfFrom d (some b) m = true) :
    sparseWfFrom d (some a) m = true := by
  cases m with
  | nil => rfl
  | cons e r =>
    simp only [sparseWfFrom, Bool.and_eq_true, decide_eq_true_eq] at h ⊢
    exact ⟨⟨by omega, h.1.2⟩, h.2⟩

theorem sparseWfFrom_single {v : α} (hv : v ≠ d) {lo : Option Nat} {n : Nat} (h : ∀ b, lo = some b → b < n) :
    sparseWfFrom d lo [(n, v)] = true := by
  cases lo with
  | none => simp [sparseWfFrom, hv]
  | some b => simp [sparseWfFrom, hv, h b rfl]

/-- A write above the bound of a canonical table keeps its form. -/
theorem sput_wfFrom (v : α) (n : Nat) (lo : Option Nat) (m : Sparse α)
    (hlo : sparseWfFrom d lo [(n, v)] = true) (h : sparseWfFrom d lo m = true) :
    sparseWfFrom d lo (sput m n v) = true := by
  induction m generalizing lo with
  | nil => exact hlo
  | cons e r ih =>
    obtain ⟨k, w⟩ := e
    simp only [sparseWfFrom, Bool.and_eq_true, decide_eq_true_eq, and_true] at h hlo
    by_cases h1 : n < k
    · simp only [sput, h1, if_true, sparseWfFrom, Bool.and_eq_true, decide_eq_true_eq]
      exact ⟨hlo, ⟨trivial, h.1.2⟩, h.2⟩
    · by_cases h2 : n = k
      · subst h2
        simp only [sput, h1, if_false, if_true, sparseWfFrom, Bool.and_eq_true, decide_eq_true_eq]
        exact ⟨hlo, h.2⟩
      · simp only [sput, h1, h2, if_false, sparseWfFrom, Bool.and_eq_true, decide_eq_true_eq]
        have hk : k < n := by omega
        exact ⟨h.1, ih (some k) (by simp [sparseWfFrom, hk, hlo.2]) h.2⟩

theorem sdel_wfFrom (n : Nat) (lo : Option Nat) (m : Sparse α) (h : sparseWfFrom d lo m = true) :
    sparseWfFrom d lo (sdel m n) = true := by
  induction m generalizing lo with
  | nil => rfl
  | cons e r ih =>
    obtain ⟨k, w⟩ := e
    have h' := h
    simp only [sparseWfFrom, Bool.and_eq_true, decide_eq_true_eq] at h'
    by_cases h1 : k = n
    · simp only [sdel, h1, if_true]
      cases lo with
      | none => exact ih none (sparseWfFrom_none d h'.2)
      | some b =>
        have hb : b < k := by simpa using h'.1.1
        exact ih (some b) (sparseWfFrom_mono d (by omega) h'.2)
    · simp only [sdel, h1, if_false, sparseWfFrom, Bool.and_eq_true, decide_eq_true_eq]
      exact ⟨h'.1, ih (some k) h'.2⟩

/-- A canonical write keeps the canonical form. -/
theorem sset_wf (m : Sparse α) (n : Nat) (v : α) (h : sparseWf d m = true) : sparseWf d (sset d m n v) = true := by
  unfold sset
  split
  · exact sdel_wfFrom d n none m h
  · exact sput_wfFrom d v n none m (sparseWfFrom_single d ‹_› (fun b hb => by cases hb)) h

/-- Consecutive canonical writes keep the canonical form. -/
theorem ssetRange_wf (vs : List α) (m : Sparse α) (n : Nat) (h : sparseWf d m = true) :
    sparseWf d (ssetRange d m n vs) = true := by
  induction vs generalizing m n with
  | nil => exact h
  | cons v vs ih => exact ih _ _ (sset_wf d m n v h)

end Canonical

end Sys2Proof.Machine
end

