-- ==== Sys2Proof/Laws/State.lean ====
section
/-! SUPPORT. One lemma for each field and each update of the state records: what the update leaves alone, and what it writes.
Every one is true by unfolding, so later proofs cite it and unfold no record update. -/

namespace Sys2Proof.Machine

/-! ## State -/

@[simp] theorem setCore_agenda (s : State) (c : Nat) (k : Core) : (setCore s c k).agenda = s.agenda := rfl
@[simp] theorem setCore_turns (s : State) (c : Nat) (k : Core) : (setCore s c k).turns = s.turns := rfl
@[simp] theorem setCore_walkSeq (s : State) (c : Nat) (k : Core) : (setCore s c k).walkSeq = s.walkSeq := rfl
@[simp] theorem setCore_free (s : State) (c : Nat) (k : Core) : (setCore s c k).free = s.free := rfl
@[simp] theorem setCore_curCore (s : State) (c : Nat) (k : Core) : (setCore s c k).curCore = s.curCore := rfl
@[simp] theorem setCore_curSlot (s : State) (c : Nat) (k : Core) : (setCore s c k).curSlot = s.curSlot := rfl
@[simp] theorem setCore_cycle (s : State) (c : Nat) (k : Core) : (setCore s c k).cycle = s.cycle := rfl
@[simp] theorem setCore_dm (s : State) (c : Nat) (k : Core) : (setCore s c k).dm = s.dm := rfl
@[simp] theorem setCore_fm (s : State) (c : Nat) (k : Core) : (setCore s c k).fm = s.fm := rfl
@[simp] theorem setCore_hm (s : State) (c : Nat) (k : Core) : (setCore s c k).hm = s.hm := rfl
@[simp] theorem setCore_badLines (s : State) (c : Nat) (k : Core) : (setCore s c k).badLines = s.badLines := rfl
@[simp] theorem setCore_gran (s : State) (c : Nat) (k : Core) : (setCore s c k).gran = s.gran := rfl
@[simp] theorem setCore_pairKeys (s : State) (c : Nat) (k : Core) : (setCore s c k).pairKeys = s.pairKeys := rfl
@[simp] theorem setCore_keys (s : State) (c : Nat) (k : Core) : (setCore s c k).keys = s.keys := rfl
@[simp] theorem setCore_farMark (s : State) (c : Nat) (k : Core) : (setCore s c k).farMark = s.farMark := rfl
@[simp] theorem setCore_rowTlb (s : State) (c : Nat) (k : Core) : (setCore s c k).rowTlb = s.rowTlb := rfl
@[simp] theorem setCore_net (s : State) (c : Nat) (k : Core) : (setCore s c k).net = s.net := rfl
@[simp] theorem setCore_parts (s : State) (c : Nat) (k : Core) : (setCore s c k).parts = s.parts := rfl
@[simp] theorem setCore_govs (s : State) (c : Nat) (k : Core) : (setCore s c k).govs = s.govs := rfl
@[simp] theorem setCore_junction (s : State) (c : Nat) (k : Core) : (setCore s c k).junction = s.junction := rfl
@[simp] theorem setCore_barred (s : State) (c : Nat) (k : Core) : (setCore s c k).barred = s.barred := rfl
@[simp] theorem setCore_forced (s : State) (c : Nat) (k : Core) : (setCore s c k).forced = s.forced := rfl
@[simp] theorem setCore_rows (s : State) (c : Nat) (k : Core) : (setCore s c k).rows = s.rows := rfl
@[simp] theorem setCore_lpddr (s : State) (c : Nat) (k : Core) : (setCore s c k).lpddr = s.lpddr := rfl
@[simp] theorem setCore_cxlShare (s : State) (c : Nat) (k : Core) : (setCore s c k).cxlShare = s.cxlShare := rfl
@[simp] theorem setCore_ports (s : State) (c : Nat) (k : Core) : (setCore s c k).ports = s.ports := rfl
@[simp] theorem setCore_kaz (s : State) (c : Nat) (k : Core) : (setCore s c k).kaz = s.kaz := rfl
@[simp] theorem setCore_hostLam (s : State) (c : Nat) (k : Core) : (setCore s c k).hostLam = s.hostLam := rfl
@[simp] theorem setCore_sliceLam (s : State) (c : Nat) (k : Core) : (setCore s c k).sliceLam = s.sliceLam := rfl
@[simp] theorem setCore_hostReply (s : State) (c : Nat) (k : Core) : (setCore s c k).hostReply = s.hostReply := rfl
@[simp] theorem setCore_pubOut (s : State) (c : Nat) (k : Core) : (setCore s c k).pubOut = s.pubOut := rfl

@[simp] theorem modCore_agenda (s : State) (c : Nat) (f : Core → Core) : (modCore s c f).agenda = s.agenda := rfl
@[simp] theorem modCore_turns (s : State) (c : Nat) (f : Core → Core) : (modCore s c f).turns = s.turns := rfl
@[simp] theorem modCore_walkSeq (s : State) (c : Nat) (f : Core → Core) : (modCore s c f).walkSeq = s.walkSeq := rfl
@[simp] theorem modCore_free (s : State) (c : Nat) (f : Core → Core) : (modCore s c f).free = s.free := rfl
@[simp] theorem modCore_curCore (s : State) (c : Nat) (f : Core → Core) : (modCore s c f).curCore = s.curCore := rfl
@[simp] theorem modCore_curSlot (s : State) (c : Nat) (f : Core → Core) : (modCore s c f).curSlot = s.curSlot := rfl
@[simp] theorem modCore_cycle (s : State) (c : Nat) (f : Core → Core) : (modCore s c f).cycle = s.cycle := rfl
@[simp] theorem modCore_dm (s : State) (c : Nat) (f : Core → Core) : (modCore s c f).dm = s.dm := rfl
@[simp] theorem modCore_fm (s : State) (c : Nat) (f : Core → Core) : (modCore s c f).fm = s.fm := rfl
@[simp] theorem modCore_hm (s : State) (c : Nat) (f : Core → Core) : (modCore s c f).hm = s.hm := rfl
@[simp] theorem modCore_badLines (s : State) (c : Nat) (f : Core → Core) : (modCore s c f).badLines = s.badLines := rfl
@[simp] theorem modCore_gran (s : State) (c : Nat) (f : Core → Core) : (modCore s c f).gran = s.gran := rfl
@[simp] theorem modCore_pairKeys (s : State) (c : Nat) (f : Core → Core) : (modCore s c f).pairKeys = s.pairKeys := rfl
@[simp] theorem modCore_keys (s : State) (c : Nat) (f : Core → Core) : (modCore s c f).keys = s.keys := rfl
@[simp] theorem modCore_farMark (s : State) (c : Nat) (f : Core → Core) : (modCore s c f).farMark = s.farMark := rfl
@[simp] theorem modCore_rowTlb (s : State) (c : Nat) (f : Core → Core) : (modCore s c f).rowTlb = s.rowTlb := rfl
@[simp] theorem modCore_net (s : State) (c : Nat) (f : Core → Core) : (modCore s c f).net = s.net := rfl
@[simp] theorem modCore_parts (s : State) (c : Nat) (f : Core → Core) : (modCore s c f).parts = s.parts := rfl
@[simp] theorem modCore_govs (s : State) (c : Nat) (f : Core → Core) : (modCore s c f).govs = s.govs := rfl
@[simp] theorem modCore_junction (s : State) (c : Nat) (f : Core → Core) : (modCore s c f).junction = s.junction := rfl
@[simp] theorem modCore_barred (s : State) (c : Nat) (f : Core → Core) : (modCore s c f).barred = s.barred := rfl
@[simp] theorem modCore_forced (s : State) (c : Nat) (f : Core → Core) : (modCore s c f).forced = s.forced := rfl
@[simp] theorem modCore_rows (s : State) (c : Nat) (f : Core → Core) : (modCore s c f).rows = s.rows := rfl
@[simp] theorem modCore_lpddr (s : State) (c : Nat) (f : Core → Core) : (modCore s c f).lpddr = s.lpddr := rfl
@[simp] theorem modCore_cxlShare (s : State) (c : Nat) (f : Core → Core) : (modCore s c f).cxlShare = s.cxlShare := rfl
@[simp] theorem modCore_ports (s : State) (c : Nat) (f : Core → Core) : (modCore s c f).ports = s.ports := rfl
@[simp] theorem modCore_kaz (s : State) (c : Nat) (f : Core → Core) : (modCore s c f).kaz = s.kaz := rfl
@[simp] theorem modCore_hostLam (s : State) (c : Nat) (f : Core → Core) : (modCore s c f).hostLam = s.hostLam := rfl
@[simp] theorem modCore_sliceLam (s : State) (c : Nat) (f : Core → Core) : (modCore s c f).sliceLam = s.sliceLam := rfl
@[simp] theorem modCore_hostReply (s : State) (c : Nat) (f : Core → Core) : (modCore s c f).hostReply = s.hostReply := rfl
@[simp] theorem modCore_pubOut (s : State) (c : Nat) (f : Core → Core) : (modCore s c f).pubOut = s.pubOut := rfl

@[simp] theorem modSlotAt_agenda (s : State) (c n : Nat) (f : Slot → Slot) : (modSlotAt s c n f).agenda = s.agenda := rfl
@[simp] theorem modSlotAt_turns (s : State) (c n : Nat) (f : Slot → Slot) : (modSlotAt s c n f).turns = s.turns := rfl
@[simp] theorem modSlotAt_walkSeq (s : State) (c n : Nat) (f : Slot → Slot) : (modSlotAt s c n f).walkSeq = s.walkSeq := rfl
@[simp] theorem modSlotAt_free (s : State) (c n : Nat) (f : Slot → Slot) : (modSlotAt s c n f).free = s.free := rfl
@[simp] theorem modSlotAt_curCore (s : State) (c n : Nat) (f : Slot → Slot) : (modSlotAt s c n f).curCore = s.curCore := rfl
@[simp] theorem modSlotAt_curSlot (s : State) (c n : Nat) (f : Slot → Slot) : (modSlotAt s c n f).curSlot = s.curSlot := rfl
@[simp] theorem modSlotAt_cycle (s : State) (c n : Nat) (f : Slot → Slot) : (modSlotAt s c n f).cycle = s.cycle := rfl
@[simp] theorem modSlotAt_dm (s : State) (c n : Nat) (f : Slot → Slot) : (modSlotAt s c n f).dm = s.dm := rfl
@[simp] theorem modSlotAt_fm (s : State) (c n : Nat) (f : Slot → Slot) : (modSlotAt s c n f).fm = s.fm := rfl
@[simp] theorem modSlotAt_hm (s : State) (c n : Nat) (f : Slot → Slot) : (modSlotAt s c n f).hm = s.hm := rfl
@[simp] theorem modSlotAt_badLines (s : State) (c n : Nat) (f : Slot → Slot) : (modSlotAt s c n f).badLines = s.badLines := rfl
@[simp] theorem modSlotAt_gran (s : State) (c n : Nat) (f : Slot → Slot) : (modSlotAt s c n f).gran = s.gran := rfl
@[simp] theorem modSlotAt_pairKeys (s : State) (c n : Nat) (f : Slot → Slot) : (modSlotAt s c n f).pairKeys = s.pairKeys := rfl
@[simp] theorem modSlotAt_keys (s : State) (c n : Nat) (f : Slot → Slot) : (modSlotAt s c n f).keys = s.keys := rfl
@[simp] theorem modSlotAt_farMark (s : State) (c n : Nat) (f : Slot → Slot) : (modSlotAt s c n f).farMark = s.farMark := rfl
@[simp] theorem modSlotAt_rowTlb (s : State) (c n : Nat) (f : Slot → Slot) : (modSlotAt s c n f).rowTlb = s.rowTlb := rfl
@[simp] theorem modSlotAt_net (s : State) (c n : Nat) (f : Slot → Slot) : (modSlotAt s c n f).net = s.net := rfl
@[simp] theorem modSlotAt_parts (s : State) (c n : Nat) (f : Slot → Slot) : (modSlotAt s c n f).parts = s.parts := rfl
@[simp] theorem modSlotAt_govs (s : State) (c n : Nat) (f : Slot → Slot) : (modSlotAt s c n f).govs = s.govs := rfl
@[simp] theorem modSlotAt_junction (s : State) (c n : Nat) (f : Slot → Slot) : (modSlotAt s c n f).junction = s.junction := rfl
@[simp] theorem modSlotAt_barred (s : State) (c n : Nat) (f : Slot → Slot) : (modSlotAt s c n f).barred = s.barred := rfl
@[simp] theorem modSlotAt_forced (s : State) (c n : Nat) (f : Slot → Slot) : (modSlotAt s c n f).forced = s.forced := rfl
@[simp] theorem modSlotAt_rows (s : State) (c n : Nat) (f : Slot → Slot) : (modSlotAt s c n f).rows = s.rows := rfl
@[simp] theorem modSlotAt_lpddr (s : State) (c n : Nat) (f : Slot → Slot) : (modSlotAt s c n f).lpddr = s.lpddr := rfl
@[simp] theorem modSlotAt_cxlShare (s : State) (c n : Nat) (f : Slot → Slot) : (modSlotAt s c n f).cxlShare = s.cxlShare := rfl
@[simp] theorem modSlotAt_ports (s : State) (c n : Nat) (f : Slot → Slot) : (modSlotAt s c n f).ports = s.ports := rfl
@[simp] theorem modSlotAt_kaz (s : State) (c n : Nat) (f : Slot → Slot) : (modSlotAt s c n f).kaz = s.kaz := rfl
@[simp] theorem modSlotAt_hostLam (s : State) (c n : Nat) (f : Slot → Slot) : (modSlotAt s c n f).hostLam = s.hostLam := rfl
@[simp] theorem modSlotAt_sliceLam (s : State) (c n : Nat) (f : Slot → Slot) : (modSlotAt s c n f).sliceLam = s.sliceLam := rfl
@[simp] theorem modSlotAt_hostReply (s : State) (c n : Nat) (f : Slot → Slot) : (modSlotAt s c n f).hostReply = s.hostReply := rfl
@[simp] theorem modSlotAt_pubOut (s : State) (c n : Nat) (f : Slot → Slot) : (modSlotAt s c n f).pubOut = s.pubOut := rfl

@[simp] theorem modCur_agenda (s : State) (f : Core → Core) : (modCur s f).agenda = s.agenda := rfl
@[simp] theorem modCur_turns (s : State) (f : Core → Core) : (modCur s f).turns = s.turns := rfl
@[simp] theorem modCur_walkSeq (s : State) (f : Core → Core) : (modCur s f).walkSeq = s.walkSeq := rfl
@[simp] theorem modCur_free (s : State) (f : Core → Core) : (modCur s f).free = s.free := rfl
@[simp] theorem modCur_curCore (s : State) (f : Core → Core) : (modCur s f).curCore = s.curCore := rfl
@[simp] theorem modCur_curSlot (s : State) (f : Core → Core) : (modCur s f).curSlot = s.curSlot := rfl
@[simp] theorem modCur_cycle (s : State) (f : Core → Core) : (modCur s f).cycle = s.cycle := rfl
@[simp] theorem modCur_dm (s : State) (f : Core → Core) : (modCur s f).dm = s.dm := rfl
@[simp] theorem modCur_fm (s : State) (f : Core → Core) : (modCur s f).fm = s.fm := rfl
@[simp] theorem modCur_hm (s : State) (f : Core → Core) : (modCur s f).hm = s.hm := rfl
@[simp] theorem modCur_badLines (s : State) (f : Core → Core) : (modCur s f).badLines = s.badLines := rfl
@[simp] theorem modCur_gran (s : State) (f : Core → Core) : (modCur s f).gran = s.gran := rfl
@[simp] theorem modCur_pairKeys (s : State) (f : Core → Core) : (modCur s f).pairKeys = s.pairKeys := rfl
@[simp] theorem modCur_keys (s : State) (f : Core → Core) : (modCur s f).keys = s.keys := rfl
@[simp] theorem modCur_farMark (s : State) (f : Core → Core) : (modCur s f).farMark = s.farMark := rfl
@[simp] theorem modCur_rowTlb (s : State) (f : Core → Core) : (modCur s f).rowTlb = s.rowTlb := rfl
@[simp] theorem modCur_net (s : State) (f : Core → Core) : (modCur s f).net = s.net := rfl
@[simp] theorem modCur_parts (s : State) (f : Core → Core) : (modCur s f).parts = s.parts := rfl
@[simp] theorem modCur_govs (s : State) (f : Core → Core) : (modCur s f).govs = s.govs := rfl
@[simp] theorem modCur_junction (s : State) (f : Core → Core) : (modCur s f).junction = s.junction := rfl
@[simp] theorem modCur_barred (s : State) (f : Core → Core) : (modCur s f).barred = s.barred := rfl
@[simp] theorem modCur_forced (s : State) (f : Core → Core) : (modCur s f).forced = s.forced := rfl
@[simp] theorem modCur_rows (s : State) (f : Core → Core) : (modCur s f).rows = s.rows := rfl
@[simp] theorem modCur_lpddr (s : State) (f : Core → Core) : (modCur s f).lpddr = s.lpddr := rfl
@[simp] theorem modCur_cxlShare (s : State) (f : Core → Core) : (modCur s f).cxlShare = s.cxlShare := rfl
@[simp] theorem modCur_ports (s : State) (f : Core → Core) : (modCur s f).ports = s.ports := rfl
@[simp] theorem modCur_kaz (s : State) (f : Core → Core) : (modCur s f).kaz = s.kaz := rfl
@[simp] theorem modCur_hostLam (s : State) (f : Core → Core) : (modCur s f).hostLam = s.hostLam := rfl
@[simp] theorem modCur_sliceLam (s : State) (f : Core → Core) : (modCur s f).sliceLam = s.sliceLam := rfl
@[simp] theorem modCur_hostReply (s : State) (f : Core → Core) : (modCur s f).hostReply = s.hostReply := rfl
@[simp] theorem modCur_pubOut (s : State) (f : Core → Core) : (modCur s f).pubOut = s.pubOut := rfl

@[simp] theorem modSlot_agenda (s : State) (f : Slot → Slot) : (modSlot s f).agenda = s.agenda := rfl
@[simp] theorem modSlot_turns (s : State) (f : Slot → Slot) : (modSlot s f).turns = s.turns := rfl
@[simp] theorem modSlot_walkSeq (s : State) (f : Slot → Slot) : (modSlot s f).walkSeq = s.walkSeq := rfl
@[simp] theorem modSlot_free (s : State) (f : Slot → Slot) : (modSlot s f).free = s.free := rfl
@[simp] theorem modSlot_curCore (s : State) (f : Slot → Slot) : (modSlot s f).curCore = s.curCore := rfl
@[simp] theorem modSlot_curSlot (s : State) (f : Slot → Slot) : (modSlot s f).curSlot = s.curSlot := rfl
@[simp] theorem modSlot_cycle (s : State) (f : Slot → Slot) : (modSlot s f).cycle = s.cycle := rfl
@[simp] theorem modSlot_dm (s : State) (f : Slot → Slot) : (modSlot s f).dm = s.dm := rfl
@[simp] theorem modSlot_fm (s : State) (f : Slot → Slot) : (modSlot s f).fm = s.fm := rfl
@[simp] theorem modSlot_hm (s : State) (f : Slot → Slot) : (modSlot s f).hm = s.hm := rfl
@[simp] theorem modSlot_badLines (s : State) (f : Slot → Slot) : (modSlot s f).badLines = s.badLines := rfl
@[simp] theorem modSlot_gran (s : State) (f : Slot → Slot) : (modSlot s f).gran = s.gran := rfl
@[simp] theorem modSlot_pairKeys (s : State) (f : Slot → Slot) : (modSlot s f).pairKeys = s.pairKeys := rfl
@[simp] theorem modSlot_keys (s : State) (f : Slot → Slot) : (modSlot s f).keys = s.keys := rfl
@[simp] theorem modSlot_farMark (s : State) (f : Slot → Slot) : (modSlot s f).farMark = s.farMark := rfl
@[simp] theorem modSlot_rowTlb (s : State) (f : Slot → Slot) : (modSlot s f).rowTlb = s.rowTlb := rfl
@[simp] theorem modSlot_net (s : State) (f : Slot → Slot) : (modSlot s f).net = s.net := rfl
@[simp] theorem modSlot_parts (s : State) (f : Slot → Slot) : (modSlot s f).parts = s.parts := rfl
@[simp] theorem modSlot_govs (s : State) (f : Slot → Slot) : (modSlot s f).govs = s.govs := rfl
@[simp] theorem modSlot_junction (s : State) (f : Slot → Slot) : (modSlot s f).junction = s.junction := rfl
@[simp] theorem modSlot_barred (s : State) (f : Slot → Slot) : (modSlot s f).barred = s.barred := rfl
@[simp] theorem modSlot_forced (s : State) (f : Slot → Slot) : (modSlot s f).forced = s.forced := rfl
@[simp] theorem modSlot_rows (s : State) (f : Slot → Slot) : (modSlot s f).rows = s.rows := rfl
@[simp] theorem modSlot_lpddr (s : State) (f : Slot → Slot) : (modSlot s f).lpddr = s.lpddr := rfl
@[simp] theorem modSlot_cxlShare (s : State) (f : Slot → Slot) : (modSlot s f).cxlShare = s.cxlShare := rfl
@[simp] theorem modSlot_ports (s : State) (f : Slot → Slot) : (modSlot s f).ports = s.ports := rfl
@[simp] theorem modSlot_kaz (s : State) (f : Slot → Slot) : (modSlot s f).kaz = s.kaz := rfl
@[simp] theorem modSlot_hostLam (s : State) (f : Slot → Slot) : (modSlot s f).hostLam = s.hostLam := rfl
@[simp] theorem modSlot_sliceLam (s : State) (f : Slot → Slot) : (modSlot s f).sliceLam = s.sliceLam := rfl
@[simp] theorem modSlot_hostReply (s : State) (f : Slot → Slot) : (modSlot s f).hostReply = s.hostReply := rfl
@[simp] theorem modSlot_pubOut (s : State) (f : Slot → Slot) : (modSlot s f).pubOut = s.pubOut := rfl

@[simp] theorem wrS_agenda (s : State) (r : SReg) (v : W64) : (wrS s r v).agenda = s.agenda := rfl
@[simp] theorem wrS_turns (s : State) (r : SReg) (v : W64) : (wrS s r v).turns = s.turns := rfl
@[simp] theorem wrS_walkSeq (s : State) (r : SReg) (v : W64) : (wrS s r v).walkSeq = s.walkSeq := rfl
@[simp] theorem wrS_free (s : State) (r : SReg) (v : W64) : (wrS s r v).free = s.free := rfl
@[simp] theorem wrS_curCore (s : State) (r : SReg) (v : W64) : (wrS s r v).curCore = s.curCore := rfl
@[simp] theorem wrS_curSlot (s : State) (r : SReg) (v : W64) : (wrS s r v).curSlot = s.curSlot := rfl
@[simp] theorem wrS_cycle (s : State) (r : SReg) (v : W64) : (wrS s r v).cycle = s.cycle := rfl
@[simp] theorem wrS_dm (s : State) (r : SReg) (v : W64) : (wrS s r v).dm = s.dm := rfl
@[simp] theorem wrS_fm (s : State) (r : SReg) (v : W64) : (wrS s r v).fm = s.fm := rfl
@[simp] theorem wrS_hm (s : State) (r : SReg) (v : W64) : (wrS s r v).hm = s.hm := rfl
@[simp] theorem wrS_badLines (s : State) (r : SReg) (v : W64) : (wrS s r v).badLines = s.badLines := rfl
@[simp] theorem wrS_gran (s : State) (r : SReg) (v : W64) : (wrS s r v).gran = s.gran := rfl
@[simp] theorem wrS_pairKeys (s : State) (r : SReg) (v : W64) : (wrS s r v).pairKeys = s.pairKeys := rfl
@[simp] theorem wrS_keys (s : State) (r : SReg) (v : W64) : (wrS s r v).keys = s.keys := rfl
@[simp] theorem wrS_farMark (s : State) (r : SReg) (v : W64) : (wrS s r v).farMark = s.farMark := rfl
@[simp] theorem wrS_rowTlb (s : State) (r : SReg) (v : W64) : (wrS s r v).rowTlb = s.rowTlb := rfl
@[simp] theorem wrS_net (s : State) (r : SReg) (v : W64) : (wrS s r v).net = s.net := rfl
@[simp] theorem wrS_parts (s : State) (r : SReg) (v : W64) : (wrS s r v).parts = s.parts := rfl
@[simp] theorem wrS_govs (s : State) (r : SReg) (v : W64) : (wrS s r v).govs = s.govs := rfl
@[simp] theorem wrS_junction (s : State) (r : SReg) (v : W64) : (wrS s r v).junction = s.junction := rfl
@[simp] theorem wrS_barred (s : State) (r : SReg) (v : W64) : (wrS s r v).barred = s.barred := rfl
@[simp] theorem wrS_forced (s : State) (r : SReg) (v : W64) : (wrS s r v).forced = s.forced := rfl
@[simp] theorem wrS_rows (s : State) (r : SReg) (v : W64) : (wrS s r v).rows = s.rows := rfl
@[simp] theorem wrS_lpddr (s : State) (r : SReg) (v : W64) : (wrS s r v).lpddr = s.lpddr := rfl
@[simp] theorem wrS_cxlShare (s : State) (r : SReg) (v : W64) : (wrS s r v).cxlShare = s.cxlShare := rfl
@[simp] theorem wrS_ports (s : State) (r : SReg) (v : W64) : (wrS s r v).ports = s.ports := rfl
@[simp] theorem wrS_kaz (s : State) (r : SReg) (v : W64) : (wrS s r v).kaz = s.kaz := rfl
@[simp] theorem wrS_hostLam (s : State) (r : SReg) (v : W64) : (wrS s r v).hostLam = s.hostLam := rfl
@[simp] theorem wrS_sliceLam (s : State) (r : SReg) (v : W64) : (wrS s r v).sliceLam = s.sliceLam := rfl
@[simp] theorem wrS_hostReply (s : State) (r : SReg) (v : W64) : (wrS s r v).hostReply = s.hostReply := rfl
@[simp] theorem wrS_pubOut (s : State) (r : SReg) (v : W64) : (wrS s r v).pubOut = s.pubOut := rfl

@[simp] theorem wrV_agenda (s : State) (r : VReg) (v : V512) : (wrV s r v).agenda = s.agenda := rfl
@[simp] theorem wrV_turns (s : State) (r : VReg) (v : V512) : (wrV s r v).turns = s.turns := rfl
@[simp] theorem wrV_walkSeq (s : State) (r : VReg) (v : V512) : (wrV s r v).walkSeq = s.walkSeq := rfl
@[simp] theorem wrV_free (s : State) (r : VReg) (v : V512) : (wrV s r v).free = s.free := rfl
@[simp] theorem wrV_curCore (s : State) (r : VReg) (v : V512) : (wrV s r v).curCore = s.curCore := rfl
@[simp] theorem wrV_curSlot (s : State) (r : VReg) (v : V512) : (wrV s r v).curSlot = s.curSlot := rfl
@[simp] theorem wrV_cycle (s : State) (r : VReg) (v : V512) : (wrV s r v).cycle = s.cycle := rfl
@[simp] theorem wrV_dm (s : State) (r : VReg) (v : V512) : (wrV s r v).dm = s.dm := rfl
@[simp] theorem wrV_fm (s : State) (r : VReg) (v : V512) : (wrV s r v).fm = s.fm := rfl
@[simp] theorem wrV_hm (s : State) (r : VReg) (v : V512) : (wrV s r v).hm = s.hm := rfl
@[simp] theorem wrV_badLines (s : State) (r : VReg) (v : V512) : (wrV s r v).badLines = s.badLines := rfl
@[simp] theorem wrV_gran (s : State) (r : VReg) (v : V512) : (wrV s r v).gran = s.gran := rfl
@[simp] theorem wrV_pairKeys (s : State) (r : VReg) (v : V512) : (wrV s r v).pairKeys = s.pairKeys := rfl
@[simp] theorem wrV_keys (s : State) (r : VReg) (v : V512) : (wrV s r v).keys = s.keys := rfl
@[simp] theorem wrV_farMark (s : State) (r : VReg) (v : V512) : (wrV s r v).farMark = s.farMark := rfl
@[simp] theorem wrV_rowTlb (s : State) (r : VReg) (v : V512) : (wrV s r v).rowTlb = s.rowTlb := rfl
@[simp] theorem wrV_net (s : State) (r : VReg) (v : V512) : (wrV s r v).net = s.net := rfl
@[simp] theorem wrV_parts (s : State) (r : VReg) (v : V512) : (wrV s r v).parts = s.parts := rfl
@[simp] theorem wrV_govs (s : State) (r : VReg) (v : V512) : (wrV s r v).govs = s.govs := rfl
@[simp] theorem wrV_junction (s : State) (r : VReg) (v : V512) : (wrV s r v).junction = s.junction := rfl
@[simp] theorem wrV_barred (s : State) (r : VReg) (v : V512) : (wrV s r v).barred = s.barred := rfl
@[simp] theorem wrV_forced (s : State) (r : VReg) (v : V512) : (wrV s r v).forced = s.forced := rfl
@[simp] theorem wrV_rows (s : State) (r : VReg) (v : V512) : (wrV s r v).rows = s.rows := rfl
@[simp] theorem wrV_lpddr (s : State) (r : VReg) (v : V512) : (wrV s r v).lpddr = s.lpddr := rfl
@[simp] theorem wrV_cxlShare (s : State) (r : VReg) (v : V512) : (wrV s r v).cxlShare = s.cxlShare := rfl
@[simp] theorem wrV_ports (s : State) (r : VReg) (v : V512) : (wrV s r v).ports = s.ports := rfl
@[simp] theorem wrV_kaz (s : State) (r : VReg) (v : V512) : (wrV s r v).kaz = s.kaz := rfl
@[simp] theorem wrV_hostLam (s : State) (r : VReg) (v : V512) : (wrV s r v).hostLam = s.hostLam := rfl
@[simp] theorem wrV_sliceLam (s : State) (r : VReg) (v : V512) : (wrV s r v).sliceLam = s.sliceLam := rfl
@[simp] theorem wrV_hostReply (s : State) (r : VReg) (v : V512) : (wrV s r v).hostReply = s.hostReply := rfl
@[simp] theorem wrV_pubOut (s : State) (r : VReg) (v : V512) : (wrV s r v).pubOut = s.pubOut := rfl

@[simp] theorem wrM_agenda (s : State) (r : MReg) (v : W64) : (wrM s r v).agenda = s.agenda := rfl
@[simp] theorem wrM_turns (s : State) (r : MReg) (v : W64) : (wrM s r v).turns = s.turns := rfl
@[simp] theorem wrM_walkSeq (s : State) (r : MReg) (v : W64) : (wrM s r v).walkSeq = s.walkSeq := rfl
@[simp] theorem wrM_free (s : State) (r : MReg) (v : W64) : (wrM s r v).free = s.free := rfl
@[simp] theorem wrM_curCore (s : State) (r : MReg) (v : W64) : (wrM s r v).curCore = s.curCore := rfl
@[simp] theorem wrM_curSlot (s : State) (r : MReg) (v : W64) : (wrM s r v).curSlot = s.curSlot := rfl
@[simp] theorem wrM_cycle (s : State) (r : MReg) (v : W64) : (wrM s r v).cycle = s.cycle := rfl
@[simp] theorem wrM_dm (s : State) (r : MReg) (v : W64) : (wrM s r v).dm = s.dm := rfl
@[simp] theorem wrM_fm (s : State) (r : MReg) (v : W64) : (wrM s r v).fm = s.fm := rfl
@[simp] theorem wrM_hm (s : State) (r : MReg) (v : W64) : (wrM s r v).hm = s.hm := rfl
@[simp] theorem wrM_badLines (s : State) (r : MReg) (v : W64) : (wrM s r v).badLines = s.badLines := rfl
@[simp] theorem wrM_gran (s : State) (r : MReg) (v : W64) : (wrM s r v).gran = s.gran := rfl
@[simp] theorem wrM_pairKeys (s : State) (r : MReg) (v : W64) : (wrM s r v).pairKeys = s.pairKeys := rfl
@[simp] theorem wrM_keys (s : State) (r : MReg) (v : W64) : (wrM s r v).keys = s.keys := rfl
@[simp] theorem wrM_farMark (s : State) (r : MReg) (v : W64) : (wrM s r v).farMark = s.farMark := rfl
@[simp] theorem wrM_rowTlb (s : State) (r : MReg) (v : W64) : (wrM s r v).rowTlb = s.rowTlb := rfl
@[simp] theorem wrM_net (s : State) (r : MReg) (v : W64) : (wrM s r v).net = s.net := rfl
@[simp] theorem wrM_parts (s : State) (r : MReg) (v : W64) : (wrM s r v).parts = s.parts := rfl
@[simp] theorem wrM_govs (s : State) (r : MReg) (v : W64) : (wrM s r v).govs = s.govs := rfl
@[simp] theorem wrM_junction (s : State) (r : MReg) (v : W64) : (wrM s r v).junction = s.junction := rfl
@[simp] theorem wrM_barred (s : State) (r : MReg) (v : W64) : (wrM s r v).barred = s.barred := rfl
@[simp] theorem wrM_forced (s : State) (r : MReg) (v : W64) : (wrM s r v).forced = s.forced := rfl
@[simp] theorem wrM_rows (s : State) (r : MReg) (v : W64) : (wrM s r v).rows = s.rows := rfl
@[simp] theorem wrM_lpddr (s : State) (r : MReg) (v : W64) : (wrM s r v).lpddr = s.lpddr := rfl
@[simp] theorem wrM_cxlShare (s : State) (r : MReg) (v : W64) : (wrM s r v).cxlShare = s.cxlShare := rfl
@[simp] theorem wrM_ports (s : State) (r : MReg) (v : W64) : (wrM s r v).ports = s.ports := rfl
@[simp] theorem wrM_kaz (s : State) (r : MReg) (v : W64) : (wrM s r v).kaz = s.kaz := rfl
@[simp] theorem wrM_hostLam (s : State) (r : MReg) (v : W64) : (wrM s r v).hostLam = s.hostLam := rfl
@[simp] theorem wrM_sliceLam (s : State) (r : MReg) (v : W64) : (wrM s r v).sliceLam = s.sliceLam := rfl
@[simp] theorem wrM_hostReply (s : State) (r : MReg) (v : W64) : (wrM s r v).hostReply = s.hostReply := rfl
@[simp] theorem wrM_pubOut (s : State) (r : MReg) (v : W64) : (wrM s r v).pubOut = s.pubOut := rfl

@[simp] theorem advance_agenda (s : State) : (advance s).agenda = s.agenda := rfl
@[simp] theorem advance_turns (s : State) : (advance s).turns = s.turns := rfl
@[simp] theorem advance_walkSeq (s : State) : (advance s).walkSeq = s.walkSeq := rfl
@[simp] theorem advance_free (s : State) : (advance s).free = s.free := rfl
@[simp] theorem advance_curCore (s : State) : (advance s).curCore = s.curCore := rfl
@[simp] theorem advance_curSlot (s : State) : (advance s).curSlot = s.curSlot := rfl
@[simp] theorem advance_cycle (s : State) : (advance s).cycle = s.cycle := rfl
@[simp] theorem advance_dm (s : State) : (advance s).dm = s.dm := rfl
@[simp] theorem advance_fm (s : State) : (advance s).fm = s.fm := rfl
@[simp] theorem advance_hm (s : State) : (advance s).hm = s.hm := rfl
@[simp] theorem advance_badLines (s : State) : (advance s).badLines = s.badLines := rfl
@[simp] theorem advance_gran (s : State) : (advance s).gran = s.gran := rfl
@[simp] theorem advance_pairKeys (s : State) : (advance s).pairKeys = s.pairKeys := rfl
@[simp] theorem advance_keys (s : State) : (advance s).keys = s.keys := rfl
@[simp] theorem advance_farMark (s : State) : (advance s).farMark = s.farMark := rfl
@[simp] theorem advance_rowTlb (s : State) : (advance s).rowTlb = s.rowTlb := rfl
@[simp] theorem advance_net (s : State) : (advance s).net = s.net := rfl
@[simp] theorem advance_parts (s : State) : (advance s).parts = s.parts := rfl
@[simp] theorem advance_govs (s : State) : (advance s).govs = s.govs := rfl
@[simp] theorem advance_junction (s : State) : (advance s).junction = s.junction := rfl
@[simp] theorem advance_barred (s : State) : (advance s).barred = s.barred := rfl
@[simp] theorem advance_forced (s : State) : (advance s).forced = s.forced := rfl
@[simp] theorem advance_rows (s : State) : (advance s).rows = s.rows := rfl
@[simp] theorem advance_lpddr (s : State) : (advance s).lpddr = s.lpddr := rfl
@[simp] theorem advance_cxlShare (s : State) : (advance s).cxlShare = s.cxlShare := rfl
@[simp] theorem advance_ports (s : State) : (advance s).ports = s.ports := rfl
@[simp] theorem advance_kaz (s : State) : (advance s).kaz = s.kaz := rfl
@[simp] theorem advance_hostLam (s : State) : (advance s).hostLam = s.hostLam := rfl
@[simp] theorem advance_sliceLam (s : State) : (advance s).sliceLam = s.sliceLam := rfl
@[simp] theorem advance_hostReply (s : State) : (advance s).hostReply = s.hostReply := rfl
@[simp] theorem advance_pubOut (s : State) : (advance s).pubOut = s.pubOut := rfl

@[simp] theorem jumpTo_agenda (s : State) (t : VA) : (jumpTo s t).agenda = s.agenda := rfl
@[simp] theorem jumpTo_turns (s : State) (t : VA) : (jumpTo s t).turns = s.turns := rfl
@[simp] theorem jumpTo_walkSeq (s : State) (t : VA) : (jumpTo s t).walkSeq = s.walkSeq := rfl
@[simp] theorem jumpTo_free (s : State) (t : VA) : (jumpTo s t).free = s.free := rfl
@[simp] theorem jumpTo_curCore (s : State) (t : VA) : (jumpTo s t).curCore = s.curCore := rfl
@[simp] theorem jumpTo_curSlot (s : State) (t : VA) : (jumpTo s t).curSlot = s.curSlot := rfl
@[simp] theorem jumpTo_cycle (s : State) (t : VA) : (jumpTo s t).cycle = s.cycle := rfl
@[simp] theorem jumpTo_dm (s : State) (t : VA) : (jumpTo s t).dm = s.dm := rfl
@[simp] theorem jumpTo_fm (s : State) (t : VA) : (jumpTo s t).fm = s.fm := rfl
@[simp] theorem jumpTo_hm (s : State) (t : VA) : (jumpTo s t).hm = s.hm := rfl
@[simp] theorem jumpTo_badLines (s : State) (t : VA) : (jumpTo s t).badLines = s.badLines := rfl
@[simp] theorem jumpTo_gran (s : State) (t : VA) : (jumpTo s t).gran = s.gran := rfl
@[simp] theorem jumpTo_pairKeys (s : State) (t : VA) : (jumpTo s t).pairKeys = s.pairKeys := rfl
@[simp] theorem jumpTo_keys (s : State) (t : VA) : (jumpTo s t).keys = s.keys := rfl
@[simp] theorem jumpTo_farMark (s : State) (t : VA) : (jumpTo s t).farMark = s.farMark := rfl
@[simp] theorem jumpTo_rowTlb (s : State) (t : VA) : (jumpTo s t).rowTlb = s.rowTlb := rfl
@[simp] theorem jumpTo_net (s : State) (t : VA) : (jumpTo s t).net = s.net := rfl
@[simp] theorem jumpTo_parts (s : State) (t : VA) : (jumpTo s t).parts = s.parts := rfl
@[simp] theorem jumpTo_govs (s : State) (t : VA) : (jumpTo s t).govs = s.govs := rfl
@[simp] theorem jumpTo_junction (s : State) (t : VA) : (jumpTo s t).junction = s.junction := rfl
@[simp] theorem jumpTo_barred (s : State) (t : VA) : (jumpTo s t).barred = s.barred := rfl
@[simp] theorem jumpTo_forced (s : State) (t : VA) : (jumpTo s t).forced = s.forced := rfl
@[simp] theorem jumpTo_rows (s : State) (t : VA) : (jumpTo s t).rows = s.rows := rfl
@[simp] theorem jumpTo_lpddr (s : State) (t : VA) : (jumpTo s t).lpddr = s.lpddr := rfl
@[simp] theorem jumpTo_cxlShare (s : State) (t : VA) : (jumpTo s t).cxlShare = s.cxlShare := rfl
@[simp] theorem jumpTo_ports (s : State) (t : VA) : (jumpTo s t).ports = s.ports := rfl
@[simp] theorem jumpTo_kaz (s : State) (t : VA) : (jumpTo s t).kaz = s.kaz := rfl
@[simp] theorem jumpTo_hostLam (s : State) (t : VA) : (jumpTo s t).hostLam = s.hostLam := rfl
@[simp] theorem jumpTo_sliceLam (s : State) (t : VA) : (jumpTo s t).sliceLam = s.sliceLam := rfl
@[simp] theorem jumpTo_hostReply (s : State) (t : VA) : (jumpTo s t).hostReply = s.hostReply := rfl
@[simp] theorem jumpTo_pubOut (s : State) (t : VA) : (jumpTo s t).pubOut = s.pubOut := rfl

@[simp] theorem mapCores_agenda (s : State) (f : Nat → Core → Core) : (mapCores s f).agenda = s.agenda := rfl
@[simp] theorem mapCores_turns (s : State) (f : Nat → Core → Core) : (mapCores s f).turns = s.turns := rfl
@[simp] theorem mapCores_walkSeq (s : State) (f : Nat → Core → Core) : (mapCores s f).walkSeq = s.walkSeq := rfl
@[simp] theorem mapCores_free (s : State) (f : Nat → Core → Core) : (mapCores s f).free = s.free := rfl
@[simp] theorem mapCores_curCore (s : State) (f : Nat → Core → Core) : (mapCores s f).curCore = s.curCore := rfl
@[simp] theorem mapCores_curSlot (s : State) (f : Nat → Core → Core) : (mapCores s f).curSlot = s.curSlot := rfl
@[simp] theorem mapCores_cycle (s : State) (f : Nat → Core → Core) : (mapCores s f).cycle = s.cycle := rfl
@[simp] theorem mapCores_dm (s : State) (f : Nat → Core → Core) : (mapCores s f).dm = s.dm := rfl
@[simp] theorem mapCores_fm (s : State) (f : Nat → Core → Core) : (mapCores s f).fm = s.fm := rfl
@[simp] theorem mapCores_hm (s : State) (f : Nat → Core → Core) : (mapCores s f).hm = s.hm := rfl
@[simp] theorem mapCores_badLines (s : State) (f : Nat → Core → Core) : (mapCores s f).badLines = s.badLines := rfl
@[simp] theorem mapCores_gran (s : State) (f : Nat → Core → Core) : (mapCores s f).gran = s.gran := rfl
@[simp] theorem mapCores_pairKeys (s : State) (f : Nat → Core → Core) : (mapCores s f).pairKeys = s.pairKeys := rfl
@[simp] theorem mapCores_keys (s : State) (f : Nat → Core → Core) : (mapCores s f).keys = s.keys := rfl
@[simp] theorem mapCores_farMark (s : State) (f : Nat → Core → Core) : (mapCores s f).farMark = s.farMark := rfl
@[simp] theorem mapCores_rowTlb (s : State) (f : Nat → Core → Core) : (mapCores s f).rowTlb = s.rowTlb := rfl
@[simp] theorem mapCores_net (s : State) (f : Nat → Core → Core) : (mapCores s f).net = s.net := rfl
@[simp] theorem mapCores_parts (s : State) (f : Nat → Core → Core) : (mapCores s f).parts = s.parts := rfl
@[simp] theorem mapCores_govs (s : State) (f : Nat → Core → Core) : (mapCores s f).govs = s.govs := rfl
@[simp] theorem mapCores_junction (s : State) (f : Nat → Core → Core) : (mapCores s f).junction = s.junction := rfl
@[simp] theorem mapCores_barred (s : State) (f : Nat → Core → Core) : (mapCores s f).barred = s.barred := rfl
@[simp] theorem mapCores_forced (s : State) (f : Nat → Core → Core) : (mapCores s f).forced = s.forced := rfl
@[simp] theorem mapCores_rows (s : State) (f : Nat → Core → Core) : (mapCores s f).rows = s.rows := rfl
@[simp] theorem mapCores_lpddr (s : State) (f : Nat → Core → Core) : (mapCores s f).lpddr = s.lpddr := rfl
@[simp] theorem mapCores_cxlShare (s : State) (f : Nat → Core → Core) : (mapCores s f).cxlShare = s.cxlShare := rfl
@[simp] theorem mapCores_ports (s : State) (f : Nat → Core → Core) : (mapCores s f).ports = s.ports := rfl
@[simp] theorem mapCores_kaz (s : State) (f : Nat → Core → Core) : (mapCores s f).kaz = s.kaz := rfl
@[simp] theorem mapCores_hostLam (s : State) (f : Nat → Core → Core) : (mapCores s f).hostLam = s.hostLam := rfl
@[simp] theorem mapCores_sliceLam (s : State) (f : Nat → Core → Core) : (mapCores s f).sliceLam = s.sliceLam := rfl
@[simp] theorem mapCores_hostReply (s : State) (f : Nat → Core → Core) : (mapCores s f).hostReply = s.hostReply := rfl
@[simp] theorem mapCores_pubOut (s : State) (f : Nat → Core → Core) : (mapCores s f).pubOut = s.pubOut := rfl

@[simp] theorem wakeWhere_agenda (s : State) (p : Resource → Bool) : (wakeWhere s p).agenda = s.agenda := rfl
@[simp] theorem wakeWhere_turns (s : State) (p : Resource → Bool) : (wakeWhere s p).turns = s.turns := rfl
@[simp] theorem wakeWhere_walkSeq (s : State) (p : Resource → Bool) : (wakeWhere s p).walkSeq = s.walkSeq := rfl
@[simp] theorem wakeWhere_free (s : State) (p : Resource → Bool) : (wakeWhere s p).free = s.free := rfl
@[simp] theorem wakeWhere_curCore (s : State) (p : Resource → Bool) : (wakeWhere s p).curCore = s.curCore := rfl
@[simp] theorem wakeWhere_curSlot (s : State) (p : Resource → Bool) : (wakeWhere s p).curSlot = s.curSlot := rfl
@[simp] theorem wakeWhere_cycle (s : State) (p : Resource → Bool) : (wakeWhere s p).cycle = s.cycle := rfl
@[simp] theorem wakeWhere_dm (s : State) (p : Resource → Bool) : (wakeWhere s p).dm = s.dm := rfl
@[simp] theorem wakeWhere_fm (s : State) (p : Resource → Bool) : (wakeWhere s p).fm = s.fm := rfl
@[simp] theorem wakeWhere_hm (s : State) (p : Resource → Bool) : (wakeWhere s p).hm = s.hm := rfl
@[simp] theorem wakeWhere_badLines (s : State) (p : Resource → Bool) : (wakeWhere s p).badLines = s.badLines := rfl
@[simp] theorem wakeWhere_gran (s : State) (p : Resource → Bool) : (wakeWhere s p).gran = s.gran := rfl
@[simp] theorem wakeWhere_pairKeys (s : State) (p : Resource → Bool) : (wakeWhere s p).pairKeys = s.pairKeys := rfl
@[simp] theorem wakeWhere_keys (s : State) (p : Resource → Bool) : (wakeWhere s p).keys = s.keys := rfl
@[simp] theorem wakeWhere_farMark (s : State) (p : Resource → Bool) : (wakeWhere s p).farMark = s.farMark := rfl
@[simp] theorem wakeWhere_rowTlb (s : State) (p : Resource → Bool) : (wakeWhere s p).rowTlb = s.rowTlb := rfl
@[simp] theorem wakeWhere_net (s : State) (p : Resource → Bool) : (wakeWhere s p).net = s.net := rfl
@[simp] theorem wakeWhere_parts (s : State) (p : Resource → Bool) : (wakeWhere s p).parts = s.parts := rfl
@[simp] theorem wakeWhere_govs (s : State) (p : Resource → Bool) : (wakeWhere s p).govs = s.govs := rfl
@[simp] theorem wakeWhere_junction (s : State) (p : Resource → Bool) : (wakeWhere s p).junction = s.junction := rfl
@[simp] theorem wakeWhere_barred (s : State) (p : Resource → Bool) : (wakeWhere s p).barred = s.barred := rfl
@[simp] theorem wakeWhere_forced (s : State) (p : Resource → Bool) : (wakeWhere s p).forced = s.forced := rfl
@[simp] theorem wakeWhere_rows (s : State) (p : Resource → Bool) : (wakeWhere s p).rows = s.rows := rfl
@[simp] theorem wakeWhere_lpddr (s : State) (p : Resource → Bool) : (wakeWhere s p).lpddr = s.lpddr := rfl
@[simp] theorem wakeWhere_cxlShare (s : State) (p : Resource → Bool) : (wakeWhere s p).cxlShare = s.cxlShare := rfl
@[simp] theorem wakeWhere_ports (s : State) (p : Resource → Bool) : (wakeWhere s p).ports = s.ports := rfl
@[simp] theorem wakeWhere_kaz (s : State) (p : Resource → Bool) : (wakeWhere s p).kaz = s.kaz := rfl
@[simp] theorem wakeWhere_hostLam (s : State) (p : Resource → Bool) : (wakeWhere s p).hostLam = s.hostLam := rfl
@[simp] theorem wakeWhere_sliceLam (s : State) (p : Resource → Bool) : (wakeWhere s p).sliceLam = s.sliceLam := rfl
@[simp] theorem wakeWhere_hostReply (s : State) (p : Resource → Bool) : (wakeWhere s p).hostReply = s.hostReply := rfl
@[simp] theorem wakeWhere_pubOut (s : State) (p : Resource → Bool) : (wakeWhere s p).pubOut = s.pubOut := rfl

@[simp] theorem trapReturn_agenda (s : State) : (trapReturn s).agenda = s.agenda := rfl
@[simp] theorem trapReturn_turns (s : State) : (trapReturn s).turns = s.turns := rfl
@[simp] theorem trapReturn_walkSeq (s : State) : (trapReturn s).walkSeq = s.walkSeq := rfl
@[simp] theorem trapReturn_free (s : State) : (trapReturn s).free = s.free := rfl
@[simp] theorem trapReturn_curCore (s : State) : (trapReturn s).curCore = s.curCore := rfl
@[simp] theorem trapReturn_curSlot (s : State) : (trapReturn s).curSlot = s.curSlot := rfl
@[simp] theorem trapReturn_cycle (s : State) : (trapReturn s).cycle = s.cycle := rfl
@[simp] theorem trapReturn_dm (s : State) : (trapReturn s).dm = s.dm := rfl
@[simp] theorem trapReturn_fm (s : State) : (trapReturn s).fm = s.fm := rfl
@[simp] theorem trapReturn_hm (s : State) : (trapReturn s).hm = s.hm := rfl
@[simp] theorem trapReturn_badLines (s : State) : (trapReturn s).badLines = s.badLines := rfl
@[simp] theorem trapReturn_gran (s : State) : (trapReturn s).gran = s.gran := rfl
@[simp] theorem trapReturn_pairKeys (s : State) : (trapReturn s).pairKeys = s.pairKeys := rfl
@[simp] theorem trapReturn_keys (s : State) : (trapReturn s).keys = s.keys := rfl
@[simp] theorem trapReturn_farMark (s : State) : (trapReturn s).farMark = s.farMark := rfl
@[simp] theorem trapReturn_rowTlb (s : State) : (trapReturn s).rowTlb = s.rowTlb := rfl
@[simp] theorem trapReturn_net (s : State) : (trapReturn s).net = s.net := rfl
@[simp] theorem trapReturn_parts (s : State) : (trapReturn s).parts = s.parts := rfl
@[simp] theorem trapReturn_govs (s : State) : (trapReturn s).govs = s.govs := rfl
@[simp] theorem trapReturn_junction (s : State) : (trapReturn s).junction = s.junction := rfl
@[simp] theorem trapReturn_barred (s : State) : (trapReturn s).barred = s.barred := rfl
@[simp] theorem trapReturn_forced (s : State) : (trapReturn s).forced = s.forced := rfl
@[simp] theorem trapReturn_rows (s : State) : (trapReturn s).rows = s.rows := rfl
@[simp] theorem trapReturn_lpddr (s : State) : (trapReturn s).lpddr = s.lpddr := rfl
@[simp] theorem trapReturn_cxlShare (s : State) : (trapReturn s).cxlShare = s.cxlShare := rfl
@[simp] theorem trapReturn_ports (s : State) : (trapReturn s).ports = s.ports := rfl
@[simp] theorem trapReturn_kaz (s : State) : (trapReturn s).kaz = s.kaz := rfl
@[simp] theorem trapReturn_hostLam (s : State) : (trapReturn s).hostLam = s.hostLam := rfl
@[simp] theorem trapReturn_sliceLam (s : State) : (trapReturn s).sliceLam = s.sliceLam := rfl
@[simp] theorem trapReturn_hostReply (s : State) : (trapReturn s).hostReply = s.hostReply := rfl
@[simp] theorem trapReturn_pubOut (s : State) : (trapReturn s).pubOut = s.pubOut := rfl

@[simp] theorem modPart_agenda (s : State) (p : Nat) (f : Partition → Partition) : (modPart s p f).agenda = s.agenda := rfl
@[simp] theorem modPart_turns (s : State) (p : Nat) (f : Partition → Partition) : (modPart s p f).turns = s.turns := rfl
@[simp] theorem modPart_walkSeq (s : State) (p : Nat) (f : Partition → Partition) : (modPart s p f).walkSeq = s.walkSeq := rfl
@[simp] theorem modPart_free (s : State) (p : Nat) (f : Partition → Partition) : (modPart s p f).free = s.free := rfl
@[simp] theorem modPart_curCore (s : State) (p : Nat) (f : Partition → Partition) : (modPart s p f).curCore = s.curCore := rfl
@[simp] theorem modPart_curSlot (s : State) (p : Nat) (f : Partition → Partition) : (modPart s p f).curSlot = s.curSlot := rfl
@[simp] theorem modPart_cycle (s : State) (p : Nat) (f : Partition → Partition) : (modPart s p f).cycle = s.cycle := rfl
@[simp] theorem modPart_cores (s : State) (p : Nat) (f : Partition → Partition) : (modPart s p f).cores = s.cores := rfl
@[simp] theorem modPart_dm (s : State) (p : Nat) (f : Partition → Partition) : (modPart s p f).dm = s.dm := rfl
@[simp] theorem modPart_fm (s : State) (p : Nat) (f : Partition → Partition) : (modPart s p f).fm = s.fm := rfl
@[simp] theorem modPart_hm (s : State) (p : Nat) (f : Partition → Partition) : (modPart s p f).hm = s.hm := rfl
@[simp] theorem modPart_badLines (s : State) (p : Nat) (f : Partition → Partition) : (modPart s p f).badLines = s.badLines := rfl
@[simp] theorem modPart_gran (s : State) (p : Nat) (f : Partition → Partition) : (modPart s p f).gran = s.gran := rfl
@[simp] theorem modPart_pairKeys (s : State) (p : Nat) (f : Partition → Partition) : (modPart s p f).pairKeys = s.pairKeys := rfl
@[simp] theorem modPart_keys (s : State) (p : Nat) (f : Partition → Partition) : (modPart s p f).keys = s.keys := rfl
@[simp] theorem modPart_farMark (s : State) (p : Nat) (f : Partition → Partition) : (modPart s p f).farMark = s.farMark := rfl
@[simp] theorem modPart_rowTlb (s : State) (p : Nat) (f : Partition → Partition) : (modPart s p f).rowTlb = s.rowTlb := rfl
@[simp] theorem modPart_net (s : State) (p : Nat) (f : Partition → Partition) : (modPart s p f).net = s.net := rfl
@[simp] theorem modPart_govs (s : State) (p : Nat) (f : Partition → Partition) : (modPart s p f).govs = s.govs := rfl
@[simp] theorem modPart_junction (s : State) (p : Nat) (f : Partition → Partition) : (modPart s p f).junction = s.junction := rfl
@[simp] theorem modPart_barred (s : State) (p : Nat) (f : Partition → Partition) : (modPart s p f).barred = s.barred := rfl
@[simp] theorem modPart_forced (s : State) (p : Nat) (f : Partition → Partition) : (modPart s p f).forced = s.forced := rfl
@[simp] theorem modPart_rows (s : State) (p : Nat) (f : Partition → Partition) : (modPart s p f).rows = s.rows := rfl
@[simp] theorem modPart_lpddr (s : State) (p : Nat) (f : Partition → Partition) : (modPart s p f).lpddr = s.lpddr := rfl
@[simp] theorem modPart_cxlShare (s : State) (p : Nat) (f : Partition → Partition) : (modPart s p f).cxlShare = s.cxlShare := rfl
@[simp] theorem modPart_ports (s : State) (p : Nat) (f : Partition → Partition) : (modPart s p f).ports = s.ports := rfl
@[simp] theorem modPart_kaz (s : State) (p : Nat) (f : Partition → Partition) : (modPart s p f).kaz = s.kaz := rfl
@[simp] theorem modPart_hostLam (s : State) (p : Nat) (f : Partition → Partition) : (modPart s p f).hostLam = s.hostLam := rfl
@[simp] theorem modPart_sliceLam (s : State) (p : Nat) (f : Partition → Partition) : (modPart s p f).sliceLam = s.sliceLam := rfl
@[simp] theorem modPart_hostReply (s : State) (p : Nat) (f : Partition → Partition) : (modPart s p f).hostReply = s.hostReply := rfl
@[simp] theorem modPart_pubOut (s : State) (p : Nat) (f : Partition → Partition) : (modPart s p f).pubOut = s.pubOut := rfl

@[simp] theorem modGov_agenda (s : State) (d : Nat) (f : Governor → Governor) : (modGov s d f).agenda = s.agenda := rfl
@[simp] theorem modGov_turns (s : State) (d : Nat) (f : Governor → Governor) : (modGov s d f).turns = s.turns := rfl
@[simp] theorem modGov_walkSeq (s : State) (d : Nat) (f : Governor → Governor) : (modGov s d f).walkSeq = s.walkSeq := rfl
@[simp] theorem modGov_free (s : State) (d : Nat) (f : Governor → Governor) : (modGov s d f).free = s.free := rfl
@[simp] theorem modGov_curCore (s : State) (d : Nat) (f : Governor → Governor) : (modGov s d f).curCore = s.curCore := rfl
@[simp] theorem modGov_curSlot (s : State) (d : Nat) (f : Governor → Governor) : (modGov s d f).curSlot = s.curSlot := rfl
@[simp] theorem modGov_cycle (s : State) (d : Nat) (f : Governor → Governor) : (modGov s d f).cycle = s.cycle := rfl
@[simp] theorem modGov_cores (s : State) (d : Nat) (f : Governor → Governor) : (modGov s d f).cores = s.cores := rfl
@[simp] theorem modGov_dm (s : State) (d : Nat) (f : Governor → Governor) : (modGov s d f).dm = s.dm := rfl
@[simp] theorem modGov_fm (s : State) (d : Nat) (f : Governor → Governor) : (modGov s d f).fm = s.fm := rfl
@[simp] theorem modGov_hm (s : State) (d : Nat) (f : Governor → Governor) : (modGov s d f).hm = s.hm := rfl
@[simp] theorem modGov_badLines (s : State) (d : Nat) (f : Governor → Governor) : (modGov s d f).badLines = s.badLines := rfl
@[simp] theorem modGov_gran (s : State) (d : Nat) (f : Governor → Governor) : (modGov s d f).gran = s.gran := rfl
@[simp] theorem modGov_pairKeys (s : State) (d : Nat) (f : Governor → Governor) : (modGov s d f).pairKeys = s.pairKeys := rfl
@[simp] theorem modGov_keys (s : State) (d : Nat) (f : Governor → Governor) : (modGov s d f).keys = s.keys := rfl
@[simp] theorem modGov_farMark (s : State) (d : Nat) (f : Governor → Governor) : (modGov s d f).farMark = s.farMark := rfl
@[simp] theorem modGov_rowTlb (s : State) (d : Nat) (f : Governor → Governor) : (modGov s d f).rowTlb = s.rowTlb := rfl
@[simp] theorem modGov_net (s : State) (d : Nat) (f : Governor → Governor) : (modGov s d f).net = s.net := rfl
@[simp] theorem modGov_parts (s : State) (d : Nat) (f : Governor → Governor) : (modGov s d f).parts = s.parts := rfl
@[simp] theorem modGov_junction (s : State) (d : Nat) (f : Governor → Governor) : (modGov s d f).junction = s.junction := rfl
@[simp] theorem modGov_barred (s : State) (d : Nat) (f : Governor → Governor) : (modGov s d f).barred = s.barred := rfl
@[simp] theorem modGov_forced (s : State) (d : Nat) (f : Governor → Governor) : (modGov s d f).forced = s.forced := rfl
@[simp] theorem modGov_rows (s : State) (d : Nat) (f : Governor → Governor) : (modGov s d f).rows = s.rows := rfl
@[simp] theorem modGov_lpddr (s : State) (d : Nat) (f : Governor → Governor) : (modGov s d f).lpddr = s.lpddr := rfl
@[simp] theorem modGov_cxlShare (s : State) (d : Nat) (f : Governor → Governor) : (modGov s d f).cxlShare = s.cxlShare := rfl
@[simp] theorem modGov_ports (s : State) (d : Nat) (f : Governor → Governor) : (modGov s d f).ports = s.ports := rfl
@[simp] theorem modGov_kaz (s : State) (d : Nat) (f : Governor → Governor) : (modGov s d f).kaz = s.kaz := rfl
@[simp] theorem modGov_hostLam (s : State) (d : Nat) (f : Governor → Governor) : (modGov s d f).hostLam = s.hostLam := rfl
@[simp] theorem modGov_sliceLam (s : State) (d : Nat) (f : Governor → Governor) : (modGov s d f).sliceLam = s.sliceLam := rfl
@[simp] theorem modGov_hostReply (s : State) (d : Nat) (f : Governor → Governor) : (modGov s d f).hostReply = s.hostReply := rfl
@[simp] theorem modGov_pubOut (s : State) (d : Nat) (f : Governor → Governor) : (modGov s d f).pubOut = s.pubOut := rfl

@[simp] theorem modPort_agenda (s : State) (j : Nat) (f : Port → Port) : (modPort s j f).agenda = s.agenda := rfl
@[simp] theorem modPort_turns (s : State) (j : Nat) (f : Port → Port) : (modPort s j f).turns = s.turns := rfl
@[simp] theorem modPort_walkSeq (s : State) (j : Nat) (f : Port → Port) : (modPort s j f).walkSeq = s.walkSeq := rfl
@[simp] theorem modPort_free (s : State) (j : Nat) (f : Port → Port) : (modPort s j f).free = s.free := rfl
@[simp] theorem modPort_curCore (s : State) (j : Nat) (f : Port → Port) : (modPort s j f).curCore = s.curCore := rfl
@[simp] theorem modPort_curSlot (s : State) (j : Nat) (f : Port → Port) : (modPort s j f).curSlot = s.curSlot := rfl
@[simp] theorem modPort_cycle (s : State) (j : Nat) (f : Port → Port) : (modPort s j f).cycle = s.cycle := rfl
@[simp] theorem modPort_cores (s : State) (j : Nat) (f : Port → Port) : (modPort s j f).cores = s.cores := rfl
@[simp] theorem modPort_dm (s : State) (j : Nat) (f : Port → Port) : (modPort s j f).dm = s.dm := rfl
@[simp] theorem modPort_fm (s : State) (j : Nat) (f : Port → Port) : (modPort s j f).fm = s.fm := rfl
@[simp] theorem modPort_hm (s : State) (j : Nat) (f : Port → Port) : (modPort s j f).hm = s.hm := rfl
@[simp] theorem modPort_badLines (s : State) (j : Nat) (f : Port → Port) : (modPort s j f).badLines = s.badLines := rfl
@[simp] theorem modPort_gran (s : State) (j : Nat) (f : Port → Port) : (modPort s j f).gran = s.gran := rfl
@[simp] theorem modPort_pairKeys (s : State) (j : Nat) (f : Port → Port) : (modPort s j f).pairKeys = s.pairKeys := rfl
@[simp] theorem modPort_keys (s : State) (j : Nat) (f : Port → Port) : (modPort s j f).keys = s.keys := rfl
@[simp] theorem modPort_farMark (s : State) (j : Nat) (f : Port → Port) : (modPort s j f).farMark = s.farMark := rfl
@[simp] theorem modPort_rowTlb (s : State) (j : Nat) (f : Port → Port) : (modPort s j f).rowTlb = s.rowTlb := rfl
@[simp] theorem modPort_net (s : State) (j : Nat) (f : Port → Port) : (modPort s j f).net = s.net := rfl
@[simp] theorem modPort_parts (s : State) (j : Nat) (f : Port → Port) : (modPort s j f).parts = s.parts := rfl
@[simp] theorem modPort_govs (s : State) (j : Nat) (f : Port → Port) : (modPort s j f).govs = s.govs := rfl
@[simp] theorem modPort_junction (s : State) (j : Nat) (f : Port → Port) : (modPort s j f).junction = s.junction := rfl
@[simp] theorem modPort_barred (s : State) (j : Nat) (f : Port → Port) : (modPort s j f).barred = s.barred := rfl
@[simp] theorem modPort_forced (s : State) (j : Nat) (f : Port → Port) : (modPort s j f).forced = s.forced := rfl
@[simp] theorem modPort_rows (s : State) (j : Nat) (f : Port → Port) : (modPort s j f).rows = s.rows := rfl
@[simp] theorem modPort_lpddr (s : State) (j : Nat) (f : Port → Port) : (modPort s j f).lpddr = s.lpddr := rfl
@[simp] theorem modPort_cxlShare (s : State) (j : Nat) (f : Port → Port) : (modPort s j f).cxlShare = s.cxlShare := rfl
@[simp] theorem modPort_kaz (s : State) (j : Nat) (f : Port → Port) : (modPort s j f).kaz = s.kaz := rfl
@[simp] theorem modPort_hostLam (s : State) (j : Nat) (f : Port → Port) : (modPort s j f).hostLam = s.hostLam := rfl
@[simp] theorem modPort_sliceLam (s : State) (j : Nat) (f : Port → Port) : (modPort s j f).sliceLam = s.sliceLam := rfl
@[simp] theorem modPort_hostReply (s : State) (j : Nat) (f : Port → Port) : (modPort s j f).hostReply = s.hostReply := rfl
@[simp] theorem modPort_pubOut (s : State) (j : Nat) (f : Port → Port) : (modPort s j f).pubOut = s.pubOut := rfl

@[simp] theorem setMem_dev_agenda (s : State) (m : List Host.Cell) : (setMem s .dev m).agenda = s.agenda := rfl
@[simp] theorem setMem_dev_turns (s : State) (m : List Host.Cell) : (setMem s .dev m).turns = s.turns := rfl
@[simp] theorem setMem_dev_walkSeq (s : State) (m : List Host.Cell) : (setMem s .dev m).walkSeq = s.walkSeq := rfl
@[simp] theorem setMem_dev_free (s : State) (m : List Host.Cell) : (setMem s .dev m).free = s.free := rfl
@[simp] theorem setMem_dev_curCore (s : State) (m : List Host.Cell) : (setMem s .dev m).curCore = s.curCore := rfl
@[simp] theorem setMem_dev_curSlot (s : State) (m : List Host.Cell) : (setMem s .dev m).curSlot = s.curSlot := rfl
@[simp] theorem setMem_dev_cycle (s : State) (m : List Host.Cell) : (setMem s .dev m).cycle = s.cycle := rfl
@[simp] theorem setMem_dev_cores (s : State) (m : List Host.Cell) : (setMem s .dev m).cores = s.cores := rfl
@[simp] theorem setMem_dev_dm (s : State) (m : List Host.Cell) : (setMem s .dev m).dm = m := rfl
@[simp] theorem setMem_dev_fm (s : State) (m : List Host.Cell) : (setMem s .dev m).fm = s.fm := rfl
@[simp] theorem setMem_dev_hm (s : State) (m : List Host.Cell) : (setMem s .dev m).hm = s.hm := rfl
@[simp] theorem setMem_dev_badLines (s : State) (m : List Host.Cell) : (setMem s .dev m).badLines = s.badLines := rfl
@[simp] theorem setMem_dev_gran (s : State) (m : List Host.Cell) : (setMem s .dev m).gran = s.gran := rfl
@[simp] theorem setMem_dev_pairKeys (s : State) (m : List Host.Cell) : (setMem s .dev m).pairKeys = s.pairKeys := rfl
@[simp] theorem setMem_dev_keys (s : State) (m : List Host.Cell) : (setMem s .dev m).keys = s.keys := rfl
@[simp] theorem setMem_dev_farMark (s : State) (m : List Host.Cell) : (setMem s .dev m).farMark = s.farMark := rfl
@[simp] theorem setMem_dev_rowTlb (s : State) (m : List Host.Cell) : (setMem s .dev m).rowTlb = s.rowTlb := rfl
@[simp] theorem setMem_dev_net (s : State) (m : List Host.Cell) : (setMem s .dev m).net = s.net := rfl
@[simp] theorem setMem_dev_parts (s : State) (m : List Host.Cell) : (setMem s .dev m).parts = s.parts := rfl
@[simp] theorem setMem_dev_govs (s : State) (m : List Host.Cell) : (setMem s .dev m).govs = s.govs := rfl
@[simp] theorem setMem_dev_junction (s : State) (m : List Host.Cell) : (setMem s .dev m).junction = s.junction := rfl
@[simp] theorem setMem_dev_barred (s : State) (m : List Host.Cell) : (setMem s .dev m).barred = s.barred := rfl
@[simp] theorem setMem_dev_forced (s : State) (m : List Host.Cell) : (setMem s .dev m).forced = s.forced := rfl
@[simp] theorem setMem_dev_rows (s : State) (m : List Host.Cell) : (setMem s .dev m).rows = s.rows := rfl
@[simp] theorem setMem_dev_lpddr (s : State) (m : List Host.Cell) : (setMem s .dev m).lpddr = s.lpddr := rfl
@[simp] theorem setMem_dev_cxlShare (s : State) (m : List Host.Cell) : (setMem s .dev m).cxlShare = s.cxlShare := rfl
@[simp] theorem setMem_dev_ports (s : State) (m : List Host.Cell) : (setMem s .dev m).ports = s.ports := rfl
@[simp] theorem setMem_dev_kaz (s : State) (m : List Host.Cell) : (setMem s .dev m).kaz = s.kaz := rfl
@[simp] theorem setMem_dev_hostLam (s : State) (m : List Host.Cell) : (setMem s .dev m).hostLam = s.hostLam := rfl
@[simp] theorem setMem_dev_sliceLam (s : State) (m : List Host.Cell) : (setMem s .dev m).sliceLam = s.sliceLam := rfl
@[simp] theorem setMem_dev_hostReply (s : State) (m : List Host.Cell) : (setMem s .dev m).hostReply = s.hostReply := rfl
@[simp] theorem setMem_dev_pubOut (s : State) (m : List Host.Cell) : (setMem s .dev m).pubOut = s.pubOut := rfl
@[simp] theorem setMem_far_agenda (s : State) (m : List Host.Cell) : (setMem s .far m).agenda = s.agenda := rfl
@[simp] theorem setMem_far_turns (s : State) (m : List Host.Cell) : (setMem s .far m).turns = s.turns := rfl
@[simp] theorem setMem_far_walkSeq (s : State) (m : List Host.Cell) : (setMem s .far m).walkSeq = s.walkSeq := rfl
@[simp] theorem setMem_far_free (s : State) (m : List Host.Cell) : (setMem s .far m).free = s.free := rfl
@[simp] theorem setMem_far_curCore (s : State) (m : List Host.Cell) : (setMem s .far m).curCore = s.curCore := rfl
@[simp] theorem setMem_far_curSlot (s : State) (m : List Host.Cell) : (setMem s .far m).curSlot = s.curSlot := rfl
@[simp] theorem setMem_far_cycle (s : State) (m : List Host.Cell) : (setMem s .far m).cycle = s.cycle := rfl
@[simp] theorem setMem_far_cores (s : State) (m : List Host.Cell) : (setMem s .far m).cores = s.cores := rfl
@[simp] theorem setMem_far_dm (s : State) (m : List Host.Cell) : (setMem s .far m).dm = s.dm := rfl
@[simp] theorem setMem_far_fm (s : State) (m : List Host.Cell) : (setMem s .far m).fm = m := rfl
@[simp] theorem setMem_far_hm (s : State) (m : List Host.Cell) : (setMem s .far m).hm = s.hm := rfl
@[simp] theorem setMem_far_badLines (s : State) (m : List Host.Cell) : (setMem s .far m).badLines = s.badLines := rfl
@[simp] theorem setMem_far_gran (s : State) (m : List Host.Cell) : (setMem s .far m).gran = s.gran := rfl
@[simp] theorem setMem_far_pairKeys (s : State) (m : List Host.Cell) : (setMem s .far m).pairKeys = s.pairKeys := rfl
@[simp] theorem setMem_far_keys (s : State) (m : List Host.Cell) : (setMem s .far m).keys = s.keys := rfl
@[simp] theorem setMem_far_farMark (s : State) (m : List Host.Cell) : (setMem s .far m).farMark = s.farMark := rfl
@[simp] theorem setMem_far_rowTlb (s : State) (m : List Host.Cell) : (setMem s .far m).rowTlb = s.rowTlb := rfl
@[simp] theorem setMem_far_net (s : State) (m : List Host.Cell) : (setMem s .far m).net = s.net := rfl
@[simp] theorem setMem_far_parts (s : State) (m : List Host.Cell) : (setMem s .far m).parts = s.parts := rfl
@[simp] theorem setMem_far_govs (s : State) (m : List Host.Cell) : (setMem s .far m).govs = s.govs := rfl
@[simp] theorem setMem_far_junction (s : State) (m : List Host.Cell) : (setMem s .far m).junction = s.junction := rfl
@[simp] theorem setMem_far_barred (s : State) (m : List Host.Cell) : (setMem s .far m).barred = s.barred := rfl
@[simp] theorem setMem_far_forced (s : State) (m : List Host.Cell) : (setMem s .far m).forced = s.forced := rfl
@[simp] theorem setMem_far_rows (s : State) (m : List Host.Cell) : (setMem s .far m).rows = s.rows := rfl
@[simp] theorem setMem_far_lpddr (s : State) (m : List Host.Cell) : (setMem s .far m).lpddr = s.lpddr := rfl
@[simp] theorem setMem_far_cxlShare (s : State) (m : List Host.Cell) : (setMem s .far m).cxlShare = s.cxlShare := rfl
@[simp] theorem setMem_far_ports (s : State) (m : List Host.Cell) : (setMem s .far m).ports = s.ports := rfl
@[simp] theorem setMem_far_kaz (s : State) (m : List Host.Cell) : (setMem s .far m).kaz = s.kaz := rfl
@[simp] theorem setMem_far_hostLam (s : State) (m : List Host.Cell) : (setMem s .far m).hostLam = s.hostLam := rfl
@[simp] theorem setMem_far_sliceLam (s : State) (m : List Host.Cell) : (setMem s .far m).sliceLam = s.sliceLam := rfl
@[simp] theorem setMem_far_hostReply (s : State) (m : List Host.Cell) : (setMem s .far m).hostReply = s.hostReply := rfl
@[simp] theorem setMem_far_pubOut (s : State) (m : List Host.Cell) : (setMem s .far m).pubOut = s.pubOut := rfl
@[simp] theorem setMem_host_agenda (s : State) (m : List Host.Cell) : (setMem s .host m).agenda = s.agenda := rfl
@[simp] theorem setMem_host_turns (s : State) (m : List Host.Cell) : (setMem s .host m).turns = s.turns := rfl
@[simp] theorem setMem_host_walkSeq (s : State) (m : List Host.Cell) : (setMem s .host m).walkSeq = s.walkSeq := rfl
@[simp] theorem setMem_host_free (s : State) (m : List Host.Cell) : (setMem s .host m).free = s.free := rfl
@[simp] theorem setMem_host_curCore (s : State) (m : List Host.Cell) : (setMem s .host m).curCore = s.curCore := rfl
@[simp] theorem setMem_host_curSlot (s : State) (m : List Host.Cell) : (setMem s .host m).curSlot = s.curSlot := rfl
@[simp] theorem setMem_host_cycle (s : State) (m : List Host.Cell) : (setMem s .host m).cycle = s.cycle := rfl
@[simp] theorem setMem_host_cores (s : State) (m : List Host.Cell) : (setMem s .host m).cores = s.cores := rfl
@[simp] theorem setMem_host_dm (s : State) (m : List Host.Cell) : (setMem s .host m).dm = s.dm := rfl
@[simp] theorem setMem_host_fm (s : State) (m : List Host.Cell) : (setMem s .host m).fm = s.fm := rfl
@[simp] theorem setMem_host_hm (s : State) (m : List Host.Cell) : (setMem s .host m).hm = m := rfl
@[simp] theorem setMem_host_badLines (s : State) (m : List Host.Cell) : (setMem s .host m).badLines = s.badLines := rfl
@[simp] theorem setMem_host_gran (s : State) (m : List Host.Cell) : (setMem s .host m).gran = s.gran := rfl
@[simp] theorem setMem_host_pairKeys (s : State) (m : List Host.Cell) : (setMem s .host m).pairKeys = s.pairKeys := rfl
@[simp] theorem setMem_host_keys (s : State) (m : List Host.Cell) : (setMem s .host m).keys = s.keys := rfl
@[simp] theorem setMem_host_farMark (s : State) (m : List Host.Cell) : (setMem s .host m).farMark = s.farMark := rfl
@[simp] theorem setMem_host_rowTlb (s : State) (m : List Host.Cell) : (setMem s .host m).rowTlb = s.rowTlb := rfl
@[simp] theorem setMem_host_net (s : State) (m : List Host.Cell) : (setMem s .host m).net = s.net := rfl
@[simp] theorem setMem_host_parts (s : State) (m : List Host.Cell) : (setMem s .host m).parts = s.parts := rfl
@[simp] theorem setMem_host_govs (s : State) (m : List Host.Cell) : (setMem s .host m).govs = s.govs := rfl
@[simp] theorem setMem_host_junction (s : State) (m : List Host.Cell) : (setMem s .host m).junction = s.junction := rfl
@[simp] theorem setMem_host_barred (s : State) (m : List Host.Cell) : (setMem s .host m).barred = s.barred := rfl
@[simp] theorem setMem_host_forced (s : State) (m : List Host.Cell) : (setMem s .host m).forced = s.forced := rfl
@[simp] theorem setMem_host_rows (s : State) (m : List Host.Cell) : (setMem s .host m).rows = s.rows := rfl
@[simp] theorem setMem_host_lpddr (s : State) (m : List Host.Cell) : (setMem s .host m).lpddr = s.lpddr := rfl
@[simp] theorem setMem_host_cxlShare (s : State) (m : List Host.Cell) : (setMem s .host m).cxlShare = s.cxlShare := rfl
@[simp] theorem setMem_host_ports (s : State) (m : List Host.Cell) : (setMem s .host m).ports = s.ports := rfl
@[simp] theorem setMem_host_kaz (s : State) (m : List Host.Cell) : (setMem s .host m).kaz = s.kaz := rfl
@[simp] theorem setMem_host_hostLam (s : State) (m : List Host.Cell) : (setMem s .host m).hostLam = s.hostLam := rfl
@[simp] theorem setMem_host_sliceLam (s : State) (m : List Host.Cell) : (setMem s .host m).sliceLam = s.sliceLam := rfl
@[simp] theorem setMem_host_hostReply (s : State) (m : List Host.Cell) : (setMem s .host m).hostReply = s.hostReply := rfl
@[simp] theorem setMem_host_pubOut (s : State) (m : List Host.Cell) : (setMem s .host m).pubOut = s.pubOut := rfl

/-! ## Core -/

@[simp] theorem Core.modSlot_cyc (k : Core) (n : Nat) (f : Slot → Slot) : (k.modSlot n f).cyc = k.cyc := rfl
@[simp] theorem Core.modSlot_sp (k : Core) (n : Nat) (f : Slot → Slot) : (k.modSlot n f).sp = k.sp := rfl
@[simp] theorem Core.modSlot_fe (k : Core) (n : Nat) (f : Slot → Slot) : (k.modSlot n f).fe = k.fe := rfl
@[simp] theorem Core.modSlot_spBad (k : Core) (n : Nat) (f : Slot → Slot) : (k.modSlot n f).spBad = k.spBad := rfl
@[simp] theorem Core.modSlot_acc (k : Core) (n : Nat) (f : Slot → Slot) : (k.modSlot n f).acc = k.acc := rfl
@[simp] theorem Core.modSlot_l1 (k : Core) (n : Nat) (f : Slot → Slot) : (k.modSlot n f).l1 = k.l1 := rfl
@[simp] theorem Core.modSlot_l1Gone (k : Core) (n : Nat) (f : Slot → Slot) : (k.modSlot n f).l1Gone = k.l1Gone := rfl
@[simp] theorem Core.modSlot_dq (k : Core) (n : Nat) (f : Slot → Slot) : (k.modSlot n f).dq = k.dq := rfl
@[simp] theorem Core.modSlot_bq (k : Core) (n : Nat) (f : Slot → Slot) : (k.modSlot n f).bq = k.bq := rfl
@[simp] theorem Core.modSlot_link (k : Core) (n : Nat) (f : Slot → Slot) : (k.modSlot n f).link = k.link := rfl
@[simp] theorem Core.modSlot_linkCr (k : Core) (n : Nat) (f : Slot → Slot) : (k.modSlot n f).linkCr = k.linkCr := rfl
@[simp] theorem Core.modSlot_chans (k : Core) (n : Nat) (f : Slot → Slot) : (k.modSlot n f).chans = k.chans := rfl
@[simp] theorem Core.modSlot_chFree (k : Core) (n : Nat) (f : Slot → Slot) : (k.modSlot n f).chFree = k.chFree := rfl
@[simp] theorem Core.modSlot_chHeld (k : Core) (n : Nat) (f : Slot → Slot) : (k.modSlot n f).chHeld = k.chHeld := rfl
@[simp] theorem Core.modSlot_credits (k : Core) (n : Nat) (f : Slot → Slot) : (k.modSlot n f).credits = k.credits := rfl
@[simp] theorem Core.modSlot_creditAsked (k : Core) (n : Nat) (f : Slot → Slot) : (k.modSlot n f).creditAsked = k.creditAsked := rfl
@[simp] theorem Core.modSlot_pressCr (k : Core) (n : Nat) (f : Slot → Slot) : (k.modSlot n f).pressCr = k.pressCr := rfl
@[simp] theorem Core.modSlot_pressAsked (k : Core) (n : Nat) (f : Slot → Slot) : (k.modSlot n f).pressAsked = k.pressAsked := rfl
@[simp] theorem Core.modSlot_cmdFree (k : Core) (n : Nat) (f : Slot → Slot) : (k.modSlot n f).cmdFree = k.cmdFree := rfl
@[simp] theorem Core.modSlot_cmdHeld (k : Core) (n : Nat) (f : Slot → Slot) : (k.modSlot n f).cmdHeld = k.cmdHeld := rfl
@[simp] theorem Core.modSlot_mb (k : Core) (n : Nat) (f : Slot → Slot) : (k.modSlot n f).mb = k.mb := rfl
@[simp] theorem Core.modSlot_mbFull (k : Core) (n : Nat) (f : Slot → Slot) : (k.modSlot n f).mbFull = k.mbFull := rfl
@[simp] theorem Core.modSlot_mbRel (k : Core) (n : Nat) (f : Slot → Slot) : (k.modSlot n f).mbRel = k.mbRel := rfl
@[simp] theorem Core.modSlot_dqHead (k : Core) (n : Nat) (f : Slot → Slot) : (k.modSlot n f).dqHead = k.dqHead := rfl
@[simp] theorem Core.modSlot_dqTail (k : Core) (n : Nat) (f : Slot → Slot) : (k.modSlot n f).dqTail = k.dqTail := rfl
@[simp] theorem Core.modSlot_landings (k : Core) (n : Nat) (f : Slot → Slot) : (k.modSlot n f).landings = k.landings := rfl
@[simp] theorem Core.modSlot_failedSteals (k : Core) (n : Nat) (f : Slot → Slot) : (k.modSlot n f).failedSteals = k.failedSteals := rfl
@[simp] theorem Core.modSlot_search (k : Core) (n : Nat) (f : Slot → Slot) : (k.modSlot n f).search = k.search := rfl
@[simp] theorem Core.modSlot_xdMarks (k : Core) (n : Nat) (f : Slot → Slot) : (k.modSlot n f).xdMarks = k.xdMarks := rfl
@[simp] theorem Core.modSlot_shadow (k : Core) (n : Nat) (f : Slot → Slot) : (k.modSlot n f).shadow = k.shadow := rfl
@[simp] theorem Core.modSlot_view (k : Core) (n : Nat) (f : Slot → Slot) : (k.modSlot n f).view = k.view := rfl
@[simp] theorem Core.modSlot_viewAsk (k : Core) (n : Nat) (f : Slot → Slot) : (k.modSlot n f).viewAsk = k.viewAsk := rfl
@[simp] theorem Core.modSlot_viewNeed (k : Core) (n : Nat) (f : Slot → Slot) : (k.modSlot n f).viewNeed = k.viewNeed := rfl
@[simp] theorem Core.modSlot_utlb (k : Core) (n : Nat) (f : Slot → Slot) : (k.modSlot n f).utlb = k.utlb := rfl
@[simp] theorem Core.modSlot_walks (k : Core) (n : Nat) (f : Slot → Slot) : (k.modSlot n f).walks = k.walks := rfl
@[simp] theorem Core.modSlot_fills (k : Core) (n : Nat) (f : Slot → Slot) : (k.modSlot n f).fills = k.fills := rfl
@[simp] theorem Core.modSlot_leaseAt (k : Core) (n : Nat) (f : Slot → Slot) : (k.modSlot n f).leaseAt = k.leaseAt := rfl
@[simp] theorem Core.modSlot_psb (k : Core) (n : Nat) (f : Slot → Slot) : (k.modSlot n f).psb = k.psb := rfl
@[simp] theorem Core.modSlot_rounds (k : Core) (n : Nat) (f : Slot → Slot) : (k.modSlot n f).rounds = k.rounds := rfl
@[simp] theorem Core.modSlot_passes (k : Core) (n : Nat) (f : Slot → Slot) : (k.modSlot n f).passes = k.passes := rfl
@[simp] theorem Core.modSlot_nextId (k : Core) (n : Nat) (f : Slot → Slot) : (k.modSlot n f).nextId = k.nextId := rfl
@[simp] theorem Core.modSlot_pressEnd (k : Core) (n : Nat) (f : Slot → Slot) : (k.modSlot n f).pressEnd = k.pressEnd := rfl
@[simp] theorem Core.modSlot_pressRun (k : Core) (n : Nat) (f : Slot → Slot) : (k.modSlot n f).pressRun = k.pressRun := rfl
@[simp] theorem Core.modSlot_pressWait (k : Core) (n : Nat) (f : Slot → Slot) : (k.modSlot n f).pressWait = k.pressWait := rfl
@[simp] theorem Core.modSlot_cmdQ (k : Core) (n : Nat) (f : Slot → Slot) : (k.modSlot n f).cmdQ = k.cmdQ := rfl
@[simp] theorem Core.modSlot_shareQ (k : Core) (n : Nat) (f : Slot → Slot) : (k.modSlot n f).shareQ = k.shareQ := rfl
@[simp] theorem Core.modSlot_copies (k : Core) (n : Nat) (f : Slot → Slot) : (k.modSlot n f).copies = k.copies := rfl
@[simp] theorem Core.modSlot_accOps (k : Core) (n : Nat) (f : Slot → Slot) : (k.modSlot n f).accOps = k.accOps := rfl
@[simp] theorem Core.modSlot_seamBusy (k : Core) (n : Nat) (f : Slot → Slot) : (k.modSlot n f).seamBusy = k.seamBusy := rfl
@[simp] theorem Core.modSlot_engTraps (k : Core) (n : Nat) (f : Slot → Slot) : (k.modSlot n f).engTraps = k.engTraps := rfl
@[simp] theorem Core.modSlot_spin (k : Core) (n : Nat) (f : Slot → Slot) : (k.modSlot n f).spin = k.spin := rfl
@[simp] theorem Core.modSlot_gearEff (k : Core) (n : Nat) (f : Slot → Slot) : (k.modSlot n f).gearEff = k.gearEff := rfl
@[simp] theorem Core.modSlot_autosoak (k : Core) (n : Nat) (f : Slot → Slot) : (k.modSlot n f).autosoak = k.autosoak := rfl
@[simp] theorem Core.modSlot_calm (k : Core) (n : Nat) (f : Slot → Slot) : (k.modSlot n f).calm = k.calm := rfl
@[simp] theorem Core.modSlot_restoreReq (k : Core) (n : Nat) (f : Slot → Slot) : (k.modSlot n f).restoreReq = k.restoreReq := rfl
@[simp] theorem Core.modSlot_task (k : Core) (n : Nat) (f : Slot → Slot) : (k.modSlot n f).task = k.task := rfl
@[simp] theorem Core.modSlot_ended (k : Core) (n : Nat) (f : Slot → Slot) : (k.modSlot n f).ended = k.ended := rfl
@[simp] theorem Core.modSlot_endMark (k : Core) (n : Nat) (f : Slot → Slot) : (k.modSlot n f).endMark = k.endMark := rfl
@[simp] theorem Core.modSlot_bars (k : Core) (n : Nat) (f : Slot → Slot) : (k.modSlot n f).bars = k.bars := rfl
@[simp] theorem Core.modSlot_lamport (k : Core) (n : Nat) (f : Slot → Slot) : (k.modSlot n f).lamport = k.lamport := rfl
@[simp] theorem Core.modSlot_pressLam (k : Core) (n : Nat) (f : Slot → Slot) : (k.modSlot n f).pressLam = k.pressLam := rfl
@[simp] theorem Core.modSlot_copyLam (k : Core) (n : Nat) (f : Slot → Slot) : (k.modSlot n f).copyLam = k.copyLam := rfl
@[simp] theorem Core.modSlot_vents (k : Core) (n : Nat) (f : Slot → Slot) : (k.modSlot n f).vents = k.vents := rfl
@[simp] theorem Core.modSlot_tick (k : Core) (n : Nat) (f : Slot → Slot) : (k.modSlot n f).tick = k.tick := rfl
@[simp] theorem Core.modSlot_creditTick (k : Core) (n : Nat) (f : Slot → Slot) : (k.modSlot n f).creditTick = k.creditTick := rfl
@[simp] theorem Core.modSlot_save (k : Core) (n : Nat) (f : Slot → Slot) : (k.modSlot n f).save = k.save := rfl
@[simp] theorem Core.modSlot_missed (k : Core) (n : Nat) (f : Slot → Slot) : (k.modSlot n f).missed = k.missed := rfl
@[simp] theorem Core.modSlot_preReq (k : Core) (n : Nat) (f : Slot → Slot) : (k.modSlot n f).preReq = k.preReq := rfl
@[simp] theorem Core.modSlot_freeze (k : Core) (n : Nat) (f : Slot → Slot) : (k.modSlot n f).freeze = k.freeze := rfl
@[simp] theorem Core.modSlot_halted (k : Core) (n : Nat) (f : Slot → Slot) : (k.modSlot n f).halted = k.halted := rfl
@[simp] theorem Core.mapSlots_cyc (k : Core) (f : Nat → Slot → Slot) : (k.mapSlots f).cyc = k.cyc := rfl
@[simp] theorem Core.mapSlots_sp (k : Core) (f : Nat → Slot → Slot) : (k.mapSlots f).sp = k.sp := rfl
@[simp] theorem Core.mapSlots_fe (k : Core) (f : Nat → Slot → Slot) : (k.mapSlots f).fe = k.fe := rfl
@[simp] theorem Core.mapSlots_spBad (k : Core) (f : Nat → Slot → Slot) : (k.mapSlots f).spBad = k.spBad := rfl
@[simp] theorem Core.mapSlots_acc (k : Core) (f : Nat → Slot → Slot) : (k.mapSlots f).acc = k.acc := rfl
@[simp] theorem Core.mapSlots_l1 (k : Core) (f : Nat → Slot → Slot) : (k.mapSlots f).l1 = k.l1 := rfl
@[simp] theorem Core.mapSlots_l1Gone (k : Core) (f : Nat → Slot → Slot) : (k.mapSlots f).l1Gone = k.l1Gone := rfl
@[simp] theorem Core.mapSlots_dq (k : Core) (f : Nat → Slot → Slot) : (k.mapSlots f).dq = k.dq := rfl
@[simp] theorem Core.mapSlots_bq (k : Core) (f : Nat → Slot → Slot) : (k.mapSlots f).bq = k.bq := rfl
@[simp] theorem Core.mapSlots_link (k : Core) (f : Nat → Slot → Slot) : (k.mapSlots f).link = k.link := rfl
@[simp] theorem Core.mapSlots_linkCr (k : Core) (f : Nat → Slot → Slot) : (k.mapSlots f).linkCr = k.linkCr := rfl
@[simp] theorem Core.mapSlots_chans (k : Core) (f : Nat → Slot → Slot) : (k.mapSlots f).chans = k.chans := rfl
@[simp] theorem Core.mapSlots_chFree (k : Core) (f : Nat → Slot → Slot) : (k.mapSlots f).chFree = k.chFree := rfl
@[simp] theorem Core.mapSlots_chHeld (k : Core) (f : Nat → Slot → Slot) : (k.mapSlots f).chHeld = k.chHeld := rfl
@[simp] theorem Core.mapSlots_credits (k : Core) (f : Nat → Slot → Slot) : (k.mapSlots f).credits = k.credits := rfl
@[simp] theorem Core.mapSlots_creditAsked (k : Core) (f : Nat → Slot → Slot) : (k.mapSlots f).creditAsked = k.creditAsked := rfl
@[simp] theorem Core.mapSlots_pressCr (k : Core) (f : Nat → Slot → Slot) : (k.mapSlots f).pressCr = k.pressCr := rfl
@[simp] theorem Core.mapSlots_pressAsked (k : Core) (f : Nat → Slot → Slot) : (k.mapSlots f).pressAsked = k.pressAsked := rfl
@[simp] theorem Core.mapSlots_cmdFree (k : Core) (f : Nat → Slot → Slot) : (k.mapSlots f).cmdFree = k.cmdFree := rfl
@[simp] theorem Core.mapSlots_cmdHeld (k : Core) (f : Nat → Slot → Slot) : (k.mapSlots f).cmdHeld = k.cmdHeld := rfl
@[simp] theorem Core.mapSlots_mb (k : Core) (f : Nat → Slot → Slot) : (k.mapSlots f).mb = k.mb := rfl
@[simp] theorem Core.mapSlots_mbFull (k : Core) (f : Nat → Slot → Slot) : (k.mapSlots f).mbFull = k.mbFull := rfl
@[simp] theorem Core.mapSlots_mbRel (k : Core) (f : Nat → Slot → Slot) : (k.mapSlots f).mbRel = k.mbRel := rfl
@[simp] theorem Core.mapSlots_dqHead (k : Core) (f : Nat → Slot → Slot) : (k.mapSlots f).dqHead = k.dqHead := rfl
@[simp] theorem Core.mapSlots_dqTail (k : Core) (f : Nat → Slot → Slot) : (k.mapSlots f).dqTail = k.dqTail := rfl
@[simp] theorem Core.mapSlots_landings (k : Core) (f : Nat → Slot → Slot) : (k.mapSlots f).landings = k.landings := rfl
@[simp] theorem Core.mapSlots_failedSteals (k : Core) (f : Nat → Slot → Slot) : (k.mapSlots f).failedSteals = k.failedSteals := rfl
@[simp] theorem Core.mapSlots_search (k : Core) (f : Nat → Slot → Slot) : (k.mapSlots f).search = k.search := rfl
@[simp] theorem Core.mapSlots_xdMarks (k : Core) (f : Nat → Slot → Slot) : (k.mapSlots f).xdMarks = k.xdMarks := rfl
@[simp] theorem Core.mapSlots_shadow (k : Core) (f : Nat → Slot → Slot) : (k.mapSlots f).shadow = k.shadow := rfl
@[simp] theorem Core.mapSlots_view (k : Core) (f : Nat → Slot → Slot) : (k.mapSlots f).view = k.view := rfl
@[simp] theorem Core.mapSlots_viewAsk (k : Core) (f : Nat → Slot → Slot) : (k.mapSlots f).viewAsk = k.viewAsk := rfl
@[simp] theorem Core.mapSlots_viewNeed (k : Core) (f : Nat → Slot → Slot) : (k.mapSlots f).viewNeed = k.viewNeed := rfl
@[simp] theorem Core.mapSlots_utlb (k : Core) (f : Nat → Slot → Slot) : (k.mapSlots f).utlb = k.utlb := rfl
@[simp] theorem Core.mapSlots_walks (k : Core) (f : Nat → Slot → Slot) : (k.mapSlots f).walks = k.walks := rfl
@[simp] theorem Core.mapSlots_fills (k : Core) (f : Nat → Slot → Slot) : (k.mapSlots f).fills = k.fills := rfl
@[simp] theorem Core.mapSlots_leaseAt (k : Core) (f : Nat → Slot → Slot) : (k.mapSlots f).leaseAt = k.leaseAt := rfl
@[simp] theorem Core.mapSlots_psb (k : Core) (f : Nat → Slot → Slot) : (k.mapSlots f).psb = k.psb := rfl
@[simp] theorem Core.mapSlots_rounds (k : Core) (f : Nat → Slot → Slot) : (k.mapSlots f).rounds = k.rounds := rfl
@[simp] theorem Core.mapSlots_passes (k : Core) (f : Nat → Slot → Slot) : (k.mapSlots f).passes = k.passes := rfl
@[simp] theorem Core.mapSlots_nextId (k : Core) (f : Nat → Slot → Slot) : (k.mapSlots f).nextId = k.nextId := rfl
@[simp] theorem Core.mapSlots_pressEnd (k : Core) (f : Nat → Slot → Slot) : (k.mapSlots f).pressEnd = k.pressEnd := rfl
@[simp] theorem Core.mapSlots_pressRun (k : Core) (f : Nat → Slot → Slot) : (k.mapSlots f).pressRun = k.pressRun := rfl
@[simp] theorem Core.mapSlots_pressWait (k : Core) (f : Nat → Slot → Slot) : (k.mapSlots f).pressWait = k.pressWait := rfl
@[simp] theorem Core.mapSlots_cmdQ (k : Core) (f : Nat → Slot → Slot) : (k.mapSlots f).cmdQ = k.cmdQ := rfl
@[simp] theorem Core.mapSlots_shareQ (k : Core) (f : Nat → Slot → Slot) : (k.mapSlots f).shareQ = k.shareQ := rfl
@[simp] theorem Core.mapSlots_copies (k : Core) (f : Nat → Slot → Slot) : (k.mapSlots f).copies = k.copies := rfl
@[simp] theorem Core.mapSlots_accOps (k : Core) (f : Nat → Slot → Slot) : (k.mapSlots f).accOps = k.accOps := rfl
@[simp] theorem Core.mapSlots_seamBusy (k : Core) (f : Nat → Slot → Slot) : (k.mapSlots f).seamBusy = k.seamBusy := rfl
@[simp] theorem Core.mapSlots_engTraps (k : Core) (f : Nat → Slot → Slot) : (k.mapSlots f).engTraps = k.engTraps := rfl
@[simp] theorem Core.mapSlots_spin (k : Core) (f : Nat → Slot → Slot) : (k.mapSlots f).spin = k.spin := rfl
@[simp] theorem Core.mapSlots_gearEff (k : Core) (f : Nat → Slot → Slot) : (k.mapSlots f).gearEff = k.gearEff := rfl
@[simp] theorem Core.mapSlots_autosoak (k : Core) (f : Nat → Slot → Slot) : (k.mapSlots f).autosoak = k.autosoak := rfl
@[simp] theorem Core.mapSlots_calm (k : Core) (f : Nat → Slot → Slot) : (k.mapSlots f).calm = k.calm := rfl
@[simp] theorem Core.mapSlots_restoreReq (k : Core) (f : Nat → Slot → Slot) : (k.mapSlots f).restoreReq = k.restoreReq := rfl
@[simp] theorem Core.mapSlots_task (k : Core) (f : Nat → Slot → Slot) : (k.mapSlots f).task = k.task := rfl
@[simp] theorem Core.mapSlots_ended (k : Core) (f : Nat → Slot → Slot) : (k.mapSlots f).ended = k.ended := rfl
@[simp] theorem Core.mapSlots_endMark (k : Core) (f : Nat → Slot → Slot) : (k.mapSlots f).endMark = k.endMark := rfl
@[simp] theorem Core.mapSlots_bars (k : Core) (f : Nat → Slot → Slot) : (k.mapSlots f).bars = k.bars := rfl
@[simp] theorem Core.mapSlots_lamport (k : Core) (f : Nat → Slot → Slot) : (k.mapSlots f).lamport = k.lamport := rfl
@[simp] theorem Core.mapSlots_pressLam (k : Core) (f : Nat → Slot → Slot) : (k.mapSlots f).pressLam = k.pressLam := rfl
@[simp] theorem Core.mapSlots_copyLam (k : Core) (f : Nat → Slot → Slot) : (k.mapSlots f).copyLam = k.copyLam := rfl
@[simp] theorem Core.mapSlots_vents (k : Core) (f : Nat → Slot → Slot) : (k.mapSlots f).vents = k.vents := rfl
@[simp] theorem Core.mapSlots_tick (k : Core) (f : Nat → Slot → Slot) : (k.mapSlots f).tick = k.tick := rfl
@[simp] theorem Core.mapSlots_creditTick (k : Core) (f : Nat → Slot → Slot) : (k.mapSlots f).creditTick = k.creditTick := rfl
@[simp] theorem Core.mapSlots_save (k : Core) (f : Nat → Slot → Slot) : (k.mapSlots f).save = k.save := rfl
@[simp] theorem Core.mapSlots_missed (k : Core) (f : Nat → Slot → Slot) : (k.mapSlots f).missed = k.missed := rfl
@[simp] theorem Core.mapSlots_preReq (k : Core) (f : Nat → Slot → Slot) : (k.mapSlots f).preReq = k.preReq := rfl
@[simp] theorem Core.mapSlots_freeze (k : Core) (f : Nat → Slot → Slot) : (k.mapSlots f).freeze = k.freeze := rfl
@[simp] theorem Core.mapSlots_halted (k : Core) (f : Nat → Slot → Slot) : (k.mapSlots f).halted = k.halted := rfl

/-! ## Slot -/

@[simp] theorem Slot.setV_regs (l : Slot) (r : VReg) (v : V512) : (l.setV r v).regs = l.regs := rfl
@[simp] theorem Slot.setV_mregs (l : Slot) (r : VReg) (v : V512) : (l.setV r v).mregs = l.mregs := rfl
@[simp] theorem Slot.setV_pc (l : Slot) (r : VReg) (v : V512) : (l.setV r v).pc = l.pc := rfl
@[simp] theorem Slot.setV_nr (l : Slot) (r : VReg) (v : V512) : (l.setV r v).nr = l.nr := rfl
@[simp] theorem Slot.setV_ncause (l : Slot) (r : VReg) (v : V512) : (l.setV r v).ncause = l.ncause := rfl
@[simp] theorem Slot.setV_sys (l : Slot) (r : VReg) (v : V512) : (l.setV r v).sys = l.sys := rfl
@[simp] theorem Slot.setV_epc (l : Slot) (r : VReg) (v : V512) : (l.setV r v).epc = l.epc := rfl
@[simp] theorem Slot.setV_ecause (l : Slot) (r : VReg) (v : V512) : (l.setV r v).ecause = l.ecause := rfl
@[simp] theorem Slot.setV_evec (l : Slot) (r : VReg) (v : V512) : (l.setV r v).evec = l.evec := rfl
@[simp] theorem Slot.setV_msgvec (l : Slot) (r : VReg) (v : V512) : (l.setV r v).msgvec = l.msgvec := rfl
@[simp] theorem Slot.setV_msgEn (l : Slot) (r : VReg) (v : V512) : (l.setV r v).msgEn = l.msgEn := rfl
@[simp] theorem Slot.setV_msgMasked (l : Slot) (r : VReg) (v : V512) : (l.setV r v).msgMasked = l.msgMasked := rfl
@[simp] theorem Slot.setV_msgLeft (l : Slot) (r : VReg) (v : V512) : (l.setV r v).msgLeft = l.msgLeft := rfl
@[simp] theorem Slot.setV_pfmt (l : Slot) (r : VReg) (v : V512) : (l.setV r v).pfmt = l.pfmt := rfl
@[simp] theorem Slot.setV_pgam (l : Slot) (r : VReg) (v : V512) : (l.setV r v).pgam = l.pgam := rfl
@[simp] theorem Slot.setV_rnd (l : Slot) (r : VReg) (v : V512) : (l.setV r v).rnd = l.rnd := rfl
@[simp] theorem Slot.setV_nt (l : Slot) (r : VReg) (v : V512) : (l.setV r v).nt = l.nt := rfl
@[simp] theorem Slot.setV_claims (l : Slot) (r : VReg) (v : V512) : (l.setV r v).claims = l.claims := rfl
@[simp] theorem Slot.setV_st (l : Slot) (r : VReg) (v : V512) : (l.setV r v).st = l.st := rfl
@[simp] theorem Slot.setV_wake (l : Slot) (r : VReg) (v : V512) : (l.setV r v).wake = l.wake := rfl
@[simp] theorem Slot.setV_mons (l : Slot) (r : VReg) (v : V512) : (l.setV r v).mons = l.mons := rfl
@[simp] theorem Slot.setV_frame (l : Slot) (r : VReg) (v : V512) : (l.setV r v).frame = l.frame := rfl
@[simp] theorem Slot.setV_inHandler (l : Slot) (r : VReg) (v : V512) : (l.setV r v).inHandler = l.inHandler := rfl
@[simp] theorem Slot.setV_hold (l : Slot) (r : VReg) (v : V512) : (l.setV r v).hold = l.hold := rfl
@[simp] theorem Slot.setV_atom (l : Slot) (r : VReg) (v : V512) : (l.setV r v).atom = l.atom := rfl
@[simp] theorem Slot.setV_walkFaults (l : Slot) (r : VReg) (v : V512) : (l.setV r v).walkFaults = l.walkFaults := rfl
@[simp] theorem Slot.setV_gathered (l : Slot) (r : VReg) (v : V512) : (l.setV r v).gathered = l.gathered := rfl
@[simp] theorem Slot.setV_stealFly (l : Slot) (r : VReg) (v : V512) : (l.setV r v).stealFly = l.stealFly := rfl
@[simp] theorem Slot.setV_stealOut (l : Slot) (r : VReg) (v : V512) : (l.setV r v).stealOut = l.stealOut := rfl
@[simp] theorem Slot.setV_refused (l : Slot) (r : VReg) (v : V512) : (l.setV r v).refused = l.refused := rfl
@[simp] theorem Slot.setV_ldMark (l : Slot) (r : VReg) (v : V512) : (l.setV r v).ldMark = l.ldMark := rfl
@[simp] theorem Slot.setV_stMark (l : Slot) (r : VReg) (v : V512) : (l.setV r v).stMark = l.stMark := rfl
@[simp] theorem Slot.setV_passed (l : Slot) (r : VReg) (v : V512) : (l.setV r v).passed = l.passed := rfl
@[simp] theorem Slot.setV_dcf (l : Slot) (r : VReg) (v : V512) : (l.setV r v).dcf = l.dcf := rfl
@[simp] theorem Slot.setV_parkedAt (l : Slot) (r : VReg) (v : V512) : (l.setV r v).parkedAt = l.parkedAt := rfl
@[simp] theorem Slot.setV_stopReq (l : Slot) (r : VReg) (v : V512) : (l.setV r v).stopReq = l.stopReq := rfl
@[simp] theorem Slot.setV_stepping (l : Slot) (r : VReg) (v : V512) : (l.setV r v).stepping = l.stepping := rfl
@[simp] theorem Slot.setV_catchBkpt (l : Slot) (r : VReg) (v : V512) : (l.setV r v).catchBkpt = l.catchBkpt := rfl
@[simp] theorem Slot.setV_stepTrap (l : Slot) (r : VReg) (v : V512) : (l.setV r v).stepTrap = l.stepTrap := rfl
@[simp] theorem Slot.setS_vregs (l : Slot) (r : SReg) (v : W64) : (l.setS r v).vregs = l.vregs := by unfold Slot.setS; split <;> rfl
@[simp] theorem Slot.setS_mregs (l : Slot) (r : SReg) (v : W64) : (l.setS r v).mregs = l.mregs := by unfold Slot.setS; split <;> rfl
@[simp] theorem Slot.setS_pc (l : Slot) (r : SReg) (v : W64) : (l.setS r v).pc = l.pc := by unfold Slot.setS; split <;> rfl
@[simp] theorem Slot.setS_nr (l : Slot) (r : SReg) (v : W64) : (l.setS r v).nr = l.nr := by unfold Slot.setS; split <;> rfl
@[simp] theorem Slot.setS_ncause (l : Slot) (r : SReg) (v : W64) : (l.setS r v).ncause = l.ncause := by unfold Slot.setS; split <;> rfl
@[simp] theorem Slot.setS_sys (l : Slot) (r : SReg) (v : W64) : (l.setS r v).sys = l.sys := by unfold Slot.setS; split <;> rfl
@[simp] theorem Slot.setS_epc (l : Slot) (r : SReg) (v : W64) : (l.setS r v).epc = l.epc := by unfold Slot.setS; split <;> rfl
@[simp] theorem Slot.setS_ecause (l : Slot) (r : SReg) (v : W64) : (l.setS r v).ecause = l.ecause := by unfold Slot.setS; split <;> rfl
@[simp] theorem Slot.setS_evec (l : Slot) (r : SReg) (v : W64) : (l.setS r v).evec = l.evec := by unfold Slot.setS; split <;> rfl
@[simp] theorem Slot.setS_msgvec (l : Slot) (r : SReg) (v : W64) : (l.setS r v).msgvec = l.msgvec := by unfold Slot.setS; split <;> rfl
@[simp] theorem Slot.setS_msgEn (l : Slot) (r : SReg) (v : W64) : (l.setS r v).msgEn = l.msgEn := by unfold Slot.setS; split <;> rfl
@[simp] theorem Slot.setS_msgMasked (l : Slot) (r : SReg) (v : W64) : (l.setS r v).msgMasked = l.msgMasked := by unfold Slot.setS; split <;> rfl
@[simp] theorem Slot.setS_msgLeft (l : Slot) (r : SReg) (v : W64) : (l.setS r v).msgLeft = l.msgLeft := by unfold Slot.setS; split <;> rfl
@[simp] theorem Slot.setS_pfmt (l : Slot) (r : SReg) (v : W64) : (l.setS r v).pfmt = l.pfmt := by unfold Slot.setS; split <;> rfl
@[simp] theorem Slot.setS_pgam (l : Slot) (r : SReg) (v : W64) : (l.setS r v).pgam = l.pgam := by unfold Slot.setS; split <;> rfl
@[simp] theorem Slot.setS_rnd (l : Slot) (r : SReg) (v : W64) : (l.setS r v).rnd = l.rnd := by unfold Slot.setS; split <;> rfl
@[simp] theorem Slot.setS_nt (l : Slot) (r : SReg) (v : W64) : (l.setS r v).nt = l.nt := by unfold Slot.setS; split <;> rfl
@[simp] theorem Slot.setS_claims (l : Slot) (r : SReg) (v : W64) : (l.setS r v).claims = l.claims := by unfold Slot.setS; split <;> rfl
@[simp] theorem Slot.setS_st (l : Slot) (r : SReg) (v : W64) : (l.setS r v).st = l.st := by unfold Slot.setS; split <;> rfl
@[simp] theorem Slot.setS_wake (l : Slot) (r : SReg) (v : W64) : (l.setS r v).wake = l.wake := by unfold Slot.setS; split <;> rfl
@[simp] theorem Slot.setS_mons (l : Slot) (r : SReg) (v : W64) : (l.setS r v).mons = l.mons := by unfold Slot.setS; split <;> rfl
@[simp] theorem Slot.setS_frame (l : Slot) (r : SReg) (v : W64) : (l.setS r v).frame = l.frame := by unfold Slot.setS; split <;> rfl
@[simp] theorem Slot.setS_inHandler (l : Slot) (r : SReg) (v : W64) : (l.setS r v).inHandler = l.inHandler := by unfold Slot.setS; split <;> rfl
@[simp] theorem Slot.setS_hold (l : Slot) (r : SReg) (v : W64) : (l.setS r v).hold = l.hold := by unfold Slot.setS; split <;> rfl
@[simp] theorem Slot.setS_atom (l : Slot) (r : SReg) (v : W64) : (l.setS r v).atom = l.atom := by unfold Slot.setS; split <;> rfl
@[simp] theorem Slot.setS_walkFaults (l : Slot) (r : SReg) (v : W64) : (l.setS r v).walkFaults = l.walkFaults := by unfold Slot.setS; split <;> rfl
@[simp] theorem Slot.setS_gathered (l : Slot) (r : SReg) (v : W64) : (l.setS r v).gathered = l.gathered := by unfold Slot.setS; split <;> rfl
@[simp] theorem Slot.setS_stealFly (l : Slot) (r : SReg) (v : W64) : (l.setS r v).stealFly = l.stealFly := by unfold Slot.setS; split <;> rfl
@[simp] theorem Slot.setS_stealOut (l : Slot) (r : SReg) (v : W64) : (l.setS r v).stealOut = l.stealOut := by unfold Slot.setS; split <;> rfl
@[simp] theorem Slot.setS_refused (l : Slot) (r : SReg) (v : W64) : (l.setS r v).refused = l.refused := by unfold Slot.setS; split <;> rfl
@[simp] theorem Slot.setS_ldMark (l : Slot) (r : SReg) (v : W64) : (l.setS r v).ldMark = l.ldMark := by unfold Slot.setS; split <;> rfl
@[simp] theorem Slot.setS_stMark (l : Slot) (r : SReg) (v : W64) : (l.setS r v).stMark = l.stMark := by unfold Slot.setS; split <;> rfl
@[simp] theorem Slot.setS_passed (l : Slot) (r : SReg) (v : W64) : (l.setS r v).passed = l.passed := by unfold Slot.setS; split <;> rfl
@[simp] theorem Slot.setS_dcf (l : Slot) (r : SReg) (v : W64) : (l.setS r v).dcf = l.dcf := by unfold Slot.setS; split <;> rfl
@[simp] theorem Slot.setS_parkedAt (l : Slot) (r : SReg) (v : W64) : (l.setS r v).parkedAt = l.parkedAt := by unfold Slot.setS; split <;> rfl
@[simp] theorem Slot.setS_stopReq (l : Slot) (r : SReg) (v : W64) : (l.setS r v).stopReq = l.stopReq := by unfold Slot.setS; split <;> rfl
@[simp] theorem Slot.setS_stepping (l : Slot) (r : SReg) (v : W64) : (l.setS r v).stepping = l.stepping := by unfold Slot.setS; split <;> rfl
@[simp] theorem Slot.setS_catchBkpt (l : Slot) (r : SReg) (v : W64) : (l.setS r v).catchBkpt = l.catchBkpt := by unfold Slot.setS; split <;> rfl
@[simp] theorem Slot.setS_stepTrap (l : Slot) (r : SReg) (v : W64) : (l.setS r v).stepTrap = l.stepTrap := by unfold Slot.setS; split <;> rfl
@[simp] theorem Slot.setM_regs (l : Slot) (r : MReg) (v : W64) : (l.setM r v).regs = l.regs := by unfold Slot.setM; split <;> rfl
@[simp] theorem Slot.setM_vregs (l : Slot) (r : MReg) (v : W64) : (l.setM r v).vregs = l.vregs := by unfold Slot.setM; split <;> rfl
@[simp] theorem Slot.setM_pc (l : Slot) (r : MReg) (v : W64) : (l.setM r v).pc = l.pc := by unfold Slot.setM; split <;> rfl
@[simp] theorem Slot.setM_nr (l : Slot) (r : MReg) (v : W64) : (l.setM r v).nr = l.nr := by unfold Slot.setM; split <;> rfl
@[simp] theorem Slot.setM_ncause (l : Slot) (r : MReg) (v : W64) : (l.setM r v).ncause = l.ncause := by unfold Slot.setM; split <;> rfl
@[simp] theorem Slot.setM_sys (l : Slot) (r : MReg) (v : W64) : (l.setM r v).sys = l.sys := by unfold Slot.setM; split <;> rfl
@[simp] theorem Slot.setM_epc (l : Slot) (r : MReg) (v : W64) : (l.setM r v).epc = l.epc := by unfold Slot.setM; split <;> rfl
@[simp] theorem Slot.setM_ecause (l : Slot) (r : MReg) (v : W64) : (l.setM r v).ecause = l.ecause := by unfold Slot.setM; split <;> rfl
@[simp] theorem Slot.setM_evec (l : Slot) (r : MReg) (v : W64) : (l.setM r v).evec = l.evec := by unfold Slot.setM; split <;> rfl
@[simp] theorem Slot.setM_msgvec (l : Slot) (r : MReg) (v : W64) : (l.setM r v).msgvec = l.msgvec := by unfold Slot.setM; split <;> rfl
@[simp] theorem Slot.setM_msgEn (l : Slot) (r : MReg) (v : W64) : (l.setM r v).msgEn = l.msgEn := by unfold Slot.setM; split <;> rfl
@[simp] theorem Slot.setM_msgMasked (l : Slot) (r : MReg) (v : W64) : (l.setM r v).msgMasked = l.msgMasked := by unfold Slot.setM; split <;> rfl
@[simp] theorem Slot.setM_msgLeft (l : Slot) (r : MReg) (v : W64) : (l.setM r v).msgLeft = l.msgLeft := by unfold Slot.setM; split <;> rfl
@[simp] theorem Slot.setM_pfmt (l : Slot) (r : MReg) (v : W64) : (l.setM r v).pfmt = l.pfmt := by unfold Slot.setM; split <;> rfl
@[simp] theorem Slot.setM_pgam (l : Slot) (r : MReg) (v : W64) : (l.setM r v).pgam = l.pgam := by unfold Slot.setM; split <;> rfl
@[simp] theorem Slot.setM_rnd (l : Slot) (r : MReg) (v : W64) : (l.setM r v).rnd = l.rnd := by unfold Slot.setM; split <;> rfl
@[simp] theorem Slot.setM_nt (l : Slot) (r : MReg) (v : W64) : (l.setM r v).nt = l.nt := by unfold Slot.setM; split <;> rfl
@[simp] theorem Slot.setM_claims (l : Slot) (r : MReg) (v : W64) : (l.setM r v).claims = l.claims := by unfold Slot.setM; split <;> rfl
@[simp] theorem Slot.setM_st (l : Slot) (r : MReg) (v : W64) : (l.setM r v).st = l.st := by unfold Slot.setM; split <;> rfl
@[simp] theorem Slot.setM_wake (l : Slot) (r : MReg) (v : W64) : (l.setM r v).wake = l.wake := by unfold Slot.setM; split <;> rfl
@[simp] theorem Slot.setM_mons (l : Slot) (r : MReg) (v : W64) : (l.setM r v).mons = l.mons := by unfold Slot.setM; split <;> rfl
@[simp] theorem Slot.setM_frame (l : Slot) (r : MReg) (v : W64) : (l.setM r v).frame = l.frame := by unfold Slot.setM; split <;> rfl
@[simp] theorem Slot.setM_inHandler (l : Slot) (r : MReg) (v : W64) : (l.setM r v).inHandler = l.inHandler := by unfold Slot.setM; split <;> rfl
@[simp] theorem Slot.setM_hold (l : Slot) (r : MReg) (v : W64) : (l.setM r v).hold = l.hold := by unfold Slot.setM; split <;> rfl
@[simp] theorem Slot.setM_atom (l : Slot) (r : MReg) (v : W64) : (l.setM r v).atom = l.atom := by unfold Slot.setM; split <;> rfl
@[simp] theorem Slot.setM_walkFaults (l : Slot) (r : MReg) (v : W64) : (l.setM r v).walkFaults = l.walkFaults := by unfold Slot.setM; split <;> rfl
@[simp] theorem Slot.setM_gathered (l : Slot) (r : MReg) (v : W64) : (l.setM r v).gathered = l.gathered := by unfold Slot.setM; split <;> rfl
@[simp] theorem Slot.setM_stealFly (l : Slot) (r : MReg) (v : W64) : (l.setM r v).stealFly = l.stealFly := by unfold Slot.setM; split <;> rfl
@[simp] theorem Slot.setM_stealOut (l : Slot) (r : MReg) (v : W64) : (l.setM r v).stealOut = l.stealOut := by unfold Slot.setM; split <;> rfl
@[simp] theorem Slot.setM_refused (l : Slot) (r : MReg) (v : W64) : (l.setM r v).refused = l.refused := by unfold Slot.setM; split <;> rfl
@[simp] theorem Slot.setM_ldMark (l : Slot) (r : MReg) (v : W64) : (l.setM r v).ldMark = l.ldMark := by unfold Slot.setM; split <;> rfl
@[simp] theorem Slot.setM_stMark (l : Slot) (r : MReg) (v : W64) : (l.setM r v).stMark = l.stMark := by unfold Slot.setM; split <;> rfl
@[simp] theorem Slot.setM_passed (l : Slot) (r : MReg) (v : W64) : (l.setM r v).passed = l.passed := by unfold Slot.setM; split <;> rfl
@[simp] theorem Slot.setM_dcf (l : Slot) (r : MReg) (v : W64) : (l.setM r v).dcf = l.dcf := by unfold Slot.setM; split <;> rfl
@[simp] theorem Slot.setM_parkedAt (l : Slot) (r : MReg) (v : W64) : (l.setM r v).parkedAt = l.parkedAt := by unfold Slot.setM; split <;> rfl
@[simp] theorem Slot.setM_stopReq (l : Slot) (r : MReg) (v : W64) : (l.setM r v).stopReq = l.stopReq := by unfold Slot.setM; split <;> rfl
@[simp] theorem Slot.setM_stepping (l : Slot) (r : MReg) (v : W64) : (l.setM r v).stepping = l.stepping := by unfold Slot.setM; split <;> rfl
@[simp] theorem Slot.setM_catchBkpt (l : Slot) (r : MReg) (v : W64) : (l.setM r v).catchBkpt = l.catchBkpt := by unfold Slot.setM; split <;> rfl
@[simp] theorem Slot.setM_stepTrap (l : Slot) (r : MReg) (v : W64) : (l.setM r v).stepTrap = l.stepTrap := by unfold Slot.setM; split <;> rfl
@[simp] theorem Slot.advance_regs (l : Slot) : l.advance.regs = l.regs := by unfold Slot.advance; repeat (first | rfl | split)
@[simp] theorem Slot.advance_vregs (l : Slot) : l.advance.vregs = l.vregs := by unfold Slot.advance; repeat (first | rfl | split)
@[simp] theorem Slot.advance_mregs (l : Slot) : l.advance.mregs = l.mregs := by unfold Slot.advance; repeat (first | rfl | split)
@[simp] theorem Slot.advance_nr (l : Slot) : l.advance.nr = l.nr := by unfold Slot.advance; repeat (first | rfl | split)
@[simp] theorem Slot.advance_ncause (l : Slot) : l.advance.ncause = l.ncause := by unfold Slot.advance; repeat (first | rfl | split)
@[simp] theorem Slot.advance_sys (l : Slot) : l.advance.sys = l.sys := by unfold Slot.advance; repeat (first | rfl | split)
@[simp] theorem Slot.advance_epc (l : Slot) : l.advance.epc = l.epc := by unfold Slot.advance; repeat (first | rfl | split)
@[simp] theorem Slot.advance_ecause (l : Slot) : l.advance.ecause = l.ecause := by unfold Slot.advance; repeat (first | rfl | split)
@[simp] theorem Slot.advance_evec (l : Slot) : l.advance.evec = l.evec := by unfold Slot.advance; repeat (first | rfl | split)
@[simp] theorem Slot.advance_msgvec (l : Slot) : l.advance.msgvec = l.msgvec := by unfold Slot.advance; repeat (first | rfl | split)
@[simp] theorem Slot.advance_msgEn (l : Slot) : l.advance.msgEn = l.msgEn := by unfold Slot.advance; repeat (first | rfl | split)
@[simp] theorem Slot.advance_msgMasked (l : Slot) : l.advance.msgMasked = l.msgMasked := by unfold Slot.advance; repeat (first | rfl | split)
@[simp] theorem Slot.advance_msgLeft (l : Slot) : l.advance.msgLeft = l.msgLeft := by unfold Slot.advance; repeat (first | rfl | split)
@[simp] theorem Slot.advance_pfmt (l : Slot) : l.advance.pfmt = l.pfmt := by unfold Slot.advance; repeat (first | rfl | split)
@[simp] theorem Slot.advance_pgam (l : Slot) : l.advance.pgam = l.pgam := by unfold Slot.advance; repeat (first | rfl | split)
@[simp] theorem Slot.advance_rnd (l : Slot) : l.advance.rnd = l.rnd := by unfold Slot.advance; repeat (first | rfl | split)
@[simp] theorem Slot.advance_nt (l : Slot) : l.advance.nt = l.nt := by unfold Slot.advance; repeat (first | rfl | split)
@[simp] theorem Slot.advance_claims (l : Slot) : l.advance.claims = l.claims := by unfold Slot.advance; repeat (first | rfl | split)
@[simp] theorem Slot.advance_st (l : Slot) : l.advance.st = l.st := by unfold Slot.advance; repeat (first | rfl | split)
@[simp] theorem Slot.advance_wake (l : Slot) : l.advance.wake = l.wake := by unfold Slot.advance; repeat (first | rfl | split)
@[simp] theorem Slot.advance_mons (l : Slot) : l.advance.mons = l.mons := by unfold Slot.advance; repeat (first | rfl | split)
@[simp] theorem Slot.advance_inHandler (l : Slot) : l.advance.inHandler = l.inHandler := by unfold Slot.advance; repeat (first | rfl | split)
@[simp] theorem Slot.advance_hold (l : Slot) : l.advance.hold = l.hold := by unfold Slot.advance; repeat (first | rfl | split)
@[simp] theorem Slot.advance_atom (l : Slot) : l.advance.atom = l.atom := by unfold Slot.advance; repeat (first | rfl | split)
@[simp] theorem Slot.advance_walkFaults (l : Slot) : l.advance.walkFaults = l.walkFaults := by unfold Slot.advance; repeat (first | rfl | split)
@[simp] theorem Slot.advance_gathered (l : Slot) : l.advance.gathered = l.gathered := by unfold Slot.advance; repeat (first | rfl | split)
@[simp] theorem Slot.advance_stealFly (l : Slot) : l.advance.stealFly = l.stealFly := by unfold Slot.advance; repeat (first | rfl | split)
@[simp] theorem Slot.advance_stealOut (l : Slot) : l.advance.stealOut = l.stealOut := by unfold Slot.advance; repeat (first | rfl | split)
@[simp] theorem Slot.advance_refused (l : Slot) : l.advance.refused = l.refused := by unfold Slot.advance; repeat (first | rfl | split)
@[simp] theorem Slot.advance_ldMark (l : Slot) : l.advance.ldMark = l.ldMark := by unfold Slot.advance; repeat (first | rfl | split)
@[simp] theorem Slot.advance_stMark (l : Slot) : l.advance.stMark = l.stMark := by unfold Slot.advance; repeat (first | rfl | split)
@[simp] theorem Slot.advance_passed (l : Slot) : l.advance.passed = l.passed := by unfold Slot.advance; repeat (first | rfl | split)
@[simp] theorem Slot.advance_dcf (l : Slot) : l.advance.dcf = l.dcf := by unfold Slot.advance; repeat (first | rfl | split)
@[simp] theorem Slot.advance_parkedAt (l : Slot) : l.advance.parkedAt = l.parkedAt := by unfold Slot.advance; repeat (first | rfl | split)
@[simp] theorem Slot.advance_stopReq (l : Slot) : l.advance.stopReq = l.stopReq := by unfold Slot.advance; repeat (first | rfl | split)
@[simp] theorem Slot.advance_stepping (l : Slot) : l.advance.stepping = l.stepping := by unfold Slot.advance; repeat (first | rfl | split)
@[simp] theorem Slot.advance_catchBkpt (l : Slot) : l.advance.catchBkpt = l.catchBkpt := by unfold Slot.advance; repeat (first | rfl | split)
@[simp] theorem Slot.advance_stepTrap (l : Slot) : l.advance.stepTrap = l.stepTrap := by unfold Slot.advance; repeat (first | rfl | split)
@[simp] theorem Slot.ready_regs (l : Slot) : l.ready.regs = l.regs := rfl
@[simp] theorem Slot.ready_vregs (l : Slot) : l.ready.vregs = l.vregs := rfl
@[simp] theorem Slot.ready_mregs (l : Slot) : l.ready.mregs = l.mregs := rfl
@[simp] theorem Slot.ready_pc (l : Slot) : l.ready.pc = l.pc := rfl
@[simp] theorem Slot.ready_sys (l : Slot) : l.ready.sys = l.sys := rfl
@[simp] theorem Slot.ready_epc (l : Slot) : l.ready.epc = l.epc := rfl
@[simp] theorem Slot.ready_ecause (l : Slot) : l.ready.ecause = l.ecause := rfl
@[simp] theorem Slot.ready_evec (l : Slot) : l.ready.evec = l.evec := rfl
@[simp] theorem Slot.ready_msgvec (l : Slot) : l.ready.msgvec = l.msgvec := rfl
@[simp] theorem Slot.ready_msgEn (l : Slot) : l.ready.msgEn = l.msgEn := rfl
@[simp] theorem Slot.ready_msgMasked (l : Slot) : l.ready.msgMasked = l.msgMasked := rfl
@[simp] theorem Slot.ready_msgLeft (l : Slot) : l.ready.msgLeft = l.msgLeft := rfl
@[simp] theorem Slot.ready_pfmt (l : Slot) : l.ready.pfmt = l.pfmt := rfl
@[simp] theorem Slot.ready_pgam (l : Slot) : l.ready.pgam = l.pgam := rfl
@[simp] theorem Slot.ready_rnd (l : Slot) : l.ready.rnd = l.rnd := rfl
@[simp] theorem Slot.ready_nt (l : Slot) : l.ready.nt = l.nt := rfl
@[simp] theorem Slot.ready_st (l : Slot) : l.ready.st = l.st := rfl
@[simp] theorem Slot.ready_wake (l : Slot) : l.ready.wake = l.wake := rfl
@[simp] theorem Slot.ready_mons (l : Slot) : l.ready.mons = l.mons := rfl
@[simp] theorem Slot.ready_frame (l : Slot) : l.ready.frame = l.frame := rfl
@[simp] theorem Slot.ready_inHandler (l : Slot) : l.ready.inHandler = l.inHandler := rfl
@[simp] theorem Slot.ready_hold (l : Slot) : l.ready.hold = l.hold := rfl
@[simp] theorem Slot.ready_atom (l : Slot) : l.ready.atom = l.atom := rfl
@[simp] theorem Slot.ready_gathered (l : Slot) : l.ready.gathered = l.gathered := rfl
@[simp] theorem Slot.ready_stealFly (l : Slot) : l.ready.stealFly = l.stealFly := rfl
@[simp] theorem Slot.ready_stealOut (l : Slot) : l.ready.stealOut = l.stealOut := rfl
@[simp] theorem Slot.ready_refused (l : Slot) : l.ready.refused = l.refused := rfl
@[simp] theorem Slot.ready_ldMark (l : Slot) : l.ready.ldMark = l.ldMark := rfl
@[simp] theorem Slot.ready_stMark (l : Slot) : l.ready.stMark = l.stMark := rfl
@[simp] theorem Slot.ready_passed (l : Slot) : l.ready.passed = l.passed := rfl
@[simp] theorem Slot.ready_dcf (l : Slot) : l.ready.dcf = l.dcf := rfl
@[simp] theorem Slot.ready_parkedAt (l : Slot) : l.ready.parkedAt = l.parkedAt := rfl
@[simp] theorem Slot.ready_stopReq (l : Slot) : l.ready.stopReq = l.stopReq := rfl
@[simp] theorem Slot.ready_stepping (l : Slot) : l.ready.stepping = l.stepping := rfl
@[simp] theorem Slot.ready_catchBkpt (l : Slot) : l.ready.catchBkpt = l.catchBkpt := rfl
@[simp] theorem Slot.ready_stepTrap (l : Slot) : l.ready.stepTrap = l.stepTrap := rfl
@[simp] theorem Slot.tidy_regs (l : Slot) : l.tidy.regs = l.regs := rfl
@[simp] theorem Slot.tidy_vregs (l : Slot) : l.tidy.vregs = l.vregs := rfl
@[simp] theorem Slot.tidy_mregs (l : Slot) : l.tidy.mregs = l.mregs := rfl
@[simp] theorem Slot.tidy_pc (l : Slot) : l.tidy.pc = l.pc := rfl
@[simp] theorem Slot.tidy_nr (l : Slot) : l.tidy.nr = l.nr := rfl
@[simp] theorem Slot.tidy_ncause (l : Slot) : l.tidy.ncause = l.ncause := rfl
@[simp] theorem Slot.tidy_sys (l : Slot) : l.tidy.sys = l.sys := rfl
@[simp] theorem Slot.tidy_epc (l : Slot) : l.tidy.epc = l.epc := rfl
@[simp] theorem Slot.tidy_ecause (l : Slot) : l.tidy.ecause = l.ecause := rfl
@[simp] theorem Slot.tidy_evec (l : Slot) : l.tidy.evec = l.evec := rfl
@[simp] theorem Slot.tidy_msgvec (l : Slot) : l.tidy.msgvec = l.msgvec := rfl
@[simp] theorem Slot.tidy_msgEn (l : Slot) : l.tidy.msgEn = l.msgEn := rfl
@[simp] theorem Slot.tidy_msgMasked (l : Slot) : l.tidy.msgMasked = l.msgMasked := rfl
@[simp] theorem Slot.tidy_msgLeft (l : Slot) : l.tidy.msgLeft = l.msgLeft := rfl
@[simp] theorem Slot.tidy_pfmt (l : Slot) : l.tidy.pfmt = l.pfmt := rfl
@[simp] theorem Slot.tidy_pgam (l : Slot) : l.tidy.pgam = l.pgam := rfl
@[simp] theorem Slot.tidy_rnd (l : Slot) : l.tidy.rnd = l.rnd := rfl
@[simp] theorem Slot.tidy_nt (l : Slot) : l.tidy.nt = l.nt := rfl
@[simp] theorem Slot.tidy_claims (l : Slot) : l.tidy.claims = l.claims := rfl
@[simp] theorem Slot.tidy_st (l : Slot) : l.tidy.st = l.st := rfl
@[simp] theorem Slot.tidy_wake (l : Slot) : l.tidy.wake = l.wake := rfl
@[simp] theorem Slot.tidy_mons (l : Slot) : l.tidy.mons = l.mons := rfl
@[simp] theorem Slot.tidy_frame (l : Slot) : l.tidy.frame = l.frame := rfl
@[simp] theorem Slot.tidy_inHandler (l : Slot) : l.tidy.inHandler = l.inHandler := rfl
@[simp] theorem Slot.tidy_hold (l : Slot) : l.tidy.hold = l.hold := rfl
@[simp] theorem Slot.tidy_atom (l : Slot) : l.tidy.atom = l.atom := rfl
@[simp] theorem Slot.tidy_gathered (l : Slot) : l.tidy.gathered = l.gathered := rfl
@[simp] theorem Slot.tidy_stealFly (l : Slot) : l.tidy.stealFly = l.stealFly := rfl
@[simp] theorem Slot.tidy_stealOut (l : Slot) : l.tidy.stealOut = l.stealOut := rfl
@[simp] theorem Slot.tidy_refused (l : Slot) : l.tidy.refused = l.refused := rfl
@[simp] theorem Slot.tidy_ldMark (l : Slot) : l.tidy.ldMark = l.ldMark := rfl
@[simp] theorem Slot.tidy_stMark (l : Slot) : l.tidy.stMark = l.stMark := rfl
@[simp] theorem Slot.tidy_passed (l : Slot) : l.tidy.passed = l.passed := rfl
@[simp] theorem Slot.tidy_dcf (l : Slot) : l.tidy.dcf = l.dcf := rfl
@[simp] theorem Slot.tidy_parkedAt (l : Slot) : l.tidy.parkedAt = l.parkedAt := rfl
@[simp] theorem Slot.tidy_stopReq (l : Slot) : l.tidy.stopReq = l.stopReq := rfl
@[simp] theorem Slot.tidy_stepping (l : Slot) : l.tidy.stepping = l.stepping := rfl
@[simp] theorem Slot.tidy_catchBkpt (l : Slot) : l.tidy.catchBkpt = l.catchBkpt := rfl
@[simp] theorem Slot.tidy_stepTrap (l : Slot) : l.tidy.stepTrap = l.stepTrap := rfl
@[simp] theorem Slot.ready_nr (l : Slot) : l.ready.nr = false := rfl
@[simp] theorem Slot.ready_ncause (l : Slot) : l.ready.ncause = 0 := rfl
/-- A wake changes nothing but the wake. -/
theorem Slot.wakeBy_eq (l : Slot) (r t : Nat) : ∃ w, l.wakeBy r t = { l with wake := w } := by
  unfold Slot.wakeBy
  dsimp only
  split
  · exact ⟨_, rfl⟩
  · exact ⟨_, rfl⟩
  · exact ⟨l.wake, rfl⟩

@[simp] theorem Slot.wakeBy_regs (l : Slot) (r t : Nat) : (l.wakeBy r t).regs = l.regs := by
  obtain ⟨w, h⟩ := l.wakeBy_eq r t; rw [h]
@[simp] theorem Slot.wakeBy_vregs (l : Slot) (r t : Nat) : (l.wakeBy r t).vregs = l.vregs := by
  obtain ⟨w, h⟩ := l.wakeBy_eq r t; rw [h]
@[simp] theorem Slot.wakeBy_mregs (l : Slot) (r t : Nat) : (l.wakeBy r t).mregs = l.mregs := by
  obtain ⟨w, h⟩ := l.wakeBy_eq r t; rw [h]
@[simp] theorem Slot.wakeBy_pc (l : Slot) (r t : Nat) : (l.wakeBy r t).pc = l.pc := by
  obtain ⟨w, h⟩ := l.wakeBy_eq r t; rw [h]
@[simp] theorem Slot.wakeBy_nr (l : Slot) (r t : Nat) : (l.wakeBy r t).nr = l.nr := by
  obtain ⟨w, h⟩ := l.wakeBy_eq r t; rw [h]
@[simp] theorem Slot.wakeBy_ncause (l : Slot) (r t : Nat) : (l.wakeBy r t).ncause = l.ncause := by
  obtain ⟨w, h⟩ := l.wakeBy_eq r t; rw [h]
@[simp] theorem Slot.wakeBy_sys (l : Slot) (r t : Nat) : (l.wakeBy r t).sys = l.sys := by
  obtain ⟨w, h⟩ := l.wakeBy_eq r t; rw [h]
@[simp] theorem Slot.wakeBy_epc (l : Slot) (r t : Nat) : (l.wakeBy r t).epc = l.epc := by
  obtain ⟨w, h⟩ := l.wakeBy_eq r t; rw [h]
@[simp] theorem Slot.wakeBy_ecause (l : Slot) (r t : Nat) : (l.wakeBy r t).ecause = l.ecause := by
  obtain ⟨w, h⟩ := l.wakeBy_eq r t; rw [h]
@[simp] theorem Slot.wakeBy_evec (l : Slot) (r t : Nat) : (l.wakeBy r t).evec = l.evec := by
  obtain ⟨w, h⟩ := l.wakeBy_eq r t; rw [h]
@[simp] theorem Slot.wakeBy_msgvec (l : Slot) (r t : Nat) : (l.wakeBy r t).msgvec = l.msgvec := by
  obtain ⟨w, h⟩ := l.wakeBy_eq r t; rw [h]
@[simp] theorem Slot.wakeBy_msgEn (l : Slot) (r t : Nat) : (l.wakeBy r t).msgEn = l.msgEn := by
  obtain ⟨w, h⟩ := l.wakeBy_eq r t; rw [h]
@[simp] theorem Slot.wakeBy_msgMasked (l : Slot) (r t : Nat) : (l.wakeBy r t).msgMasked = l.msgMasked := by
  obtain ⟨w, h⟩ := l.wakeBy_eq r t; rw [h]
@[simp] theorem Slot.wakeBy_msgLeft (l : Slot) (r t : Nat) : (l.wakeBy r t).msgLeft = l.msgLeft := by
  obtain ⟨w, h⟩ := l.wakeBy_eq r t; rw [h]
@[simp] theorem Slot.wakeBy_pfmt (l : Slot) (r t : Nat) : (l.wakeBy r t).pfmt = l.pfmt := by
  obtain ⟨w, h⟩ := l.wakeBy_eq r t; rw [h]
@[simp] theorem Slot.wakeBy_pgam (l : Slot) (r t : Nat) : (l.wakeBy r t).pgam = l.pgam := by
  obtain ⟨w, h⟩ := l.wakeBy_eq r t; rw [h]
@[simp] theorem Slot.wakeBy_rnd (l : Slot) (r t : Nat) : (l.wakeBy r t).rnd = l.rnd := by
  obtain ⟨w, h⟩ := l.wakeBy_eq r t; rw [h]
@[simp] theorem Slot.wakeBy_nt (l : Slot) (r t : Nat) : (l.wakeBy r t).nt = l.nt := by
  obtain ⟨w, h⟩ := l.wakeBy_eq r t; rw [h]
@[simp] theorem Slot.wakeBy_claims (l : Slot) (r t : Nat) : (l.wakeBy r t).claims = l.claims := by
  obtain ⟨w, h⟩ := l.wakeBy_eq r t; rw [h]
@[simp] theorem Slot.wakeBy_st (l : Slot) (r t : Nat) : (l.wakeBy r t).st = l.st := by
  obtain ⟨w, h⟩ := l.wakeBy_eq r t; rw [h]
@[simp] theorem Slot.wakeBy_mons (l : Slot) (r t : Nat) : (l.wakeBy r t).mons = l.mons := by
  obtain ⟨w, h⟩ := l.wakeBy_eq r t; rw [h]
@[simp] theorem Slot.wakeBy_frame (l : Slot) (r t : Nat) : (l.wakeBy r t).frame = l.frame := by
  obtain ⟨w, h⟩ := l.wakeBy_eq r t; rw [h]
@[simp] theorem Slot.wakeBy_inHandler (l : Slot) (r t : Nat) : (l.wakeBy r t).inHandler = l.inHandler := by
  obtain ⟨w, h⟩ := l.wakeBy_eq r t; rw [h]
@[simp] theorem Slot.wakeBy_hold (l : Slot) (r t : Nat) : (l.wakeBy r t).hold = l.hold := by
  obtain ⟨w, h⟩ := l.wakeBy_eq r t; rw [h]
@[simp] theorem Slot.wakeBy_atom (l : Slot) (r t : Nat) : (l.wakeBy r t).atom = l.atom := by
  obtain ⟨w, h⟩ := l.wakeBy_eq r t; rw [h]
@[simp] theorem Slot.wakeBy_walkFaults (l : Slot) (r t : Nat) : (l.wakeBy r t).walkFaults = l.walkFaults := by
  obtain ⟨w, h⟩ := l.wakeBy_eq r t; rw [h]
@[simp] theorem Slot.wakeBy_gathered (l : Slot) (r t : Nat) : (l.wakeBy r t).gathered = l.gathered := by
  obtain ⟨w, h⟩ := l.wakeBy_eq r t; rw [h]
@[simp] theorem Slot.wakeBy_stealFly (l : Slot) (r t : Nat) : (l.wakeBy r t).stealFly = l.stealFly := by
  obtain ⟨w, h⟩ := l.wakeBy_eq r t; rw [h]
@[simp] theorem Slot.wakeBy_stealOut (l : Slot) (r t : Nat) : (l.wakeBy r t).stealOut = l.stealOut := by
  obtain ⟨w, h⟩ := l.wakeBy_eq r t; rw [h]
@[simp] theorem Slot.wakeBy_refused (l : Slot) (r t : Nat) : (l.wakeBy r t).refused = l.refused := by
  obtain ⟨w, h⟩ := l.wakeBy_eq r t; rw [h]
@[simp] theorem Slot.wakeBy_ldMark (l : Slot) (r t : Nat) : (l.wakeBy r t).ldMark = l.ldMark := by
  obtain ⟨w, h⟩ := l.wakeBy_eq r t; rw [h]
@[simp] theorem Slot.wakeBy_stMark (l : Slot) (r t : Nat) : (l.wakeBy r t).stMark = l.stMark := by
  obtain ⟨w, h⟩ := l.wakeBy_eq r t; rw [h]
@[simp] theorem Slot.wakeBy_passed (l : Slot) (r t : Nat) : (l.wakeBy r t).passed = l.passed := by
  obtain ⟨w, h⟩ := l.wakeBy_eq r t; rw [h]
@[simp] theorem Slot.wakeBy_dcf (l : Slot) (r t : Nat) : (l.wakeBy r t).dcf = l.dcf := by
  obtain ⟨w, h⟩ := l.wakeBy_eq r t; rw [h]
@[simp] theorem Slot.wakeBy_parkedAt (l : Slot) (r t : Nat) : (l.wakeBy r t).parkedAt = l.parkedAt := by
  obtain ⟨w, h⟩ := l.wakeBy_eq r t; rw [h]
@[simp] theorem Slot.wakeBy_stopReq (l : Slot) (r t : Nat) : (l.wakeBy r t).stopReq = l.stopReq := by
  obtain ⟨w, h⟩ := l.wakeBy_eq r t; rw [h]
@[simp] theorem Slot.wakeBy_stepping (l : Slot) (r t : Nat) : (l.wakeBy r t).stepping = l.stepping := by
  obtain ⟨w, h⟩ := l.wakeBy_eq r t; rw [h]
@[simp] theorem Slot.wakeBy_catchBkpt (l : Slot) (r t : Nat) : (l.wakeBy r t).catchBkpt = l.catchBkpt := by
  obtain ⟨w, h⟩ := l.wakeBy_eq r t; rw [h]
@[simp] theorem Slot.wakeBy_stepTrap (l : Slot) (r t : Nat) : (l.wakeBy r t).stepTrap = l.stepTrap := by
  obtain ⟨w, h⟩ := l.wakeBy_eq r t; rw [h]
@[simp] theorem Slot.clearHits_regs (l : Slot) : l.clearHits.regs = l.regs := rfl
@[simp] theorem Slot.clearHits_vregs (l : Slot) : l.clearHits.vregs = l.vregs := rfl
@[simp] theorem Slot.clearHits_mregs (l : Slot) : l.clearHits.mregs = l.mregs := rfl
@[simp] theorem Slot.clearHits_pc (l : Slot) : l.clearHits.pc = l.pc := rfl
@[simp] theorem Slot.clearHits_nr (l : Slot) : l.clearHits.nr = l.nr := rfl
@[simp] theorem Slot.clearHits_ncause (l : Slot) : l.clearHits.ncause = l.ncause := rfl
@[simp] theorem Slot.clearHits_sys (l : Slot) : l.clearHits.sys = l.sys := rfl
@[simp] theorem Slot.clearHits_epc (l : Slot) : l.clearHits.epc = l.epc := rfl
@[simp] theorem Slot.clearHits_ecause (l : Slot) : l.clearHits.ecause = l.ecause := rfl
@[simp] theorem Slot.clearHits_evec (l : Slot) : l.clearHits.evec = l.evec := rfl
@[simp] theorem Slot.clearHits_msgvec (l : Slot) : l.clearHits.msgvec = l.msgvec := rfl
@[simp] theorem Slot.clearHits_msgEn (l : Slot) : l.clearHits.msgEn = l.msgEn := rfl
@[simp] theorem Slot.clearHits_msgMasked (l : Slot) : l.clearHits.msgMasked = l.msgMasked := rfl
@[simp] theorem Slot.clearHits_msgLeft (l : Slot) : l.clearHits.msgLeft = l.msgLeft := rfl
@[simp] theorem Slot.clearHits_pfmt (l : Slot) : l.clearHits.pfmt = l.pfmt := rfl
@[simp] theorem Slot.clearHits_pgam (l : Slot) : l.clearHits.pgam = l.pgam := rfl
@[simp] theorem Slot.clearHits_rnd (l : Slot) : l.clearHits.rnd = l.rnd := rfl
@[simp] theorem Slot.clearHits_nt (l : Slot) : l.clearHits.nt = l.nt := rfl
@[simp] theorem Slot.clearHits_claims (l : Slot) : l.clearHits.claims = l.claims := rfl
@[simp] theorem Slot.clearHits_st (l : Slot) : l.clearHits.st = l.st := rfl
@[simp] theorem Slot.clearHits_wake (l : Slot) : l.clearHits.wake = l.wake := rfl
@[simp] theorem Slot.clearHits_frame (l : Slot) : l.clearHits.frame = l.frame := rfl
@[simp] theorem Slot.clearHits_inHandler (l : Slot) : l.clearHits.inHandler = l.inHandler := rfl
@[simp] theorem Slot.clearHits_hold (l : Slot) : l.clearHits.hold = l.hold := rfl
@[simp] theorem Slot.clearHits_atom (l : Slot) : l.clearHits.atom = l.atom := rfl
@[simp] theorem Slot.clearHits_walkFaults (l : Slot) : l.clearHits.walkFaults = l.walkFaults := rfl
@[simp] theorem Slot.clearHits_gathered (l : Slot) : l.clearHits.gathered = l.gathered := rfl
@[simp] theorem Slot.clearHits_stealFly (l : Slot) : l.clearHits.stealFly = l.stealFly := rfl
@[simp] theorem Slot.clearHits_stealOut (l : Slot) : l.clearHits.stealOut = l.stealOut := rfl
@[simp] theorem Slot.clearHits_refused (l : Slot) : l.clearHits.refused = l.refused := rfl
@[simp] theorem Slot.clearHits_ldMark (l : Slot) : l.clearHits.ldMark = l.ldMark := rfl
@[simp] theorem Slot.clearHits_stMark (l : Slot) : l.clearHits.stMark = l.stMark := rfl
@[simp] theorem Slot.clearHits_passed (l : Slot) : l.clearHits.passed = l.passed := rfl
@[simp] theorem Slot.clearHits_dcf (l : Slot) : l.clearHits.dcf = l.dcf := rfl
@[simp] theorem Slot.clearHits_parkedAt (l : Slot) : l.clearHits.parkedAt = l.parkedAt := rfl
@[simp] theorem Slot.clearHits_stopReq (l : Slot) : l.clearHits.stopReq = l.stopReq := rfl
@[simp] theorem Slot.clearHits_stepping (l : Slot) : l.clearHits.stepping = l.stepping := rfl
@[simp] theorem Slot.clearHits_catchBkpt (l : Slot) : l.clearHits.catchBkpt = l.catchBkpt := rfl
@[simp] theorem Slot.clearHits_stepTrap (l : Slot) : l.clearHits.stepTrap = l.stepTrap := rfl
@[simp] theorem Slot.monWrite_regs (l : Slot) (b : Bool) (i t : Nat) : (l.monWrite b i t).regs = l.regs := by
  unfold Slot.monWrite; split <;> simp
@[simp] theorem Slot.monWrite_vregs (l : Slot) (b : Bool) (i t : Nat) : (l.monWrite b i t).vregs = l.vregs := by
  unfold Slot.monWrite; split <;> simp
@[simp] theorem Slot.monWrite_mregs (l : Slot) (b : Bool) (i t : Nat) : (l.monWrite b i t).mregs = l.mregs := by
  unfold Slot.monWrite; split <;> simp
@[simp] theorem Slot.monWrite_pc (l : Slot) (b : Bool) (i t : Nat) : (l.monWrite b i t).pc = l.pc := by
  unfold Slot.monWrite; split <;> simp
@[simp] theorem Slot.monWrite_nr (l : Slot) (b : Bool) (i t : Nat) : (l.monWrite b i t).nr = l.nr := by
  unfold Slot.monWrite; split <;> simp
@[simp] theorem Slot.monWrite_ncause (l : Slot) (b : Bool) (i t : Nat) : (l.monWrite b i t).ncause = l.ncause := by
  unfold Slot.monWrite; split <;> simp
@[simp] theorem Slot.monWrite_sys (l : Slot) (b : Bool) (i t : Nat) : (l.monWrite b i t).sys = l.sys := by
  unfold Slot.monWrite; split <;> simp
@[simp] theorem Slot.monWrite_epc (l : Slot) (b : Bool) (i t : Nat) : (l.monWrite b i t).epc = l.epc := by
  unfold Slot.monWrite; split <;> simp
@[simp] theorem Slot.monWrite_ecause (l : Slot) (b : Bool) (i t : Nat) : (l.monWrite b i t).ecause = l.ecause := by
  unfold Slot.monWrite; split <;> simp
@[simp] theorem Slot.monWrite_evec (l : Slot) (b : Bool) (i t : Nat) : (l.monWrite b i t).evec = l.evec := by
  unfold Slot.monWrite; split <;> simp
@[simp] theorem Slot.monWrite_msgvec (l : Slot) (b : Bool) (i t : Nat) : (l.monWrite b i t).msgvec = l.msgvec := by
  unfold Slot.monWrite; split <;> simp
@[simp] theorem Slot.monWrite_msgEn (l : Slot) (b : Bool) (i t : Nat) : (l.monWrite b i t).msgEn = l.msgEn := by
  unfold Slot.monWrite; split <;> simp
@[simp] theorem Slot.monWrite_msgMasked (l : Slot) (b : Bool) (i t : Nat) : (l.monWrite b i t).msgMasked = l.msgMasked := by
  unfold Slot.monWrite; split <;> simp
@[simp] theorem Slot.monWrite_msgLeft (l : Slot) (b : Bool) (i t : Nat) : (l.monWrite b i t).msgLeft = l.msgLeft := by
  unfold Slot.monWrite; split <;> simp
@[simp] theorem Slot.monWrite_pfmt (l : Slot) (b : Bool) (i t : Nat) : (l.monWrite b i t).pfmt = l.pfmt := by
  unfold Slot.monWrite; split <;> simp
@[simp] theorem Slot.monWrite_pgam (l : Slot) (b : Bool) (i t : Nat) : (l.monWrite b i t).pgam = l.pgam := by
  unfold Slot.monWrite; split <;> simp
@[simp] theorem Slot.monWrite_rnd (l : Slot) (b : Bool) (i t : Nat) : (l.monWrite b i t).rnd = l.rnd := by
  unfold Slot.monWrite; split <;> simp
@[simp] theorem Slot.monWrite_nt (l : Slot) (b : Bool) (i t : Nat) : (l.monWrite b i t).nt = l.nt := by
  unfold Slot.monWrite; split <;> simp
@[simp] theorem Slot.monWrite_claims (l : Slot) (b : Bool) (i t : Nat) : (l.monWrite b i t).claims = l.claims := by
  unfold Slot.monWrite; split <;> simp
@[simp] theorem Slot.monWrite_st (l : Slot) (b : Bool) (i t : Nat) : (l.monWrite b i t).st = l.st := by
  unfold Slot.monWrite; split <;> simp
@[simp] theorem Slot.monWrite_frame (l : Slot) (b : Bool) (i t : Nat) : (l.monWrite b i t).frame = l.frame := by
  unfold Slot.monWrite; split <;> simp
@[simp] theorem Slot.monWrite_inHandler (l : Slot) (b : Bool) (i t : Nat) : (l.monWrite b i t).inHandler = l.inHandler := by
  unfold Slot.monWrite; split <;> simp
@[simp] theorem Slot.monWrite_hold (l : Slot) (b : Bool) (i t : Nat) : (l.monWrite b i t).hold = l.hold := by
  unfold Slot.monWrite; split <;> simp
@[simp] theorem Slot.monWrite_atom (l : Slot) (b : Bool) (i t : Nat) : (l.monWrite b i t).atom = l.atom := by
  unfold Slot.monWrite; split <;> simp
@[simp] theorem Slot.monWrite_walkFaults (l : Slot) (b : Bool) (i t : Nat) : (l.monWrite b i t).walkFaults = l.walkFaults := by
  unfold Slot.monWrite; split <;> simp
@[simp] theorem Slot.monWrite_gathered (l : Slot) (b : Bool) (i t : Nat) : (l.monWrite b i t).gathered = l.gathered := by
  unfold Slot.monWrite; split <;> simp
@[simp] theorem Slot.monWrite_stealFly (l : Slot) (b : Bool) (i t : Nat) : (l.monWrite b i t).stealFly = l.stealFly := by
  unfold Slot.monWrite; split <;> simp
@[simp] theorem Slot.monWrite_stealOut (l : Slot) (b : Bool) (i t : Nat) : (l.monWrite b i t).stealOut = l.stealOut := by
  unfold Slot.monWrite; split <;> simp
@[simp] theorem Slot.monWrite_refused (l : Slot) (b : Bool) (i t : Nat) : (l.monWrite b i t).refused = l.refused := by
  unfold Slot.monWrite; split <;> simp
@[simp] theorem Slot.monWrite_ldMark (l : Slot) (b : Bool) (i t : Nat) : (l.monWrite b i t).ldMark = l.ldMark := by
  unfold Slot.monWrite; split <;> simp
@[simp] theorem Slot.monWrite_stMark (l : Slot) (b : Bool) (i t : Nat) : (l.monWrite b i t).stMark = l.stMark := by
  unfold Slot.monWrite; split <;> simp
@[simp] theorem Slot.monWrite_passed (l : Slot) (b : Bool) (i t : Nat) : (l.monWrite b i t).passed = l.passed := by
  unfold Slot.monWrite; split <;> simp
@[simp] theorem Slot.monWrite_dcf (l : Slot) (b : Bool) (i t : Nat) : (l.monWrite b i t).dcf = l.dcf := by
  unfold Slot.monWrite; split <;> simp
@[simp] theorem Slot.monWrite_parkedAt (l : Slot) (b : Bool) (i t : Nat) : (l.monWrite b i t).parkedAt = l.parkedAt := by
  unfold Slot.monWrite; split <;> simp
@[simp] theorem Slot.monWrite_stopReq (l : Slot) (b : Bool) (i t : Nat) : (l.monWrite b i t).stopReq = l.stopReq := by
  unfold Slot.monWrite; split <;> simp
@[simp] theorem Slot.monWrite_stepping (l : Slot) (b : Bool) (i t : Nat) : (l.monWrite b i t).stepping = l.stepping := by
  unfold Slot.monWrite; split <;> simp
@[simp] theorem Slot.monWrite_catchBkpt (l : Slot) (b : Bool) (i t : Nat) : (l.monWrite b i t).catchBkpt = l.catchBkpt := by
  unfold Slot.monWrite; split <;> simp
@[simp] theorem Slot.monWrite_stepTrap (l : Slot) (b : Bool) (i t : Nat) : (l.monWrite b i t).stepTrap = l.stepTrap := by
  unfold Slot.monWrite; split <;> simp

end Sys2Proof.Machine
end

