-- ==== Sys2Proof/Laws/Ops.lean ====
section
/-! SUPPORT. What the shared operations do, once: reads after writes of cores, slots, registers and memory, wakes, ready and
not-ready outcomes, traps. -/

namespace Sys2Proof.Machine

open Sys2Proof.Safety

/-! ## Cores and slots -/

theorem getCore_modCore (s : State) (c d : Nat) (f : Core → Core) :
    getCore (modCore s c f) d = if d = c then f (getCore s d) else getCore s d := by
  unfold modCore setCore getCore
  rw [sget_sput]
  split
  · rename_i h; rw [h]
  · rfl

@[simp] theorem getCore_modCore_self (s : State) (c : Nat) (f : Core → Core) :
    getCore (modCore s c f) c = f (getCore s c) := by simp [getCore_modCore]

theorem Core.slot_modSlot (k : Core) (n m : Nat) (f : Slot → Slot) :
    (k.modSlot n f).slot m = if m = n then f (k.slot m) else k.slot m := by
  unfold Core.modSlot Core.slot
  rw [sget_sput]
  split
  · rename_i h; rw [h]
  · rfl

@[simp] theorem Core.slot_modSlot_self (k : Core) (n : Nat) (f : Slot → Slot) : (k.modSlot n f).slot n = f (k.slot n) := by
  simp [Core.slot_modSlot]

theorem getSlot_modSlotAt (s : State) (c n d m : Nat) (f : Slot → Slot) :
    getSlot (modSlotAt s c n f) d m = if d = c ∧ m = n then f (getSlot s d m) else getSlot s d m := by
  unfold getSlot modSlotAt
  rw [getCore_modCore]
  by_cases h : d = c
  · by_cases h2 : m = n
    · simp [h, h2]
    · simp [h, h2, Core.slot_modSlot]
  · simp [h]

@[simp] theorem getSlot_modSlotAt_self (s : State) (c n : Nat) (f : Slot → Slot) :
    getSlot (modSlotAt s c n f) c n = f (getSlot s c n) := by simp [getSlot_modSlotAt]

theorem getCore_modSlotAt (s : State) (c n d : Nat) (f : Slot → Slot) :
    getCore (modSlotAt s c n f) d = if d = c then (getCore s d).modSlot n f else getCore s d := by
  unfold modSlotAt; rw [getCore_modCore]

@[simp] theorem slot_modSlot (s : State) (f : Slot → Slot) : slot (modSlot s f) = f (slot s) := by
  simp [slot, modSlot, modSlotAt_curCore, modSlotAt_curSlot]

@[simp] theorem cur_modCur (s : State) (f : Core → Core) : cur (modCur s f) = f (cur s) := by
  simp [cur, modCur]

@[simp] theorem slot_advance (s : State) : slot (advance s) = (slot s).advance := by simp [advance]

@[simp] theorem slot_jumpTo (s : State) (t : VA) : slot (jumpTo s t) = { slot s with pc := t } := by simp [jumpTo]

@[simp] theorem slot_trapReturn (s : State) : slot (trapReturn s) = { slot s with pc := (slot s).epc, sys := false } := by
  simp [trapReturn]

@[simp] theorem getCore_modPart (s : State) (p c : Nat) (f : Partition → Partition) : getCore (modPart s p f) c = getCore s c :=
  rfl

@[simp] theorem getSlot_modPart (s : State) (p c n : Nat) (f : Partition → Partition) :
    getSlot (modPart s p f) c n = getSlot s c n := rfl

@[simp] theorem getPart_modCore (s : State) (c p : Nat) (f : Core → Core) : getPart (modCore s c f) p = getPart s p := rfl

theorem getPart_modPart (s : State) (p q : Nat) (f : Partition → Partition) :
    getPart (modPart s p f) q = if q = p then f (getPart s q) else getPart s q := by
  unfold modPart getPart
  rw [sget_sput]
  split
  · rename_i h; rw [h]
  · rfl

/-! ## Registers (R79) -/

/-- s0 reads 0 whatever is written to it; another register reads what was written. -/
theorem Slot.getS_setS (l : Slot) (r q : SReg) (v : W64) :
    (l.setS r v).getS q = if q = r ∧ r ≠ 0 then v else l.getS q := by
  unfold Slot.setS Slot.getS
  by_cases h0 : r = 0
  · simp [h0]
  · by_cases hq : q = r
    · subst hq; simp [h0]
    · have : q.val ≠ r.val := fun e => hq (Fin.ext e)
      simp [h0, hq, sget_sset_ne _ _ _ this]

theorem Slot.getV_setV (l : Slot) (r q : VReg) (v : V512) : (l.setV r v).getV q = if q = r then v else l.getV q := by
  unfold Slot.setV Slot.getV
  by_cases hq : q = r
  · subst hq; simp
  · have : q.val ≠ r.val := fun e => hq (Fin.ext e)
    simp [hq, sget_sset_ne _ _ _ this]

theorem Slot.getM_setM (l : Slot) (r q : MReg) (v : W64) :
    (l.setM r v).getM q = if q = r ∧ r ≠ 0 then v else l.getM q := by
  unfold Slot.setM Slot.getM
  by_cases h0 : r = 0
  · simp [h0]
  · by_cases hq : q = r
    · subst hq; simp [h0]
    · have : q.val ≠ r.val := fun e => hq (Fin.ext e)
      simp [h0, hq, sget_sset_ne _ _ _ this]

@[simp] theorem Slot.getS_zero (l : Slot) : l.getS 0 = 0 := rfl

@[simp] theorem Slot.getM_zero (l : Slot) : l.getM 0 = BitVec.allOnes 64 := rfl

@[simp] theorem slot_wrS (s : State) (r : SReg) (v : W64) : slot (wrS s r v) = (slot s).setS r v := by simp [wrS]

@[simp] theorem slot_wrV (s : State) (r : VReg) (v : V512) : slot (wrV s r v) = (slot s).setV r v := by simp [wrV]

@[simp] theorem slot_wrM (s : State) (r : MReg) (v : W64) : slot (wrM s r v) = (slot s).setM r v := by simp [wrM]

theorem Slot.getS_congr {l m : Slot} (h : m.regs = l.regs) (r : SReg) : m.getS r = l.getS r := by simp [Slot.getS, h]

theorem Slot.getV_congr {l m : Slot} (h : m.vregs = l.vregs) (r : VReg) : m.getV r = l.getV r := by simp [Slot.getV, h]

theorem Slot.getM_congr {l m : Slot} (h : m.mregs = l.mregs) (r : MReg) : m.getM r = l.getM r := by simp [Slot.getM, h]

/-- Where the PC goes depends on the PC and the frame alone. -/
theorem Slot.advance_pc_congr {l m : Slot} (hp : m.pc = l.pc) (hf : m.frame = l.frame) : m.advance.pc = l.advance.pc := by
  unfold Slot.advance
  rw [hp, hf]
  split
  · rfl
  · repeat' split
    all_goals simp_all

/-- Outside a frame the PC moves on by 4. -/
theorem Slot.advance_plain {l : Slot} (h : l.frame = none) : l.advance = { l with pc := l.pc + 4 } := by
  unfold Slot.advance; rw [h]

/-! ## Memory -/

@[simp] theorem underKey_length (s : State) (t : Target) (a : Nat) (d : List Byte) : (underKey s t a d).length = d.length := by
  induction d generalizing a with
  | nil => rfl
  | cons x xs ih => simp [underKey, ih]

/-- What stands in memory for a byte is that byte less its key. -/
theorem underKey_getD (s : State) (t : Target) (a i : Nat) (d : List Byte) (h : i < d.length) :
    (underKey s t a d).getD i 0 = d.getD i 0 - keyByte s t (a + i) := by
  induction d generalizing a i with
  | nil => simp at h
  | cons x xs ih =>
    cases i with
    | zero => rfl
    | succ j =>
      have := ih (a + 1) j (by simpa using h)
      simpa [underKey, Nat.add_assoc, Nat.add_comm 1 j] using this

/-- A memory write where the memory holds the address (R14). -/
theorem memWrite_of_holds {s : State} {t : Target} {a : Nat} (d : List Byte) (h : memHolds t a = true) :
    memWrite s t a d = setMem s t (ssetRange 0 (memOf s t) a (underKey s t a d)) := if_pos h

/-- A memory write elsewhere changes nothing. -/
theorem memWrite_of_absent {s : State} {t : Target} {a : Nat} (d : List Byte) (h : memHolds t a = false) : memWrite s t a d = s := by
  simp [memWrite, h]

@[simp] theorem keyByte_memWrite (s : State) (t u : Target) (a b : Nat) (d : List Byte) :
    keyByte (memWrite s t a d) u b = keyByte s u b := by
  cases h : memHolds t a
  · rw [memWrite_of_absent d h]
  · rw [memWrite_of_holds d h]; cases t <;> rfl

theorem memOf_memWrite (s : State) (t u : Target) (a : Nat) (d : List Byte) (h : memHolds t a = true) :
    memOf (memWrite s t a d) u = if u = t then ssetRange 0 (memOf s t) a (underKey s t a d) else memOf s u := by
  rw [memWrite_of_holds d h]; cases t <;> cases u <;> rfl

/-- What a byte reads as after a memory write. -/
theorem readByte_memWrite (s : State) (t u : Target) (a b : Nat) (d : List Byte) :
    readByte (memWrite s t a d) u b =
      if memHolds t a = true ∧ memHolds t b = true ∧ u = t ∧ a ≤ b ∧ b < a + d.length then d.getD (b - a) 0
      else readByte s u b := by
  cases ha : memHolds t a
  · rw [memWrite_of_absent d ha]; simp
  unfold readByte
  rw [keyByte_memWrite, memOf_memWrite _ _ _ _ _ ha]
  by_cases h : u = t
  · subst h
    rw [if_pos rfl, sget_ssetRange, underKey_length]
    cases hb : memHolds u b
    · simp
    by_cases h2 : a ≤ b ∧ b < a + d.length
    · rw [if_pos rfl, if_pos h2, if_pos ⟨rfl, rfl, rfl, h2⟩, underKey_getD _ _ _ _ _ (by omega), Nat.add_sub_cancel' h2.1]
      simp
    · simp [h2]
  · simp [h]

/-- A memory write keeps every memory's canonical form. -/
theorem memWrite_wf (s : State) (t : Target) (a : Nat) (d : List Byte) (h : MemoriesWf s) :
    MemoriesWf (memWrite s t a d) := by
  cases ha : memHolds t a
  · rwa [memWrite_of_absent d ha]
  rw [memWrite_of_holds d ha]
  obtain ⟨h1, h2, h3⟩ := h
  cases t
  · exact ⟨ssetRange_wf 0 _ _ a h1, h2, h3⟩
  · exact ⟨h1, ssetRange_wf 0 _ _ a h2, h3⟩
  · exact ⟨h1, h2, ssetRange_wf 0 _ _ a h3⟩

@[simp] theorem getCore_memWrite (s : State) (t : Target) (a : Nat) (d : List Byte) (c : Nat) :
    getCore (memWrite s t a d) c = getCore s c := by
  cases h : memHolds t a
  · rw [memWrite_of_absent d h]
  · rw [memWrite_of_holds d h]; cases t <;> rfl

/-- A write of far memory keeps the canonical form. -/
theorem farWrite_wf (s : State) (p a : Nat) (d : List Byte) (h : MemoriesWf s) : MemoriesWf (farWrite s p a d) := by
  refine memWrite_wf _ _ _ _ ?_
  unfold farTake
  dsimp only
  split
  · exact h
  · exact memWrite_wf s .far _ _ h

/-- A store at the home keeps the canonical form. -/
theorem homeStore_wf (s : State) (p : Nat) (t : Target) (comp : Option Nat) (a : Nat) (d : List Byte) (h : MemoriesWf s) :
    MemoriesWf (homeStore s p t comp a d) := by
  unfold homeStore
  simp only [putBlock, drawFree]
  repeat' split
  all_goals first
    | exact h
    | exact farWrite_wf s _ _ _ h
    | exact memWrite_wf s _ _ _ h
    | exact memWrite_wf { s with free := s.free + 1 } _ _ _ h

/-! ## Wakes (R40, R43) -/

theorem Core.slot_mapSlots (k : Core) (f : Nat → Slot → Slot) (n : Nat) (h : f n Slot.reset = Slot.reset) :
    (k.mapSlots f).slot n = f n (k.slot n) := by
  unfold Core.slot Core.mapSlots
  exact sget_map Slot.reset f k.slots n h

theorem getCore_mapCores (s : State) (f : Nat → Core → Core) (c : Nat) (h : f c Core.reset = Core.reset) :
    getCore (mapCores s f) c = f c (getCore s c) := by
  unfold getCore mapCores
  exact sget_map Core.reset f s.cores c h

/-- A core after a wake. -/
theorem getCore_wakeWhere (s : State) (p : Resource → Bool) (c : Nat) :
    getCore (wakeWhere s p) c =
      (getCore s c).mapSlots (fun _ l => if l.parkedOn p then l.wakeBy 7 (getCore s c).cyc else l) := by
  unfold wakeWhere
  exact getCore_mapCores s _ c rfl

/-- A slot after a wake: only its wake may differ. -/
theorem getSlot_wakeWhere (s : State) (p : Resource → Bool) (c n : Nat) :
    getSlot (wakeWhere s p) c n =
      (if (getSlot s c n).parkedOn p then (getSlot s c n).wakeBy 7 (getCore s c).cyc else getSlot s c n) := by
  unfold getSlot
  rw [getCore_wakeWhere]
  exact Core.slot_mapSlots (getCore s c) _ n rfl

theorem getSlot_wakeWhere_eq (s : State) (p : Resource → Bool) (c n : Nat) :
    ∃ w, getSlot (wakeWhere s p) c n = { getSlot s c n with wake := w } := by
  rw [getSlot_wakeWhere]
  split
  · exact Slot.wakeBy_eq _ _ _
  · exact ⟨(getSlot s c n).wake, rfl⟩

/-! ## The slot's own window stores (R131, R156) -/

/-- What one own window store after another keeps, performing all of them keeps. -/
theorem performOwn_induct {P : State → Prop} {u : Nat}
    (step : ∀ t i e, P t → (cur t).psb[i]? = some e → ownStore t u e = true →
      P (winWrite (dropPosted t t.curCore i e) t.curCore u e.addr e.data)) :
    ∀ n s, P s → P (performOwn u n s)
  | 0, _, h => h
  | n + 1, s, h => by
    unfold performOwn
    split
    · exact h
    · rename_i i hi
      split
      · exact h
      · rename_i e he
        refine performOwn_induct step n _ (step s i e h he ?_)
        obtain ⟨hlt, hp, -⟩ := List.findIdx?_eq_some_iff_getElem.mp hi
        rw [List.getElem?_eq_getElem hlt] at he
        exact (Option.some.inj he) ▸ hp

/-- With no own window store left there is nothing to perform. -/
theorem ownPerformed_of_done {s : State} {u : Nat} (h : OwnDone s u) : ownPerformed s u = s := by
  unfold ownPerformed
  have hn : (cur s).psb.findIdx? (ownStore s u) = none := List.findIdx?_eq_none_iff.mpr h
  cases (cur s).psb.length with
  | zero => rfl
  | succ n => simp [performOwn, hn]

/-! ## Keeping everything else -/

theorem sameSpecials_refl (l : Slot) : SameSpecials l l := ⟨rfl, rfl, rfl, rfl, rfl, rfl, rfl, rfl, rfl, rfl, rfl⟩

/-- A change of the current slot keeps everything else. -/
theorem keeps_modSlot (s : State) (f : Slot → Slot) (ch : Changes)
    (hs : ∀ r, r ∉ ch.sreg → (f (slot s)).getS r = (slot s).getS r)
    (hv : ∀ r, r ∉ ch.vreg → (f (slot s)).getV r = (slot s).getV r)
    (hm : ∀ r, r ∉ ch.mreg → (f (slot s)).getM r = (slot s).getM r)
    (hmode : (f (slot s)).sys = (slot s).sys) (hsp : SameSpecials (slot s) (f (slot s))) :
    Keeps s (modSlot s f) ch := by
  have hslot : ∀ c n, getSlot (modSlot s f) c n =
      if c = s.curCore ∧ n = s.curSlot then f (slot s) else getSlot s c n := by
    intro c n
    unfold modSlot
    rw [getSlot_modSlotAt]
    split
    · rename_i h; rw [h.1, h.2]; rfl
    · rfl
  have hcore : ∀ c, getCore (modSlot s f) c = if c = s.curCore then (getCore s c).modSlot s.curSlot f else getCore s c :=
    fun c => getCore_modSlotAt s s.curCore s.curSlot c f
  constructor
  · rfl
  · rfl
  · intro c n r h
    rw [hslot]; split
    · rename_i e; rw [e.1, e.2]; exact hs r (h e.1 e.2)
    · rfl
  · intro c n r h
    rw [hslot]; split
    · rename_i e; rw [e.1, e.2]; exact hv r (h e.1 e.2)
    · rfl
  · intro c n r h
    rw [hslot]; split
    · rename_i e; rw [e.1, e.2]; exact hm r (h e.1 e.2)
    · rfl
  · intro c n h; rw [hslot, if_neg h]
  · intro c n h; rw [hslot, if_neg h]; exact ⟨rfl, rfl⟩
  · intro c n
    rw [hslot]; split
    · rename_i e; rw [e.1, e.2]; exact hmode
    · rfl
  · intro c n
    rw [hslot]; split
    · rename_i e; rw [e.1, e.2]; exact hsp
    · exact sameSpecials_refl _
  · intro c; rw [hcore]; split <;> exact ⟨rfl, rfl, rfl⟩
  · refine ⟨rfl, fun c => ?_⟩; rw [hcore]; split <;> rfl
  · intro c _; rw [hcore]; split <;> rfl
  · intro c a _; rw [hcore]; split <;> rfl
  · intro c w _; rw [hcore]; split <;> rfl
  · intro c e _; rw [hcore]; split <;> rfl
  · intro tg a _; cases tg <;> rfl

/-- Keeping composes: the second change may differ in what it changes. -/
theorem keeps_trans {s t u : State} {ch : Changes} (h1 : Keeps s t ch) (h2 : Keeps t u ch) : Keeps s u ch := by
  have hc := h1.core
  have hn := h1.slot
  constructor
  · rw [h2.core, hc]
  · rw [h2.slot, hn]
  · intro c n r h; rw [h2.scalar c n r (by rwa [hc, hn]), h1.scalar c n r h]
  · intro c n r h; rw [h2.vector c n r (by rwa [hc, hn]), h1.vector c n r h]
  · intro c n r h; rw [h2.mask c n r (by rwa [hc, hn]), h1.mask c n r h]
  · intro c n h; rw [h2.otherPc c n (by rwa [hc, hn]), h1.otherPc c n h]
  · intro c n h
    have a := h2.otherStatus c n (by rwa [hc, hn])
    have b := h1.otherStatus c n h
    exact ⟨a.1.trans b.1, a.2.trans b.2⟩
  · intro c n; rw [h2.mode, h1.mode]
  · intro c n
    have a := h2.specials c n
    have b := h1.specials c n
    exact ⟨a.epc.trans b.epc, a.ecause.trans b.ecause, a.evec.trans b.evec, a.msgvec.trans b.msgvec,
      a.msgEn.trans b.msgEn, a.msgMasked.trans b.msgMasked, a.msgLeft.trans b.msgLeft, a.pfmt.trans b.pfmt,
      a.pgam.trans b.pgam, a.rnd.trans b.rnd, a.nt.trans b.nt⟩
  · intro c
    have a := h2.gear c
    have b := h1.gear c
    exact ⟨a.1.trans b.1, a.2.1.trans b.2.1, a.2.2.trans b.2.2⟩
  · exact ⟨h2.clocks.1.trans h1.clocks.1, fun c => (h2.clocks.2 c).trans (h1.clocks.2 c)⟩
  · intro c h; rw [h2.lamport c h, h1.lamport c h]
  · intro c a h; rw [h2.pad c a h, h1.pad c a h]
  · intro c w h; rw [h2.fe c w h, h1.fe c w h]
  · intro c e h; rw [h2.acc c e h, h1.acc c e h]
  · intro tg a h; rw [h2.mem tg a h, h1.mem tg a h]

/-- A wake keeps everything. -/
theorem keeps_wakeWhere (s : State) (p : Resource → Bool) (ch : Changes) : Keeps s (wakeWhere s p) ch := by
  have hslot := getSlot_wakeWhere_eq s p
  have hcore := getCore_wakeWhere s p
  constructor
  · rfl
  · rfl
  · intro c n r _; obtain ⟨w, h⟩ := hslot c n; rw [h]; rfl
  · intro c n r _; obtain ⟨w, h⟩ := hslot c n; rw [h]; rfl
  · intro c n r _; obtain ⟨w, h⟩ := hslot c n; rw [h]; rfl
  · intro c n _; obtain ⟨w, h⟩ := hslot c n; rw [h]
  · intro c n _; obtain ⟨w, h⟩ := hslot c n; rw [h]; exact ⟨rfl, rfl⟩
  · intro c n; obtain ⟨w, h⟩ := hslot c n; rw [h]
  · intro c n; obtain ⟨w, h⟩ := hslot c n; rw [h]; exact ⟨rfl, rfl, rfl, rfl, rfl, rfl, rfl, rfl, rfl, rfl, rfl⟩
  · intro c; rw [hcore]; exact ⟨rfl, rfl, rfl⟩
  · exact ⟨rfl, fun c => by rw [hcore]; rfl⟩
  · intro c _; rw [hcore]; rfl
  · intro c a _; rw [hcore]; rfl
  · intro c w _; rw [hcore]; rfl
  · intro c e _; rw [hcore]; rfl
  · intro tg a _; cases tg <;> rfl

theorem keeps_wakeFreed (s : State) (cs : List Claim) (ch : Changes) (h : Keeps s s ch) : Keeps s (wakeFreed s cs) ch := by
  unfold wakeFreed; split
  · exact h
  · exact keeps_wakeWhere s _ ch

theorem keeps_refl (s : State) (ch : Changes) : Keeps s s ch :=
  ⟨rfl, rfl, fun _ _ _ _ => rfl, fun _ _ _ _ => rfl, fun _ _ _ _ => rfl, fun _ _ _ => rfl, fun _ _ _ => ⟨rfl, rfl⟩,
    fun _ _ => rfl, fun _ _ => sameSpecials_refl _, fun _ => ⟨rfl, rfl, rfl⟩, ⟨rfl, fun _ => rfl⟩, fun _ _ => rfl, fun _ _ _ => rfl,
    fun _ _ _ => rfl, fun _ _ _ => rfl, fun _ _ _ => rfl⟩

/-- A change of a partition keeps everything the frames speak of. -/
theorem keeps_modPart (s : State) (p : Nat) (f : Partition → Partition) (ch : Changes) : Keeps s (modPart s p f) ch :=
  ⟨rfl, rfl, fun _ _ _ _ => rfl, fun _ _ _ _ => rfl, fun _ _ _ _ => rfl, fun _ _ _ => rfl, fun _ _ _ => ⟨rfl, rfl⟩,
    fun _ _ => rfl, fun _ _ => sameSpecials_refl _, fun _ => ⟨rfl, rfl, rfl⟩, ⟨rfl, fun _ => rfl⟩, fun _ _ => rfl, fun _ _ _ => rfl,
    fun _ _ _ => rfl, fun _ _ _ => rfl, fun tg _ _ => by cases tg <;> rfl⟩

/-! ## Beside the registers -/

theorem sameStructs_refl (k : Core) : SameStructs k k := ⟨rfl, rfl, rfl, rfl, rfl, rfl, rfl, rfl, rfl, rfl, rfl, rfl, rfl, rfl⟩

theorem sameStructs_trans {k m n : Core} (h : SameStructs k m) (g : SameStructs m n) : SameStructs k n :=
  ⟨g.dq.trans h.dq, g.bq.trans h.bq, g.link.trans h.link, g.linkCr.trans h.linkCr, g.chans.trans h.chans,
    g.chFree.trans h.chFree, g.mb.trans h.mb, g.mbFull.trans h.mbFull, g.dqHead.trans h.dqHead, g.dqTail.trans h.dqTail,
    g.landings.trans h.landings, g.credits.trans h.credits, g.pressCr.trans h.pressCr, g.view.trans h.view⟩

/-- No structure, posted store or packet differs. -/
structure Shell (s t : State) : Prop where
  structs : ∀ c, SameStructs (getCore s c) (getCore t c)
  psb : ∀ c, (getCore t c).psb = (getCore s c).psb
  net : t.net = s.net

theorem shell_refl (s : State) : Shell s s := ⟨fun _ => sameStructs_refl _, fun _ => rfl, rfl⟩

theorem shell_trans {s t u : State} (h : Shell s t) (g : Shell t u) : Shell s u :=
  ⟨fun c => sameStructs_trans (h.structs c) (g.structs c), fun c => (g.psb c).trans (h.psb c), g.net.trans h.net⟩

/-- A change of a core that keeps its structures and its posted stores. -/
theorem shell_modCore (s : State) (c : Nat) (f : Core → Core) (hf : ∀ k, SameStructs k (f k) ∧ (f k).psb = k.psb) :
    Shell s (modCore s c f) := by
  refine ⟨fun d => ?_, fun d => ?_, rfl⟩ <;> rw [getCore_modCore] <;> split
  · exact (hf _).1
  · exact sameStructs_refl _
  · exact (hf _).2
  · rfl

theorem shell_modSlot (s : State) (f : Slot → Slot) : Shell s (modSlot s f) :=
  shell_modCore s s.curCore (fun k => k.modSlot s.curSlot f) (fun _ =>
    ⟨⟨rfl, rfl, rfl, rfl, rfl, rfl, rfl, rfl, rfl, rfl, rfl, rfl, rfl, rfl⟩, rfl⟩)

theorem shell_wakeWhere (s : State) (p : Resource → Bool) : Shell s (wakeWhere s p) := by
  refine ⟨fun c => ?_, fun c => ?_, rfl⟩ <;> rw [getCore_wakeWhere]
  · exact ⟨rfl, rfl, rfl, rfl, rfl, rfl, rfl, rfl, rfl, rfl, rfl, rfl, rfl, rfl⟩
  · rfl

theorem shell_wakeFreed (s : State) (cs : List Claim) : Shell s (wakeFreed s cs) := by
  unfold wakeFreed; split
  · exact shell_refl s
  · exact shell_wakeWhere s _

/-- A change of the current slot that keeps every slot's claims, monitors and handler mark leaves all beside registers alone. -/
theorem untouched_modSlot (s : State) (f : Slot → Slot)
    (hf : (f (slot s)).claims = (slot s).claims ∧ (f (slot s)).mons = (slot s).mons ∧
      (f (slot s)).inHandler = (slot s).inHandler) : Untouched s (modSlot s f) := by
  refine ⟨(shell_modSlot s f).structs, (shell_modSlot s f).psb, rfl, fun c n => ?_⟩
  unfold modSlot
  rw [getSlot_modSlotAt]
  split
  · rename_i e; rw [e.1, e.2]; exact hf
  · exact ⟨rfl, rfl, rfl⟩

theorem untouched_trans {s t u : State} (h : Untouched s t) (g : Untouched t u) : Untouched s u :=
  ⟨fun c => sameStructs_trans (h.structs c) (g.structs c), fun c => (g.psb c).trans (h.psb c), g.net.trans h.net,
    fun c n => ⟨(g.slots c n).1.trans (h.slots c n).1, (g.slots c n).2.1.trans (h.slots c n).2.1,
      (g.slots c n).2.2.trans (h.slots c n).2.2⟩⟩

theorem untouched_advance (s : State) : Untouched s (advance s) := untouched_modSlot s _ (by simp)

theorem untouched_jumpTo (s : State) (t : VA) : Untouched s (jumpTo s t) := untouched_modSlot s _ ⟨rfl, rfl, rfl⟩

theorem untouched_wrS (s : State) (d : SReg) (v : W64) : Untouched s (wrS s d v) := untouched_modSlot s _ (by simp)

theorem untouched_wrV (s : State) (d : VReg) (v : V512) : Untouched s (wrV s d v) := untouched_modSlot s _ (by simp)

theorem untouched_wrM (s : State) (d : MReg) (v : W64) : Untouched s (wrM s d v) := untouched_modSlot s _ (by simp)

/-- Falling through keeps everything else. -/
theorem keeps_advance (s : State) (ch : Changes) : Keeps s (advance s) ch :=
  keeps_modSlot s Slot.advance ch (fun r _ => Slot.getS_congr (by simp) r) (fun r _ => Slot.getV_congr (by simp) r)
    (fun r _ => Slot.getM_congr (by simp) r) (by simp) (by constructor <;> simp)

/-- Writing a scalar register changes that register. -/
theorem keeps_wrS (s : State) (d : SReg) (v : W64) (ch : Changes) (h : d ∈ ch.sreg) : Keeps s (wrS s d v) ch :=
  keeps_modSlot s (fun l => l.setS d v) ch
    (fun r hr => by
      have : r ≠ d := fun e => hr (e ▸ h)
      simp [Slot.getS_setS, this])
    (fun r _ => Slot.getV_congr (by simp) r) (fun r _ => Slot.getM_congr (by simp) r) (by simp) (by constructor <;> simp)

/-- Writing a vector register changes that register. -/
theorem keeps_wrV (s : State) (d : VReg) (v : V512) (ch : Changes) (h : d ∈ ch.vreg) : Keeps s (wrV s d v) ch :=
  keeps_modSlot s (fun l => l.setV d v) ch (fun r _ => Slot.getS_congr (by simp) r)
    (fun r hr => by
      have : r ≠ d := fun e => hr (e ▸ h)
      simp [Slot.getV_setV, this])
    (fun r _ => Slot.getM_congr (by simp) r) (by simp) (by constructor <;> simp)

/-- Writing a mask register changes that register. -/
theorem keeps_wrM (s : State) (d : MReg) (v : W64) (ch : Changes) (h : d ∈ ch.mreg) : Keeps s (wrM s d v) ch :=
  keeps_modSlot s (fun l => l.setM d v) ch (fun r _ => Slot.getS_congr (by simp) r)
    (fun r _ => Slot.getV_congr (by simp) r)
    (fun r hr => by
      have : r ≠ d := fun e => hr (e ▸ h)
      simp [Slot.getM_setM, this])
    (by simp) (by constructor <;> simp)

/-- Jumping keeps everything else. -/
theorem keeps_jumpTo (s : State) (t : VA) (ch : Changes) : Keeps s (jumpTo s t) ch :=
  keeps_modSlot s _ ch (fun _ _ => rfl) (fun _ _ => rfl) (fun _ _ => rfl) rfl
    ⟨rfl, rfl, rfl, rfl, rfl, rfl, rfl, rfl, rfl, rfl, rfl⟩

/-! ## Ready outcomes (R28) -/

/-- What a ready outcome does. -/
theorem keeps_ready (s : State) (ch : Changes) : Keeps s (ready s) ch := by
  unfold ready
  refine keeps_trans (keeps_modSlot s Slot.ready ch (fun _ _ => rfl) (fun _ _ => rfl) (fun _ _ => rfl) rfl
    ⟨rfl, rfl, rfl, rfl, rfl, rfl, rfl, rfl, rfl, rfl, rfl⟩) ?_
  exact keeps_wakeFreed _ _ ch (keeps_refl _ ch)

theorem keeps_readyNext (s : State) (ch : Changes) : Keeps s (readyNext s) ch := 
  keeps_trans (keeps_ready s ch) (keeps_advance _ ch)

/-- The current slot after a wake of freed claims. -/
theorem slot_wakeFreed (s : State) (cs : List Claim) : ∃ w, slot (wakeFreed s cs) = { slot s with wake := w } := by
  unfold wakeFreed; split
  · exact ⟨(slot s).wake, rfl⟩
  · exact getSlot_wakeWhere_eq s _ s.curCore s.curSlot

/-- The current slot after a ready outcome. -/
theorem slot_ready (s : State) : ∃ w, slot (ready s) = { (slot s).ready with wake := w } := by
  unfold ready
  obtain ⟨w, h⟩ := slot_wakeFreed (modSlot s Slot.ready) (slot s).claimsHere
  exact ⟨w, by rw [h, slot_modSlot]⟩

/-- A ready outcome falls through with `status.nr` and `ncause` clear. -/
theorem ready_readyNext (s : State) : Ready s (readyNext s) := by
  obtain ⟨w, h⟩ := slot_ready s
  unfold Ready readyNext nextPc
  rw [slot_advance, h]
  refine ⟨Slot.advance_pc_congr rfl rfl, ?_, ?_⟩ <;> simp

end Sys2Proof.Machine
end

