-- ==== Sys2Proof/Laws/Effects.lean ====
section
/-! SUPPORT. One lemma for each shared way an instruction ends: a scalar, vector or mask result, a branch, a trap, a not-ready
outcome. The statements about instructions follow from these. -/

namespace Sys2Proof.Machine

open Sys2Proof.Safety

theorem getS_mem_self (l : Slot) (d : SReg) (v : W64) : (l.setS d v).getS d = if d = 0 then 0 else v := by
  rw [Slot.getS_setS]
  by_cases h : d = 0
  · subst h; simp
  · simp [h]

theorem getM_mem_self (l : Slot) (d : MReg) (v : W64) : (l.setM d v).getM d = if d = 0 then BitVec.allOnes 64 else v := by
  rw [Slot.getM_setM]
  by_cases h : d = 0
  · subst h; simp
  · simp [h]

/-- What a scalar result does. -/
theorem scalarEffect_of {i : Instr} {s : State} {d : SReg} {v : W64} (h : exec i s = scalarResult s d v) :
    ScalarEffect i s d v := by
  refine ⟨_, h, ?_, ⟨?_, ?_, ?_⟩, keeps_trans (keeps_wrS s d v _ (by simp)) (keeps_advance _ _),
    untouched_trans (untouched_wrS s d v) (untouched_advance _)⟩
  · unfold rdS
    rw [slot_advance, slot_wrS, Slot.getS_congr (Slot.advance_regs _), getS_mem_self]
  · unfold nextPc
    rw [slot_advance, slot_wrS]
    exact Slot.advance_pc_congr (by simp) (by simp)
  · simp
  · simp

/-- What a vector result does. -/
theorem vectorEffect_of {i : Instr} {s : State} {d : VReg} {v : V512} (h : exec i s = .next (advance (wrV s d v))) :
    VectorEffect i s d v := by
  refine ⟨_, h, ?_, ⟨?_, ?_, ?_⟩, keeps_trans (keeps_wrV s d v _ (by simp)) (keeps_advance _ _),
    untouched_trans (untouched_wrV s d v) (untouched_advance _)⟩
  · unfold rdV
    rw [slot_advance, slot_wrV, Slot.getV_congr (Slot.advance_vregs _), Slot.getV_setV, if_pos rfl]
  · unfold nextPc
    rw [slot_advance, slot_wrV]
    exact Slot.advance_pc_congr (by simp) (by simp)
  · simp
  · simp

/-- What a mask result does. -/
theorem maskEffect_of {i : Instr} {s : State} {d : MReg} {v : W64} (h : exec i s = .next (advance (wrM s d v))) :
    MaskEffect i s d v := by
  refine ⟨_, h, ?_, ⟨?_, ?_, ?_⟩, keeps_trans (keeps_wrM s d v _ (by simp)) (keeps_advance _ _),
    untouched_trans (untouched_wrM s d v) (untouched_advance _)⟩
  · unfold rdM
    rw [slot_advance, slot_wrM, Slot.getM_congr (Slot.advance_mregs _), getM_mem_self]
  · unfold nextPc
    rw [slot_advance, slot_wrM]
    exact Slot.advance_pc_congr (by simp) (by simp)
  · simp
  · simp

/-- What a jump does. -/
theorem jumpEffect_of {i : Instr} {s : State} {t : VA} {ds : List SReg} (h : exec i s = .next (jumpTo s t)) :
    JumpEffect i s t ds :=
  ⟨_, h, by simp, by simp, by simp, keeps_jumpTo s t _, untouched_jumpTo s t⟩

/-- What a jump that writes a register does. -/
theorem callEffect_of {i : Instr} {s : State} {t : VA} {d : SReg} {v : W64} (h : exec i s = .next (jumpTo (wrS s d v) t)) :
    JumpEffect i s t [d] :=
  ⟨_, h, by simp, by simp, by simp, keeps_trans (keeps_wrS s d v _ (by simp)) (keeps_jumpTo _ t _),
    untouched_trans (untouched_wrS s d v) (untouched_jumpTo _ t)⟩

/-- What a branch does. -/
theorem branchEffect_of {i : Instr} {s : State} {b : Bool} {t : VA} {ds : List SReg} (h : exec i s = branchTo s b t) :
    JumpEffect i s (if b then t else nextPc s) ds := by
  cases b
  · exact ⟨_, h, by simp [nextPc], by simp, by simp, keeps_advance s _, untouched_advance s⟩
  · exact jumpEffect_of h

/-- A change of the current slot that touches no register. -/
theorem getSlot_modSlot_other (s : State) (f : Slot → Slot) {c n : Nat} (h : ¬ (c = s.curCore ∧ n = s.curSlot)) :
    getSlot (modSlot s f) c n = getSlot s c n := by
  unfold modSlot; rw [getSlot_modSlotAt, if_neg h]

/-- Discarding an atomic touches the posted-store buffer, the slots, the copies in L1 and the waits of bounded loads alone. -/
theorem discardAtom_eq (k : Core) (t : Partition) (n : Nat) :
    ∃ q l m x v, k.discardAtom t n = { k with psb := q, slots := l, nextId := m, l1 := x, viewNeed := v } := by
  unfold Core.discardAtom Core.acquire Core.loseAtom
  dsimp only
  repeat' split
  all_goals exact ⟨_, _, _, _, _, rfl⟩

/-- Discarding an atomic touches the held value, the atomic and the marks of its own slot alone. -/
theorem slot_discardAtom_self (k : Core) (t : Partition) (n : Nat) :
    ∃ h a b, (k.discardAtom t n).slot n = { k.slot n with hold := h, atom := none, ldMark := a, stMark := b } := by
  have hl : ∃ h a b, (k.loseAtom n).slot n = { k.slot n with hold := h, atom := none, ldMark := a, stMark := b } := by
    unfold Core.loseAtom
    split
    · have hd : ∀ (l : Slot) (sp : Space) (x : Nat), ∃ h, l.dropOn sp x = { l with hold := h } := by
        intro l sp x
        unfold Slot.dropOn
        repeat' split
        all_goals exact ⟨_, rfl⟩
      rename_i a _
      dsimp only
      obtain ⟨h, hh⟩ := hd (k.slot n) .dev (a.addr / 64)
      have hs : ∀ (q : List Posted) (m : Nat), Core.slot { k with psb := q, nextId := m } n = k.slot n := fun _ _ => rfl
      split
      all_goals
        rw [Core.slot_modSlot_self]
        try rw [hs]
        split
        · exact ⟨_, _, _, rfl⟩
        · rw [hh]; exact ⟨_, _, _, rfl⟩
    · rename_i e
      have : k.slot n = { k.slot n with atom := none } := by
        cases hs : k.slot n
        rw [hs] at e
        simp only at e
        rw [e]
      exact ⟨_, _, _, this⟩
  unfold Core.discardAtom
  split
  · obtain ⟨h, a, b, e⟩ := hl
    refine ⟨none, a, b, ?_⟩
    change ((k.loseAtom n).modSlot n (fun l => { l with hold := none })).slot n = _
    rw [Core.slot_modSlot_self, e]
  · exact hl

/-- Discarding an atomic touches no other slot. -/
theorem slot_discardAtom_other (k : Core) (t : Partition) {m n : Nat} (h : m ≠ n) :
    (k.discardAtom t n).slot m = k.slot m := by
  have hl : (k.loseAtom n).slot m = k.slot m := by
    unfold Core.loseAtom
    split
    · dsimp only
      split
      all_goals
        rw [Core.slot_modSlot, if_neg h]
        first | rfl | skip
    · rfl
  unfold Core.discardAtom
  split
  · change ((k.loseAtom n).modSlot n (fun l => { l with hold := none })).slot m = _
    rw [Core.slot_modSlot, if_neg h, hl]
  · exact hl

/-- Discarding none changes nothing. -/
theorem discardAtom_none (k : Core) (t : Partition) (n : Nat) (h : (k.slot n).atom = none) : k.discardAtom t n = k := by
  unfold Core.discardAtom Core.losesAcquire Core.loseAtom
  simp only [h]

/-- Trap entry of the current slot in user mode. -/
theorem traps_of {i : Instr} {s : State} {cause : TrapCause} {code : Nat} {epc : VA} (hu : (slot s).sys = false)
    (h : exec i s = .next (takeTrap s s.curCore s.curSlot cause code epc)) : Traps i s cause.code code epc := by
  have hk : takeTrap s s.curCore s.curSlot cause code epc =
      modSlotAt (modCore s s.curCore (fun k => k.discardAtom (homePart s s.curCore) s.curSlot)) s.curCore s.curSlot (fun l =>
        { l with epc := epc, ecause := BitVec.ofNat 64 (code * 256 + cause.code), sys := true, pc := l.evec }) := by
    unfold takeTrap loseAtomAt
    have : (getSlot s s.curCore s.curSlot).sys = false := hu
    rw [this]; rfl
  rw [hk] at h
  generalize homePart s s.curCore = p at h hk
  obtain ⟨hd, a, b, hself⟩ := slot_discardAtom_self (getCore s s.curCore) p s.curSlot
  have hslot : ∀ (f : Slot → Slot), slot (modSlotAt (modCore s s.curCore (fun k => k.discardAtom p s.curSlot)) s.curCore s.curSlot f) =
      f { slot s with hold := hd, atom := none, ldMark := a, stMark := b } := by
    intro f
    show getSlot (modSlotAt _ _ _ f) s.curCore s.curSlot = _
    rw [getSlot_modSlotAt_self]
    unfold getSlot
    rw [getCore_modCore, if_pos rfl, hself]
    rfl
  have hcore : ∀ (f : Slot → Slot) c, ∃ q l m x v,
      getCore (modSlotAt (modCore s s.curCore (fun k => k.discardAtom p s.curSlot)) s.curCore s.curSlot f) c =
      if c = s.curCore then { (getCore s c) with psb := q, slots := l, nextId := m, l1 := x, viewNeed := v }
      else getCore s c := by
    intro f c
    obtain ⟨q, l, m, x, v, hq⟩ := discardAtom_eq (getCore s c) p s.curSlot
    rw [getCore_modSlotAt, getCore_modCore]
    split
    · rw [hq]; exact ⟨q, _, m, x, v, rfl⟩
    · exact ⟨q, l, m, x, v, rfl⟩
  refine ⟨_, h, ?_⟩
  constructor
  · rw [hslot]
  · rw [hslot, Nat.mul_comm 256 code]
  iterate 13
    · simp only [hslot, and_self]
  · intro r; unfold rdS; rw [hslot]; rfl
  · intro r; unfold rdV; rw [hslot]; rfl
  · intro r; unfold rdM; rw [hslot]; rfl
  · intro c n hcn
    rw [getSlot_modSlotAt, if_neg hcn]
    unfold getSlot
    rw [getCore_modCore]
    split
    · rename_i e; rw [e, slot_discardAtom_other _ _ (fun hn => hcn ⟨e, hn⟩)]
    · rfl
  · intro c; obtain ⟨q, l, m, x, v, hq⟩ := hcore _ c; rw [hq]; split <;>
      exact ⟨rfl, rfl, rfl, rfl, rfl, rfl, rfl, rfl, rfl, rfl, rfl, rfl, rfl, rfl⟩
  · intro ha c
    rw [getCore_modSlotAt, getCore_modCore]
    split
    · rename_i e; rw [e, discardAtom_none _ _ _ ha]; rfl
    · rfl
  · rfl
  · intro c a; obtain ⟨q, l, m, x, v, hq⟩ := hcore _ c; rw [hq]; split <;> rfl
  · intro c w; obtain ⟨q, l, m, x, v, hq⟩ := hcore _ c; rw [hq]; split <;> rfl
  · intro c e; obtain ⟨q, l, m, x, v, hq⟩ := hcore _ c; rw [hq]; split <;> rfl
  · intro tg a; cases tg <;> rfl

/-! ## Not-ready outcomes (R26, Table 2.2) -/

/-- A change of a core beside its slots, gears, clocks, scratchpad and accumulators. -/
theorem keeps_modCore (s : State) (c : Nat) (f : Core → Core) (ch : Changes) (hslots : ∀ k, (f k).slots = k.slots)
    (hg : ∀ k, (f k).spin = k.spin ∧ (f k).gearEff = k.gearEff ∧ (f k).autosoak = k.autosoak)
    (hv : ∀ k, (f k).vents = k.vents) (hl : ∀ k, (f k).lamport = k.lamport) (hp : ∀ k, (f k).sp = k.sp)
    (hf : ∀ k, (f k).fe = k.fe) (ha : ∀ k, (f k).acc = k.acc) : Keeps s (modCore s c f) ch := by
  have hcore : ∀ d, getCore (modCore s c f) d = if d = c then f (getCore s d) else getCore s d :=
    fun d => getCore_modCore s c d f
  have hslot : ∀ d n, getSlot (modCore s c f) d n = getSlot s d n := by
    intro d n
    unfold getSlot
    rw [hcore]; split
    · unfold Core.slot; rw [hslots]
    · rfl
  constructor
  · rfl
  · rfl
  · intro d n r _; rw [hslot]
  · intro d n r _; rw [hslot]
  · intro d n r _; rw [hslot]
  · intro d n _; rw [hslot]
  · intro d n _; rw [hslot]; exact ⟨rfl, rfl⟩
  · intro d n; rw [hslot]
  · intro d n; rw [hslot]; exact sameSpecials_refl _
  · intro d; rw [hcore]; split
    · exact hg _
    · exact ⟨rfl, rfl, rfl⟩
  · refine ⟨rfl, fun d => ?_⟩; rw [hcore]; split
    · exact hv _
    · rfl
  · intro d _; rw [hcore]; split
    · exact hl _
    · rfl
  · intro d a _; rw [hcore]; split
    · rw [hp]
    · rfl
  · intro d w _; rw [hcore]; split
    · unfold Core.feBit; rw [hf]
    · rfl
  · intro d e _; rw [hcore]; split
    · rw [ha]
    · rfl
  · intro tg a _; cases tg <;> rfl

/-- A change of a governor keeps everything the frames speak of. -/
theorem keeps_modGov (s : State) (d : Nat) (f : Governor → Governor) (ch : Changes) : Keeps s (modGov s d f) ch :=
  ⟨rfl, rfl, fun _ _ _ _ => rfl, fun _ _ _ _ => rfl, fun _ _ _ _ => rfl, fun _ _ _ => rfl, fun _ _ _ => ⟨rfl, rfl⟩,
    fun _ _ => rfl, fun _ _ => sameSpecials_refl _, fun _ => ⟨rfl, rfl, rfl⟩, ⟨rfl, fun _ => rfl⟩, fun _ _ => rfl,
    fun _ _ _ => rfl, fun _ _ _ => rfl, fun _ _ _ => rfl, fun tg _ _ => by cases tg <;> rfl⟩

/-- Drawing a ticket keeps everything the frames speak of. -/
theorem keeps_drawTicket (s : State) (r : Resource) (ch : Changes) : Keeps s (drawTicket s r).2 ch := by
  cases r <;> first
    | exact keeps_modPart s _ (fun t => { t with homeTick := t.homeTick + 1 }) ch
    | exact keeps_modGov s _ (fun g => { g with tick := g.tick + 1 }) ch
    | exact keeps_modCore s _ (fun k => { k with tick := k.tick + 1 }) ch (fun _ => rfl) (fun _ => ⟨rfl, rfl, rfl⟩)
        (fun _ => rfl) (fun _ => rfl) (fun _ => rfl) (fun _ => rfl) (fun _ => rfl)
    | exact keeps_modCore s _ (fun k => { k with creditTick := k.creditTick + 1 }) ch (fun _ => rfl)
        (fun _ => ⟨rfl, rfl, rfl⟩) (fun _ => rfl) (fun _ => rfl) (fun _ => rfl) (fun _ => rfl) (fun _ => rfl)

/-- Drawing a ticket leaves the slots alone. -/
theorem slot_drawTicket (s : State) (r : Resource) : slot (drawTicket s r).2 = slot s := by
  have hk : ∀ c (f : Core → Core), (∀ k, (f k).slots = k.slots) → slot (modCore s c f) = slot s := by
    intro c f h
    unfold slot getSlot
    rw [modCore_curCore, modCore_curSlot, getCore_modCore]
    split
    · unfold Core.slot; rw [h]
    · rfl
  cases r <;> first
    | rfl
    | exact hk _ (fun k => { k with tick := k.tick + 1 }) (fun _ => rfl)
    | exact hk _ (fun k => { k with creditTick := k.creditTick + 1 }) (fun _ => rfl)

/-- Recording a claim keeps everything the frames speak of. -/
theorem keeps_recordClaim (s : State) (cause : Cause) (r : Resource) (ch : Changes) : Keeps s (recordClaim s cause r) ch := by
  unfold recordClaim
  dsimp only
  split
  · exact keeps_modSlot s _ ch (fun _ _ => rfl) (fun _ _ => rfl) (fun _ _ => rfl) rfl
      ⟨rfl, rfl, rfl, rfl, rfl, rfl, rfl, rfl, rfl, rfl, rfl⟩
  · refine keeps_trans ?_ (keeps_wakeFreed _ _ ch (keeps_refl _ ch))
    refine keeps_trans ?_ (keeps_modSlot _ _ ch (fun _ _ => rfl) (fun _ _ => rfl) (fun _ _ => rfl) rfl
      ⟨rfl, rfl, rfl, rfl, rfl, rfl, rfl, rfl, rfl, rfl, rfl⟩)
    exact keeps_drawTicket s r ch

/-- The current slot after a ticket is drawn and a claim taken into its table. -/
theorem slot_newClaim (s : State) (r : Resource) (f : Slot → List (Option Claim)) (cs : List Claim) :
    ∃ w, slot (wakeFreed (modSlot (drawTicket s r).2 (fun l => Slot.tidy { l with claims := f l })) cs) =
      { (Slot.tidy { slot s with claims := f (slot s) }) with wake := w } := by
  obtain ⟨w, h⟩ := slot_wakeFreed (modSlot (drawTicket s r).2 (fun l => Slot.tidy { l with claims := f l })) cs
  exact ⟨w, by rw [h, slot_modSlot, slot_drawTicket]⟩

/-- The current slot after a claim is recorded: its claims, the faults held for them, and its wake. -/
theorem slot_recordClaim (s : State) (cause : Cause) (r : Resource) :
    ∃ cs fs w, slot (recordClaim s cause r) = { slot s with claims := cs, walkFaults := fs, wake := w } := by
  unfold recordClaim
  dsimp only
  split
  · exact ⟨_, (slot s).walkFaults, (slot s).wake, by rw [slot_modSlot]⟩
  · obtain ⟨w, h⟩ := slot_newClaim s r (fun l => putClaim l.claims (Claim.mk (slot s).pc r (drawTicket s r).1 0 cause.code
      (drawTicket s r).2.cycle)) (((slot (drawTicket s r).2).claims[claimVictim (slot (drawTicket s r).2).claims]?).getD none).toList
    exact ⟨_, _, w, h⟩

/-- The slot holds the claim it has just recorded. -/
theorem claimAt_recordClaim (s : State) (cause : Cause) (r : Resource) :
    ((slot (recordClaim s cause r)).claimAt (slot s).pc r).isSome = true := by
  unfold recordClaim
  dsimp only
  split
  · rename_i c h
    rw [slot_modSlot]
    unfold Slot.claimAt at h ⊢
    have hm := List.mem_of_find?_eq_some h
    have hp := List.find?_some h
    rw [List.find?_isSome]
    obtain ⟨x, hx, rfl⟩ := List.mem_filterMap.mp hm
    refine ⟨{ c with age := 0, cause := cause.code }, ?_, by simpa using hp⟩
    rw [List.mem_filterMap]
    refine ⟨some _, ?_, rfl⟩
    rw [List.mem_map]
    exact ⟨some c, hx, by rw [Option.map_some, if_pos hp]⟩
  · obtain ⟨w, h⟩ := slot_newClaim s r (fun l => putClaim l.claims (Claim.mk (slot s).pc r (drawTicket s r).1 0 cause.code
      (drawTicket s r).2.cycle)) (((slot (drawTicket s r).2).claims[claimVictim (slot (drawTicket s r).2).claims]?).getD none).toList
    rw [h]
    unfold Slot.claimAt putClaim
    rw [List.find?_isSome]
    exact ⟨_, List.mem_filterMap.mpr ⟨some _, List.mem_append_right _ (List.mem_cons_self ..), rfl⟩, by simp⟩

/-- What every not-ready outcome keeps. -/
theorem keeps_notReadyEdge (s : State) (nr : Disp) (cause : Cause) (r : Resource) (edge : Option Nat) (ch : Changes) :
    Keeps s (notReadyEdge s nr cause r edge) ch := by
  unfold notReadyEdge
  dsimp only
  have h : ∀ t, Keeps t (dispose t nr r edge) ch := by
    intro t
    cases nr
    · exact keeps_advance t ch
    · exact keeps_modSlot t (fun l => { l with st := .parked (.res r edge), wake := none, parkedAt := (t.turns, t.cycle) }) ch (fun _ _ => rfl) (fun _ _ => rfl)
        (fun _ _ => rfl) rfl ⟨rfl, rfl, rfl, rfl, rfl, rfl, rfl, rfl, rfl, rfl, rfl⟩
    · exact keeps_modSlot t (fun l => { l with pc := sget 0 l.nt 0 }) ch (fun _ _ => rfl) (fun _ _ => rfl)
        (fun _ _ => rfl) rfl ⟨rfl, rfl, rfl, rfl, rfl, rfl, rfl, rfl, rfl, rfl, rfl⟩
    · exact keeps_modSlot t (fun l => { l with pc := sget 0 l.nt 1 }) ch (fun _ _ => rfl) (fun _ _ => rfl)
        (fun _ _ => rfl) rfl ⟨rfl, rfl, rfl, rfl, rfl, rfl, rfl, rfl, rfl, rfl, rfl⟩
    · exact keeps_modSlot t (fun l => { l with pc := sget 0 l.nt 2 }) ch (fun _ _ => rfl) (fun _ _ => rfl)
        (fun _ _ => rfl) rfl ⟨rfl, rfl, rfl, rfl, rfl, rfl, rfl, rfl, rfl, rfl, rfl⟩
    · exact keeps_modSlot t (fun l => { l with pc := sget 0 l.nt 3 }) ch (fun _ _ => rfl) (fun _ _ => rfl)
        (fun _ _ => rfl) rfl ⟨rfl, rfl, rfl, rfl, rfl, rfl, rfl, rfl, rfl, rfl, rfl⟩
  refine keeps_trans ?_ (h _)
  refine keeps_trans ?_ (keeps_recordClaim _ cause r ch)
  exact keeps_modSlot _ _ ch (fun _ _ => rfl) (fun _ _ => rfl) (fun _ _ => rfl) rfl
      ⟨rfl, rfl, rfl, rfl, rfl, rfl, rfl, rfl, rfl, rfl, rfl⟩

/-- Drawing a ticket leaves all beside registers alone. -/
theorem shell_drawTicket (s : State) (r : Resource) : Shell s (drawTicket s r).2 := by
  cases r <;> first
    | exact ⟨fun _ => sameStructs_refl _, fun _ => rfl, rfl⟩
    | exact shell_modCore s _ (fun k => { k with tick := k.tick + 1 }) (fun _ =>
        ⟨⟨rfl, rfl, rfl, rfl, rfl, rfl, rfl, rfl, rfl, rfl, rfl, rfl, rfl, rfl⟩, rfl⟩)
    | exact shell_modCore s _ (fun k => { k with creditTick := k.creditTick + 1 }) (fun _ =>
        ⟨⟨rfl, rfl, rfl, rfl, rfl, rfl, rfl, rfl, rfl, rfl, rfl, rfl, rfl, rfl⟩, rfl⟩)

theorem shell_recordClaim (s : State) (cause : Cause) (r : Resource) : Shell s (recordClaim s cause r) := by
  unfold recordClaim
  dsimp only
  split
  · exact shell_modSlot s _
  · exact shell_trans (shell_drawTicket s r) (shell_trans (shell_modSlot _ _) (shell_wakeFreed _ _))

/-- A not-ready outcome moves no structure, posted store or packet. -/
theorem shell_notReadyEdge (s : State) (nr : Disp) (cause : Cause) (r : Resource) (edge : Option Nat) :
    Shell s (notReadyEdge s nr cause r edge) := by
  unfold notReadyEdge
  dsimp only
  have h : Shell s (recordClaim (modSlot s (fun l => { l with nr := true, ncause := cause.code })) cause r) :=
    shell_trans (shell_modSlot s _) (shell_recordClaim _ cause r)
  cases nr <;> exact shell_trans h (shell_modSlot _ _)

/-- What a not-ready outcome does. -/
theorem notReady_of {i : Instr} {s : State} {nr : Disp} {cause : Cause} {r : Resource} {edge : Option Nat}
    (h : exec i s = .next (notReadyEdge s nr cause r edge)) : NotReady i s nr cause r := by
  refine ⟨_, h, ?_⟩
  have hk := keeps_notReadyEdge s nr cause r edge {}
  have hb := shell_notReadyEdge s nr cause r edge
  have hn : ∃ asked, (notReadyEdge s nr cause r edge).net = s.net ++ asked ∧ ∀ pk ∈ asked, cause = .credit ∧ ∃ u,
      pk.body = .cmdReq u s.curCore ∨ ∃ ch, pk.body = .creditReq u ch s.curCore := ⟨[], by simp [hb.net], by simp⟩
  obtain ⟨cs, fs, w, hs⟩ := slot_recordClaim (modSlot s (fun l => { l with nr := true, ncause := cause.code })) cause r
  have hc := claimAt_recordClaim (modSlot s (fun l => { l with nr := true, ncause := cause.code })) cause r
  rw [slot_modSlot] at hs hc
  have hall := And.intro hk (And.intro hb.structs (And.intro hb.psb hn))
  clear hk hb hn
  unfold notReadyEdge at hall ⊢
  dsimp only at hall ⊢
  cases nr <;> simp only [dispose] at hall ⊢
  · refine ⟨?_, ?_, ?_, ?_, hall⟩
    · rw [slot_advance, Slot.advance_nr, hs]
    · rw [slot_advance, Slot.advance_ncause, hs]
    · rw [slot_advance]; unfold Slot.claimAt; rw [Slot.advance_claims]; exact hc
    · rw [slot_advance, nextPc, hs]; exact Slot.advance_pc_congr rfl rfl
  all_goals
    rw [slot_modSlot]
    refine ⟨by rw [hs], by rw [hs], hc, ?_, hall⟩
    first
      | exact ⟨by rw [hs], by simp [Slot.parkedOn, Slot.park?]⟩
      | rw [hs]

end Sys2Proof.Machine
end

