-- ==== Sys2Proof/Laws/Lanes.lean ====
section
/-! SUPPORT. Vectors taken apart into lanes and put together again (R368). -/

namespace Sys2Proof.Machine

open Sys2Proof.Safety

theorem ofLanes_lt (w : Nat) (xs : List Nat) : ofLanes w xs < 2 ^ (w * xs.length) := by
  induction xs with
  | nil => simp [ofLanes]
  | cons x xs ih =>
    have h1 : x % 2 ^ w < 2 ^ w := Nat.mod_lt _ (Nat.two_pow_pos w)
    have h2 : 2 ^ (w * (xs.length + 1)) = 2 ^ w * 2 ^ (w * xs.length) := by rw [Nat.mul_succ, Nat.pow_add, Nat.mul_comm]
    simp only [ofLanes, List.length_cons, h2]
    calc x % 2 ^ w + 2 ^ w * ofLanes w xs < 2 ^ w * (ofLanes w xs + 1) := by rw [Nat.mul_succ]; omega
      _ ≤ 2 ^ w * 2 ^ (w * xs.length) := Nat.mul_le_mul_left _ ih

/-- Lane `i` of a packed list is its entry, cut to the lane's width. -/
theorem ofLanes_lane (w : Nat) (xs : List Nat) (i : Nat) (h : i < xs.length) :
    ofLanes w xs / 2 ^ (w * i) % 2 ^ w = xs[i] % 2 ^ w := by
  induction xs generalizing i with
  | nil => simp at h
  | cons x xs ih =>
    have hp : 0 < 2 ^ w := Nat.two_pow_pos w
    have hx : x % 2 ^ w < 2 ^ w := Nat.mod_lt _ hp
    cases i with
    | zero => simp [ofLanes, Nat.add_mod]
    | succ i =>
      have h2 : 2 ^ (w * (i + 1)) = 2 ^ w * 2 ^ (w * i) := by rw [Nat.mul_succ, Nat.pow_add, Nat.mul_comm]
      have h3 : (x % 2 ^ w + 2 ^ w * ofLanes w xs) / 2 ^ w = ofLanes w xs := by
        rw [Nat.add_mul_div_left _ _ hp, Nat.div_eq_of_lt hx, Nat.zero_add]
      simp only [ofLanes, h2, ← Nat.div_div_eq_div_mul, h3, List.getElem_cons_succ]
      exact ih i (by simpa using h)

theorem lanes_width (t : LaneTy) : t.width * t.lanes = 512 := by cases t <;> rfl

/-- Lane `j` of a lane-wise result. -/
theorem lane_mapLanes (t : LaneTy) (mask : W64) (old : V512) (f : Nat → Nat) (j : Nat) (h : j < t.lanes) :
    lane t.width (mapLanes t mask old f) j =
      (if mask.getLsbD j then f j % 2 ^ t.width else lane t.width old j) := by
  unfold mapLanes lane
  have hl : ofLanes t.width ((List.range t.lanes).map (fun i => if mask.getLsbD i then f i else lane t.width old i)) < 2 ^ 512 := by
    have := ofLanes_lt t.width ((List.range t.lanes).map (fun i => if mask.getLsbD i then f i else lane t.width old i))
    rwa [List.length_map, List.length_range, lanes_width] at this
  rw [BitVec.toNat_ofNat]
  unfold lane at hl
  rw [Nat.mod_eq_of_lt hl, ofLanes_lane _ _ _ (by simpa using h)]
  simp only [List.getElem_map, List.getElem_range]
  split
  · rfl
  · exact Nat.mod_mod _ _

/-- What a lane-wise result does. -/
theorem laneEffect_of {i : Instr} {s : State} {d : VReg} {m : MReg} {t : LaneTy} {f : Nat → Nat}
    (h : exec i s = vecResult s d m t f) : LaneEffect i s d m t f :=
  ⟨_, vectorEffect_of h, fun j hj => lane_mapLanes t (rdM s m) (rdV s d) f j hj⟩

end Sys2Proof.Machine
end

