-- ==== Sys2Proof/Tests/Slice0.lean ====
section
/-! SUPPORT. The model's own tests: a word of the spec's encodings for every encoded instruction, terms that the well-formedness
checks refuse, small steps with values from the spec's examples, and states that meet the hypotheses of the statements. -/

open Sys2Proof Sys2Proof.Machine Sys2Proof.Safety

namespace Sys2Proof.Tests
set_option Elab.async false

/-! ## Words of the spec's encoding tables and examples -/

theorem test_words_major_00 :
    decode 0x00000001 = some (.nop) ∧
    decode 0x00000042 = some (.trap 0x01) ∧
    decode 0x00000003 = some (.eret) ∧
    decode 0x00000004 = some (.halt) ∧
    decode 0x000000C5 = some (.bkpt 0x03) ∧
    decode 0x00A001C8 = some (.ctlr 5 0x007) ∧
    decode 0x00090449 = some (.ctlw 9 0x011) ∧
    decode 0x00000210 = some (.fence .dev .full) ∧
    decode 0x00035011 = some (.dcfence 3 10) ∧
    decode 0x00040012 = some (.xlinv 4 .page) ∧
    decode 0x00042853 = some (.dictld 4 0x05 0x1) ∧
    decode 0x00A60018 = some (.ltrd 5 6) ∧
    decode 0x00A00019 = some (.stamp 5) := by decide

theorem test_words_major_01 :
    decode 0x04611001 = some (.add 3 1 2) ∧
    decode 0x05E07002 = some (.sub 15 0 14) ∧
    decode 0x05CE4803 = some (.and_ 14 14 9) ∧
    decode 0x06360004 = some (.or_ 17 22 0) ∧
    decode 0x05CE7805 = some (.xor 14 14 15) ∧
    decode 0x05292006 = some (.shl 9 9 4) ∧
    decode 0x04A63807 = some (.shr 5 6 7) ∧
    decode 0x04A63808 = some (.sra 5 6 7) ∧
    decode 0x04A63810 = some (.mul 5 6 7) ∧
    decode 0x04A63811 = some (.mulh 5 6 7) ∧
    decode 0x04A63812 = some (.mulhz 5 6 7) ∧
    decode 0x04A63813 = some (.div 5 6 7) ∧
    decode 0x04A63814 = some (.divz 5 6 7) ∧
    decode 0x04A63815 = some (.rem 5 6 7) ∧
    decode 0x04A63816 = some (.remz 5 6 7) ∧
    decode 0x04A63818 = some (.min 5 6 7) ∧
    decode 0x04A63819 = some (.max 5 6 7) ∧
    decode 0x04A6381A = some (.minz 5 6 7) ∧
    decode 0x04A6381B = some (.maxz 5 6 7) ∧
    decode 0x04A63820 = some (.slt 5 6 7) ∧
    decode 0x04A63821 = some (.sltz 5 6 7) ∧
    decode 0x04A63822 = some (.seq 5 6 7) ∧
    decode 0x04A63A23 = some (.sel 5 6 7 8) ∧
    decode 0x04A60028 = some (.clz 5 6) ∧
    decode 0x05EE0029 = some (.popc 15 14) := by decide

theorem test_words_major_02 :
    decode 0x08A4FFFF = some (.addi 5 4 0xffff) := by decide

theorem test_words_major_03 :
    decode 0x0D080003 = some (.andi 8 8 0x0003) := by decide

theorem test_words_major_04 :
    decode 0x10C600FF = some (.ori 6 6 0x00ff) := by decide

theorem test_words_major_05 :
    decode 0x14630008 = some (.xori 3 3 0x0008) := by decide

theorem test_words_major_06 :
    decode 0x1AD68001 = some (.shi 22 22 .ra 0x01) := by decide

theorem test_words_major_07 :
    decode 0x1CE00003 = some (.lui 7 0x000003) := by decide

theorem test_words_major_08 :
    decode 0x20A6FFFD = some (.slti 5 6 0xfffd) := by decide

theorem test_words_major_09 :
    decode 0x2508001F = some (.muli 8 8 0x001f) := by decide

theorem test_words_major_0A :
    decode 0x28822FFD = some (.brc .lt 1 2 0xffd) := by decide

theorem test_words_major_0B :
    decode 0x2D0D0002 = some (.brci .ltz 6 0x10 0x002) := by decide

theorem test_words_major_0C :
    decode 0x33FFFFFD = some (.j 0x3fffffd) := by decide

theorem test_words_major_0D :
    decode 0x34000010 = some (.call 0x0000010) := by decide

theorem test_words_major_0E :
    decode 0x381E0001 = some (.jr 30) ∧
    decode 0x3BC90002 = some (.callr 30 9) := by decide

theorem test_words_major_0F :
    decode 0x3FFFFFFF = some (.bnr 0x3ffffff) := by decide

theorem test_words_major_10 :
    decode 0x40104120 = some (.rpt 0x04 0x1 0x0 0x1 0x1 0x0) := by decide

theorem test_words_major_11 :
    decode 0x44A63801 = some (.fadd 5 6 7) ∧
    decode 0x44A63802 = some (.fsub 5 6 7) ∧
    decode 0x44A63803 = some (.fmul 5 6 7) ∧
    decode 0x44A63A04 = some (.ffma 5 6 7 8) ∧
    decode 0x44A63805 = some (.fdiv 5 6 7) ∧
    decode 0x44A60006 = some (.fsqrt 5 6) ∧
    decode 0x44A63807 = some (.fmin 5 6 7) ∧
    decode 0x44A63808 = some (.fmax 5 6 7) ∧
    decode 0x44A63889 = some (.fcmp 5 6 7 .lt) ∧
    decode 0x44A6000A = some (.fcvt 5 6 .toi) ∧
    decode 0x44A6000B = some (.fclass 5 6) := by decide

theorem test_words_major_12 :
    decode 0x48432060 = some (.vadd 2 3 4 0 .f32) ∧
    decode 0x48221801 = some (.vsub 1 2 3 0 .i32) ∧
    decode 0x48221802 = some (.vmul 1 2 3 0 .i32) ∧
    decode 0x48221863 = some (.vfma 1 2 3 0 .f32) ∧
    decode 0x48221804 = some (.vmin 1 2 3 0 .i32) ∧
    decode 0x48221805 = some (.vmax 1 2 3 0 .i32) ∧
    decode 0x48221806 = some (.vminz 1 2 3 0 .i32) ∧
    decode 0x48221807 = some (.vmaxz 1 2 3 0 .i32) ∧
    decode 0x48220008 = some (.vabs 1 2 0 .i32) ∧
    decode 0x48420109 = some (.vneg 2 2 1 .i32) ∧
    decode 0x48A5324A = some (.vadds 5 5 6 2 .i8) ∧
    decode 0x4822180B = some (.vsubs 1 2 3 0 .i32) ∧
    decode 0x4822180C = some (.vmulh 1 2 3 0 .i32) ∧
    decode 0x4822180D = some (.vand 1 2 3 0 .i32) ∧
    decode 0x4822180E = some (.vor 1 2 3 0 .i32) ∧
    decode 0x4863180F = some (.vxor 3 3 3 0 .i32) ∧
    decode 0x48221810 = some (.vshl 1 2 3 0 .i32) ∧
    decode 0x48221811 = some (.vshr 1 2 3 0 .i32) ∧
    decode 0x48221812 = some (.vsra 1 2 3 0 .i32) := by decide

theorem test_words_major_13 :
    decode 0x4C222060 = some (.vcvt 1 2 .f16 0 .f32) ∧
    decode 0x4C221801 = some (.vperm 1 2 3 0 .i32) ∧
    decode 0x4CA20002 = some (.vred 5 2 .add 0 .i32) ∧
    decode 0x4C250003 = some (.vbcst 1 5 0 .i32) ∧
    decode 0x4D060004 = some (.vmovs 8 6 0x00 .i32) ∧
    decode 0x4C220065 = some (.vrcp 1 2 0) ∧
    decode 0x4C220066 = some (.vrsq 1 2 0) ∧
    decode 0x4C220067 = some (.vexp2 1 2 0) ∧
    decode 0x4C220068 = some (.vlog2 1 2 0) := by decide

theorem test_words_major_14 :
    decode 0x50221802 = some (.vcmp 1 2 3 0 .i32 .lt) ∧
    decode 0x50221810 = some (.mand 1 2 3) ∧
    decode 0x50221811 = some (.mor 1 2 3) ∧
    decode 0x50220012 = some (.mnot 1 2) ∧
    decode 0x50A20013 = some (.mcnt 5 2) := by decide

theorem test_words_major_15 :
    decode 0x5514C600 = some (.pmac 2 5 6 .park .dec 0x0) ∧
    decode 0x5410A501 = some (.pgrp 0 4 5 .park .add 0x0) ∧
    decode 0x5514C602 = some (.pcmd 2 5 6 .park .dec 0x0) := by decide

theorem test_words_major_16 :
    decode 0x59800400 = some (.accz 3 .park) ∧
    decode 0x581C0401 = some (.accrd 0 7 0 .park) ∧
    decode 0x5984A002 = some (.accwr 3 1 5 .flag) ∧
    decode 0x58900423 = some (.accst 1 4 false .park .dxb8a) ∧
    decode 0x58900404 = some (.accld 1 4 .park) ∧
    decode 0x58248505 = some (.seam 0 9 4 .park .link) := by decide

theorem test_words_major_17 :
    decode 0x5C221801 = some (.baddq 1 2 3 false) ∧
    decode 0x5C221802 = some (.dxbpk 1 2 3 false) ∧
    decode 0x5C810003 = some (.dxbun 4 1 false false) := by decide

theorem test_words_major_18 :
    decode 0x60808200 = some (.lds 4 0 .v 0x0200) := by decide

theorem test_words_major_19 :
    decode 0x65006158 = some (.sts 8 0 .d 0x0158) := by decide

theorem test_words_major_1A :
    decode 0x68493000 = some (.ldw 2 9 .park .v .rlx 0x00) := by decide

theorem test_words_major_1B :
    decode 0x6C493000 = some (.stw 2 9 .park .v .rlx 0x00) := by decide

theorem test_words_major_1C :
    decode 0x70A62801 = some (.ldl 5 6 .park .w .rlx 0x01) := by decide

theorem test_words_major_1D :
    decode 0x74A62801 = some (.stl 5 6 .park .w .rlx 0x01) := by decide

theorem test_words_major_1E :
    decode 0x78A3A8E2 = some (.ldd 5 3 .nt1 .w .rlx 0x7 0x02) := by decide

theorem test_words_major_1F :
    decode 0x7CCB2DE0 = some (.std 6 11 .park .d .strongDev 0x00) := by decide

theorem test_words_major_20 :
    decode 0x80A62C02 = some (.ldf 5 6 .park .d .rlx 0x02) := by decide

theorem test_words_major_21 :
    decode 0x84A62C02 = some (.stf 5 6 .park .d .rlx 0x02) := by decide

theorem test_words_major_22 :
    decode 0x88A62F00 = some (.ldh 5 6 .park .d .strongSys 0x00) := by decide

theorem test_words_major_23 :
    decode 0x8CA62F00 = some (.sth 5 6 .park .d .strongSys 0x00) := by decide

theorem test_words_major_24 :
    decode 0x90A32800 = some (.ldc 5 3 .park .w false 0x00) := by decide

theorem test_words_major_25 :
    decode 0x95432800 = some (.stp 10 3 .park .w 0x00) := by decide

theorem test_words_major_26 :
    decode 0x98030007 = some (.feset 3 .flag 0x07) ∧
    decode 0x98030107 = some (.feclr 3 .flag 0x07) ∧
    decode 0x98A30203 = some (.fepeek 5 3 .flag 0x03) := by decide

theorem test_words_major_27 :
    decode 0x9CEB2030 = some (.amadd 7 11 .park false 6 .rlx false) ∧
    decode 0x9CEB2130 = some (.amand 7 11 .park false 6 .rlx false) ∧
    decode 0x9CEB2230 = some (.amor 7 11 .park false 6 .rlx false) ∧
    decode 0x9CEB2330 = some (.amxor 7 11 .park false 6 .rlx false) ∧
    decode 0x9CEB2430 = some (.ammin 7 11 .park false 6 .rlx false) ∧
    decode 0x9CEB2530 = some (.ammax 7 11 .park false 6 .rlx false) ∧
    decode 0x9CEB2630 = some (.amminz 7 11 .park false 6 .rlx false) ∧
    decode 0x9CEB2730 = some (.ammaxz 7 11 .park false 6 .rlx false) ∧
    decode 0x9CEB2830 = some (.amswp 7 11 .park false 6 .rlx false) ∧
    decode 0x9CA83936 = some (.amcas 5 8 .park true 6 .ar false) := by decide

theorem test_words_major_28 :
    decode 0xA0082030 = some (.redadd 8 .park false 6) ∧
    decode 0xA0083130 = some (.redfadd 8 .park 6) ∧
    decode 0xA0082230 = some (.redmin 8 .park false 6) ∧
    decode 0xA0080330 = some (.redmax 8 .flag false 6) ∧
    decode 0xA0082430 = some (.redand 8 .park false 6) ∧
    decode 0xA0082530 = some (.redor 8 .park false 6) ∧
    decode 0xA0081630 = some (.redxor 8 .flag true 6) := by decide

theorem test_words_major_29 :
    decode 0xA4442301 = some (.send 2 4 .park 0x3 true) := by decide

theorem test_words_major_2A :
    decode 0xA8252200 = some (.recv 1 5 .park 0x2 false false) ∧
    decode 0xA8273001 = some (.recvReply 1 7 .park false true) := by decide

theorem test_words_major_2B :
    decode 0xACE42039 = some (.rcall 7 4 .park 3 true 0x1) ∧
    decode 0xAC470100 = some (.rret 2 7) := by decide

theorem test_words_major_2C :
    decode 0xB0050001 = some (.mmask 5) ∧
    decode 0xB0000002 = some (.munmask) ∧
    decode 0xB0000003 = some (.mvec) := by decide

theorem test_words_major_2D :
    decode 0xB4032100 = some (.qpush 3 .park 0x1) ∧
    decode 0xB4C00600 = some (.qpop 6 .flag 0x2) ∧
    decode 0xB4040900 = some (.boq 4 .flag 0x1) ∧
    decode 0xB4000AFC = some (.brq .flag 0x0 0xfc) := by decide

theorem test_words_major_2E :
    decode 0xB8A0A000 = some (.lnkp 5 .nt1 .east) ∧
    decode 0xB8A0A200 = some (.lnkpForward 5 .nt1 .east) ∧
    decode 0xB8030500 = some (.lnkw 3 .flag .west) := by decide

theorem test_words_major_2F :
    decode 0xBC070000 = some (.garr 7 false) ∧
    decode 0xBC070179 = some (.garrr 7 15 true) ∧
    decode 0xBC072200 = some (.gwait 0 7 .park) := by decide

theorem test_words_major_30 :
    decode 0xC00B2000 = some (.mon 11 .park .dev 0x0) ∧
    decode 0xC0890100 = some (.park 4 9) := by decide

theorem test_words_major_31 :
    decode 0xC4040000 = some (.spawn 4 .flag) ∧
    decode 0xC4202100 = some (.take 1 .park) ∧
    decode 0xC4C52200 = some (.steal 6 5 .park) := by decide

theorem test_words_major_32 :
    decode 0xC8042000 = some (.xpost 4 .park 0x0) ∧
    decode 0xC8802100 = some (.xtake 4 .park 0x0) := by decide

theorem test_words_major_33 :
    decode 0xCC042000 = some (.copy 4 .park) ∧
    decode 0xCC042100 = some (.gath 4 .park) ∧
    decode 0xCC042200 = some (.slice 4 .park) := by decide

theorem test_words_major_34 :
    decode 0xD0A42000 = some (.lease 5 4 .park) ∧
    decode 0xD0050100 = some (.unlease 5) := by decide

theorem test_words_major_35 :
    decode 0xD40E2000 = some (.cwait 0 14 .park) ∧
    decode 0xD4CE0100 = some (.cwset 6 14) := by decide

theorem test_words_major_36 :
    decode 0xD80B2000 = some (.round 11 .park) ∧
    decode 0xD8AB0101 = some (.rview 5 11 true) ∧
    decode 0xD80B2200 = some (.irget 11 .park) ∧
    decode 0xD80B030C = some (.irpass 11 12) := by decide

theorem test_words_major_37 :
    decode 0xDC002001 = some (.gear .park true) := by decide

theorem test_words_major_38 :
    decode 0xE0A42000 = some (.launch 5 4 .park) ∧
    decode 0xE0000100 = some (.done) := by decide

/-! ## Ill-formed terms -/

theorem test_wf_operands :
    (Instr.xlinv 3 .all).wf = false ∧ (Instr.vmovs 1 2 16 .i32).wf = false ∧ (Instr.vmovs 1 2 15 .i32).wf = true ∧
    (Instr.seam 1 0 1 .flag .head).wf = false ∧ (Instr.seam 1 4 2 .flag .tail).wf = false ∧
    (Instr.fepeek 1 2 .flag 64).wf = false ∧ (Instr.recv 1 2 .flag 0 true false).wf = false ∧
    (Instr.recvReply 1 2 .nt0 true false).wf = false := by decide

theorem test_wf_lane_types :
    (Instr.vfma 1 2 3 0 .i32).wf = false ∧
    (∀ i ∈ [Instr.vminz 1 2 3 0 .f32, .vmaxz 1 2 3 0 .f32, .vadds 1 2 3 0 .f32, .vsubs 1 2 3 0 .f16, .vmulh 1 2 3 0 .f32,
      .vand 1 2 3 0 .f32, .vor 1 2 3 0 .f32, .vxor 1 2 3 0 .bf16, .vshl 1 2 3 0 .f32, .vshr 1 2 3 0 .f32,
      .vsra 1 2 3 0 .f32, .vred 1 2 .and 0 .f32, .vcmp 1 2 3 0 .f32 .ltz, .vcmp 1 2 3 0 .i32 .un], i.wf = false) := by decide

theorem test_wf_sizes :
    (∀ i ∈ [Instr.lds 16 0 .v 0, .sts 16 0 .v 0, .ldw 16 0 .flag .v .rlx 0, .stw 16 0 .flag .v .rlx 0, .ldl 16 0 .flag .v .rlx 0,
      .stl 16 0 .flag .v .rlx 0, .ldd 16 0 .flag .v .rlx 7 0, .std 16 0 .flag .v .rlx 0, .ldf 16 0 .flag .v .rlx 0,
      .stf 16 0 .flag .v .rlx 0, .ldh 16 0 .flag .v .rlx 0, .sth 16 0 .flag .v .rlx 0], i.wf = false) ∧
    (∀ i ∈ [Instr.sts 1 0 .bz 0, .stw 1 0 .flag .hz .rlx 0, .stl 1 0 .flag .wz .rlx 0, .std 1 0 .flag .bz .rlx 0,
      .stf 1 0 .flag .bz .rlx 0, .sth 1 0 .flag .bz .rlx 0, .ldc 1 0 .flag .v false 0, .stp 1 0 .flag .v 0,
      .stp 1 0 .flag .bz 0], i.wf = false) := by decide

/-- Words that R78 and the reference pages call ILLEGAL: reserved fields, reserved codes, unassigned functions. -/
theorem test_illegal_words :
    decode 0x00000000 = none ∧ decode 0x00200001 = none ∧ decode 0x04611041 = none ∧ decode 0x04A6380C = none ∧
    decode 0x18E7C010 = none ∧ decode 0x18E70050 = none ∧ decode 0x000400D2 = none ∧ decode 0x482218C0 = none ∧
    decode 0xFFFFFFFF = none ∧ decodeBytes [1, 0, 0] = .error .tooShort ∧
    decodeWord 0xFC000000 = .error .unassigned ∧ decodeWord 0x00200001 = .error .illegalField := by decide

/-! ## Small states -/

/-- Slot 0: runnable at 0x10000 with trap vector 0x8000; s1 = −1, s2 = 1, s3 = 0x40. -/
def slot0 : Slot :=
  { Slot.reset with st := .runnable, pc := 0x10000, evec := 0x8000, regs := [(1, 0xFFFFFFFFFFFFFFFF), (2, 1), (3, 0x40)] }

/-- A translation of the first GiB onto itself. -/
def gib : TlbEntry :=
  { vbase := 0, size := 2 ^ 30, pbase := 0, tgt := .dev, comp := false, dslot := 0, x := true, w := true, r := true,
    dirty := true }

/-- Core 0. -/
def core0 : Core := { Core.reset with slots := [(0, slot0)], utlb := [gib], lamport := 5 }

/-- Partition 0 on bay 0. -/
def part0 : Partition := { Partition.none_ with live := true, bays := [0], slices := [0, 1, 2, 3], chans := [0], key := true }

/-- A device with partition 0 and its core 0. -/
def base : State := { State.reset with parts := [(0, part0)], cores := [(0, core0)] }

/-- `base` with core 0 changed. -/
def atCore (f : Core → Core) : State := modCore base 0 f

/-- `base` with slot 0 of core 0 changed. -/
def atSlot (f : Slot → Slot) : State := modSlotAt base 0 0 f

/-- `base` with partition 0 changed. -/
def atPart (f : Partition → Partition) : State := modPart base 0 f

/-- `base` with s1 = v. -/
def withS1 (v : W64) : State := atSlot (fun l => l.setS 1 v)

/-- `base` in system mode. -/
def inSys : State := atSlot (fun l => { l with sys := true })

/-- `base` with one packet in the mesh. -/
def withPk (b : Body) : State := { base with net := [Packet.mk 1 0 0 7 b] }

/-- The packet of `withPk`. -/
def pk (b : Body) : Packet := Packet.mk 1 0 0 7 b

/-! ## Steps with values from the spec -/

/-- A scalar register after an instruction. -/
def regAfter (i : Instr) (s : State) (d : SReg) : Option W64 := match exec i s with | .next t => some (rdS t d) | _ => none

/-- The current slot after an instruction. -/
def slotAfter (i : Instr) (s : State) : Option Slot := match exec i s with | .next t => some (slot t) | _ => none

/-- The current core after an instruction. -/
def coreAfter (i : Instr) (s : State) : Option Core := match exec i s with | .next t => some (cur t) | _ => none

/-- `base` with s6 and s7 set. -/
def with67 (x y : W64) : State := atSlot (fun l => (l.setS 6 x).setS 7 y)

/-- R275: the sum wraps; s0 discards it. -/
theorem test_add : regAfter (.add 5 1 2) base 5 = some 0 ∧ regAfter (.add 0 2 2) base 0 = some 0 := by decide

/-- The examples of R324 and R357. -/
theorem test_min_slt :
    regAfter (.min 5 6 7) (with67 (-1) 1) 5 = some (-1) ∧ regAfter (.minz 5 6 7) (with67 (-1) 1) 5 = some 1 ∧
    regAfter (.slt 5 6 7) (with67 (-1) 1) 5 = some 1 ∧ regAfter (.sltz 5 6 7) (with67 (-1) 1) 5 = some 0 := by decide

/-- The example of R327. -/
theorem test_mul :
    regAfter (.mul 5 6 7) (with67 (-1) 2) 5 = some 0xFFFFFFFFFFFFFFFE ∧ regAfter (.mulh 5 6 7) (with67 (-1) 2) 5 = some (-1) ∧
    regAfter (.mulhz 5 6 7) (with67 (-1) 2) 5 = some 1 := by decide

/-- The examples of R295 and R344, and Table 12.1. -/
theorem test_div :
    regAfter (.div 5 6 7) (with67 (-7) 2) 5 = some 0xFFFFFFFFFFFFFFFD ∧ regAfter (.divz 5 6 7) (with67 7 0) 5 = some (-1) ∧
    regAfter (.rem 5 6 7) (with67 (-7) 2) 5 = some (-1) ∧ regAfter (.remz 5 6 7) (with67 (-7) 2) 5 = some 1 ∧
    regAfter (.div 5 6 7) (with67 (BitVec.intMin 64) (-1)) 5 = some (BitVec.intMin 64) := by decide

/-- R288, R337, R355, R322. -/
theorem test_bits_and_shifts :
    regAfter (.clz 5 0) base 5 = some 64 ∧ regAfter (.clz 5 2) base 5 = some 63 ∧ regAfter (.popc 5 1) base 5 = some 64 ∧
    regAfter (.shi 5 1 .ra 1) base 5 = some (-1) ∧ regAfter (.shl 5 2 3) base 5 = some 1 ∧
    regAfter (.lui 7 0x1FFFFF) base 7 = some 0xFFFFFFFFFFFF0000 := by decide

/-- R287, R63: the link and the targets. -/
theorem test_call_and_branch :
    regAfter (.call 0x10) base 30 = some 0x10004 ∧ (slotAfter (.call 0x10) base).map (·.pc) = some 0x10040 ∧
    (slotAfter (.brc .lt 1 2 0xFFD) base).map (·.pc) = some 0xFFF4 ∧
    (slotAfter (.brc .ltz 1 2 0xFFD) base).map (·.pc) = some 0x10004 := by decide

/-- R367, R243: `trap 1` saves TRAP + 4 and the cause 14 with its code. -/
theorem test_trap :
    (slotAfter (.trap 1) base).map (fun l => (l.epc, l.ecause, l.sys, l.pc)) = some (0x10004, 0x10E, true, 0x8000) ∧
    (slotAfter .eret inSys).map (fun l => (l.pc, l.sys)) = some (0, false) := by decide

/-- Table 5.1, R290. -/
theorem test_ctlr :
    regAfter (.ctlr 5 0x001) base 5 = some 0x10000 ∧ regAfter (.ctlr 5 0x008) base 5 = some 0x3F800000 ∧
    (slotAfter (.ctlr 5 0x002) base).map (·.ecause) = some 2 ∧ (slotAfter (.ctlw 3 0x101) base).map (·.ecause) = some 1 := by
  decide

/-- R364, R318: a store's bytes, and their sign extension. -/
theorem test_scratchpad :
    (coreAfter (.sts 1 3 .h 0) base).map (fun k => k.spRead 0x40 3) = some [0xFF, 0xFF, 0] ∧
    regAfter (.lds 5 3 .b 0) (atCore (fun k => k.spWrite 0x40 [0x80])) 5 = some 0xFFFFFFFFFFFFFF80 ∧
    regAfter (.lds 5 3 .bz 0) (atCore (fun k => k.spWrite 0x40 [0x80])) 5 = some 0x80 := by decide

/-- R129, R360: a store is posted; R316: the first attempt of a load is FILL, and with `nr` = 000 the next instruction issues. -/
theorem test_posted_and_fill :
    (coreAfter (.std 2 3 .flag .d .strongDev 0) base).map (fun k => k.psb.map (fun e => (e.addr, e.rel))) = some [(0x40, true)] ∧
    (slotAfter (.ldd 5 3 .flag .d .rlx 7 0) base).map (fun l => (l.nr, l.ncause, l.pc)) = some (true, 1, 0x10004) := by decide

/-- R107: a queue's oldest entry comes first, and an empty one refuses. -/
theorem test_queue :
    (coreAfter (.qpop 6 .flag 2) (atCore (fun k => { k with dq := [(2, [7, 8])] }))).map (fun k => (sget [] k.dq 2, (k.slot 0).getV 6))
      = some ([8], 7) ∧
    (slotAfter (.qpop 6 .nt0 2) base).map (fun l => (l.nr, l.pc)) = some (true, 0) := by decide +kernel

/-- The example of R297: 5.0, −0.75, 100, 0.25, 0.5 and +0. -/
theorem test_dxbun :
    (match exec (.dxbun 4 1 false false) (atSlot (fun l => l.setV 1
      (BitVec.ofNat 512 (0x14 + 0x43 * 2 ^ 8 + 0xB2 * 2 ^ 16 + 0x01 * 2 ^ 24 + 0x02 * 2 ^ 32 + 0x82 * 2 ^ 256 + 0x85 * 2 ^ 264)))) with
    | .next t => (List.range 6).map (lane 32 (rdV t 4))
    | _ => []) = [0x40A00000, 0xBF400000, 0x42C80000, 0x3E800000, 0x3F000000, 0] := by decide +kernel

/-- R137, R291: a count at its target matches, clears and advances the generation. -/
theorem test_cwait :
    regAfter (.cwait 5 3 .flag) (atCore (fun k => k.spWrite 0x40 (toBytes 4 2 ++ toBytes 4 1 ++ toBytes 8 0))) 5 =
      some 0x100000002 ∧
    (slotAfter (.cwait 5 3 .flag) (atCore (fun k => k.spWrite 0x40 (toBytes 4 0 ++ toBytes 4 1)))).map (·.nr) = some true := by
  decide

/-- A step fetches, decodes and runs the word at the PC (R21, R60): `addi s5, s4, -1`. -/
theorem test_step :
    (match step (State.reset.withFetchWord 32 0x08A4FFFF) with
    | .next t => (rdS t 5, (slot t).pc, (getCore t 0).cyc)
    | _ => (0, 0, 0)) = (0xFFFFFFFFFFFFFFFF, 0x10004, 1) := by decide

/-- R131, R156: a load, and a store, find the slot's own window store performed. -/
theorem test_own_store :
    let s := atCore (fun k => { k with nextId := 2, psb := [{ id := 1, slot := 0, sp := .win 0 0, addr := 0x40, data := toBytes 8 7, rel := false,
                                                              red := none, comp := none }] })
    regAfter (.lds 5 3 .d 0) s 5 = some 7 ∧ (coreAfter (.sts 1 3 .b 0) s).map (fun k => (k.spRead 0x40 2, k.psb.length)) = some ([0xFF, 0], 0) := by
  decide +kernel

/-- R14: device memory of 32 packages of 48 GiB; a write past its end changes nothing. -/
theorem test_capacity :
    memHolds .dev (1536 * 2 ^ 30 - 1) = true ∧ memHolds .dev (1536 * 2 ^ 30) = false ∧ memHolds .far (16 * 2 ^ 40 - 1) = true ∧
    memHolds .far (16 * 2 ^ 40) = false ∧ (memWrite base .dev (1536 * 2 ^ 30) [1]).dm = [] ∧
    (memWrite base .dev (1536 * 2 ^ 30 - 1) [1]).dm ≠ [] := by decide

/-! ## Witnesses: states and operands that meet the hypotheses of the statements, clause by clause

Each theorem is named after its statement, without `Obligations.`; it lists the hypotheses of the clauses in their order. -/

/-- A word of major 0x01 with a bit of one field set. -/
def badField (fn lo : Nat) : Nat := 2 ^ 26 + 2 ^ lo + fn

/-- The hypotheses of `IllegalFields`. -/
def meetsIllegal (fn hi lo : Nat) : Prop :=
  fld (BitVec.ofNat 32 (badField fn lo)).toNat 31 26 = 1 ∧ fld (BitVec.ofNat 32 (badField fn lo)).toNat 5 0 = fn ∧
  fld (BitVec.ofNat 32 (badField fn lo)).toNat hi lo ≠ 0

theorem witness_ScalarArithmeticResults : ∀ fn ∈ [0x01, 0x02, 0x03, 0x04, 0x05, 0x10, 0x11, 0x12], meetsIllegal fn 10 6 := by
  unfold meetsIllegal; decide

theorem witness_ScalarShiftAndDivision :
    (rdS (with67 (BitVec.intMin 64) (-1)) 7 = BitVec.allOnes 64 ∧ rdS (with67 (BitVec.intMin 64) (-1)) 6 = BitVec.intMin 64) ∧
    (∀ fn ∈ [0x06, 0x07, 0x08, 0x13, 0x14, 0x15, 0x16], meetsIllegal fn 10 6) ∧
    (fld 0x18E7C010 31 26 = 6 ∧ fld 0x18E7C010 15 14 = 3) ∧ (fld 0x18E70050 31 26 = 6 ∧ fld 0x18E70050 13 6 ≠ 0) := by
  unfold meetsIllegal; decide

theorem witness_ScalarChoiceResults : ∀ fn ∈ [0x18, 0x19, 0x1A, 0x1B, 0x20, 0x21, 0x22], meetsIllegal fn 10 6 := by
  unfold meetsIllegal; decide

theorem witness_BitCountResults : ∀ fn ∈ [0x28, 0x29], meetsIllegal fn 15 11 ∧ meetsIllegal fn 10 6 := by
  unfold meetsIllegal; decide

/-- Each condition both ways, at s1 = −1 and s2 = 1; BRCI's at 1 and −1. -/
theorem witness_BranchEffects :
    rdS base 1 = rdS base 1 ∧ rdS base 1 ≠ rdS base 2 ∧ (rdS base 1).toInt < (rdS base 2).toInt ∧
    ¬ (rdS base 2).toInt < (rdS base 1).toInt ∧ (rdS base 2).toNat < (rdS base 1).toNat ∧
    ¬ (rdS base 1).toNat < (rdS base 2).toNat ∧
    (rdS base 2).toInt = (1 : BitVec 5).toInt ∧ (rdS base 1).toInt = (31 : BitVec 5).toInt ∧
    (rdS base 2).toInt ≠ (31 : BitVec 5).toInt ∧ (rdS base 1).toInt < (1 : BitVec 5).toInt ∧
    ¬ (rdS base 2).toInt < (1 : BitVec 5).toInt ∧ (rdS base 2).toNat < (31 : BitVec 5).toNat ∧
    ¬ (rdS base 1).toNat < (31 : BitVec 5).toNat ∧ (slot base).nr ≠ true ∧
    (slot (atSlot (fun l => { l with nr := true }))).nr = true := by decide

/-- A frame of two members at 0x10000, replayed twice, at replay `r`. -/
def frame2 (r : Nat) : Frame :=
  { start := 0x10000, len := 2, count := 2, rep := r, sd := 0, sa := 0, sb := 0, sx := 0, words := [], again := false }

theorem witness_RepeatFrames :
    (slot base).frame = none ∧ (slot (atSlot (fun l => { l with frame := some (frame2 0) }))).frame ≠ none ∧
    (slot (atSlot (fun l => { l with frame := some (frame2 0) }))).sys = false ∧ (frame2 0).len ≤ 16 ∧
    ((0x10000 : VA) = (frame2 0).start + BitVec.ofNat 48 (4 * 0) ∧ 0 + 1 < (frame2 0).len) ∧
    ((0x10004 : VA) = (frame2 0).start + BitVec.ofNat 48 (4 * 1) ∧ 1 + 1 = (frame2 0).len ∧ (frame2 0).rep + 1 < (frame2 0).count) ∧
    (1 + 1 = (frame2 1).len ∧ (frame2 1).count ≤ (frame2 1).rep + 1) := by decide

/-- A NaN, two numbers, and zeros of both signs. -/
theorem witness_FloatCompareAndClass :
    unpack f32 0x7FC00000 = .nan ∧ unpack f32 0x3F800000 ≠ .nan ∧ unpack f32 0 ≠ .nan ∧
    0x80000000 % 2 ^ 31 = 0 ∧ (rdS (with67 0x80000000 0) 6).toNat % 2 ^ 31 = 0 ∧
    (rdS (with67 0x80000000 0) 7).toNat % 2 ^ 31 = 0 := by decide

theorem witness_VectorLaneResults :
    (∀ t ∈ [LaneTy.i32, .i16, .i8], t.isInt = true) ∧ (∀ t ∈ [LaneTy.f32, .f16, .bf16], t.isInt = false) := by decide

theorem witness_NopEffect : fld (0x00200001 : BitVec 32).toNat 31 26 = 0 ∧ fld (0x00200001 : BitVec 32).toNat 5 0 = 1 ∧
    (0x00200001 : BitVec 32) ≠ 1 := by decide

theorem witness_TrapEntry :
    ((slot base).sys = false ∧ (slot base).catchBkpt = false) ∧
    ((slot (atSlot (fun l => { l with catchBkpt := true }))).catchBkpt = true ∧
      (slot (atSlot (fun l => { l with catchBkpt := true }))).st = .runnable) := by decide

/-- A misaligned PC; a PC that no table maps. -/
theorem witness_TrapReturn :
    (slot base).sys = false ∧ (slot inSys).sys = true ∧ (0x10002 : VA).toNat % 4 ≠ 0 ∧
    ((slot base).st = .runnable ∧ (slot base).frame = none) ∧ fetchAt base (curPart base) (slot base).pc = .error .pfx :=
  ⟨by decide, by decide, by decide, by decide, rfl⟩

/-- `inSys` with s1 = v. -/
def inSys1 (v : W64) : State := modSlotAt inSys 0 0 (fun l => l.setS 1 v)

/-- A misaligned and a too high scratchpad address, a bad word, a lease address of 2^36, a page of another memory, a PC that no
table maps. -/
theorem witness_SystemModeFaultsNode :
    ((slot inSys).sys = true ∧ partOf inSys inSys.curCore = some 0 ∧ (slot inSys).catchBkpt = false ∧
      (slot inSys).st = .runnable ∧ (slot inSys).frame = none) ∧
    ((rdS inSys 2 + (0 : BitVec 13).signExtend 64).toNat % 2 ^ 16 % Size.d.bytes ≠ 0) ∧
    ((rdS (inSys1 0xF800) 1 + (0 : BitVec 13).signExtend 64).toNat % 2 ^ 16 % Size.d.bytes = 0 ∧
      0xF800 < (rdS (inSys1 0xF800) 1 + (0 : BitVec 13).signExtend 64).toNat % 2 ^ 16 + Size.d.bytes) ∧
    ((rdS inSys 3 + (0 : BitVec 13).signExtend 64).toNat % 2 ^ 16 = 0x40 ∧
      (cur (modCore inSys 0 (fun k => { k with spBad := [8] }))).spBadIn 0x40 Size.d.bytes = true ∧
      (sget RowGauge.reset inSys.rows (coreRow inSys inSys.curCore)).rail = 0) ∧
    ((rdS (inSys1 (2 ^ 36)) 1 + BitVec.ofNat 64 8 * (0 : BitVec 8).signExtend 64).toNat = 2 ^ 36) ∧
    (invBarred inSys = false ∧ xlate inSys 0x40 .far true false = .bad .prot ∧ xlate inSys 0x40 .far false true = .bad .prot) ∧
    fetchAt inSys (curPart inSys) (slot inSys).pc = .error .pfx := by
  refine ⟨by decide, by decide, by decide, by decide, by decide, by decide, rfl⟩

/-- A sibling that runs, outside a handler and inside one, and slot 0 alone. -/
theorem witness_HaltEffect :
    ((slot base).sys = false ∧ (slot base).inHandler = false ∧
      (getSlot (modSlotAt base 0 7 (fun l => { l with st := .runnable })) 0 7).st ≠ .empty) ∧
    (slot (modSlotAt (atSlot (fun l => { l with inHandler := true })) 0 7 (fun l => { l with st := .runnable }))).inHandler = true ∧
    (∀ n, n < 8 → n ≠ base.curSlot → (getSlot base base.curCore n).st = .empty) := by decide

/-- `ncause` 13 and format 2, the last that are accepted; system mode; no trace ring. -/
theorem witness_ControlRegisterAccess :
    (slot inSys).sys = true ∧ (rdS (withS1 0xD0) 1).toNat / 16 % 16 < 14 ∧ (rdS (withS1 2) 1).toNat % 8 ≤ 2 ∧
    (getPart base ((partOf base base.curCore).getD 0)).conf.trace.toNat / 2 ^ 48 = 0 := by decide

theorem witness_ControlRegisterTraps :
    (slot base).sys = false ∧
    (0x00A : BitVec 10).toNat ∉ [0x000, 0x001, 0x002, 0x003, 0x004, 0x005, 0x006, 0x007, 0x008, 0x009, 0x010, 0x011, 0x012,
      0x013, 0x100, 0x101, 0x102, 0x103, 0x104, 0x105, 0x106] ∧
    (0x002 : BitVec 10).toNat ∈ [0x002, 0x003, 0x004] ∧
    (0x106 : BitVec 10).toNat ∈ [0x001, 0x100, 0x101, 0x103, 0x104, 0x105, 0x106] ∧
    14 ≤ (rdS (withS1 0xE0) 1).toNat / 16 % 16 ∧ (slot (withS1 0xE0)).sys = false ∧
    3 ≤ (rdS (withS1 3) 1).toNat % 8 ∧ (slot (withS1 3)).sys = false := by decide

/-- A DCFENCE of the last block below 2^46, one past it, an address of 2^48, and a misaligned one. -/
theorem witness_FenceEffects :
    ((rdS (with67 1 0) 6).toNat % 256 ≠ 0 ∧ (slot (with67 1 0)).sys = false) ∧
    ((rdS (with67 (2 ^ 48) 0) 6).toNat % 256 = 0 ∧ 2 ^ 48 ≤ (rdS (with67 (2 ^ 48) 0) 6).toNat) ∧
    ((2 ^ 46 - 256) % 256 = 0 ∧ 2 ^ 46 < (2 ^ 46 - 256) % 2 ^ 46 + (rdS (with67 (2 ^ 46 - 256) 512) 7).toNat) ∧
    ((rdS (with67 (2 ^ 46 - 256) 256) 6).toNat % 256 = 0 ∧ (rdS (with67 (2 ^ 46 - 256) 256) 7).toNat % 256 = 0 ∧
      (rdS (with67 (2 ^ 46 - 256) 256) 6).toNat < 2 ^ 48 ∧
      (rdS (with67 (2 ^ 46 - 256) 256) 6).toNat % 2 ^ 46 + (rdS (with67 (2 ^ 46 - 256) 256) 7).toNat ≤ 2 ^ 46) := by decide

theorem witness_PrivilegedEffects :
    (slot base).sys = false ∧ (slot inSys).sys = true ∧ (rdS inSys 2).toNat < 2 ^ 48 ∧
    ((rdS inSys 3).toNat % 16 = 0 ∧ (rdS inSys 3).toNat < 2 ^ 48) ∧ inPart inSys ((rdS inSys 2).toNat % 2 ^ 16) = true ∧
    (2 ^ 48 ≤ (rdS (inSys1 (2 ^ 48)) 1).toNat ∧ (rdS (inSys1 (2 ^ 48)) 1).toNat % 16 = 0 ∧ (slot (inSys1 (2 ^ 48))).sys = true) ∧
    (rdS inSys 2).toNat % 16 ≠ 0 ∧
    ((slot (inSys1 256)).sys = true ∧ inPart (inSys1 256) ((rdS (inSys1 256) 1).toNat % 2 ^ 16) = false) := by decide

/-- `base` with s1 an address and translations of each memory's first GiB. -/
def far1 : TlbEntry := { gib with tgt := .far }

/-- `base` with s1 = v and one translation. -/
def mapped (e : TlbEntry) (v : W64) : State := modCore (withS1 v) 0 (fun k => { k with utlb := [e] })

/-- Changes slot 0. -/
def in0 (s : State) (f : Slot → Slot) : State := modSlotAt s 0 0 f

/-- Changes core 0. -/
def onCore0 (s : State) (f : Core → Core) : State := modCore s 0 f

/-- A state whose core 0 has an uncorrectable word at 0x40. -/
def badWord (s : State) : State := onCore0 s (fun k => { k with spBad := [8] })

/-- A state whose core 0 lies in a row on a lowered rail. -/
def undervolted (s : State) : State :=
  { s with rows := sset RowGauge.reset s.rows (coreRow s 0) { pinned := false, rail := 1 } }

/-- A misaligned address, the first past the scratchpad, the last inside it; an uncorrectable word, also on a lowered rail. -/
theorem witness_ScratchpadAccess :
    (Size.v = .v → (15 : SReg).val < 16) ∧
    ((slot base).sys = false ∧ (rdS base 2 + (0 : BitVec 13).signExtend 64).toNat % 2 ^ 16 % Size.h.bytes ≠ 0) ∧
    (0xF800 % Size.d.bytes = 0 ∧ 0xF800 < (rdS (withS1 0xF800) 1 + (0 : BitVec 13).signExtend 64).toNat % 2 ^ 16 + Size.d.bytes) ∧
    ((rdS (withS1 0xF800) 1 + (0x1FC0 : BitVec 13).signExtend 64).toNat % 2 ^ 16 % Size.v.bytes = 0 ∧
      (rdS (withS1 0xF800) 1 + (0x1FC0 : BitVec 13).signExtend 64).toNat % 2 ^ 16 + Size.v.bytes ≤ 0xF800 ∧
      (cur (withS1 0xF800)).spBadIn 0xF7C0 64 = false) ∧
    (OwnDone base 0 ∧ OwnDone (withS1 0xF800) 0 ∧ OwnDone (badWord base) 0 ∧ OwnDone (undervolted (badWord base)) 0) ∧
    (let s := badWord base; (cur s).spBadIn 0x40 4 = true ∧ (sget RowGauge.reset s.rows (coreRow s s.curCore)).rail = 0 ∧
      (sget RowGauge.reset (undervolted s).rows (coreRow (undervolted s) s.curCore)).rail ≠ 0) := by
  unfold OwnDone; decide +kernel

/-- A value held for the slot's instruction. -/
def held (sp : Space) (addr : Nat) (view : Bool) : Hold :=
  { pc := 0x10000, sp := sp, addr := addr, view := view, slotOfDict := 0, comp := false, op := .load 8,
    ans := .got (toBytes 8 7) false }

/-- An L1 copy of line 1 of a space. -/
def copy1 (sp : Space) : L1Line :=
  { sp := sp, line := 1, view := false, data := List.replicate 64 0, poison := false, tag := none }

/-- A group of cores 0 and 1 of a node. -/
def rect2 : Rect := { col := 0, line := 0, width := 2, height := 1 }

/-- A running node on cores 0 and 1, followed by node 1. -/
def node1 : Node :=
  { group := 0, deps := 0, succs := [1], mask := 1, text := 0x10000, entries := List.replicate 8 0, imgLen := 0, imgAddr := 0,
    args := 0x40, st := .running, since := 0, starved := false, cores := [0, 1], order := 0, signals := [], placed := (0, 0),
    fin := (0, 0), by_ := 0, fault := none, search := 0, failed := 0, written := false }

/-- A region of 64 lines at 0x20000. -/
def region1 : Region :=
  { base := 0x20000, lines := 64, mode := 0, r := true, w := true, sub := 0, pages := [(0x20, 0x20)], counter := 5, iron := .rest,
    lost := false }

/-- A launch of two nodes with a region. -/
def launch1 (n : Node) (r : Region) : Launch :=
  { q := 7, addr := 0x4000, prio := 1, tag := 0x55, watchdog := 1, comp := 0x5000, groups := [[rect2]],
    nodes := [n, { n with deps := 1, succs := [], st := .waiting, cores := [] }], regions := [r], enq := (0, 0), begun := true, live := true }

/-- A lease of one page on slice 0, entry 3, generation 2. -/
def lease3 : LeaseEnt := { LeaseEnt.reset with gen := 2, live := true, first := 0, count := 1, size := 4096, until_ := 1500 }

/-- `base` with that lease and s1 = v; its descriptor is not at hand. -/
def leased0 (v : W64) : State := modPart (withS1 v) 0 (fun t => { t with leases := [(3, lease3)] })

/-- `leased0` with the descriptor at hand. -/
def leased (v : W64) : State := onCore0 (leased0 v) (fun k => { k with leaseAt := [(3, 2)] })

/-- A state whose slot 0 holds an answer. -/
def holding (s : State) (sp : Space) (addr : Nat) (view : Bool) (a : Answer) : State :=
  in0 s (fun l => { l with hold := some { held sp addr view with ans := a } })

/-- The answer clause of LoadResults. -/
def answered (s : State) (sp : Space) (addr : Nat) (view : Bool) (a : Answer) : Prop := ∃ h, (slot s).hold = some h ∧
  h.pc = (slot s).pc ∧ h.sp = sp ∧ h.addr = addr ∧ h.view = view ∧ h.op = .load 8 ∧ h.ans = a

/-- Eight bytes. -/
def eight : Answer := .got (toBytes 8 7) false

/-- `base` with a seam on accumulator 0. -/
def seamed (s : State) : State := onCore0 s (fun k => { k with seamBusy := [{ acc := 0, slot := 1, after := 0 }] })

/-- The same bytes, poisoned. -/
def poison8 : Answer := .got (toBytes 8 7) true

/-- A window address of core 1, and one of the own core's accumulator 0, busy and idle; poisoned answers, refusals, an uncorrectable
word of the own window. -/
theorem witness_LoadResults_windows :
    (invBarred base = false ∧ ldBarred base = false ∧ (slot base).atom = none) ∧
    (let s := withS1 0x1000100000040;
      winAddr s 0x1000100000040 8 = some { core := 1, unit := 0, off := 0x40 } ∧
      rdS s 1 + BitVec.ofNat 64 8 * (0 : BitVec 8).signExtend 64 = 0x1000100000040 ∧
      (1 : Nat) ≠ s.curCore ∧ lineOpen s (.win 1 0) 1 = false ∧ (slot s).hold = none ∧
      lineHeld (holding s (.win 1 0) 0x40 false eight) (.win 1 0) 1 = false) ∧
    answered (holding (withS1 0x1000100000040) (.win 1 0) 0x40 false eight) (.win 1 0) 0x40 false eight ∧
    answered (holding (withS1 0x1000120000040) (.win 1 2) 0x40 false (.wait .busy (.acc 1 0))) (.win 1 2) 0x40 false (.wait .busy (.acc 1 0)) ∧
    (let s := withS1 0x1000020000040;
      winAddr s 0x1000020000040 8 = some { core := 0, unit := 2, off := 0x40 } ∧ lineOpen s (.win 0 2) 1 = false ∧
      (cur (seamed s)).winBusy 2 0x40 8 = true ∧ (cur s).winBusy 2 0x40 8 = false ∧
      heldBackBy s (.acc 0 0) (accOwn s 0 0) = false) ∧
    (let s := withS1 0x1000000000040;
      winAddr s 0x1000000000040 8 = some { core := 0, unit := 0, off := 0x40 } ∧ lineOpen s (.win 0 0) 1 = false ∧
      (cur s).spBadIn 0x40 8 = false ∧ (cur (badWord s)).spBadIn 0x40 8 = true ∧
      (sget RowGauge.reset (badWord s).rows (coreRow (badWord s) (badWord s).curCore)).rail = 0 ∧ (slot (badWord s)).sys = false) ∧
    answered (holding (withS1 0x1000100000040) (.win 1 0) 0x40 false poison8) (.win 1 0) 0x40 false poison8 ∧
    answered (holding (withS1 0x1000100000040) (.win 1 0) 0x40 false (.denied .prot)) (.win 1 0) 0x40 false (.denied .prot) :=
  ⟨by decide +kernel, by decide +kernel, ⟨_, rfl, rfl, rfl, rfl, rfl, rfl, rfl⟩, ⟨_, rfl, rfl, rfl, rfl, rfl, rfl, rfl⟩,
    by decide +kernel, by decide +kernel, ⟨_, rfl, rfl, rfl, rfl, rfl, rfl, rfl⟩, ⟨_, rfl, rfl, rfl, rfl, rfl, rfl, rfl⟩⟩

/-- The last word of the lease, without its descriptor and with it. -/
theorem witness_LoadResults_leases :
    (cur (leased0 0x20300FF8)).leaseAt.contains (3, 2) = false ∧
    ((cur (leased 0x20300FF8)).leaseAt.contains (0x20300FF8 / 2 ^ 20 % 2 ^ 8, 0x20300FF8 / 2 ^ 28) = true ∧
      leaseAddr (leased 0x20300FF8) 0x20300FF8 8 = some (3, 0xFF8) ∧
      lineOpen (leased 0x20300FF8) (leaseSpace (leased 0x20300FF8) 3) (0xFF8 / 64) = false) ∧
    answered (holding (leased 0x20300FF8) (.lease 0 3 2) 0xFF8 false eight) (.lease 0 3 2) 0xFF8 false eight :=
  ⟨by decide +kernel, by decide +kernel, ⟨_, rfl, rfl, rfl, rfl, rfl, rfl, rfl⟩⟩

/-- `base` without a translation. -/
def unmapped : State := onCore0 base (fun k => { k with utlb := [] })

/-- `unmapped` with a fault that a walk of page 0 found, and the claim it is held for. -/
def walkFaulted (invalid : Bool) : State := in0 unmapped (fun l => { l with
  claims := [some { pc := 0x10000, res := .line .dev 0, ticket := 0, age := 0, cause := 1, stamp := 0 }, none, none, none],
  walkFaults := [{ pc := 0x10000, page := 0, res := .line .dev 0, invalid := invalid }] })

/-- Address 0x40 of each memory: no translation, a held fault, no copy, an answer, a copy in L1. -/
theorem witness_LoadResults_mapped :
    xlate unmapped 0x40 .dev true false = .miss ∧
    (faultHeld (walkFaulted true) 0 0 0x10000 0x40 = some { pc := 0x10000, page := 0, res := .line .dev 0, invalid := true } ∧
      (slot (walkFaulted true)).sys = false) ∧
    (xlate base 0x40 .dev true false = .ok 0x40 gib ∧ regionOf base (curPart base) 1 = none ∧ dcfBarred base 0x40 8 = false ∧
      (cur base).l1Find .dev 1 false = none ∧ lineOpen base .dev 1 = false ∧
      lineHeld (holding base .dev 0x40 false eight) .dev 1 = false) ∧
    answered (holding base .dev 0x40 false eight) .dev 0x40 false eight ∧
    (let s := onCore0 base (fun k => { k with l1 := [copy1 .dev] });
      (cur s).l1Find .dev 1 false = some (copy1 .dev) ∧ (slot s).hold = none ∧ lineHeld s .dev 1 = false ∧
      (copy1 .dev).poison = false ∧
      (cur (onCore0 base (fun k => { k with l1 := [{ copy1 .dev with poison := true }] }))).l1Find .dev 1 false =
        some { copy1 .dev with poison := true }) ∧
    xlate (mapped far1 0x40) 0x40 .far true false = .ok 0x40 far1 ∧
    (cur (onCore0 (mapped far1 0x40) (fun k => { k with l1 := [copy1 .far] }))).l1Find .far 1 false = some (copy1 .far) ∧
    xlate (mapped { gib with tgt := .host } 0x40) 0x40 .host true false = .ok 0x40 { gib with tgt := .host } ∧
    (cur (onCore0 (mapped { gib with tgt := .host } 0x40) (fun k => { k with l1 := [copy1 .host] }))).l1Find .host 1 false =
      some (copy1 .host) :=
  ⟨by decide +kernel, by decide +kernel, by decide +kernel, ⟨_, rfl, rfl, rfl, rfl, rfl, rfl, rfl⟩, by decide +kernel,
    by decide +kernel, by decide +kernel, by decide +kernel, by decide +kernel⟩

/-- A copy of the first line of `region1`, of round `u`. -/
def copyOf (u : BitVec 32) : L1Line :=
  { sp := .dev, line := 0x800, view := false, data := List.replicate 64 0, poison := false, tag := some (7, 0, u) }

/-- `base` with a region and s1 at its first line; view 5 and a copy of round `u` at core 0. -/
def inRegion (r : Region) (view : List ViewEntry) (l1 : List L1Line) : State :=
  onCore0 (modPart (withS1 0x20000) 0 (fun t => { t with launches := [launch1 node1 r] })) (fun k => { k with view := view, l1 := l1 })

/-- View 5 of `region1`. -/
def view5 : ViewEntry := { q := 7, n := 0, val := 5 }

/-- A region without the r right, also with a view and the home's refusal in hand; no view; no copy; a copy of round 3 under the bounds 1
and 2, and one that missed a write of round 3 or of round 5 first; the bound 7. -/
theorem witness_LoadResults_regions :
    (xlate (inRegion region1 [] []) 0x20000 .dev true false = .ok 0x20000 gib ∧
      regionOf (inRegion region1 [] []) (curPart (inRegion region1 [] [])) 0x800 = some (7, 0, region1) ∧ region1.r = true ∧
      dcfBarred (inRegion region1 [] []) 0x20000 8 = false ∧ lineOpen (inRegion region1 [] []) .dev 0x800 = false) ∧
    (let s := inRegion { region1 with r := false } [] [];
      regionOf s (curPart s) 0x800 = some (7, 0, { region1 with r := false })) ∧
    (let s := inRegion { region1 with r := false } [view5] [];
      viewOf (cur s) 7 0 ≠ none ∧ (cur s).viewOwed 7 0 = false ∧ (slot s).hold = none ∧ (slot s).sys = false ∧
      (slot (holding s .dev 0x20000 false (.denied .prot))).hold = some { held .dev 0x20000 false with ans := .denied .prot }) ∧
    viewOf (cur (inRegion region1 [] [])) 7 0 = none ∧
    (let s := inRegion region1 [view5] [];
      viewOf (cur s) 7 0 = some 5 ∧ (cur s).viewOwed 7 0 = false ∧ (cur s).l1Round 0x800 7 0 = none) ∧
    (let s := inRegion region1 [view5] [copyOf 3];
      (cur s).l1Round 0x800 7 0 = some (copyOf 3, 3) ∧ lineHeld s .dev 0x800 = false ∧
      ¬ ((5 - 3 : BitVec 32).toNat ≤ (1 : BitVec 3).toNat ∨ (0 < (3 - 5 : BitVec 32).toNat ∧ (3 - 5 : BitVec 32).toNat < 2 ^ 31)) ∧
      (5 - 3 : BitVec 32).toNat ≤ (2 : BitVec 3).toNat) ∧
    ((copyOf 3).missed = none ∧
      ¬ 2 ^ 31 ≤ (5 - BitVec.ofNat 32 2 - 3 : BitVec 32).toNat ∧ 2 ^ 31 ≤ (5 - BitVec.ofNat 32 2 - 5 : BitVec 32).toNat) ∧
    (¬ (Ord2.rlx = .rlx ∧ (7 : BitVec 3) ≠ 7) ∧ ((1 : BitVec 3) ≠ 7 ∧ 0x20000 / 2 ^ 46 % 2 = 0)) := by decide +kernel

/-- A posted store. -/
def posted1 (sp : Space) (addr : Nat) : Posted :=
  { id := 1, slot := 0, sp := sp, addr := addr, data := toBytes 8 7, rel := false, red := none, comp := none }

/-- An own store to the last doubleword of the scratchpad below the deque. -/
def ownStored (s : State) : State := onCore0 s (fun k => { k with psb := [posted1 (.win 0 0) 0xF7F8], nextId := 2 })

/-- The ends of each instruction's range, with own stores to both units; one store that a load reads whole. -/
theorem witness_OwnWindowStores :
    (let s := onCore0 base (fun k => { k with psb := [posted1 (.win 0 0) 0xF7F8, posted1 (.win 0 2) 0x7FF8, posted1 .dev 0] });
      (cur s).psb.map (ownStore s 0) = [true, false, false] ∧ (cur s).psb.map (ownStore s 2) = [false, true, false]) ∧
    ((rdS (withS1 0xF7F0) 1).toNat % 16 = 0 ∧ (rdS (withS1 0xF7F0) 1).toNat < 0xF800) ∧
    ((rdS (withS1 0x83DE0000) 1).toNat / 2 ^ 26 = 32 ∧ (rdS (withS1 0x83DE0000) 1).toNat % 2 ^ 16 = base.curCore ∧
      (rdS (withS1 0x83DE0000) 1).toNat / 2 ^ 16 % 2 ^ 10 * 64 + 64 ≤ 0xF7C0) ∧
    ((rdS (withS1 0xF7800001) 1).toNat / 2 ^ 16 % 2 ^ 16 % 64 = 0 ∧ (rdS (withS1 0xF7800001) 1).toNat / 2 ^ 16 % 2 ^ 16 + 64 ≤ 0xF7C0) ∧
    (pressForm base 0 = some (.dxb4, 2) ∧ (rdS base 3).toNat % 2 ^ 16 % 16 = 0 ∧ (rdS base 3).toNat % 2 ^ 16 + 32 ≤ 0xF800) ∧
    (0xE800 % 64 = 0 ∧ (spAddr (withS1 0xE800) 0xE800 4096).isSome = true ∧ (spAddr (withS1 0xE800) 0xE800 AccDest.raw.bytes).isSome = true) ∧
    (fmtOf (slot base).pfmt = some .dxb4 ∧ inPart base ((rdS base 2).toNat % 2 ^ 16) = true ∧ (rdS base 2).toNat % 2 ^ 16 ≠ base.curCore) ∧
    (let s := ownStored (withS1 0xF7F8); let e := posted1 (.win 0 0) 0xF7F8;
      (rdS s 1 + (0 : BitVec 13).signExtend 64).toNat % 2 ^ 16 = 0xF7F8 ∧ (cur s).spBadIn 0xF7F8 Size.d.bytes = false ∧ (cur s).psb = [e] ∧
      ownStore s 0 e = true ∧ e.addr = 0xF7F8 ∧ e.data.length = Size.d.bytes) := by decide +kernel

/-- Ordered behind a posted store. -/
def fenced (s : State) : State :=
  onCore0 (in0 s (fun l => { l with stMark := 2, ldMark := 2 })) (fun k => { k with psb := [posted1 .dev 0], nextId := 2 })

/-- Room, a full buffer, an open order; a mailbox of core 1; a lease without and with its descriptor; each memory; a region whose
iron rests; no translation, and a fault of a walk. -/
theorem witness_StoresArePosted :
    (invBarred base = false ∧ stBarred base = false ∧ (slot base).atom = none ∧ (cur base).psb.length < 16 ∧
      engineHeld base = false) ∧
    ¬ (cur (onCore0 base (fun k => { k with psb := List.replicate 16 (posted1 .dev 0) }))).psb.length < 16 ∧
    stBarred (fenced base) = true ∧
    winAddr (withS1 0x10001400000C0) 0x10001400000C0 64 = some { core := 1, unit := 4, off := 0xC0 } ∧
    (let s := ownStored (withS1 0x1000000000040); winAddr s 0x1000000000040 8 = some { core := 0, unit := 0, off := 0x40 } ∧
      anyOpen s = true ∧ stBarred s = false ∧ Ord2.strongDev ≠ .rlx) ∧
    (cur (leased0 0x20300FF8)).leaseAt.contains (3, 2) = false ∧
    ((cur (leased 0x20300FF8)).leaseAt.contains (3, 2) = true ∧ leaseAddr (leased 0x20300FF8) 0x20300FF8 8 = some (3, 0xFF8)) ∧
    (xlate base 0x40 .dev false true = .ok 0x40 gib ∧ mayWriteLine base (curPart base) base.curCore 1 = true ∧
      dcfBarred base 0x40 8 = false) ∧
    (xlate (inRegion region1 [] []) 0x20000 .dev false true = .ok 0x20000 gib ∧
      mayWriteLine (inRegion region1 [] []) (curPart (inRegion region1 [] [])) 0 0x800 = false) ∧
    (xlate unmapped 0x40 .dev false true = .miss ∧
      faultHeld (walkFaulted false) 0 0 0x10000 0x40 = some { pc := 0x10000, page := 0, res := .line .dev 0, invalid := false }) ∧
    xlate (mapped far1 0x40) 0x40 .far false true = .ok 0x40 far1 ∧
    xlate (mapped { gib with tgt := .host } 0x40) 0x40 .host false true = .ok 0x40 { gib with tgt := .host } := by
  decide +kernel

/-- Misaligned, malformed, and past the ends: a window address without bit 48, an address of 2^36 and one past its lease, an
address of 2^48, the compressed view; for atomics, reductions and full/empty words a misaligned one, the first past the scratchpad, a
held fault of either kind, a page without its rights, and a region whose iron rests. -/
theorem witness_AddressTraps :
    (slot base).sys = false ∧ (rdS base 2).toNat % 8 ≠ 0 ∧
    (winAddr base 0x40 8 = none ∧ (0x40 : W64).toNat % 8 = 0) ∧ 2 ^ 36 ≤ (rdS (withS1 0x1000000000) 1).toNat ∧
    (leaseAddr (leased 0x20301000) 0x20301000 8 = none ∧ invBarred (leased 0x20301000) = false ∧
      (cur (leased 0x20301000)).leaseAt.contains (0x20301000 / 2 ^ 20 % 2 ^ 8, 0x20301000 / 2 ^ 28) = true) ∧
    (2 ^ 48 ≤ (rdS (withS1 (2 ^ 48)) 1).toNat ∧ (rdS (withS1 (2 ^ 48)) 1).toNat % 8 = 0) ∧
    ((rdS (withS1 (2 ^ 46)) 1).toNat < 2 ^ 48 ∧ (rdS (withS1 (2 ^ 46)) 1).toNat / 2 ^ 46 % 2 = 1) ∧
    (spAddr (withS1 0xF800) 0xF800 8 = none ∧ (rdS (withS1 0xF800) 1).toNat % 8 = 0) ∧
    ((rdS base 3).toNat % 8 = 0 ∧ (rdS base 3).toNat < 2 ^ 48 ∧ (rdS base 3).toNat / 2 ^ 46 % 2 = 0 ∧ invBarred base = false ∧
      ∀ inv ∈ [true, false], faultHeld (walkFaulted inv) 0 0 0x10000 0x40 =
        some { pc := 0x10000, page := 0, res := .line .dev 0, invalid := inv }) ∧
    (xlate (mapped { gib with w := false } 0x40) 0x40 .dev true true = .bad .prot ∧
      xlate (mapped { gib with w := false } 0x40) 0x40 .dev false true = .bad .prot) ∧
    (let s := inRegion region1 [] [];
      mayWriteLine s (curPart s) s.curCore 0x800 = false ∧ xlate s 0x20000 .dev true true = .ok 0x20000 gib ∧
      xlate s 0x20000 .dev false true = .ok 0x20000 gib) := by decide +kernel

/-- A slot that holds the answer of a full/empty access at word 8 of core 1's scratchpad. -/
def feHeld (s : State) (op : WinOp) : State := in0 s (fun l => { l with hold := some { held (.win 1 0) 0x40 false with op := op } })

/-- `withS1` of the window address of word 8 of core 1, which is full. -/
def feAt1 (full : Bool) : State := modCore (withS1 0x1000100000040) 1 (fun k => k.feSet 8 full)

/-- Core 1 with a slot whose local access has gone on ahead of a store. -/
def withholding1 (s : State) : State := modCore s 1 (fun k => { k with
  slots := [(0, { slot0 with ldMark := 2, stMark := 2, passed := 2 })], psb := [posted1 .dev 0], nextId := 2 })

/-- A state whose slot 0 has an XLINV under way. -/
def invalidating (s : State) : State := modPart s 0 (fun t => { t with invs := [{ page := none, core := 0, cslot := 0 }] })

/-- `base` with word 8 full or empty, and something else on core 0. -/
def feLocal (full : Bool) (f : Core → Core) : State := onCore0 base (fun k => f (k.feSet 8 full))

/-- An increment under way of a region that is there no more, which no settling performs. -/
def stuckRound (k : Core) : Core := { k with rounds := [{ id := 1, slot := 0, q := 9, n := 0 }], nextId := 2 }

/-- A DCFENCE under way. -/
def openDcf (k : Core) : Core := { k.modSlot 0 (fun l => { l with dcf := [(0x100, 0x100, 1)] }) with nextId := 2 }

/-- The last word of the scratchpad, empty and full; ranges of 256 and 64 words; 65 words for FEPEEK; an uncorrectable word, full and
empty; an own store to the line. -/
theorem witness_FullEmptyWords :
    (Size.d.bytes ≤ 8 ∧ invBarred base = false ∧ ldBarred base = false ∧ stBarred base = false ∧ (slot base).atom = none) ∧
    ((rdS (withS1 0xF7F8) 1).toNat % 8 = 0 ∧ (rdS (withS1 0xF7F8) 1).toNat + 8 ≤ 0xF800) ∧
    ((cur (withS1 0xF7F8)).feBit (0xF7F8 / 8) = false ∧ heldBack (withS1 0xF7F8) (.feWord 0 (0xF7F8 / 8) true) = false ∧
      anyOpen (withS1 0xF7F8) = false ∧ postedOpen (withS1 0xF7F8) = false) ∧
    ((cur (onCore0 (withS1 0xF7F8) (fun k => k.feSet (0xF7F8 / 8) true))).feBit (0xF7F8 / 8) = true ∧
      heldBack (onCore0 (withS1 0xF7F8) (fun k => k.feSet (0xF7F8 / 8) true)) (.feWord 0 (0xF7F8 / 8) false) = false ∧
      (cur (onCore0 (withS1 0xF7F8) (fun k => k.feSet (0xF7F8 / 8) true))).spBadIn 0xF7F8 8 = false) ∧
    ((rdS base 3).toNat % 8 = 0 ∧ (rdS base 3).toNat + 8 * ((255 : BitVec 8).toNat + 1) ≤ 0xF800) ∧
    (63 : BitVec 8).toNat < 64 ∧ (64 ≤ (64 : BitVec 8).toNat ∧ (slot base).sys = false) ∧
    (∀ b ∈ [true, false], let s := badWord (onCore0 base (fun k => k.feSet 8 b));
      (cur s).feBit 8 = b ∧ (cur s).spBadIn 0x40 4 = true ∧ heldBack s (.feWord 0 8 true) = false ∧
      heldBack s (.feWord 0 8 false) = false ∧ anyOpen s = false ∧
      (sget RowGauge.reset s.rows (coreRow s 0)).rail = 0 ∧ (slot s).sys = false) ∧
    (ldBarred (fenced base) = true ∧ (slot (fenced base)).atom = none) ∧
    (let s := onCore0 base (fun k => { k with psb := [posted1 (.win 0 0) 0x40], nextId := 2 });
      anyOpen s = true ∧ ldBarred s = false ∧ stBarred s = false ∧ lineOpen s (.win 0 0) 1 = true ∧ invBarred s = false ∧
      postedOpen s = true) := by decide +kernel

/-- A full word behind an open fence, an own store to its line, and an XLINV; an empty one behind a DCFENCE, which is settled, and behind
work that no settling performs. -/
theorem witness_FullEmptyWords_settled :
    (∀ s ∈ [fenced (feLocal true id), invalidating (feLocal true id),
        feLocal true (fun k => { k with psb := [posted1 (.win 0 0) 0x48], nextId := 2 })],
      (cur s).feBit 8 = true ∧ heldBack s (.feWord 0 8 false) = false ∧ (getCore (settle s) 0).spBadIn 0x40 8 = false) ∧
    (¬ (ldBarred (fenced (feLocal true id)) = false) ∧ invBarred (invalidating (feLocal true id)) = true) ∧
    (∀ b ∈ [true, false], let s := feLocal false (if b then stuckRound else openDcf);
      (cur s).feBit 8 = false ∧ heldBack s (.feWord 0 8 true) = false ∧ postedOpen s = false ∧ anyOpen s = true ∧
      anyOpen (settle s) = b ∧ (getCore (settle s) 0).feBit 8 = false ∧ (getCore (settle s) 0).spBadIn 0x40 8 = false) ∧
    (let s := in0 (feLocal true stuckRound) (fun l => { l with ldMark := 2, stMark := 2 });
      localBarred s = true ∧ localBarred (settle s) = true ∧ (cur s).feBit 8 = true ∧ heldBack s (.feWord 0 8 false) = false) := by
  decide +kernel

/-- An atomic of slot 0 on word 0x40. -/
def atom1 (a : Answer) : Atom :=
  { pc := 0x10000, va := 0x40, addr := 0x40, op := .add, wide := true, val := 1, cmp := 0, comp := none, acq := false, rel := false, sys := false,
    ans := a }

/-- The window form at the own core, and at core 1 before and after the access is answered. -/
theorem witness_FullEmptyWords_windows :
    winAddr (withS1 0x1000000000040) 0x1000000000040 8 = some { core := 0, unit := 0, off := 0x40 } ∧
    (winAddr (feAt1 true) 0x1000100000040 8 = some { core := 1, unit := 0, off := 0x40 } ∧ (1 : Nat) ≠ (feAt1 true).curCore ∧
      (slot (feAt1 true)).hold = none) ∧
    (∀ x ∈ [(true, WinOp.ldc 8 true), (false, .stp (toBytes 8 1)), (false, .feset 1), (true, .feclr 1), (true, .fepeek 1)],
      let s := feHeld (feAt1 x.1) x.2
      (getCore s 1).away = false ∧ (getCore s 1).withholds = false ∧ (getCore (withholding1 s) 1).withholds = true ∧
      lineHeld (withholding1 s) (.win 1 0) 1 = false ∧ lineHeld s (.win 1 0) 1 = false ∧ (getCore s 1).feBit 8 = x.1 ∧
      (slot s).hold = some { held (.win 1 0) 0x40 false with op := x.2 } ∧ (held (.win 1 0) 0x40 false).pc = (slot s).pc) ∧
    (let s := withS1 0x1000000000040; (fenced s).curCore = 0 ∧ ldBarred (fenced s) = true ∧
      invBarred (invalidating s) = true ∧ anyOpen s = false ∧ lineOpen s (.win 0 0) 1 = false ∧
      lineOpen (onCore0 s (fun k => { k with psb := [posted1 (.win 0 0) 0x40], nextId := 2 })) (.win 0 0) 1 = true ∧
      (slot (in0 s (fun l => { l with atom := some (atom1 .pending) }))).atom ≠ none) := by
  decide +kernel

/-- `base` with that atomic. -/
def atomic (a : Answer) : State := atSlot (fun l => { l with atom := some (atom1 a) })

/-- An atomic that acquires. -/
def atomAcq : Atom := { atom1 .pending with acq := true }

/-- An atomic in flight, one that acquires, and a value held on its line and in another memory; what of it a trap leaves. -/
theorem witness_TrapEntry_atomics :
    (∀ g ∈ [atom1 .pending, atomAcq, atom1 eight], ∀ sp ∈ [Space.dev, .far],
      let s := in0 base (fun l => { l with atom := some g, hold := some (held sp 0x40 false) })
      (slot s).sys = false ∧ (slot s).catchBkpt = false ∧ (slot s).atom = some g ∧ (slot s).hold = some (held sp 0x40 false) ∧
        (slotAfter (.trap 1) s).map (·.hold) = some (if g.acq || sp == .dev then none else some (held sp 0x40 false))) ∧
    ((atom1 .pending).ans = .pending ∧ atomAcq.ans = .pending ∧ atomAcq.acq = true ∧ (atom1 eight).ans ≠ .pending ∧
      (held .dev 0x40 false).addr / 64 = (atom1 .pending).addr / 64) := by decide +kernel

/-- A reduction that is the rest of an RMW without a result. -/
def lost1 : Posted := { posted1 .dev 0x40 with red := some (.add, true), rel := true, am := some .plain }

/-- `base` behind a full fence of number 2, with its earlier work: a store, an increment, a pass, a DCFENCE, in slot 7 a taken
slot's store, or nothing. -/
def fencedBy (n : Nat) (f : Core → Core) : State :=
  onCore0 (modSlotAt { base with curSlot := n } 0 n (fun l => { l with stMark := 2, ldMark := 2 })) (fun k => { f k with nextId := 3 })

/-- A reader's loss before a fence of kind `ld`, and none; later states with the fence's marks, with work before it and without. -/
theorem witness_FenceEffects_later :
    (∀ x ∈ [([], false), ([posted1 .dev 0], false), ([lost1], true)], let s := onCore0 base (fun k => { k with psb := x.1, nextId := 2 });
      (cur s).psb.any (fun e => e.slot == s.curSlot && e.am.isSome) = x.2 ∧
      (slotAfter (.fence .sys .full) s).map (fun l => (l.ldMark, l.stMark)) = some (2, 2)) ∧
    (∀ f ∈ [stuckRound, openDcf, fun k => { k with psb := [posted1 .dev 0] }, fun k => { k with passes := [{ id := 1, slot := 0, q := 9, n := 0 }] }],
      let u := fencedBy 0 f; u.curCore = 0 ∧ u.curSlot = 0 ∧ (slot u).ldMark = 2 ∧ (slot u).stMark = 2 ∧ ldBarred u = true) ∧
    ldBarred (fencedBy 0 id) = false ∧ ldBarred (fencedBy 0 (fun k => { k with psb := [{ posted1 .dev 0 with id := 2 }] })) = false ∧
    (let u := fencedBy 7 (fun k => { k with psb := [posted1 .dev 0], xdMarks := [(0, 2)] });
      u.curSlot = 7 ∧ (slot u).ldMark = 2 ∧ (cur u).workBefore 0 2 = true) := by decide +kernel

/-- Loads of each space under an XLINV, behind a fence, behind an own store to the line and, where they acquire, behind an atomic in
flight; a load under a DCFENCE of its range. -/
theorem witness_LoadResults_behind :
    (∀ x ∈ [(withS1 0x1000100000040, Space.win 1 0), (leased 0x20300040, .lease 0 3 2), (base, .dev), (mapped far1 0x40, .far),
        (mapped { gib with tgt := .host } 0x40, .host)],
      invBarred (invalidating x.1) = true ∧ ldBarred (fenced x.1) = true ∧ invBarred (fenced x.1) = false ∧
      (let s := onCore0 x.1 (fun k => { k with psb := [posted1 x.2 0x40], nextId := 2 });
        invBarred s = false ∧ ldBarred s = false ∧ lineOpen s x.2 1 = true) ∧
      (let s := in0 x.1 (fun l => { l with atom := some (atom1 .pending) });
        invBarred s = false ∧ ldBarred s = false ∧ lineOpen s x.2 1 = false ∧ (slot s).atom ≠ none)) ∧
    winAddr (fenced (withS1 0x1000100000040)) 0x1000100000040 8 = some { core := 1, unit := 0, off := 0x40 } ∧
    (let s := fenced (leased 0x20300040); (cur s).leaseAt.contains (3, 2) = true ∧ leaseAddr s 0x20300040 8 = some (3, 0x40) ∧
      leaseSpace s 3 = .lease 0 3 2) ∧
    (xlate (fenced base) 0x40 .dev true false = .ok 0x40 gib ∧ xlate (fenced (mapped far1 0x40)) 0x40 .far true false = .ok 0x40 far1) ∧
    (let s := onCore0 base openDcf; ldBarred s = false ∧ xlate s 0x100 .dev true false = .ok 0x100 gib ∧ dcfBarred s 0x100 8 = true) := by
  decide +kernel

/-- An open order of each kind and an own store to the line; an atomic in flight elsewhere, answered and not, with room and without. -/
theorem witness_AtomicAndReductionIssue_waits :
    (∀ g ∈ [none, some { atom1 .pending with pc := 0x10010 }, some { atom1 .pending with addr := 0x80 }],
      let s := in0 base (fun l => { l with atom := g });
      (slot s).atom = g ∧ g.all (fun x => x.pc != (slot s).pc || x.addr / 64 != 1) = true ∧
      stBarred (fenced s) = true ∧ ldBarred (fenced s) = true ∧
      dcfBarred (in0 s (fun l => { l with dcf := [(0, 0x100, 1)] })) 0x40 8 = true ∧
      (let u := onCore0 s (fun k => { k with psb := [posted1 .dev 0x80], nextId := 2 });
        anyOpen u = true ∧ lineOpen u .dev 1 = false) ∧
      lineOpen (onCore0 s (fun k => { k with psb := [posted1 .dev 0x48], nextId := 2 })) .dev 1 = true) ∧
    (∀ a ∈ [Answer.pending, eight], let s := in0 base (fun l => { l with atom := some { atom1 a with addr := 0x80 } });
      (slot s).atom = some { atom1 a with addr := 0x80 } ∧ ({ atom1 a with addr := 0x80 } : Atom).addr / 64 ≠ 1 ∧ stBarred s = false ∧
      ldBarred s = false ∧ dcfBarred s 0x40 8 = false ∧ anyOpen s = false ∧ lineOpen s .dev 1 = false ∧ (cur s).psb.length < 16 ∧
      engineHeld s = false ∧ xlate s 0x40 .dev true true = .ok 0x40 gib) ∧
    (let s := onCore0 (in0 base (fun l => { l with atom := some { atom1 .pending with addr := 0x80 } }))
        (fun k => { k with psb := List.replicate 16 (posted1 .dev 0x100), nextId := 2 });
      16 ≤ (cur s).psb.length ∧ stBarred s = false ∧ ldBarred s = false ∧ lineOpen s .dev 1 = false) := by decide +kernel

theorem witness_AtomicAndReductionIssue :
    ((rdS base 3).toNat % 8 = 0 ∧ (rdS base 3).toNat < 2 ^ 48 ∧ (rdS base 3).toNat / 2 ^ 46 % 2 = 0 ∧ invBarred base = false ∧
      xlate base 0x40 .dev true true = .ok 0x40 gib ∧ mayWriteLine base (curPart base) base.curCore 1 = true ∧
      mayReadLine base (curPart base) 1 = true) ∧
    ((slot base).atom = none ∧ stBarred base = false ∧ ldBarred base = false ∧ dcfBarred base 0x40 8 = false ∧
      anyOpen base = false ∧ lineOpen base .dev 1 = false) ∧
    ((slot (atomic (.got (toBytes 8 7) false))).atom = some (atom1 (.got (toBytes 8 7) false)) ∧
      (atom1 .pending).pc = (slot (atomic .pending)).pc ∧ (atom1 .pending).addr / 64 = 1 ∧ invBarred (atomic .pending) = false ∧
      xlate (atomic (.got (toBytes 8 7) false)) 0x40 .dev true true = .ok 0x40 gib ∧
      lineHeld (atomic (.got (toBytes 8 7) false)) .dev 1 = false) ∧
    ((slot (atomic poison8)).atom = some (atom1 poison8) ∧ (atom1 poison8).ans = .got (toBytes 8 7) true ∧
      (atom1 (.denied .prot)).ans = .denied .prot ∧ (slot (atomic poison8)).sys = false ∧ lineHeld (atomic poison8) .dev 1 = false) ∧
    16 ≤ (cur (onCore0 base (fun k => { k with psb := List.replicate 16 (posted1 .dev 0) }))).psb.length ∧
    ((cur base).psb.length < 16 ∧ engineHeld base = false ∧ xlate base 0x40 .dev false true = .ok 0x40 gib) := by
  decide +kernel

/-- A reduction at word 0x40. -/
def reduction1 : Posted := { posted1 .dev 0x40 with red := some (.add, true) }

/-- A state with the atomic at `addr` under way and the reduction there posted. -/
def homing (s : State) (addr : Nat) : State :=
  onCore0 (in0 s (fun l => { l with atom := some { atom1 .pending with addr := addr } }))
    (fun k => { k with psb := [{ reduction1 with addr := addr }] })

/-- The same on a compressed page. -/
def homingIn : State := onCore0 (in0 base (fun l => { l with atom := some { atom1 .pending with comp := some 0 } }))
  (fun k => { k with psb := [{ reduction1 with comp := some 0 }] })

/-- Partition 0 with a key that device memory is not under. -/
def foreign (s : State) : State := modPart s 0 (fun t => { t with keyNo := 9 })

/-- A line outside every region, sound and poisoned; a region whose iron rests; one that may not be read; a reduction behind an
earlier store to its line; a block of a compressed page. -/
theorem witness_HomeOperations :
    (∀ x ∈ [(homing base 0x40, 0x40), (homing { base with badLines := [(.dev, 1)] } 0x40, 0x40),
        (homing (inRegion region1 [] []) 0x20000, 0x20000)],
      (getSlot x.1 0 0).atom = some { atom1 .pending with addr := x.2 } ∧
      (getCore x.1 0).psb[0]? = some { reduction1 with addr := x.2 } ∧ (getCore x.1 0).performable 0 = true ∧
      atomDue x.1 0 0 { atom1 .pending with addr := x.2 } = true ∧
      ∀ i, i < 8 → holdsKey x.1 ((partOf x.1 0).getD 0) .dev (x.2 + i) = true) ∧
    (atomDue (in0 (homing base 0x40) (fun l => { l with pc := 0x10004 })) 0 0 (atom1 .pending) = false ∧
      (let s := foreign (homing base 0x40); holdsKey s ((partOf s 0).getD 0) .dev 0x40 = false ∧ atomDue s 0 0 (atom1 .pending) = true ∧
        lineBad s .dev 0x40 = false) ∧
      (let s := foreign homingIn; (blockLines 0).all (fun l => holdsKey s ((partOf s 0).getD 0) .dev (64 * l)) = false) ∧
      (blockLines 0).all (fun l => holdsKey homingIn ((partOf homingIn 0).getD 0) .dev (64 * l)) = true) ∧
    (∀ b ∈ [[], [(Target.dev, 1)]], let s := homing { base with badLines := b } 0x40;
      performsLine s ((partOf s 0).getD 0) 0 1 = true ∧ mayReadLine s ((partOf s 0).getD 0) 1 = true ∧
      lineBad s .dev 0x40 = b.contains (.dev, 1)) ∧
    (let s := homing (inRegion region1 [] []) 0x20000; performsLine s ((partOf s 0).getD 0) 0 0x800 = false) ∧
    (let s := homing (inRegion { region1 with r := false } [] []) 0x20000; mayReadLine s ((partOf s 0).getD 0) 0x800 = false) ∧
    (getCore (onCore0 base (fun k => { k with psb := [posted1 .dev 0x40, { reduction1 with id := 2 }] })) 0).performable 1 = false ∧
    (∃ b, (let s := homingIn;
        (getSlot s 0 0).atom = some { atom1 .pending with comp := some 0 } ∧
        (getCore s 0).psb[0]? = some { reduction1 with comp := some 0 } ∧ (getCore s 0).performable 0 = true ∧
        performsLine s ((partOf s 0).getD 0) 0 1 = true ∧ mayReadLine s ((partOf s 0).getD 0) 1 = true ∧
        atomDue s 0 0 { atom1 .pending with comp := some 0 } = true ∧ lineBad s .dev 0x40 = false ∧ plainBlock s ((partOf s 0).getD 0) (0x40 / 256) = some b) ∧
      b.length = 256 ∧ 0x40 % 256 + 8 ≤ 256 ∧ (atom1 .pending).op ≠ .cas) :=
  ⟨by decide +kernel, by decide +kernel, by decide +kernel, by decide +kernel, by decide +kernel, by decide +kernel,
    List.replicate 256 0, by decide +kernel⟩

/-- An AMCAS of slot 0 on a compressed page. -/
def cas1 (v : W64) : Atom := { atom1 .pending with comp := some 0, op := .cas, cmp := v }

/-- What is left of one without its result. -/
def casLost (v : W64) : Posted := { lost1 with id := 0, comp := some 0, red := some (.cas, true), cmp := v }

/-- `base` with both. -/
def casIn (v : W64) : State := onCore0 (in0 base (fun l => { l with atom := some (cas1 v) })) (fun k => { k with psb := [casLost v] })

/-- The hypotheses of the clauses for an AMCAS on a block of zeros. -/
def meetsCas (v : W64) : Prop :=
  ((getSlot (casIn v) 0 0).atom = some (cas1 v) ∧ (getCore (casIn v) 0).psb[0]? = some (casLost v) ∧
    (getCore (casIn v) 0).performable 0 = true ∧ atomDue (casIn v) 0 0 (cas1 v) = true) ∧
  (performsLine (casIn v) ((partOf (casIn v) 0).getD 0) 0 1 = true ∧ mayReadLine (casIn v) ((partOf (casIn v) 0).getD 0) 1 = true ∧
    lineBad (casIn v) .dev 0x40 = false) ∧
  plainBlock (casIn v) ((partOf (casIn v) 0).getD 0) (0x40 / 256) = some (List.replicate 256 0)

/-- An AMCAS that finds its value, and one that does not, in a block of the partition's and in a foreign one. -/
theorem witness_HomeOperations_cas :
    (meetsCas 0 ∧ meetsCas 1) ∧ (List.replicate 256 (0 : Byte)).length = 256 ∧
    (BitVec.ofNat 64 (leNat (((List.replicate 256 (0 : Byte)).drop 0x40).take 8)) = 0 ∧
      BitVec.ofNat 64 (leNat (((List.replicate 256 (0 : Byte)).drop 0x40).take 8)) ≠ 1) ∧
    ((blockLines 0).all (fun l => holdsKey (casIn 0) ((partOf (casIn 0) 0).getD 0) .dev (64 * l)) = true ∧
      (blockLines 0).all (fun l => holdsKey (foreign (casIn 0)) ((partOf (foreign (casIn 0)) 0).getD 0) .dev (64 * l)) = false) := by
  unfold meetsCas
  exact ⟨⟨⟨by decide +kernel, by decide +kernel, by decide +kernel⟩, ⟨by decide +kernel, by decide +kernel, by decide +kernel⟩⟩,
    List.length_replicate, by decide +kernel, by decide +kernel⟩

/-- What is left of an RMW, at its turn, in a region that the core may not write or the RMW not read, and behind an earlier store. -/
theorem witness_HomeOperations_lost :
    (∀ x ∈ [(base, 0x40, true, true), (inRegion region1 [] [], 0x20000, false, true),
        (inRegion { region1 with iron := .held 0, r := false } [] [], 0x20000, true, false)],
      let s := onCore0 x.1 (fun k => { k with psb := [{ lost1 with addr := x.2.1 }] });
      (getCore s 0).psb[0]? = some { lost1 with addr := x.2.1 } ∧ (getCore s 0).performable 0 = true ∧
      performsLine s ((partOf s 0).getD 0) 0 (x.2.1 / 64) = x.2.2.1 ∧ mayReadLine s ((partOf s 0).getD 0) (x.2.1 / 64) = x.2.2.2) ∧
    lost1.am ≠ none ∧
    (getCore (onCore0 base (fun k => { k with psb := [posted1 .dev 0, { lost1 with id := 2 }] })) 0).performable 1 = false :=
  ⟨by decide +kernel, by decide, by decide +kernel⟩

/-- A message, and channels that hold it. -/
def msg1 : Msg := { pay := 9, word := 1, from_ := 1, stamp := 0 }

/-- `base` with s1 = v and one credit for channel 3 of core 1. -/
def credited (v : W64) : State := onCore0 (withS1 v) (fun k => { k with credits := [{ tgt := 1, ch := 3, n := 1 }] })

/-- Core 256 is outside the partition; block 0xF780 is the last; handles without bit 31, with bit 32, and of block 0x3DF. -/
theorem witness_MessageSends :
    (slot base).sys = false ∧ inPart base 256 = false ∧
    ((rdS (withS1 0xF7800001) 1).toNat / 2 ^ 16 % 2 ^ 16 % 64 = 0 ∧ (rdS (withS1 0xF7800001) 1).toNat / 2 ^ 16 % 2 ^ 16 + 64 ≤ 0xF7C0) ∧
    (rdS (withS1 0x410001) 1).toNat / 2 ^ 16 % 2 ^ 16 % 64 ≠ 0 ∧
    0xF7C0 < (rdS (withS1 0xF7C00001) 1).toNat / 2 ^ 16 % 2 ^ 16 + 64 ∧
    (inPart base 1 = true ∧ (cur base).creditsFor 1 3 = 0) ∧
    ((cur (credited 0xF7800001)).creditsFor 1 3 ≠ 0 ∧ invBarred (credited 0xF7800001) = false ∧ (slot (credited 0xF7800001)).atom = none ∧
      heldBack (credited 0xF7800001) (.credit 0 1 3) = false ∧ inPart (credited 0xF7800001) 1 = true) ∧
    ((rdS base 2).toNat / 2 ^ 31 % 2 = 0 ∧ 2 ^ 32 ≤ (rdS (withS1 0x180000001) 1).toNat ∧
      0xF7C0 < (rdS (withS1 0x83DF0001) 1).toNat / 2 ^ 16 % 2 ^ 10 * 64 + 64) ∧
    ((rdS (withS1 0x83DE0001) 1).toNat / 2 ^ 26 = 32 ∧ (rdS (withS1 0x83DE0001) 1).toNat / 2 ^ 16 % 2 ^ 10 * 64 + 64 ≤ 0xF7C0 ∧
      inPart (withS1 0x83DE0001) 1 = true) ∧
    inPart (withS1 0x83DE0100) ((rdS (withS1 0x83DE0100) 1).toNat % 2 ^ 16) = false ∧
    OwnDone (credited 0xF7800001) 0 ∧ OwnDone (withS1 0xF7800001) 0 := by unfold OwnDone; decide +kernel

/-- `base` with a message in channel 3. -/
def inChan3 : State := onCore0 base (fun k => { k with chans := [(3, [msg1])] })

/-- `base` with a full reply block 0x3DE and its handle in s1. -/
def replied : State := onCore0 (withS1 0x83DE0000) (fun k => { k with fe := [(8 * 0x3DE, true)] })

theorem witness_MessageReceives :
    (Disp.park = .park ∧ inPart base ((rdS base 2).toNat % 2 ^ 16) = true) ∧
    sget [] (cur base).chans 3 = [] ∧
    (sget [] (cur inChan3).chans 3 = msg1 :: [] ∧ heldBack inChan3 (.struct 0 .channel 3 false) = false ∧ invBarred inChan3 = false ∧
      (slot inChan3).atom = none) ∧
    ((rdS (withS1 0x83DE0000) 1).toNat = 2 ^ 31 + 0x3DE * 2 ^ 16 + 0 ∧ 0x3DE * 64 + 64 ≤ 0xF7C0 ∧
      (cur (withS1 0x83DE0000)).feBit (8 * 0x3DE) = false) ∧
    ((cur replied).feBit (8 * 0x3DE) = true ∧ heldBack replied (.reply 0 0x3DE) = false ∧ (cur replied).spBadIn (64 * 0x3DE) 64 = false ∧
      (cur (onCore0 replied (fun k => { k with spBad := [8 * 0x3DE] }))).spBadIn (64 * 0x3DE) 64 = true ∧
      (sget RowGauge.reset replied.rows (coreRow replied 0)).rail = 0) ∧
    ((slot base).sys = false ∧ Disp.flag ≠ .park) ∧
    ((slot base).sys = false ∧ (rdS base 2).toNat ≠ 2 ^ 31 + (rdS base 2).toNat / 2 ^ 16 % 2 ^ 10 * 2 ^ 16 + base.curCore) ∧
    inPart (withS1 256) ((rdS (withS1 256) 1).toNat % 2 ^ 16) = false ∧ OwnDone replied 0 ∧ OwnDone (withS1 0x83DE0000) 0 := by
  unfold OwnDone; decide +kernel

/-- `base` at core cycle 8, its message enabled. -/
def interruptible : State := onCore0 (in0 inChan3 (fun l => { l with msgEn := 8 })) (fun k => { k with cyc := 8 })

theorem witness_HandlersAndSlotCounts :
    ((slot base).sys = false ∧ (slot base).inHandler = false) ∧
    (slot (atSlot (fun l => { l with inHandler := true }))).inHandler = true ∧
    ((getSlot (atSlot (fun l => { l with msgMasked := true })) 0 0).msgMasked = true ∧
      (getSlot (atSlot (fun l => { l with msgMasked := true })) 0 0).msgLeft = 0) ∧
    (getSlot (atSlot (fun l => { l with msgMasked := true, msgLeft := 1 })) 0 0).msgLeft ≠ 0 ∧
    ((getCore interruptible 0).cyc % 8 = 0 ∧ (getCore interruptible 0).save = .no ∧ (getCore interruptible 0).intEligible 0 = true ∧
      (getCore interruptible 0).intChannel 0 = some 3 ∧ (getSlot interruptible 0 0).st = .runnable) ∧
    (let s := in0 interruptible (fun l => { l with st := .parked (.res (.feWord 0 8 false) none) });
      (getCore s 0).intEligible 0 = true ∧ (getCore s 0).intChannel 0 = some 3 ∧
      (getSlot s 0 0).st = .parked (.res (.feWord 0 8 false) none)) ∧
    (let s := in0 interruptible (fun l => { l with st := .parked (.park 5 0) });
      (getCore s 0).intEligible 0 = true ∧ (getCore s 0).intChannel 0 = some 3 ∧ (getSlot s 0 0).st = .parked (.park 5 0)) ∧
    (getCore (onCore0 base (fun k => { k with save := .saving })) 0).save ≠ .no ∧
    ((getCore (in0 base (fun l => { l with sys := true })) 0).intEligible 0 = false ∧ (getCore base 0).intChannel 0 = none) := by
  decide +kernel

/-- Cores 0 and 1 of the partition, the current one core 1 with a word in each link buffer. -/
def linked (credits : Nat) : State :=
  let k := { core0 with link := [(0, [3]), (1, [4])], linkCr := [(0, credits), (1, credits)] }
  { base with curCore := 1, cores := [(0, core0), (1, k)] }

theorem witness_QueueAndLinkOperations :
    (invBarred base = false ∧ heldBack base (.struct 0 .dataQueue 2 true) = false ∧ heldBack base (.struct 0 .dataQueue 2 false) = false ∧
      heldBack base (.struct 0 .outcomeQueue 1 true) = false ∧ heldBack base (.struct 0 .outcomeQueue 1 false) = false) ∧
    4 ≤ (sget [] (cur (onCore0 base (fun k => { k with dq := [(2, [1, 2, 3, 4])] }))).dq 2).length ∧
    (sget [] (cur base).dq 2 = [] ∧ (sget [] (cur base).dq 2).length < 4) ∧
    sget [] (cur (onCore0 base (fun k => { k with dq := [(2, [1, 2, 3])] }))).dq 2 = 1 :: [2, 3] ∧
    32 ≤ (sget [] (cur (onCore0 base (fun k => { k with bq := [(1, List.replicate 32 true)] }))).bq 1).length ∧
    (sget [] (cur base).bq 1 = [] ∧ (sget [] (cur base).bq 1).length < 32) ∧
    sget [] (cur (onCore0 base (fun k => { k with bq := [(1, [true, false])] }))).bq 1 = true :: [false] ∧
    (base.curCore % 64 = 0 ∧ (slot base).sys = false ∧ base.curCore % 64 ≠ 63) ∧
    ((linked 0).curCore % 64 ≠ 63 ∧ (linked 0).curCore % 64 ≠ 0 ∧ (cur (linked 0)).linkCredits .east = 0 ∧
      (cur (linked 1)).linkCredits .east ≠ 0 ∧ invBarred (linked 1) = false ∧
      heldBackBy (linked 1) (.struct 1 .link 0 true) (linkOwn (linked 1) true) = false ∧
      heldBackBy (linked 1) (.struct 1 .link 1 true) (linkOwn (linked 1) true) = false ∧
      heldBackBy (linked 1) (.struct 1 .link 0 false) (linkOwn (linked 1) false) = false) ∧
    (sget [] (cur base).link Dir.east.code = [] ∧ sget [] (cur (linked 1)).link Dir.east.code = 3 :: []) ∧
    ((cur (linked 0)).linkCredits Dir.east.flip = 0 ∧ (cur (linked 1)).linkCredits Dir.east.flip ≠ 0) := by decide +kernel

theorem filter_two (n : Nat) : (List.range (2 + n)).filter (fun p => decide (p = 0 ∨ p = 1)) = [0, 1] := by
  have rest : ((List.range n).map (fun x => 2 + x)).filter (fun p => decide (p = 0 ∨ p = 1)) = [] := by
    rw [List.filter_eq_nil_iff]
    intro x hx; simp only [List.mem_map] at hx; obtain ⟨a, -, rfl⟩ := hx; simp; omega
  rw [List.range_add, List.filter_append, rest]
  rfl

theorem groupPositions_two : groupPositions [rect2] = [0, 1] := by
  have h : (fun p => [rect2].any (·.covers p)) = fun p => decide (p = 0 ∨ p = 1) := by
    funext p
    simp only [List.any_cons, List.any_nil, Bool.or_false, Rect.covers, rect2]
    congr 1
    simp only [eq_iff_iff]
    omega
  unfold groupPositions
  rw [h]
  exact filter_two 40958

/-- The part of that node on core 0. -/
def task1 : Task := { q := 7, node := 0, rank := 0, size := 2, groups := [0] }

/-- `base` with the launch, its part on core 0, and handle 5 kept for its group; s1 = 5, s2 = 1. -/
def tasked (n : Node) (r : Region) : State :=
  onCore0 (modPart (withS1 5) 0 (fun t => { t with launches := [launch1 n r], kept := [(7, 5, 0x8000000000000000, 0x55)] }))
    (fun k => { k with task := some task1 })

theorem members_two : (launch1 node1 region1).members node1 0 = [0, 1] := by
  have h : groupPositions ((launch1 node1 region1).groups.getD 0 []) = [0, 1] := groupPositions_two
  have b : (launch1 node1 region1).baseOf node1 = 0 := by
    unfold Launch.baseOf; rw [show node1.group = 0 from rfl, h]; rfl
  unfold Launch.members; rw [b, h]; rfl

theorem rankIn_two : rankIn (tasked node1 region1) (launch1 node1 region1) 0 = some (0, 0) := by
  have t : (cur (tasked node1 region1)).task = some task1 := by decide +kernel
  have n : (launch1 node1 region1).nodes[task1.node]? = some node1 := by decide +kernel
  unfold rankIn
  rw [t]
  dsimp only
  rw [if_pos (by decide), n, Option.bind_some, members_two]
  rfl

/-- `tasked` with the default node and region. -/
def tasked1 : State := tasked node1 region1

/-- Core 0 has arrived once at its barrier. -/
def arrived : State := onCore0 tasked1 (fun k => { k with bars := [{ group := 0, handle := 5, p := 0, own := 1 }] })

theorem garrrNode_two : garrrNode tasked1 (launch1 node1 region1) 0 = some 0 := by
  have t : (cur tasked1).task = some task1 := by decide +kernel
  have n : (launch1 node1 region1).nodes[task1.node]? = some node1 := by decide +kernel
  have h : (node1.st == NodeState.running && !((launch1 node1 region1).members node1 0).isEmpty) = true := by
    rw [members_two]; rfl
  unfold garrrNode
  rw [t]
  dsimp only
  rw [if_pos (by decide), n, Option.bind_some, if_pos h]
  rfl

theorem barInst_two : barInst tasked1 0 5 7 0 0 = some ({ handle := 5, q := 7, node := 0, group := 0, p := 0, arr := [] }, [0, 1]) := by
  have l : liveLaunch tasked1 0 7 = some (launch1 node1 region1) := by decide +kernel
  have n : (launch1 node1 region1).nodes[0]? = some node1 := by decide +kernel
  have b : (getPart tasked1 0).bars = [] := by decide +kernel
  unfold barInst
  rw [l]
  dsimp only
  rw [n]
  dsimp only
  rw [if_neg (by decide), members_two, b]
  rfl

/-- An arrival of rank 1, the last, and a notice, in the mesh. -/
def arrival1 : Packet := pk (.barArrive 0 5 7 0 0 1 false)

/-- The notice, of node 0 of that launch. -/
def notice1 : Packet := pk (.barNotice 0 7 0 0 5 1 0)

theorem notHeld_two (own : Nat → Nat → Claim → Bool) : heldBackBy tasked1 (.barrier (curPart tasked1) 5) own = false := by
  have h : claimsOf tasked1 = [] := by decide +kernel
  unfold heldBackBy heldBackAt
  simp only [h, List.any_nil]

/-- That node when it has ended. -/
def doneNode : Node := { node1 with st := .done }

/-- `tasked1` with another entry of handle 5. -/
def handled (d0 d1 : W64) : State := modPart tasked1 0 (fun t => { t with kept := [(7, 5, d0, d1)] })

/-- A handle past the table, an entry that is not valid, one of no launch's tag, and one of group 1, which the launch has not. -/
theorem witness_BarrierOperations_refused :
    (slot tasked1).sys = false ∧ 0x400 ≤ (rdS (in0 tasked1 (fun l => l.setS 1 0x400)) 1).toNat ∧
    (handleWords (handled 0 0x55) 0 5 = some (0, 0x55) ∧ barrierOf (handled 0 0x55) 5 = none) ∧
    (handleWords (handled 0x8000000000000000 0x56) 0 5 = some (0x8000000000000000, 0x56) ∧
      (launchTagged tasked1 0 0x56).isNone = true) ∧
    (handleWords (handled 0x8001000000000000 0x55) 0 5 = some (0x8001000000000000, 0x55) ∧
      (launchTagged tasked1 0 0x55).all (fun l => decide (l.groups.length ≤ 0x8001000000000000 / 2 ^ 48 % 2 ^ 8)) = true ∧
      (barrierOf (handled 0x8001000000000000 0x55) 5).isNone = true) := by decide +kernel

/-- No member: the part's groups do not list group 0. -/
theorem witness_BarrierOperations_stranger :
    let s := onCore0 tasked1 (fun k => { k with task := some { task1 with groups := [] } })
    barrierOf s (rdS s 1) = some (launch1 node1 region1, 0) ∧ rankIn s (launch1 node1 region1) 0 = none := by
  decide +kernel

theorem witness_BarrierOperations :
    (barrierOf (tasked doneNode region1) (rdS (tasked doneNode region1) 1) = some (launch1 doneNode region1, 0) ∧
      garrrNode (tasked doneNode region1) (launch1 doneNode region1) 0 = none) ∧
    barrierOf tasked1 (rdS tasked1 1) = some (launch1 node1 region1, 0) ∧
    rankIn tasked1 (launch1 node1 region1) 0 = some (0, 0) ∧
    ((cur arrived).barRec 0 5).p < ((cur arrived).barRec 0 5).own ∧
    ((cur tasked1).barRec 0 5).own ≤ ((cur tasked1).barRec 0 5).p ∧
    (∀ own, heldBackBy tasked1 (.barrier (curPart tasked1) 5) own = false) ∧
    (invBarred tasked1 = false ∧ (slot tasked1).atom = none) ∧
    ((rdS tasked1 2).toNat < 2 ^ 16 ∧ garrrNode tasked1 (launch1 node1 region1) 0 = some 0) ∧
    ((slot tasked1).sys = false ∧ 2 ^ 16 ≤ (rdS (in0 tasked1 (fun l => l.setS 2 0x10000)) 2).toNat) ∧
    (Arrives { tasked1 with net := [arrival1] } 0 arrival1 ∧
      barInst tasked1 0 5 7 0 0 = some ({ handle := 5, q := 7, node := 0, group := 0, p := 0, arr := [] }, [0, 1]) ∧ 1 < [0, 1].length) ∧
    (∀ s ∈ [tasked1, base], Arrives { s with net := [notice1] } 0 notice1 ∧ (getCore s 0).save = .no) ∧
    ((getCore tasked1 0).task = some task1 ∧ task1.q = 7 ∧ task1.node = 0 ∧ (getCore base 0).task = none) :=
  ⟨⟨by decide +kernel, rfl⟩, by decide +kernel, rankIn_two, by decide +kernel, by decide +kernel, notHeld_two, by decide +kernel,
    ⟨by decide +kernel, garrrNode_two⟩, by decide +kernel,
    ⟨⟨by decide +kernel, by decide +kernel, by decide +kernel⟩, barInst_two, by decide⟩,
    by unfold Arrives; decide +kernel, by decide +kernel⟩

theorem witness_MonitorAndPark :
    ((rdS base 3).toNat < 2 ^ 48 ∧ invBarred base = false ∧ xlate base 0x40 .dev true false = .ok 0x40 gib) ∧
    ((slot base).sys = false ∧ 2 ^ 48 ≤ (rdS base 1).toNat) ∧ (slot base).hits = 0 ∧ invBarred (invalidating base) = true ∧
    (slot (atSlot (fun l => { l with mons := [(2, some { scratch := true, line := 1, hit := true })] }))).hits ≠ 0 ∧
    (getSlot (atSlot (fun l => { l with st := .parked (.park 5 1) })) 0 0).st = .parked (.park 5 1) ∧
    (getSlot (atSlot (fun l => { l with st := .stopped (some (.park 5 1)) })) 0 0).st = .stopped (some (.park 5 1)) := by decide

/-- `base` with deque indices `h` and `t`. -/
def dequed (h t : Nat) : State := onCore0 base (fun k => { k with dqHead := h, dqTail := t })

theorem witness_DequeAndMailboxOperations :
    (invBarred base = false ∧ (slot base).sys = false ∧ (slot base).atom = none) ∧
    (¬ (cur (dequed 1 65)).dqTail - (cur (dequed 1 65)).dqHead + (cur (dequed 1 65)).landings < 64) ∧
    ((cur (dequed 1 64)).dqTail - (cur (dequed 1 64)).dqHead + (cur (dequed 1 64)).landings < 64 ∧
      heldBack (dequed 1 64) (.struct 0 .deque 0 true) = false) ∧
    (cur (dequed 1 1)).dqTail ≤ (cur (dequed 1 1)).dqHead ∧
    ((cur (dequed 1 2)).dqHead < (cur (dequed 1 2)).dqTail ∧ heldBack (dequed 1 2) (.struct 0 .deque 0 false) = false ∧
      (cur (dequed 1 2)).spBadIn (0xF800 + 32) 32 = false) ∧
    (inPart (withS1 256) ((rdS (withS1 256) 1).toNat % 2 ^ 16) = false ∧ inPart base ((rdS base 2).toNat % 2 ^ 16) = true ∧
      inPart (withS1 0) 0 = true) ∧
    (slot (atSlot (fun l => { l with stealFly := true }))).stealFly = true ∧
    ((slot base).stealFly = false ∧ heldBack base (.steal 0 0) = false) ∧
    ((rdS base 2).toNat % 2 ^ 16 ≠ base.curCore ∧ (rdS (withS1 0) 1).toNat % 2 ^ 16 = (withS1 0).curCore) ∧
    sget false (cur (onCore0 base (fun k => { k with mbFull := [(3, true)] }))).mbFull 3 = true ∧
    (sget false (cur base).mbFull 3 = false ∧ heldBack base (.struct 0 .mailbox 3 true) = false ∧ base.curSlot ≠ 7 ∧
      lineOpen base (.win 0 4) 3 = false ∧ lineOpen (onCore0 base (fun k => { k with psb := [posted1 (.win 0 4) 0xC0] })) (.win 0 4) 3 = true) ∧
    ({ base with curSlot := 7 }.curSlot = 7 ∧ heldBack { base with curSlot := 7 } (.struct 0 .mailbox 3 false) = false ∧
      invBarred { base with curSlot := 7 } = false ∧ takeBarred { base with curSlot := 7 } = false ∧
      takeBarred { modSlotAt (onCore0 base (fun k => { k with psb := [{ posted1 .dev 0 with slot := 7 }], nextId := 2 })) 0 7
        (fun l => { l with ldMark := 2 }) with curSlot := 7 } = true) := by decide +kernel

/-- `base` with s1 at a count word of count `c` and target 1. -/
def counting (c : Nat) : State := onCore0 (withS1 0xF7F0) (fun k => k.spWrite 0xF7F0 (toBytes 4 c ++ toBytes 4 1))

theorem witness_CountWords :
    ((slot base).sys = false ∧ (rdS base 2).toNat % 16 ≠ 0) ∧
    ((rdS (withS1 0xF800) 1).toNat % 16 = 0 ∧ 0xF800 ≤ (rdS (withS1 0xF800) 1).toNat) ∧
    ((rdS (counting 0) 1).toNat % 16 = 0 ∧ (rdS (counting 0) 1).toNat < 0xF800 ∧ (cur (counting 0)).spBadIn 0xF7F0 16 = false) ∧
    leNat ((cur (counting 0)).spRead 0xF7F0 4) < leNat ((cur (counting 0)).spRead (0xF7F0 + 4) 4) ∧
    (leNat ((cur (counting 1)).spRead (0xF7F0 + 4) 4) ≤ leNat ((cur (counting 1)).spRead 0xF7F0 4) ∧
      heldBack (counting 1) (.count 0 0xF7F0) = false ∧ invBarred (counting 1) = false ∧ (slot (counting 1)).atom = none) ∧
    OwnDone (counting 0) 0 ∧ OwnDone (counting 1) 0 := by unfold OwnDone; decide +kernel

/-- A device with a lease of 256 KiB in slice 2 and an older claim of slot 1's LEASE at slices 2 and 3, which asks what `v` says. -/
def leaseClaimed (v : W64) : State :=
  modSlotAt (modPart (State.reset.withFetchWord 32 0xD0A42000) 0 (fun t =>
    { t with slices := [0, 1, 2, 3], leases := [(0, { lease3 with first := 2, size := 262144 })] })) 0 1 (fun l =>
    { l with regs := [(4, v)], claims := [some { pc := 0x10000, res := .slices 0 2 2, ticket := -1, age := 0, cause := 6, stamp := 0 }] })

/-- Lifetime 1 on slices 2 and 3; on slices 3 and 4, of which 4 is not the partition's; a slice pinned full. -/
theorem witness_LeaseLife :
    ((slot base).sys = false ∧ (rdS base 2).toNat / 2 ^ 48 = 0) ∧
    ((rdS (withS1 0x1000010000002) 1).toNat / 2 ^ 48 ≠ 0 ∧ 2 / 128 = (2 + 2 - 1) / 128 ∧
      (∀ j, j < 2 → 2 + j ∈ (getPart base (curPart base)).slices) ∧ leaseFits (getPart base (curPart base)) 2 2 4096 = some 0 ∧
      heldBackBy base (.slices 0 2 2) (leaseOwn base) = false ∧ invBarred base = false) ∧
    (let s := leaseClaimed 0x1000010000002; let u := leaseClaimed 0x100FF10000002;
      leaseFits (getPart s (curPart s)) 2 2 4096 = some 1 ∧ heldBackBy s (.slices 0 2 2) (leaseOwn s) = true ∧
      leaseFits (getPart u (curPart u)) 2 2 4096 = some 1 ∧ heldBackBy u (.slices 0 2 2) (leaseOwn u) = false) ∧
    (¬ ∀ j, j < 2 → 3 + j ∈ (getPart base (curPart base)).slices) ∧
    leaseFits { part0 with leases := [(0, { lease3 with size := 524288 })] } 0 1 4096 = none ∧
    (2 ^ 36 ≤ (rdS (leased 0x1000000000) 1).toNat ∧ (sget LeaseEnt.reset (getPart (leased 0) 0).leases 0).live = false ∧
      (sget LeaseEnt.reset (getPart (leased 0x10300000) 0).leases 3).gen ≠ 0x10300000 / 2 ^ 28 % 2 ^ 8) ∧
    ((rdS (leased 0x20300000) 1).toNat < 2 ^ 36 ∧ (sget LeaseEnt.reset (getPart (leased 0x20300000) 0).leases 3).live = true ∧
      (sget LeaseEnt.reset (getPart (leased 0x20300000) 0).leases 3).gen = (rdS (leased 0x20300000) 1).toNat / 2 ^ 28 % 2 ^ 8) ∧
    (lease3.until_ ≤ { leased 0 with cycle := 1500 }.cycle ∧ (leased 0).cycle < lease3.until_) ∧
    (∀ x ∈ (getCore (leased 0) 0).psb, x.sp = .lease 0 3 2 → 1 ≤ x.id) ∧
    (let s := onCore0 (modPart (leased 0) 0 (fun t => { t with leases := [(3, { lease3 with ending := [(0, 2)] })] }))
        (fun k => { k with psb := [posted1 (.lease 0 3 2) 0] });
      ∀ m ∈ (sget LeaseEnt.reset (getPart s 0).leases 3).ending, ∃ x ∈ (getCore s m.1).psb, x.sp = .lease 0 3 2 ∧ x.id < m.2) := by
  decide +kernel

/-! ### The press, copies, regions, gears -/

theorem witness_PressIssue_pmac :
    (pressForm base 0 = some (.dxb4, 2) ∧ invBarred base = false) ∧
    ((rdS base 3).toNat % 2 ^ 16 % 64 = 0 ∧ (rdS base 3).toNat % 2 ^ 16 + Fmt.dxb4.tileBytes ≤ 0xF800) ∧
    (cur (onCore0 base (fun k => { k with halted := true }))).pressFree = false ∧
    (let s := onCore0 base (fun k => { k with pressRun := some (PressOp.mk 1 (.loc 0) 3 0 0 .dxb4 .ovw 6 0 none [] false) });
      (cur s).pressRun ≠ none ∧ (cur s).pressFree = true ∧ (cur s).accOtherBusy 2 = false ∧
      heldBackBy s (.acc 0 2) (accOwn s 0 2) = false) ∧
    ((cur base).accOtherBusy 2 = false ∧ (cur base).pressFree = true ∧ heldBackBy base (.acc 0 2) (accOwn base 0 2) = false) ∧
    (cur base).pressRun = none ∧
    (∃ e ∈ (cur (onCore0 base (fun k => { k with psb := [posted1 (.win 1 4) 0] }))).psb, e.slot = 0 ∧ e.sp = .win 1 4) := by
  decide +kernel

/-- The formats that are ILLEGAL; in user mode a misaligned operand, one past 0xF800, a descriptor of no group, an uncorrectable
descriptor, tiles at odd addresses, a handle of the wrong kind, a count word past 0xF800. -/
theorem witness_PressIssue_refused :
    (∀ x ∈ [((3 : BitVec 3), (0 : BitVec 3)), (0, 3), (1, 7), (2, 1)],
      let s := atSlot (fun l => { l with pfmt := x.1 }); pressForm s x.2 = none ∧ (slot s).sys = false) ∧
    (pressForm base 0 = some (.dxb4, 2) ∧ (slot base).sys = false) ∧
    ((rdS base 2).toNat % 2 ^ 16 % 64 ≠ 0 ∧ (rdS base 2).toNat % 2 ^ 16 % 16 ≠ 0) ∧
    ((rdS (withS1 0xF800) 1).toNat % 2 ^ 16 % 64 = 0 ∧ 0xF800 < (rdS (withS1 0xF800) 1).toNat % 2 ^ 16 + Fmt.dxb4.tileBytes ∧
      0xF800 < (rdS (withS1 0xF800) 1).toNat % 2 ^ 16 + 16) ∧
    (heldGroup base (grpDesc (leNat ((cur base).spRead 0x40 8)) (leNat ((cur base).spRead 0x48 8))).group = none ∧
      (cur base).spBadIn 0x40 16 = false ∧ (cur base).spBadIn 0x48 8 = false) ∧
    ((cur (badWord base)).spBadIn 0x40 16 = true ∧
      (sget RowGauge.reset (badWord base).rows (coreRow (badWord base) (badWord base).curCore)).rail = 0) ∧
    ((rdS base 2).toNat / 2 ^ 10 ≠ 2 ∧ 2 ^ 48 ≤ (rdS base 1).toNat) ∧
    ((rdS (with67 0x801 0xF80000000000) 6).toNat / 2 ^ 10 = 2 ∧ 0xF800 < (rdS (with67 0x801 0xF80000000000) 7).toNat / 2 ^ 32 + 16 ∧
      (rdS (with67 0x801 1) 7).toNat % 2 ^ 16 % 64 ≠ 0) := by decide +kernel

/-- A descriptor for the group's 2 × 1 tiles at 0x100 and 0x200, at 0x40. -/
def grouped : State := onCore0 tasked1 (fun k => k.spWrite 0x40 (toBytes 8 (2 ^ 51 + 0x100) ++ toBytes 8 0x200))

theorem grpShare_two : grpShare grouped 2 (grpDesc (leNat ((cur grouped).spRead 0x40 8)) (leNat ((cur grouped).spRead 0x48 8))) =
    some ([0, 1], 1) := by
  have d : grpDesc (leNat ((cur grouped).spRead 0x40 8)) (leNat ((cur grouped).spRead 0x48 8)) =
      { group := 0, mt := 2, nt := 1, abase := 0x100, bbase := 0x200, reserved := false } := by decide +kernel
  have t : (cur grouped).task = some task1 := by decide +kernel
  have n : taskNode grouped grouped.curCore = some (launch1 node1 region1, node1) := by decide +kernel
  unfold grpShare heldGroup
  rw [d, t, n]
  dsimp only
  rw [if_pos (by decide), members_two]
  rfl

/-- `grouped` with the B tiles at 0x201. -/
def groupedOdd : State := onCore0 grouped (fun k => k.spWrite 0x48 (toBytes 8 0x201))

theorem witness_PressIssue_misplaced :
    (grpShare groupedOdd 2 (grpDesc (leNat ((cur groupedOdd).spRead 0x40 8)) (leNat ((cur groupedOdd).spRead 0x48 8)))).isSome = true ∧
    (grpDesc (leNat ((cur groupedOdd).spRead 0x40 8)) (leNat ((cur groupedOdd).spRead 0x48 8))).bbase % 64 ≠ 0 := by
  have d : grpDesc (leNat ((cur groupedOdd).spRead 0x40 8)) (leNat ((cur groupedOdd).spRead 0x48 8)) =
      { group := 0, mt := 2, nt := 1, abase := 0x100, bbase := 0x201, reserved := false } := by decide +kernel
  have t : (cur groupedOdd).task = some task1 := by decide +kernel
  have n : taskNode groupedOdd groupedOdd.curCore = some (launch1 node1 region1, node1) := by decide +kernel
  unfold grpShare heldGroup
  rw [d, t, n]
  dsimp only
  rw [if_pos (by decide), members_two]
  exact ⟨rfl, by decide⟩

theorem witness_PressIssue_pgrp :
    ((rdS grouped 3).toNat % 2 ^ 16 % 16 = 0 ∧ (rdS grouped 3).toNat % 2 ^ 16 + 32 ≤ 0xF800 ∧ (cur grouped).spBadIn 0x40 16 = false ∧
      (cur grouped).spBadIn 0x48 8 = false) ∧
    grpShare grouped 2 (grpDesc (leNat ((cur grouped).spRead 0x40 8)) (leNat ((cur grouped).spRead 0x48 8))) = some ([0, 1], 1) ∧
    (pgrpOut grouped 0 = false ∧ heldBackBy grouped (.acc 0 2) (accOwn grouped 0 2) = false) ∧
    pgrpOut { grouped with net := [pk (.share 1
      (Share.mk 0 5 0 0 0 2 2 1 1 0x100 0x200 .dxb4 .ovw 6 0 0 false))] } 0 = true :=
  ⟨by decide +kernel, grpShare_two, by decide +kernel, by decide +kernel⟩

theorem witness_PressIssue_own : OwnDone grouped 0 ∧ OwnDone base 0 ∧ OwnDone (badWord base) 0 ∧ OwnDone groupedOdd 0 := by
  unfold OwnDone; decide +kernel

/-- `base` with a kept press capability for core 1's accumulators under handle 0x801, `n` credits, s6 and s7 the operands of PCMD. -/
def commanded (mask n : Nat) : State :=
  onCore0 (modPart (with67 0x801 0x8002000100) 0 (fun t => { t with
    launches := [launch1 node1 region1], kept := [(7, 0x801, BitVec.ofNat 64 (2 ^ 63 + mask * 2 ^ 48 + 3 * 2 ^ 16 + 1), 0xF0000000)] }))
    (fun k => { k with pressCr := [(1, n)] })

theorem witness_PressIssue_pcmd :
    ((rdS (commanded 4 0) 6).toNat / 2 ^ 10 = 2 ∧ (rdS (commanded 4 0) 7).toNat < 2 ^ 48 ∧ pressForm (commanded 4 0) 0 = some (.dxb4, 2)) ∧
    ((rdS (commanded 4 0) 7).toNat / 2 ^ 32 % 16 = 0 ∧ (rdS (commanded 4 0) 7).toNat % 2 ^ 16 % 64 = 0 ∧
      (rdS (commanded 4 0) 7).toNat / 2 ^ 16 % 2 ^ 16 % 64 = 0 ∧ (rdS (commanded 4 0) 7).toNat / 2 ^ 32 + 16 ≤ 0xF800) ∧
    (handleWords base (curPart base) 0x801 = none ∧ (slot base).sys = false) ∧
    (handleWords (commanded 0 0) (curPart (commanded 0 0)) 0x801 = some (2 ^ 63 + 3 * 2 ^ 16 + 1, 0xF0000000) ∧
      capAllows (commanded 0 0) (2 ^ 63 + 3 * 2 ^ 16 + 1, 0xF0000000) 2 .ovw .dxb4 0x100 0x200 = false) ∧
    (handleWords (commanded 4 1) (curPart (commanded 4 1)) 0x801 = some (2 ^ 63 + 4 * 2 ^ 48 + 3 * 2 ^ 16 + 1, 0xF0000000) ∧
      capAllows (commanded 4 1) (2 ^ 63 + 4 * 2 ^ 48 + 3 * 2 ^ 16 + 1, 0xF0000000) 2 .ovw .dxb4 0x100 0x200 = true) ∧
    (cur (commanded 4 0)).cmdCredits 1 = 0 ∧
    ((cur (commanded 4 1)).cmdCredits 1 ≠ 0 ∧ heldBack (commanded 4 1) (.pressCredit 0 1) = false ∧ (cur (commanded 4 1)).psb.length < 16 ∧
      engineHeld (commanded 4 1) = false ∧ invBarred (commanded 4 1) = false) ∧
    (let s := onCore0 (commanded 4 1) (fun k => { k with psb := List.replicate 16 (posted1 .dev 0) });
      handleWords s (curPart s) 0x801 = some (2 ^ 63 + 4 * 2 ^ 48 + 3 * 2 ^ 16 + 1, 0xF0000000) ∧ (cur s).cmdCredits 1 ≠ 0 ∧
      heldBack s (.pressCredit 0 1) = false ∧ 16 ≤ (cur s).psb.length) := by decide +kernel

/-- Accesses past their state causes with no order open, and behind the order of a FENCE: a credit, a message, a reply, room and words in
queues and links, a phase, a deque, a mailbox, a count word, a lease, the press, an accumulator, a PCMD. -/
theorem witness_Passes :
    (∀ s ∈ [credited 0xF7800001, inChan3, replied, base, linked 1, tasked1, dequed 1 2, counting 1, grouped, commanded 4 1],
      invBarred s = false ∧ localBarred s = false) ∧
    (∀ s ∈ [credited 0xF7800001, inChan3, replied, base, tasked1, dequed 1 2, counting 1, grouped, commanded 4 1],
      localBarred (fenced s) = true ∧ (slot (fenced s)).atom = none) ∧
    (let s := fenced (credited 0xF7800001); (cur s).creditsFor 1 3 ≠ 0 ∧ heldBack s (.credit 0 1 3) = false ∧ inPart s 1 = true) ∧
    (let s := fenced inChan3; sget [] (cur s).chans 3 = [msg1] ∧ heldBack s (.struct 0 .channel 3 false) = false) ∧
    (let s := fenced replied; (cur s).feBit (8 * 0x3DE) = true ∧ heldBack s (.reply 0 0x3DE) = false) ∧
    (let s := fenced base; (sget [] (cur s).dq 2).length < 4 ∧ heldBack s (.struct 0 .dataQueue 2 true) = false ∧
      (cur s).linkCredits .east ≠ 0 ∧ heldBackBy s (.struct 0 .link 0 true) (linkOwn s true) = false ∧
      sget false (cur s).mbFull 3 = false ∧ heldBack s (.struct 0 .mailbox 3 true) = false ∧
      leaseFits (getPart s (curPart s)) 2 2 4096 = some 0 ∧ heldBack s (.slices 0 2 2) = false ∧ heldBack s (.steal 0 0) = false ∧
      (cur s).accOtherBusy 2 = false ∧ (cur s).pressFree = true ∧ (cur s).accBusy 2 = false ∧
      heldBackBy s (.acc 0 2) (accOwn s 0 2) = false ∧ (getPart s 0).intake.length < 64 ∧ heldBack s (.intake 0) = false) ∧
    (barrierOf (fenced tasked1) (rdS (fenced tasked1) 1) = some (launch1 node1 region1, 0) ∧
      ((cur (fenced tasked1)).barRec 0 5).own ≤ ((cur (fenced tasked1)).barRec 0 5).p) ∧
    (let s := fenced (dequed 1 2); (cur s).dqHead < (cur s).dqTail ∧ heldBack s (.struct 0 .deque 0 false) = false) ∧
    (let s := fenced (counting 1); leNat ((cur s).spRead (0xF7F0 + 4) 4) ≤ leNat ((cur s).spRead 0xF7F0 4) ∧
      heldBack s (.count 0 0xF7F0) = false) ∧
    (pgrpOut (fenced grouped) 0 = false ∧ heldBackBy (fenced grouped) (.acc 0 2) (accOwn (fenced grouped) 0 2) = false) ∧
    (let s := fenced (commanded 4 1); (cur s).cmdCredits 1 ≠ 0 ∧ heldBack s (.pressCredit 0 1) = false ∧ engineHeld s = false) := by
  decide +kernel

/-- An operation of slot 0 on accumulator 2. -/
def op2 : PressOp := PressOp.mk 1 (.loc 0) 2 0x40 0x400 .dxb4 .ovw 2 0 none [] false

/-- An engine operation on accumulator 2. -/
def accOp2 (load : Bool) : AccOp := AccOp.mk 1 2 load 0 0x40 (toBytes 4096 7) true

/-- The last tile of the own scratchpad, core 1's scratchpad running and saved, a tile that does not fit, a misaligned one. -/
theorem witness_AccumulatorOperations :
    invBarred base = false ∧
    (cur (onCore0 base (fun k => { k with accOps := [accOp2 true] }))).accBusy 2 = true ∧
    ((cur base).accBusy 2 = false ∧ heldBackBy base (.acc 0 2) (accOwn base 0 2) = false) ∧
    ((rdS (withS1 0xE800) 1).toNat % 64 = 0 ∧ spAddr (withS1 0xE800) 0xE800 4096 = some (0, 0xE800) ∧
      spAddr (withS1 0xE800) 0xE800 AccDest.raw.bytes = some (0, 0xE800) ∧ (cur (withS1 0xE800)).spBadIn 0xE800 4096 = false) ∧
    (spAddr (withS1 0x1000100000000) 0x1000100000000 4096 = some (1, 0) ∧ (getCore (withS1 0x1000100000000) 1).away = false ∧
      (1 : Nat) ≠ (withS1 0x1000100000000).curCore ∧
      (getCore (modCore (withS1 0x1000100000000) 1 (fun k => { k with save := .saved })) 1).away = true) ∧
    ((slot base).sys = false ∧ (rdS base 2).toNat % 64 ≠ 0) ∧
    (spAddr (withS1 0xF000) 0xF000 4096 = none ∧ spAddr (withS1 0xF000) 0xF000 AccDest.raw.bytes = none) := by decide +kernel

/-- No own store, none that a range of core 1 has still to take, one that it has, a core that withholds its answers. -/
theorem witness_AccumulatorOperations_orders :
    (∀ u ∈ [0, 2], OwnDone base u ∧ OwnDone (withS1 0xE800) u ∧ OwnDone (onCore0 base (fun k => { k with accOps := [accOp2 true] })) u) ∧
    (let s := withS1 0x1000100000000; OwnDone s 0 ∧ OwnDone s 2 ∧ (∀ l ∈ linesOf 0 4096, lineOpen s (.win 1 0) l = false) ∧
      (getCore s 1).withholds = false ∧ (getCore (withholding1 s) 1).withholds = true ∧
      (let u := onCore0 s (fun k => { k with psb := [posted1 (.win 1 0) 0xFC0] });
        OwnDone u 0 ∧ OwnDone u 2 ∧ 63 ∈ linesOf 0 4096 ∧ lineOpen u (.win 1 0) 63 = true ∧
        ∀ j ∈ linesOf 0 4096, j < 63 → lineOpen u (.win 1 0) j = false)) := by unfold OwnDone; decide +kernel

/-- `base` with the guard of accumulator 3 full. -/
def guarded : State := onCore0 base (fun k => { k with fe := [((0xF7C0 + 24) / 8, true)] })

theorem witness_SeamOperation :
    fmtOf (slot base).pfmt = some .dxb4 ∧ (2 : Acc) ≠ 3 ∧ (OwnDone base 2 ∧ OwnDone guarded 2 ∧ OwnDone (fenced guarded) 2) ∧
    ((slot base).sys = false ∧ Role.head ≠ .tail ∧ inPart base ((rdS (withS1 256) 1).toNat % 2 ^ 16) = false ∧
      (rdS (withS1 0) 1).toNat % 2 ^ 16 = (withS1 0).curCore) ∧
    (inPart base ((rdS base 2).toNat % 2 ^ 16) = true ∧ (rdS base 2).toNat % 2 ^ 16 ≠ base.curCore) ∧
    (cur base).feBit ((0xF7C0 + 8 * 3) / 8) = false ∧
    ((cur guarded).feBit ((0xF7C0 + 8 * 3) / 8) = true ∧ heldBack guarded (.feWord 0 ((0xF7C0 + 8 * 3) / 8) false) = false ∧
      (cur guarded).accBusy 3 = false ∧ heldBackBy guarded (.acc 0 3) (accOwn guarded 0 3) = false ∧
      (cur guarded).accBusy 2 = false ∧ heldBackBy guarded (.acc 0 2) (accOwn guarded 0 2) = false ∧ (slot guarded).atom = none ∧
      invBarred guarded = false ∧ localBarred guarded = false) ∧
    (let s := fenced guarded; localBarred s = true ∧ (cur s).feBit ((0xF7C0 + 8 * 3) / 8) = true ∧ (cur s).accBusy 3 = false ∧
      heldBackBy s (.acc 0 3) (accOwn s 0 3) = false ∧ heldBackBy s (.acc 0 2) (accOwn s 0 2) = false) := by
  unfold OwnDone; decide +kernel

/-- 32 values: ones, the smallest code for which is 127; zeros; NaNs; values that no code holds. -/
theorem witness_BlockOperations :
    let fits := fun (xs : List Fv) (code : Nat) => ∀ x ∈ xs, ∀ g m e, x.finite? = some (g, m, e) →
      magLe m e 63 ((code : Int) - 132) = true
    let ones := List.replicate 32 (Fv.num false 1 0)
    (ones.length = 32 ∧ (∀ x ∈ ones, x.finite?.isSome) ∧ (¬ ∀ x ∈ ones, ∃ g e, x = .num g 0 e) ∧ fits ones 127 ∧
      ∀ k, 1 ≤ k → k < 127 → ¬ fits ones k) ∧
    (∀ x ∈ List.replicate 32 (Fv.num true 0 0), ∃ g e, x = .num g 0 e) ∧
    (¬ ∀ x ∈ List.replicate 32 Fv.nan, x.finite?.isSome) ∧
    (∀ k, 1 ≤ k → k ≤ 254 → ¬ fits (List.replicate 32 (Fv.num false 1 300)) k) := by
  have one : ∀ (m : Nat) (e : Int) (code : Nat), (∀ x ∈ List.replicate 32 (Fv.num false m e), ∀ g n i, x.finite? = some (g, n, i) →
      magLe n i 63 ((code : Int) - 132) = true) ↔ magLe m e 63 ((code : Int) - 132) = true := by
    intro m e code
    constructor
    · intro h; exact h (.num false m e) (List.mem_replicate.2 ⟨by decide, rfl⟩) false m e rfl
    · intro h x hx g n i hf
      rw [List.eq_of_mem_replicate hx] at hf
      simp only [Fv.finite?, Option.some.injEq, Prod.mk.injEq] at hf
      obtain ⟨-, rfl, rfl⟩ := hf
      exact h
  have low : ∀ k : Nat, k < 127 → magLe 1 0 63 ((k : Int) - 132) = false := by decide
  have high : ∀ k : Nat, k < 255 → magLe 1 300 63 ((k : Int) - 132) = false := by decide +kernel
  refine ⟨⟨rfl, by decide, ?_, (one 1 0 127).2 (by decide), ?_⟩, ?_, by decide, ?_⟩
  · intro h; obtain ⟨g, e, h⟩ := h (.num false 1 0) (by simp); cases h
  · intro k _ h f; rw [one, low k h] at f; cases f
  · intro x hx; exact ⟨true, 0, List.eq_of_mem_replicate hx⟩
  · intro k _ h f; rw [one, high k (by omega)] at f; cases f

/-- A COPY of 64 bytes from 0x40 to 0x80 with a record at 0x100, a GATH of one pixel from device memory, and a SLICE of 128 bytes
from device memory to 0x80, in v1. -/
def copy7 (d0 d1 d2 d3 : Nat) (s : State) : State :=
  modSlotAt { s with curSlot := 7 } 0 7 (fun l => { l.setV 1 (BitVec.ofNat 512 (d0 + 2 ^ 64 * d1 + 2 ^ 128 * d2 + 2 ^ 192 * d3)) with
    st := .runnable, pc := 0x10000 })

/-- The COPY. -/
def copyState : State := copy7 0x40 0x80 (63 * 2 ^ 48) (2 ^ 55 + 0x100) base

/-- The GATH. -/
def gathState : State := copy7 0x40 0x80 0 (2 ^ 61 + 2 ^ 55 + 0x100) base

/-- The plans of the two. -/
def copyPlan7 : Plan :=
  { kind := .copy, sc := 0, dc := 0, pad := 0, stride := 0, base := none,
    rows := [{ src := some 0x40, dst := 0x80, len := 64, at_ := none }] }

/-- GATH's. -/
def gathPlan7 : Plan :=
  { kind := .gath, sc := 1, dc := 0, pad := 0, stride := 1, base := some 0x40,
    rows := [{ src := some 0x40, dst := 0x80, len := 1, at_ := none }] }

/-- The SLICE: core 0's share of 128 bytes is 64. -/
def sliceState : State := copy7 0x40 0x80 0x80 (2 ^ 61 + 2 ^ 55 + 0x100) tasked1

/-- Its plan. -/
def slicePlan7 : Plan :=
  { kind := .slice, sc := 1, dc := 0, pad := 0, stride := 0, base := none,
    rows := [{ src := some 0x40, dst := 0x80, len := 64, at_ := some 0 }, { src := some 0x40, dst := 0x80, len := 64, at_ := some 1 }] }

theorem slicePlan_two : slicePlan sliceState (reqOf (rdV sliceState 1)) = some slicePlan7 := by
  have r : reqOf (rdV sliceState 1) = { d0 := 0x40, d1 := 0x80, d2 := 0x80, d3 := 2 ^ 61 + 2 ^ 55 + 0x100 } := by decide +kernel
  have t : (cur sliceState).task = some task1 := by decide +kernel
  have n : taskNode sliceState sliceState.curCore = some (launch1 node1 region1, node1) := by decide +kernel
  have h : heldGroup sliceState (natBits 0x80 63 56) = some [0, 1] := by
    unfold heldGroup; rw [t, n]; dsimp only; rw [if_pos (by decide)]; exact congrArg some members_two
  rw [r]
  unfold slicePlan
  dsimp only
  rw [if_neg (by decide), h]
  decide +kernel

/-- What the three requests share. -/
def accepted7 (s : State) (p : Plan) : Prop :=
  s.curSlot = 7 ∧ planBounds s p = false ∧ (reqOf (rdV s 1)).cblk % 32 = 0 ∧ planAlign p = false ∧
  (reqOf (rdV s 1)).cblk + 32 ≤ 0xF800 ∧ planProt s p = false ∧ invBarred s = false ∧ planXlat s p = none ∧ planFenced s p = false ∧
  (cur s).copies.length < 4 ∧ (cur s).halted = false ∧ engineHeld s = false

/-- A copy under way, with one write left of 64 bytes between scratchpad ranges. -/
def copyReq1 (segs : List Segment) : CopyReq :=
  { id := 1, kind := .copy, fill := false, count := false, record := true, cblk := 0x100, segs := segs, written := 0, padded := 0,
    poison := false, xdMarks := [(7, 1)], source := [] }

/-- The write. -/
def segment1 : Segment :=
  { dst := .win 0 0, daddr := 0x80, dcomp := none, dview := false,
    src := [{ sp := .win 0 0, addr := 0x40, len := 64, comp := none, view := false }], pad := 0, len := 64, ctl := none }

/-- One between lines of device memory. -/
def segment2 : Segment :=
  { segment1 with dst := .dev, daddr := 0x80, src := [{ sp := .dev, addr := 0x40, len := 64, comp := none, view := false }] }

/-- `base` with copies at work. -/
def copying (qs : List CopyReq) : State := onCore0 base (fun k => { k with copies := qs })

/-- `RowsPlaced` in a form that is decided. -/
theorem placed_of {s : State} {p : Plan} (h : ∀ r ∈ p.rows, ∀ o, o < r.len →
    (r.at_ = none → (placeOf s p.dc (r.dst + BitVec.ofNat 64 o) true).isSome = true) ∧
    r.src.all (fun a => (placeOf s p.sc (a + BitVec.ofNat 64 o) false).isSome) = true) : RowsPlaced s p := by
  intro r hr o ho
  refine ⟨(h r hr o ho).1, fun a ha => ?_⟩
  have h2 := (h r hr o ho).2
  rw [ha] at h2
  exact h2

theorem witness_CopyOperations :
    ((slot base).sys = false ∧ base.curSlot ≠ 7) ∧
    (copyPlan (reqOf (rdV (copy7 0 0 0 (7 * 2 ^ 61) base) 1)) = none ∧ gathPlan (reqOf (rdV (copy7 0 0 0 0 base) 1)) = none ∧
      slicePlan (copy7 0 0 0 0 base) (reqOf (rdV (copy7 0 0 0 0 base) 1)) = none) ∧
    (copyPlan (reqOf (rdV copyState 1)) = some copyPlan7 ∧ accepted7 copyState copyPlan7) ∧
    (gathPlan (reqOf (rdV gathState 1)) = some gathPlan7 ∧ accepted7 gathState gathPlan7) ∧
    (slicePlan sliceState (reqOf (rdV sliceState 1)) = some slicePlan7 ∧ accepted7 sliceState slicePlan7 ∧
      (reqOf (rdV sliceState 1)).d1 % 2 ^ 16 % 64 = 0 ∧
      (reqOf (rdV sliceState 1)).d1 % 2 ^ 16 + (reqOf (rdV sliceState 1)).d2 % 2 ^ 17 ≤ 0xF800) ∧
    (RowsPlaced copyState copyPlan7 ∧ RowsPlaced gathState gathPlan7 ∧ RowsPlaced sliceState slicePlan7) ∧
    4 ≤ (cur (copying (List.replicate 4 (copyReq1 [])))).copies.length :=
  ⟨by decide, by decide +kernel, by unfold accepted7; decide +kernel, by unfold accepted7; decide +kernel,
    ⟨slicePlan_two, by unfold accepted7; decide +kernel, by decide +kernel, by decide +kernel⟩,
    ⟨placed_of (by decide +kernel), placed_of (by decide +kernel), placed_of (by decide +kernel)⟩, by decide +kernel⟩

/-- A write between scratchpad ranges, one between lines of device memory, and a request that has only its record to write. -/
theorem witness_CopyOperations_work :
    (∀ g ∈ [segment1, segment2], let q := copyReq1 [g]; let k := getCore (copying [q]) 0;
      k.copies[0]? = some q ∧ q.segs[0]? = some g ∧ g.dview = false ∧ q.source = [] ∧ q.count = false ∧ k.halted = false ∧
      k.save = .no ∧ q.mustWait k = false ∧ g.daddr % 64 + g.len ≤ 64) ∧
    (segment1.dst = .win 0 0 ∧ (∀ x ∈ segment1.src, x.sp = .win 0 0 ∧ (getCore (copying []) 0).spBadIn x.addr x.len = false) ∧
      (segment1.src.flatMap (fun x => (getCore (copying []) 0).spRead x.addr x.len)).length = segment1.len) ∧
    (segment2.src = [{ sp := .dev, addr := 0x40, len := 64, comp := none, view := false }] ∧ segment2.dst = .dev ∧
      segment2.dcomp = none ∧ segment2.len = 64 ∧ lineBad (copying [copyReq1 [segment2]]) .dev 0x40 = false ∧
      lineBad (copying [copyReq1 [segment2]]) .dev 0x80 = false ∧
      lineBad { copying [copyReq1 [segment2]] with badLines := [(.dev, 1)] } .dev 0x40 = true ∧
      holdsKey (copying [copyReq1 [segment2]]) ((partOf (copying []) 0).getD 0) .dev 0x80 = true ∧
      holdsKey (foreign (copying [copyReq1 [segment2]])) ((partOf (copying []) 0).getD 0) .dev 0x80 = false) ∧
    (∀ l ∈ linesOf segment2.daddr segment2.len,
      performsLine (copying [copyReq1 [segment2]]) ((partOf (copying [copyReq1 [segment2]]) 0).getD 0) 0 l = true) ∧
    ((getCore (copying [copyReq1 []]) 0).copies[0]? = some (copyReq1 []) ∧ (copyReq1 []).segs = [] ∧ (copyReq1 []).record = true ∧
      (getCore (copying [copyReq1 []]) 0).feBit ((0x100 + 16) / 8) = false) :=
  ⟨by decide +kernel, by decide +kernel, by decide +kernel, by decide +kernel, by decide +kernel⟩

/-- A request whose poster's store, or DCFENCE, comes before its mark; a mailbox store, of a core that runs and of one being saved. -/
theorem witness_CopyOperations_waits :
    (let q := copyReq1 [segment2]; q.segs[0]? = some segment2 ∧ segment2.src ≠ [] ∧ (7, 1) ∈ q.xdMarks ∧
      (∀ sp ∈ [Space.dev, .win 1 4], let s := onCore0 (copying [q]) (fun k => { k with psb := [{ posted1 sp 0x140 with id := 0, slot := 7 }] });
        (getCore s 0).save = .no ∧ q.mustWait (getCore s 0) = true ∧ q.mustWait { getCore s 0 with save := .saving } = (sp == .dev)) ∧
      (let s := modSlotAt (copying [q]) 0 7 (fun l => { l with dcf := [(0, 64, 0)] }); q.mustWait (getCore s 0) = true)) := by decide +kernel

/-- A write of 64 bytes from address 0x40 of one space to address `a` of another. -/
def carry (src dst : Space) (a : Nat) : Segment :=
  { dst := dst, daddr := a, dcomp := none, dview := false,
    src := [{ sp := src, addr := 0x40, len := 64, comp := none, view := false }], pad := 0, len := 64, ctl := none }

/-- `leased 0` with a counting request that has one write left. -/
def carrying (g : Segment) : State := onCore0 (leased 0) (fun k => { k with copies := [{ copyReq1 [g] with count := true }] })

/-- Every source, also over the count word's core; every destination, one beside the count word, and one at a foreign key. -/
theorem witness_CopyOperations_places :
    (∀ g ∈ [carry .dev (.win 0 0) 0x80, carry .far (.win 1 0) 0x80, carry .host (.win 0 1) 0x80, carry (.win 1 0) (.win 1 2) 0x80,
        carry (.win 0 1) (.win 1 4) 0xC0, carry (.win 1 2) (.lease 0 3 2) 0xFC0, carry (.lease 0 3 2) .dev 0x80,
        carry .dev (.win 0 0) 0xC0, carry .dev (.win 0 0) 0x110],
      let s := carrying g; let q : CopyReq := { copyReq1 [g] with count := true };
      (getCore s 0).copies[0]? = some q ∧ q.segs[0]? = some g ∧ g.dview = false ∧ q.source = [] ∧ (getCore s 0).halted = false ∧
      (getCore s 0).save = .no ∧ (getCore s 1).save = .no ∧ q.mustWait (getCore s 0) = false ∧ (getCore s 1).withholds = false ∧
      (g.dst = .dev → g.daddr % 64 + g.len ≤ 64) ∧ g.src.map (·.len) = [g.len] ∧ 1 ≤ g.len ∧
      (getCore s (g.ctl.getD 0)).spBadIn q.cblk 16 = false ∧
      (g.dst = .win 0 0 → g.daddr + g.len ≤ q.cblk ∨ q.cblk + 16 ≤ g.daddr)) ∧
    (∀ tg ∈ [Target.dev, .far, .host], lineBad (leased 0) tg 0x40 = false) ∧
    (∀ m ∈ [0, 1], ∀ u ∈ [0, 1, 2], (getCore (leased 0) m).winBusy u 0x40 64 = false ∧ (getCore (leased 0) m).winBusy u 0x80 64 = false ∧
      (getCore (leased 0) m).spBadIn 0x40 64 = false) ∧
    (sget LeaseEnt.reset (getPart (leased 0) 0).leases 3 = lease3 ∧ lease3.live = true ∧ lease3.gen = 2 ∧ 0xFC0 + 64 ≤ lease3.size) ∧
    (0xC0 = 64 * 3 ∧ sget false (getCore (leased 0) 1).mbFull 3 = false) ∧
    (let s := carrying (carry .far .dev 0x80); lineBad s .dev 0x80 = false ∧
      (linesOf 0x80 64).all (fun l => performsLine s ((partOf s 0).getD 0) 0 l) = true ∧
      holdsKey s ((partOf s 0).getD 0) .dev 0x80 = true ∧ holdsKey (foreign s) ((partOf (foreign s) 0).getD 0) .dev 0x80 = false) := by
  decide +kernel

/-- An STP at an empty word behind a DCFENCE, which a copy of its core fills when the core's work is performed. -/
theorem witness_FullEmptyWords_filled :
    let s := feLocal false (fun k => { openDcf k with copies := [{ copyReq1 [carry .dev (.win 0 0) 0x40] with fill := true }] })
    (cur s).feBit 8 = false ∧ heldBack s (.feWord 0 8 true) = false ∧ postedOpen s = false ∧ anyOpen s = true ∧
      (getCore (settle s) 0).feBit 8 = true := by decide +kernel

/-- `tasked` with a region whose iron is at `i`, s1 = 0x400 its handle, s2 = 1. -/
def ironed (r : Region) : State := in0 (tasked node1 r) (fun l => l.setS 1 0x400)

/-- A region with its iron somewhere. -/
def withIron (i : Iron) : Region := { region1 with iron := i }

theorem witness_RegionOperations :
    ((slot base).sys = false ∧ regionHandle base (rdS base 1) = none) ∧
    (∀ i ∈ [Iron.rest, .held 0, .held 1, .offered 0, .passing 1 0 2 1], regionHandle (ironed (withIron i)) (rdS (ironed (withIron i)) 1) =
      some (7, 0, withIron i) ∧ heldBackBy (ironed (withIron i)) (.iron 0 7 0) (ironOwn (ironed (withIron i)) (withIron i)) = false ∧
      invBarred (ironed (withIron i)) = false ∧ localBarred (ironed (withIron i)) = false ∧
      localBarred (fenced (ironed (withIron i))) = true ∧ (slot (ironed (withIron i))).atom = none ∧ (withIron i).w = true ∧ (withIron i).mode ≠ 2) ∧
    (1 : Nat) ≠ (ironed (withIron (.held 1))).curCore ∧
    (viewOf (cur (onCore0 (ironed region1) (fun k => { k with view := [view5] }))) 7 0 = some 5 ∧
      viewOf (cur (ironed region1)) 7 0 = none) ∧
    ({ region1 with w := false }.w = false ∧ { region1 with mode := 2 }.mode = 2 ∧
      regionHandle (ironed { region1 with w := false }) (rdS (ironed { region1 with w := false }) 1) =
        some (7, 0, { region1 with w := false })) ∧
    ((rdS (ironed (withIron (.held 0))) 2).toNat % 2 ^ 16 = 1 ∧ inPart (ironed (withIron (.held 0))) 1 = true ∧
      (0xFFFF : Nat) = 0xFFFF ∧ region1.iron ≠ .held 0 ∧ inPart (ironed (withIron (.held 0))) 256 = false) := by decide +kernel

/-- The partition that `State.withFetchWord` sets up, whose tables map the first GiB, with a launch. -/
def walkable (r : Region) : State :=
  modPart (State.reset.withFetchWord 32 1) 0 (fun t => { t with launches := [launch1 node1 r] })

/-- What those tables give for the first GiB. -/
def gibLeaf : TlbEntry := { gib with dirty := true }

/-- A result in hand for word 0x40 and no translation; `v` stands in the leaf entry of the first GiB. -/
def walking (v : Nat) : State :=
  in0 (memWrite (onCore0 (walkable region1) (fun k => { k with utlb := [] })) .dev 0x2000 (toBytes 8 v)) (fun l =>
    { l with regs := [(3, 0x40)], atom := some (atom1 eight) })

/-- The tables map the page, with and without the rights, hold a reserved entry, or none. -/
theorem witness_AtomicAndReductionIssue_walks :
    (∀ v ∈ [(0xFD : Nat), 0xED, 0xFF, 0], let s := walking v;
      (rdS s 3).toNat = 0x40 ∧ invBarred s = false ∧ xlate s 0x40 .dev true true = .miss ∧ (slot s).atom = some (atom1 eight) ∧
      (atom1 eight).pc = (slot s).pc ∧ (slot s).sys = false) ∧
    (walkTables (walking 0xFD) 0 0x40 = .ok gibLeaf 0x2000 ∧ gibLeaf.allows .dev true true false = true ∧ gibLeaf.phys 0x40 = 0x40 ∧
      mayWriteLine (markPte (walking 0xFD) 0 0x2000 true) 0 0 1 = true) ∧
    (walkTables (walking 0xED) 0 0x40 = .ok { gibLeaf with w := false } 0x2000 ∧
      { gibLeaf with w := false }.allows .dev true true false = false) ∧
    walkTables (walking 0xFF) 0 0x40 = .prot ∧ walkTables (walking 0) 0 0x40 = .invalid := by decide +kernel

/-- A published region. -/
def published : Region := { region1 with mode := 2 }

/-- An increment of core 0, its number 2 among the core's work, behind `n` stores to the region or to another line. -/
def rounding (line n : Nat) : State := onCore0 (ironed (withIron (.held 0))) (fun k => { k with
  rounds := [{ id := 2, slot := 0, q := 7, n := 0 }], psb := List.replicate n { posted1 .dev (64 * line) with slot := 1 }, nextId := 3 })

/-- A pass of core 0 to core 1, its mark 2, behind `n` stores of its slot. -/
def passingIron (n : Nat) : State := onCore0 (ironed (withIron (.passing 0 0 1 2))) (fun k => { k with
  psb := List.replicate n (posted1 .dev 0), nextId := 2 })

theorem witness_RegionEvents :
    (getRegion (rounding 0 0) 0 7 0 = some (withIron (.held 0)) ∧
      roundsOf (rounding 0 0) 0 7 0 = (0, { id := 2, slot := 0, q := 7, n := 0 }) :: [] ∧
      regionOpen (rounding 0 1) 0 (withIron (.held 0)) 2 = false ∧ (getCore (rounding 0 1) 0).openBefore 0 2 = false ∧
      (getCore (onCore0 (rounding 0 1) (fun k => { k with psb := [posted1 .dev 0] })) 0).openBefore 0 2 = true ∧
      regionOpen (rounding 0x800 1) 0 (withIron (.held 0)) 2 = true) ∧
    (getRegion (passingIron 0) 0 7 0 = some (withIron (.passing 0 0 1 2)) ∧ roundsOf (passingIron 0) 0 7 0 = [] ∧
      regionOpen (passingIron 0) 0 (withIron (.passing 0 0 1 2)) 2 = false ∧ passWaits (getCore (passingIron 0) 0) 0 2 = false ∧
      passWaits (getCore (passingIron 1) 0) 0 2 = true) ∧
    portHeld (walkable published) 0 published.sub = false ∧
    (getRegion (walkable published) 0 7 0 = some published ∧ published.mode = 2 ∧ published.lost = false ∧
      4032 + (toBytes 64 7).length ≤ 64 * published.lines ∧ 4032 % 64 + (toBytes 64 7).length ≤ 64 ∧
      lineBad (walkable published) .dev (published.physOf 4032) = false ∧
      holdsKey (walkable published) 0 .dev (published.physOf 4032) = true) ∧
    (∀ s ∈ [rounding 0 0, passingIron 0, walkable published], let s1 := modCore s 1 (fun k => { k with view := [view5] });
      partOf s1 1 = some 0 ∧ viewOf (getCore s1 1) 7 0 ≠ none ∧ (getCore s1 2).view = []) ∧
    (∀ e pte, walkTables (walkable published) 0 (published.base + 4032) = .ok e pte → e.comp = false) ∧
    ((getCore (onCore0 (ironed region1) (fun k => { k with viewAsk := [(7, 0)] })) 0).viewAsk[0]? = some (7, 0) ∧
      getRegion (onCore0 (ironed region1) (fun k => { k with viewAsk := [(7, 0)] })) ((partOf base 0).getD 0) 7 0 = some region1) ∧
    (Arrives (withPk (.notice 0 7 0 6)) 0 (pk (.notice 0 7 0 6)) ∧ (getCore base 0).save = .no ∧
      viewOf (getCore (onCore0 base (fun k => { k with view := [{ q := 7, n := 0, val := 5 }] })) 0) 7 0 = some 5 ∧
      0 < ((6 : BitVec 32) - 5).toNat ∧ ((6 : BitVec 32) - 5).toNat < 2 ^ 31) := by
  have w : walkTables (walkable published) 0 (published.base + 4032) = .ok gibLeaf 0x2000 := by decide +kernel
  refine ⟨by decide +kernel, by decide +kernel, by decide +kernel, by decide +kernel, by decide +kernel, ?_, by decide +kernel,
    ⟨⟨by decide +kernel, by decide +kernel, by decide +kernel⟩, by decide +kernel, by decide +kernel⟩⟩
  intro e pte h
  rw [w] at h
  cases h
  rfl

theorem witness_GearOperation :
    invBarred base = false ∧ invBarred (invalidating base) = true ∧
    (cur (onCore0 base (fun k => { k with spin := true }))).spin = true ∧
    ((cur base).spin = false ∧ governorServes base 0 ((slot base).claimAt (slot base).pc (.row (coreRow base 0))) = true) ∧
    (let s := invalidating (onCore0 base (fun k => { k with spin := true })); invBarred s = true ∧ (cur s).spin = true) ∧
    governorServes (invalidating base) 0 ((slot (invalidating base)).claimAt 0x10000 (.row (coreRow base 0))) = true ∧
    governorServes { base with forced := [pcnOf base 0] } 0 none = false ∧ (cur { base with forced := [pcnOf base 0] }).spin = false ∧
    ((getCore base 0).cyc % 8 = 0 ∧ (getCore base 0).save = .no) := by decide +kernel

/-- A claim of slot 0 of core 16 on its own row, older than one of core 0. -/
def rowClaim : Claim := { pc := 0x10000, res := .row 1, ticket := 0, age := 0, cause := 9, stamp := 0 }

theorem witness_GearOperation_rows :
    let s := modSlotAt base 16 0 (fun l => { l with st := .runnable, pc := 0x10000, claims := [some rowClaim, none, none, none] })
    (16, 0, rowClaim) ∈ claimsOf s ∧ rowClaim.active = true ∧ 1 ≠ coreRow s 0 ∧ dieOf (16 * 1) = dieOf (pcnOf s 0) ∧
      pcnOf s 16 ∉ s.forced ∧ rowClaim.stamp < { rowClaim with res := .row 0, stamp := 1 }.stamp := by decide +kernel

theorem witness_LaunchAndDone :
    ((slot base).sys = false ∧ (rdS base 2).toNat % 64 ≠ 0) ∧
    ((rdS base 3).toNat % 64 = 0 ∧ (getPart base (curPart base)).intake.length < 64 ∧ heldBack base (.intake (curPart base)) = false ∧
      invBarred base = false ∧ (slot base).atom = none) ∧
    64 ≤ (getPart (atPart (fun t => { t with intake := List.replicate 64 (IntakeEnt.mk 0 0 0 none) })) 0).intake.length := by
  decide +kernel

/-! ### Steps, events, the host -/

/-- The state in which a core's slot issues in the step of `s`, after its rotation's start and a message interrupt. -/
def issuing (s : State) (c : Nat) : State :=
  let s1 := modCur { s with agenda := s.agenda.drop 1, turns := s.turns + 1, curCore := c, curSlot := (getCore s c).cyc % 8 }
    (fun k => k.startCycle.stir)
  modCur s1 (fun k => k.tryInt s1.curSlot)

/-- A state whose first turn is core 0's cycle, at a word. -/
def atWord (w : Nat) : State := State.reset.withFetchWord 32 w

/-- `base` before core 0's cycle: its PC is not mapped. -/
def unfetchable : State := { base with agenda := [.coreCycle 0] }

/-- A repeat frame of two members, played twice, replay 0. -/
def frame1 : Frame :=
  { start := 0x10000, len := 2, count := 2, rep := 0, sd := 1, sa := 1, sb := 0, sx := 0, words := [], again := false }

/-- A state whose first turn is a core cycle inside a repeat frame. -/
def inFrame (w rep : Nat) (words : List (BitVec 32)) (start : VA) : State :=
  modSlotAt (atWord w) 0 0 (fun l => { l with frame := some { frame1 with rep := rep, words := words, start := start } })

/-- Outside the frame, at a member of replay 0, at a word that is no member, and at a kept member of replay 1. -/
theorem witness_StepRunsDecoded_frames :
    (∀ x ∈ [inFrame 0x08A4FFFF 0 [] 0x20000, inFrame 0x08A4FFFF 0 [] 0x10000, inFrame 1 0 [] 0x10000,
        inFrame 1 1 [0x08A4FFFF, 1] 0x10000], x.agenda = .coreCycle 0 :: [] ∧ (getCore x 0).save = .no ∧
      (cur (issuing x 0)).save = .no ∧ (slot (issuing x 0)).stopReq = false ∧ (slot (issuing x 0)).st = .runnable ∧
      (slot (issuing x 0)).frame = (slot x).frame ∧ (slot (issuing x 0)).pc = 0x10000) ∧
    ({ frame1 with start := 0x20000 }.covers 0x10000 = false ∧ frame1.covers 0x10000 = true ∧ frame1.index 0x10000 = 0) ∧
    fetchAt (issuing (inFrame 0x08A4FFFF 0 [] 0x20000) 0) 0 0x10000 = .ok 0x08A4FFFF ∧
    fetchAt (issuing (inFrame 0x08A4FFFF 0 [] 0x10000) 0) 0 0x10000 = .ok 0x08A4FFFF ∧
    fetchAt (issuing (inFrame 1 0 [] 0x10000) 0) 0 0x10000 = .ok 1 ∧
    (decode 0x08A4FFFF = some (.addi 5 4 0xFFFF) ∧ frameMember (.addi 5 4 0xFFFF) = true ∧ decode 1 = some .nop ∧
      frameMember .nop = false) :=
  ⟨by decide +kernel, by decide, rfl, rfl, rfl, by decide⟩

/-- A misaligned PC between the two members, at replay 1. -/
theorem witness_StepRunsDecoded_misaligned :
    let s := modSlotAt (inFrame 0x08A4FFFF 1 [0x08A4FFFF, 1] 0x10000) 0 0 (fun l => { l with pc := 0x10002 })
    (slot (issuing s 0)).st = .runnable ∧ (slot (issuing s 0)).frame = some { frame1 with rep := 1, words := [0x08A4FFFF, 1] } ∧
    frame1.covers (slot (issuing s 0)).pc = true ∧ (slot (issuing s 0)).pc.toNat % 4 ≠ 0 := by decide +kernel

/-- That frame at a PC that is not mapped, at replay 0, and as a restore leaves it, mapped and not; a word outside it that is no
instruction. -/
theorem witness_StepRunsDecoded_faults :
    (let s := modSlotAt unfetchable 0 0 (fun l => { l with frame := some frame1 });
      (slot (issuing s 0)).frame = some frame1 ∧ (slot (issuing s 0)).pc = 0x10000 ∧ fetchAt (issuing s 0) 0 0x10000 = .error .pfx) ∧
    (let s := modSlotAt unfetchable 0 0 (fun l => { l with frame := some { frame1 with again := true } });
      (slot (issuing s 0)).frame = some { frame1 with again := true } ∧
      fetchAt (issuing s 0) 0 (0x10000 + BitVec.ofNat 48 (4 * 0)) = .error .pfx) ∧
    (let s := modSlotAt (atWord 0x08A4FFFF) 0 0 (fun l => { l with frame := some { frame1 with again := true } });
      (slot (issuing s 0)).frame = some { frame1 with again := true } ∧
      ∀ j, j < 2 → fetchAt (issuing s 0) 0 (0x10000 + BitVec.ofNat 48 (4 * j)) = .ok ([0x08A4FFFF, 0].getD j 0)) ∧
    (let s := inFrame 0 0 [] 0x20000;
      { frame1 with start := 0x20000 }.covers 0x10000 = false ∧ fetchAt (issuing s 0) 0 0x10000 = .ok 0 ∧ decode 0 = none) := by
  decide +kernel

/-- A core that is saved, one being saved, one whose save begins, and a slot under a stop request. -/
theorem witness_StepRunsDecoded_away :
    (getCore (onCore0 unfetchable (fun k => { k with save := .saved })) 0).save = .saved ∧
    (getCore (onCore0 unfetchable (fun k => { k with save := .saving })) 0).save = .saving ∧
    (let s := onCore0 unfetchable (fun k => { k with preReq := true });
      (getCore s 0).save = .no ∧ (cur (modCur { s with agenda := [], turns := 1 } (fun k => k.startCycle.stir))).save = .saving) ∧
    (let s := modSlotAt unfetchable 0 0 (fun l => { l with stopReq := true });
      (getCore s 0).save = .no ∧ (slot (modCur { s with agenda := [], turns := 1 } (fun k => k.startCycle.stir))).stopReq = true) := by
  decide +kernel

theorem witness_StepRunsDecoded :
    ((atWord 0x08A4FFFF).agenda = .coreCycle 0 :: [] ∧ 0 < 40960 ∧ (getCore (atWord 0x08A4FFFF) 0).save = .no ∧
      (cur (issuing (atWord 0x08A4FFFF) 0)).save = .no ∧ (slot (issuing (atWord 0x08A4FFFF) 0)).stopReq = false ∧
      (slot (issuing (atWord 0x08A4FFFF) 0)).st = .runnable ∧ (slot (issuing (atWord 0x08A4FFFF) 0)).frame = none) ∧
    (fetchAt (issuing (atWord 0x08A4FFFF) 0) (curPart (issuing (atWord 0x08A4FFFF) 0)) (slot (issuing (atWord 0x08A4FFFF) 0)).pc =
        .ok 0x08A4FFFF ∧ decode 0x08A4FFFF = some (.addi 5 4 0xFFFF) ∧
      ∃ t, exec (.addi 5 4 0xFFFF) (modSlot (fetchMark (issuing (atWord 0x08A4FFFF) 0)) (fun l => { l with frame := none })) = .next t) ∧
    (fetchAt (issuing (atWord 0) 0) (curPart (issuing (atWord 0) 0)) (slot (issuing (atWord 0) 0)).pc = .ok 0 ∧ decode 0 = none) ∧
    fetchAt (issuing unfetchable 0) (curPart (issuing unfetchable 0)) (slot (issuing unfetchable 0)).pc = .error .pfx ∧
    (slot (issuing { State.reset with agenda := [.coreCycle 0] } 0)).st ≠ .runnable ∧
    (({ base with agenda := [.act .reset] } : State).agenda = .act .reset :: [] ∧ Instr.inCycle .reset = false ∧
      Instr.inCycle .fetchFault = true) ∧
    ((0x10000 : VA).toNat % 4 = 0 ∧ (0x10000 : VA).toNat / 2 ^ 46 % 2 = 0 ∧
      walkTables (atWord 0) 0 (0x10000 : VA).toNat = .ok gibLeaf 0x2000 ∧ gibLeaf.x = true ∧ gibLeaf.tgt = .dev ∧ gibLeaf.comp = false ∧
      lineBad (atWord 0) .dev (gibLeaf.phys (0x10000 : VA).toNat) = false) ∧
    ((slot base).st = .runnable ∧ (slot base).frame = none ∧ (slot base).sys = false ∧
      fetchAt base (curPart base) (slot base).pc = .error .pfx) ∧
    (fetchAt (atWord 0) (curPart (atWord 0)) (slot (atWord 0)).pc = .ok 0 ∧ (slot (atWord 0)).sys = false) :=
  ⟨by decide +kernel, ⟨rfl, by decide, ⟨_, rfl⟩⟩, ⟨rfl, by decide⟩, rfl, by decide, by decide, by decide +kernel,
    ⟨by decide, by decide, by decide, rfl⟩, ⟨rfl, by decide⟩⟩

theorem witness_EncodingRoundTrip : (Instr.add 3 1 2).isEncoded = true ∧ (Instr.add 3 1 2).wf = true ∧
    decode 0x04611001 = some (.add 3 1 2) := by decide

theorem witness_MemoriesKeepForm : MemoriesWf (atWord 1) ∧ ∃ t, step (atWord 1) = .next t :=
  ⟨by unfold MemoriesWf; decide +kernel, ⟨_, rfl⟩⟩

theorem witness_LifecycleNeverFalls : ∃ t, step { base with agenda := [.act (.lifecycleTransition .retired)] } = .next t := ⟨_, rfl⟩

/-- `base` with one posted store. -/
def posting (e : Posted) : State := onCore0 base (fun k => { k with psb := [e] })

/-- A load of 8 bytes under way. -/
def loading (sp : Space) (addr : Nat) : Hold := { held sp addr false with ans := .pending }

/-- `base` with it. -/
def reading (sp : Space) (addr : Nat) : State := atSlot (fun l => { l with hold := some (loading sp addr) })

/-- A walk of slot 0. -/
def walk1 : Walk := { seq := 0, slot := 0, pc := 0x10000, page := 0x10, write := false }

/-- A fill of line 1 of far memory. -/
def fill1 : Fill := { sp := .far, line := 1, view := false, comp := false, dslot := 0 }

/-- Core 1 with its accumulator 0 busy, or with a window access of its own ordered behind a posted store. -/
def core1 (f : Core → Core) (s : State) : State := modCore s 1 f

/-- A seam at core 1. -/
def busy1 : State → State := core1 (fun k => { k with seamBusy := [{ acc := 0, slot := 1, after := 0 }] })

/-- A slot of core 1 that has gone on ahead of its posted store. -/
def owing1 : State → State :=
  withholding1

/-- Posted stores to memories, to a region whose iron rests, to a scratchpad, to a busy accumulator, to an empty and a full mailbox. -/
theorem witness_MemoryEvents_stores :
    (∀ e ∈ [posted1 .dev 0x40, posted1 .far 0x40, posted1 (.win 1 0) 0x40, posted1 (.win 1 2) 0x40, posted1 (.win 1 4) 0xC0],
      (getCore (posting e) 0).psb[0]? = some e ∧ e.red = none ∧ (getCore (posting e) 0).performable 0 = true) ∧
    (lineBad base .far 0x40 = false ∧ memHolds .far 0x40 = true ∧ memHolds .far (2 ^ 44) = false ∧ lineBad base .far (2 ^ 44) = false ∧
      (getCore (posting (posted1 .far (2 ^ 44))) 0).performable 0 = true ∧ (posted1 .far 0x40).addr % 64 + (posted1 .far 0x40).data.length ≤ 64) ∧
    ((posted1 .dev 0x40).sp = spaceOf .dev ∧ (posted1 .dev 0x40).comp = none ∧ lineBad base .dev 0x40 = false ∧
      (posted1 .dev 0x40).addr % 64 + (posted1 .dev 0x40).data.length ≤ 64 ∧ holdsKey base 0 .dev (1536 * 2 ^ 30) = false ∧
      performsLine base ((partOf base 0).getD 0) 0 1 = true ∧ holdsKey base ((partOf base 0).getD 0) .dev 0x40 = true ∧
      holdsKey (foreign (posting (posted1 .dev 0x40))) 0 .dev 0x40 = false) ∧
    performsLine (inRegion region1 [] []) ((partOf (inRegion region1 [] []) 0).getD 0) 0 ((posted1 .dev 0x20000).addr / 64) = false ∧
    ((getCore base 1).save = .no ∧ (0xC0 : Nat) = 64 * 3 ∧ sget false (getCore base 1).mbFull 3 = false ∧
      sget false (getCore (core1 (fun k => { k with mbFull := [(3, true)] }) base) 1).mbFull 3 = true ∧
      (getCore (busy1 base) 1).winBusy 2 0x40 8 = true) := by decide +kernel

/-- Posted stores to s31 of slot 7, to the last accumulator word, to a general register of the own core, and to a lease's end, live, of
another generation, and over. -/
theorem witness_MemoryEvents_registers :
    (∀ e ∈ [posted1 (.win 1 1) (0x800 * 7 + 8 * 31), posted1 (.win 1 2) 0x7FF8, posted1 (.win 0 1) 0x48, posted1 (.lease 0 3 2) 0xFF8],
      (getCore (posting e) 0).psb[0]? = some e ∧ e.red = none ∧ (getCore (posting e) 0).performable 0 = true ∧ e.data.length = 8) ∧
    (∀ u ∈ [0, 1], (getCore base u).save = .no ∧ (getCore base u).winBusy 1 (0x800 * 7 + 8 * 31) 8 = false ∧
      (getCore base u).winBusy 2 0x7FF8 8 = false) ∧
    (let x := sget LeaseEnt.reset (getPart (leased 0) 0).leases 3; x.live = true ∧ x.gen = 2 ∧ x.gen ≠ 1 ∧ 0xFF8 + 8 ≤ x.size) ∧
    (sget LeaseEnt.reset (getPart base 0).leases 3).live = false := by decide +kernel

/-- Reads of memories, of a region without the right, and of a scratchpad that answers or owes an order; of an accumulator, busy
and idle. -/
theorem witness_MemoryEvents_reads :
    (∀ sp ∈ [Space.dev, .far, .win 1 0, .win 1 2], (getSlot (reading sp 0x40) 0 0).hold = some (loading sp 0x40) ∧
      (loading sp 0x40).ans = .pending ∧ (loading sp 0x40).op = .load 8 ∧ (loading sp 0x40).comp = false) ∧
    ((getCore base 1).spBadIn 0x40 8 = false ∧ (getCore base 1).withholds = false ∧ (getCore base 1).save = .no ∧
      (getCore (owing1 base) 1).withholds = true) ∧
    (mayReadLine base ((partOf base 0).getD 0) 1 = true ∧ (let s := inRegion { region1 with r := false } [] [];
      mayReadLine s ((partOf s 0).getD 0) ((loading .dev 0x20000).addr / 64) = false)) ∧
    ((getCore (busy1 base) 1).winBusy 2 0x40 8 = true ∧ (getCore base 1).winBusy 2 0x40 8 = false ∧
      heldBackAt base 0 0 0x10000 (.acc 1 0) (accOwn base 1 0) = false) := by decide +kernel

/-- 512 walks of the die before slot 0's. -/
def queued : State := onCore0 base (fun k => { k with walks := { walk1 with seq := 1 } :: List.replicate 512 walk1 })

/-- A claim on the walk of `0x10000`. -/
def walkClaim (s : State) : Claim :=
  { pc := 0x10000, res := walkLineOf s 0 0x10000, ticket := 0, age := 0, cause := 1, stamp := 0 }

/-- A walk that succeeds, one that finds no table, one that queues; fills of a lease descriptor, of a far line and of a region's. -/
theorem witness_MemoryEvents_walks :
    (let s := onCore0 (walkable region1) (fun k => { k with walks := [walk1] });
      (getCore s 0).walks[0]? = some walk1 ∧ walkRuns s 0 walk1 = true ∧ lineBad s .dev 0x2000 = false ∧
      walkTables s ((partOf s 0).getD 0) (walk1.page * 4096) = .ok gibLeaf 0x2000) ∧
    (let s := onCore0 base (fun k => { k with walks := [walk1] });
      (getCore s 0).walks[0]? = some walk1 ∧ walkRuns s 0 walk1 = true ∧
      walkTables s ((partOf s 0).getD 0) (walk1.page * 4096) = .invalid ∧
      ((getSlot s 0 0).claimAt 0x10000 (walkLineOf s ((partOf s 0).getD 0) 0x10000)).isSome = false ∧
      ((getSlot (in0 s (fun l => { l with claims := [some (walkClaim s), none, none, none] })) 0 0).claimAt 0x10000 (walkLineOf s 0 0x10000)).isSome = true) ∧
    ((getCore queued 0).walks[0]? = some { walk1 with seq := 1 } ∧ walkRuns queued 0 { walk1 with seq := 1 } = false) ∧
    (let f : Fill := { fill1 with sp := .lease 0 3 2 }; (getCore (onCore0 base (fun k => { k with fills := [f] })) 0).fills[0]? = some f) ∧
    ((getCore (onCore0 base (fun k => { k with fills := [fill1] })) 0).fills[0]? = some fill1 ∧ fill1.sp = spaceOf .far ∧
      fill1.comp = false ∧ fill1.view = false) ∧
    (let f : Fill := { fill1 with sp := .dev, line := 0x800 }; let s := onCore0 (inRegion region1 [] []) (fun k => { k with fills := [f] });
      (getCore s 0).fills[0]? = some f ∧ regionOf s ((partOf s 0).getD 0) f.line = some (7, 0, region1) ∧ region1.r = true) ∧
    ((loading .far 0x40).addr / 64 = fill1.line ∧ (loading .far 0x40).view = false ∧ (loading .far 0x40).addr % 64 + 8 ≤ 64) := by
  decide +kernel

/-- Credits of 8 entries, and with room; a grant for a core that is saved. -/
theorem witness_CarrierEvents :
    (∀ b ∈ [Body.msg 0 3 9 1, .creditReq 0 3 1, .creditGrant 0 1 3 2, .creditBack 0 1 3, .creditReturn 0 3 1, .reply 0 5 9,
      .linkWord 0 .east 9, .linkCredit 0 .east], Arrives (withPk b) 0 (pk b)) ∧
    (Arrives (onCore0 (withPk (.creditGrant 0 1 3 2)) (fun k => { k with save := .saved })) 0 (pk (.creditGrant 0 1 3 2)) ∧
      (getCore (onCore0 (withPk (.creditGrant 0 1 3 2)) (fun k => { k with save := .saved })) 0).save ≠ .no) ∧
    (getCore base 0).save = .no ∧ (getCore base 0).allEmpty = false ∧
    ((getCore { base with cores := [] } 0).allEmpty = true ∧ sget [] (getCore { base with cores := [] } 0).chHeld 3 = []) ∧
    (sget 4 (getCore base 0).chFree 3 ≠ 0 ∧ sget 4 (getCore (onCore0 base (fun k => { k with chFree := [(3, 0)] })) 0).chFree 3 = 0) ∧
    (portOf 0 = none ∧ (getCore base 0).creditsFor 1 3 + 2 ≤ 2 ∧ (getCore base 0).credits.length < 8) ∧
    ((∃ e ∈ (getCore (credited 0) 0).credits, e.tgt = 1 ∧ e.ch = 3) ∧ (getCore (credited 0) 0).creditsFor 1 3 < 2) ∧
    (∀ e ∈ (getCore base 0).credits, e.tgt = 1 → e.ch = 3 → e.n = 2) ∧
    (sget [] (getCore base 0).chHeld 3 = [] ∧
      sget [] (getCore (onCore0 base (fun k => { k with chHeld := [(3, [1])] })) 0).chHeld 3 = 1 :: []) ∧
    ((getCore base 0).feBit (8 * 5) = false ∧ (getCore (onCore0 base (fun k => k.feSet 40 true)) 0).feBit (8 * 5) = true) := by
  unfold Arrives; decide +kernel

/-- Clocks below their end, a core that runs, claims of a saved core and of one that runs, operations left at a save, records that tie. -/
theorem witness_CarrierEvents_order :
    ((getCore base 0).lamport.toNat + 1 < 2 ^ 64 ∧ (pk (.msg 0 3 9 1)).lam.toNat + 1 < 2 ^ 64) ∧ (getCore base 0).allEmpty = false ∧
    (let l := { slot0 with claims := [some { pc := 0, res := .row 0, ticket := 0, age := 0, cause := 9, stamp := 0 }] };
      (claimsOf (onCore0 base (fun k => { k with slots := [(0, l)] }))).length = 1 ∧
      claimsOf (onCore0 base (fun k => { k with slots := [(0, l)], save := .saved }) ) = []) ∧
    (let s := onCore0 base (fun k => { k with save := .saving, pressWait := some (PressOp.mk 1 (.loc 0) 2 0 0 .dxb4 .ovw 2 0 none [] false) });
      (getCore s 0).save = .saving ∧ (getCore s 0).pressWait ≠ none) ∧
    (let s := onCore0 (atSlot (fun l => { l with atom := some (atom1 .pending) })) (fun k => { k with save := .saving });
      (getCore s 0).save = .saving ∧ (getSlot s 0 0).atom = some (atom1 .pending)) ∧
    ((7 : Nat) < 8 ∧ (0xFFFF : Nat) < 2 ^ 16 ∧ (255 : Nat) < 256 ∧ (2 ^ 64 - 1 : Nat) < 2 ^ 64) ∧
    recordBefore 1 1 (traceRecord 3 7 31 0xFFFF 0 5 8) (traceRecord 5 0 0 0 0 5 9) = true ∧
    recordBefore 2 1 (traceRecord 3 0 0 0 0 5 8) (traceRecord 3 0 0 1 0 5 9) = false ∧
    recordBefore 1 1 (traceRecord 3 1 0 4 0 5 9) (traceRecord 3 2 0 4 0 5 9) = true := by decide +kernel

/-- Slot 0 of core 0 parked on a probing RECV that waits for core 0 itself, since turn 3 and cycle 0. -/
def waiting : State :=
  atSlot (fun l => { l with st := .parked (.res (.struct 0 .channel 3 false) (some 0)), parkedAt := (3, 0) })

/-- `s` with a probe for core 0. -/
def probed (path : List (Nat × Nat × Nat)) (s : State) : State := { s with net := [pk (.probe 0 path)] }

theorem witness_ProbeAndStealEvents :
    ((getSlot waiting 0 0).edge = some 0 ∧ (getSlot waiting 0 0).parkedAt.2 = 0 ∧ { waiting with cycle := 69632 }.cycle = 4096 + 65536) ∧
    (Arrives (probed [(1, 0, 0)] base) 0 (pk (.probe 0 [(1, 0, 0)])) ∧ ([(1, 0, 0)].headD (noCore, 0, 0)).1 ≠ 0 ∧
      (getCore base 0).blocked 0 = false) ∧
    (Arrives (probed [(1, 0, 0)] waiting) 0 (pk (.probe 0 [(1, 0, 0)])) ∧ (getCore waiting 0).blocked 0 = true ∧
      [(1, 0, 0)].length < 64 ∧ ∀ e ∈ [(1, 0, 0)], e.1 ≠ 0) ∧
    (Arrives (probed [(0, 0, 3)] base) 0 (pk (.probe 0 [(0, 0, 3)])) ∧ ([(0, 0, 3)].headD (noCore, 0, 0)).1 = 0 ∧
      confirmed (probed [(0, 0, 3)] base) 0 [(0, 0, 3)] = false) ∧
    (Arrives (probed [(0, 0, 3)] waiting) 0 (pk (.probe 0 [(0, 0, 3)])) ∧ confirmed (probed [(0, 0, 3)] waiting) 0 [(0, 0, 3)] = true ∧
      [(0, 0, 3)].Nodup ∧ (∀ e ∈ [(0, 0, 3)], (getSlot (probed [(0, 0, 3)] waiting) e.1 e.2.1).sys = false)) ∧
    (Arrives (withPk (.stealReq 0 1 0)) 0 (pk (.stealReq 0 1 0)) ∧ (getCore (withPk (.stealReq 0 1 0)) 0).dqTail ≤
      (getCore (withPk (.stealReq 0 1 0)) 0).dqHead) ∧
    (getCore (onCore0 base (fun k => { k with save := .saved })) 0).save ≠ .no ∧
    ((getCore (dequed 1 2) 0).save = .no ∧ (getCore (dequed 1 2) 0).dqHead < (getCore (dequed 1 2) 0).dqTail ∧
      (getCore (dequed 1 2) 0).spBadIn (0xF800 + 32 * (1 % 64)) 32 = false) ∧
    (Arrives (withPk (.stealAns 0 7 (some 9))) 0 (pk (.stealAns 0 7 (some 9))) ∧ Arrives (withPk (.stealAns 0 7 none)) 0
      (pk (.stealAns 0 7 none)) ∧ 7 < 8) := by
  unfold Arrives; decide +kernel

/-- A launch record at 0x4000: one node on the group of cores 0 and 1, priority 1, records at 0x5000, watchdog 1, tag 0x55. -/
def header1 : List Byte :=
  toBytes 8 (2 ^ 32 + 1) ++ toBytes 8 (2 ^ 48 + 0x4100) ++ toBytes 8 0 ++ toBytes 8 0x5000 ++ toBytes 8 1 ++ toBytes 8 0x55 ++ toBytes 16 0

/-- Partition 0, committed, with the record in memory and its address in the intake. -/
def submitted (addr : Nat) : State :=
  let s1 := memWrite (atWord 1) .dev 0x4000 header1
  let s2 := memWrite s1 .dev 0x4040 (toBytes 8 1 ++ toBytes 8 0x10000)
  let s3 := memWrite s2 .dev 0x4100 (toBytes 8 (2 ^ 63 + 2 ^ 33 + 2 * 2 ^ 26))
  modPart s3 0 (fun t => { t with intake := [IntakeEnt.mk addr 7 3 none], committed := true })

/-- The state in which the scheduler reads the record. -/
def taken (addr : Nat) : State :=
  wakeRes (modPart (submitted addr) 0 (fun t => { t with intake := [], lamport := lamMax t.lamport 3 })) (.intake 0)

/-- The node of the record. -/
def node2 : Node := { node1 with succs := [], imgAddr := 0, args := 0x4080, st := .ready, cores := [] }

/-- The launch of the record. -/
def launch2 : Launch :=
  { q := 7, addr := 0x4000, prio := 1, tag := 0x55, watchdog := 1, comp := 0x5000, groups := [[rect2]], nodes := [node2], regions := [],
    enq := (0, 4), begun := false, live := true }

/-- A launch whose group fits only at column 0 of the first bay line: it is 16 wide from column 48 on. -/
def launch3 : Launch := { launch2 with groups := [[{ col := 48, line := 0, width := 16, height := 1 }]] }

/-- `base` with launches and a cycle. -/
def scheduled (l : Launch) (cycle : Nat) : State := { atPart (fun t => { t with launches := [l] }) with cycle := cycle }

/-- `launch1` with another first node. -/
def noded (f : Node → Node) : Launch := launch1 (f node1) region1

/-- A fault of core 0's node handed to the scheduler. -/
def fault1 : FaultReq := { task := some (7, 0), core := 0, slot := 3, cause := 14, at_ := 0 }

/-- A node that all its cores have signalled. -/
def signalled1 : Node := { node1 with signals := [0, 1] }

/-- `tasked1` with core 1's signal received and core 0's part ended. -/
def lastSignal : State :=
  onCore0 (modPart tasked1 0 (fun t => { t with launches := [noded (fun n => { n with signals := [1] })] })) (fun k => { k with ended := true })

theorem witness_SchedulerEvents_last :
    partOf lastSignal 0 = some 0 ∧ (getCore lastSignal 0).task = some task1 ∧
    liveLaunch lastSignal 0 task1.q = some (noded (fun n => { n with signals := [1] })) ∧
    (noded (fun n => { n with signals := [1] })).nodes[task1.node]? = some { node1 with signals := [1] } ∧
    (getCore lastSignal 0).ended = true ∧ partDrained lastSignal 0 = true ∧ node1.st = .running ∧
    (∀ u ∈ node1.cores, u = 0 ∨ u ∈ [1]) := by decide +kernel

theorem witness_SchedulerEvents_intake :
    ((getPart (submitted 0x4000) 0).intake = IntakeEnt.mk 0x4000 7 3 none :: [] ∧ (IntakeEnt.mk 0x4000 7 3 none).src = none) ∧
    (readSound (taken 0x4000) 0 0x4000 1 = some header1 ∧ readLaunch (taken 0x4000) 0 7 0x4000 (parseHeader header1) = some launch2) ∧
    (readSound (taken 0x6000) 0 0x6000 1 = some (toBytes 64 0) ∧
      readLaunch (taken 0x6000) 0 7 0x6000 (parseHeader (toBytes 64 0)) = none) := by decide +kernel

theorem witness_SchedulerEvents_placement :
    nextPlacement (scheduled launch3 0) (getPart (scheduled launch3 0) 0) none (readyNodes (getPart (scheduled launch3 0) 0)) =
      some (launch3, 0, node2, 0) ∧ readImage (scheduled launch3 0) 0 node2 = .ok ([], []) :=
  ⟨by decide +kernel, rfl⟩

theorem witness_SchedulerEvents_nodes :
    (liveLaunch (scheduled (noded (fun n => { n with st := .ready })) 1500000) 0 7 = some (noded (fun n => { n with st := .ready })) ∧
      (noded (fun n => { n with st := .ready })).nodes[0]? = some { node1 with st := .ready } ∧
      { node1 with st := .ready }.since + 1500000 ≤ (scheduled (noded (fun n => { n with st := .ready })) 1500000).cycle ∧
      (1499999 : Nat) < { node1 with st := .ready }.since + 1500000 ∧ node1.starved = false) ∧
    ((∀ c ∈ signalled1.cores, c ∈ signalled1.signals) ∧ ¬ signalled1.placed.1 + 1500 * (noded id).watchdog < signalled1.fin.1 ∧
      (signalled1.cores.all (fun c => signalled1.signals.contains c)) = true ∧
      signalled1.placed.1 + 1500 * (noded id).watchdog < ({ signalled1 with fin := (1501, 0) } : Node).fin.1 ∧
      (node1.cores.all (fun c => node1.signals.contains c)) = false) ∧
    ({ node1 with signals := [0, 1] }.st = NodeState.running ∧ node1.succs.count 1 = 1 ∧
      ((noded id).nodes[1]?).map (fun y => (y.st, y.deps)) = some (.waiting, 1)) ∧
    ((noded id).watchdog ≠ 0 ∧ node1.placed.1 + 1500 * (noded id).watchdog < 1501 ∧ (getPart base 0).frozen.length = 3 ∧
      (noded id).prio < 3 ∧ ¬ node1.placed.1 + 1500 * (noded id).watchdog < base.cycle ∧
      ¬ node1.placed.1 + 1500 * (noded id).watchdog < fault1.at_ ∧
      node1.placed.1 + 1500 * (noded id).watchdog < ({ fault1 with at_ := 1501 } : FaultReq).at_) ∧
    (∀ f ∈ (getPart (scheduled (noded id) 0) 0).faults, f.task ≠ some (7, 0)) ∧
    ((∃ c ∈ (noded id).nodes[0]?.toList.flatMap (·.cores), c ∉ node1.signals)) ∧
    ((getPart (modPart tasked1 0 (fun t => { t with faults := [fault1] })) 0).faults = fault1 :: [] ∧
      fault1.task = some (7, 0) ∧ node1.st = .running ∧ (∀ f ∈ (getPart tasked1 0).faults, f.task ≠ some (7, 0))) ∧
    ((getCore (onCore0 base (fun k => { k with ended := true })) 0).ended = true ∧
      partDrained (onCore0 base (fun k => { k with ended := true })) 0 = true ∧ (getCore base 0).save = .no) ∧
    ((getCore base 0).ended = false ∧ partDrained (posting (posted1 .dev 0)) 0 = false) ∧ 2 < (getPart base 0).frozen.length := by
  decide +kernel

/-- An operation that has read its headers and `n` planes. -/
def headed (n : Nat) : PressOp := { op2 with heads := some ([], []), mags := List.replicate n ([], []) }

/-- A share of core 1 for core 0, with `k` of its one tile entered. -/
def share1 (k abase : Nat) : Share := Share.mk 1 5 0 0x80 0 2 1 1 1 abase 0x400 .dxb4 .ovw 2 0 k false

/-- A forward for accumulator 3. -/
def forward1 : Forward := { src := 1, acc := 3, tile := List.replicate 1024 1 }

theorem witness_PressEvents :
    ((getCore base 0).halted = false ∧ (getCore (onCore0 base (fun k => { k with pressWait := some op2 })) 0).pressRun = none ∧
      (getCore (onCore0 base (fun k => { k with pressWait := some op2 })) 0).pressWait = some op2 ∧
      pressWaits (onCore0 base (fun k => { k with pressWait := some op2 })) 0 op2 = false ∧
      (getCore base 0).spBadIn op2.a op2.fmt.headBytes = false ∧ (getCore base 0).spBadIn op2.b op2.fmt.headBytes = false) ∧
    (op2.heads = none ∧ pressWaits (onCore0 base (fun k => { k with pressRun := some op2 })) 0 op2 = false ∧
      pressWaits (onCore0 base (fun k => { k with pressRun := some { op2 with id := 2 }, psb := [posted1 (.win 0 0) 0x40] })) 0
        { op2 with id := 2 } = true) ∧
    ((getCore (onCore0 base (fun k => { k with pressRun := some (headed 1) })) 0).pressRun = some (headed 1) ∧
      (getCore (onCore0 base (fun k => { k with pressRun := some (headed 1) })) 0).pressEnd = none ∧ (headed 1).heads.isSome = true ∧
      (headed 1).mags.length < (headed 1).planes ∧
      (getCore base 0).spBadIn (op2.a + op2.fmt.headBytes + 128) 128 = false) ∧
    (getCore (onCore0 base (fun k => { k with pressEnd := some (headed 2) })) 0).pressEnd = some (headed 2) ∧
    ((getCore (onCore0 base (fun k => { k with engTraps := [(some 0, .memue)] })) 0).engTraps[0]? = some (some 0, .memue) ∧
      (getSlot base 0 0).trapable = true ∧ (getSlot base 0 0).sys = false ∧ (getCore base 0).save = .no) ∧
    (∀ b ∈ [Body.share 0 (share1 0 0x40), .share 0 (share1 0 0xF780), .pcmd 0 (PcmdStep.mk 1 0x80 2 0x40 0x400 .dxb4 .ovw 2 0),
      .countInc 0 0x80 1, .forward 0 forward1], Arrives (withPk b) 0 (pk b)) ∧
    ((share1 0 0x40).outside = false ∧ (share1 0 0x40).count ≠ 0 ∧ (getCore base 0).takesShare (share1 0 0x40) = true ∧
      (getCore (onCore0 base (fun k => { k with shareQ := [share1 0 0x40, share1 0 0x40] })) 0).takesShare (share1 0 0x40) = false ∧
      (share1 0 0xF780).outside = true ∧ canReport base (share1 0 0xF780) = true ∧ (getCore base 1).spBadIn 0x80 32 = false ∧
      (getCore base 0).spBadIn 0x80 4 = false ∧ (getCore base 0).spBadIn 0x88 1 = false) ∧
    (forward1.tile.length = 1024 ∧ (getCore base 0).takesForward forward1 = true ∧
      (getCore guarded 0).takesForward forward1 = false) ∧
    ((getCore (onCore0 base (fun k => { k with shareQ := [share1 1 0x40] })) 0).shareQ[0]? = some (share1 1 0x40) ∧
      (share1 1 0x40).count ≤ (share1 1 0x40).next ∧ (getCore base 1).save = .no ∧ (share1 1 0x40).rank < 64 ∧
      (getCore base 0).pressEnd = none ∧ (getCore base 0).pressRun = none ∧ (getCore base 0).pressWait = none) ∧
    (getCore (onCore0 base (fun k => { k with accOps := [accOp2 true] })) 0).accOps[0]? = some (accOp2 true) ∧
    ((getCore (onCore0 base (fun k => { k with accOps := [accOp2 false] })) 0).accOps[0]? = some (accOp2 false) ∧
      (accOp2 false).load = false ∧ (accOp2 false).core = 0 ∧ (accOp2 false).fill = true ∧ (accOp2 false).data.take 64 ≠ [] ∧
      64 < (accOp2 false).data.length ∧ (toBytes 64 7).length ≤ 64) ∧
    ((getCore (onCore0 base (fun k => { k with seamBusy := [{ acc := 2, slot := 0, after := 2 }] })) 0).seamBusy[0]? =
        some { acc := 2, slot := 0, after := 2 } ∧ (getCore base 0).openBefore 0 2 = false ∧
      (getCore (posting (posted1 .dev 0)) 0).openBefore 0 2 = true) := by
  unfold Arrives
  exact ⟨by decide +kernel, by decide +kernel, by decide +kernel, by decide +kernel, by decide +kernel, by decide +kernel, by decide +kernel,
    by decide +kernel, by decide +kernel, rfl, ⟨rfl, rfl, rfl, rfl, List.cons_ne_nil _ _, by decide +kernel, by decide +kernel⟩, by decide +kernel⟩

/-- A restore request of core 0. -/
def ask1 : Claim := { pc := 0, res := .row 0, ticket := 0, age := 0, cause := 9, stamp := 0 }

/-- Core 0 in SPIN with autosoak, its slot in a state, the conditions of a drop met for 3,000 mesh cycles. -/
def soaking (st : SlotState) : State := onCore0 (atSlot (fun l => { l with st := st }))
  (fun k => { k with spin := true, gearEff := true, autosoak := true, calm := 3000 })

/-- `base` with a row's gauge. -/
def railed (g : RowGauge) : State := { base with rows := [(0, g)] }

theorem witness_GearAndWearEvents_grants :
    (let s := onCore0 base (fun k => { k with restoreReq := some ask1 });
      (getCore s 0).restoreReq = some ask1 ∧ (getCore s 0).save = .no ∧ governorServes s 0 (some ask1) = true ∧
      governorServes { s with forced := [pcnOf s 0] } 0 (some ask1) = false ∧
      (getCore (modCore s 0 (fun k => { k with save := .saved })) 0).save ≠ .no) ∧
    ({ base with agenda := [.meshTick] }.agenda = .meshTick :: [] ∧ (getCore base 0).calm < 3000) ∧
    (let k := getCore (soaking (.parked (.res (.barrier 0 5) none))) 0;
      k.spin = true ∧ k.gearEff = true ∧ k.autosoak = true ∧ k.save = .no ∧ k.pressEnd = none ∧ k.pressRun = none ∧
      k.pressWait = none ∧ k.copies = [] ∧ 3000 ≤ k.calm ∧
      k.slots.map (fun e => e.2.st) = [.parked (.res (.barrier 0 5) none)]) ∧
    (∃ e ∈ (getCore (soaking .runnable) 0).slots, e.2.st = .runnable) := by
  refine ⟨by decide +kernel, by decide +kernel, by decide +kernel, ⟨(0, { slot0 with st := .runnable }), ?_, rfl⟩⟩
  decide +kernel

theorem witness_GearAndWearEvents_wear :
    (partOf base 0 = some 0 ∧ 105 < sget 0 (readJunctions base [(0, 106)]).junction (pcnOf base 0) ∧
      ∀ e ∈ [(0, 106)], e.1 = pcnOf base 0) ∧
    ((getCore base 0).save = .no ∧ (getPart base 0).moves = []) ∧
    (∃ e ∈ (getPart (atPart (fun t => { t with moves := [(0, 1)] })) 0).moves, e.1 = 0) ∧
    ((7 : Nat) < 32 ∧ (32 : Nat) ≤ 32) ∧
    (95 : Nat) ≤ 95 ∧
    ((sget RowGauge.reset base.rows 0).pinned = false ∧
      (sget RowGauge.reset (railed { pinned := true, rail := 0 }).rows 0).pinned = true) ∧
    (let s := railed { pinned := false, rail := 1 };
      (sget RowGauge.reset s.rows (coreRow s 0)).rail ≠ 0 ∧ (getCore s 0).cyc % 8 = 0 ∧ (getCore s 0).save = .no ∧
      (getCore s 0).preReq = false ∧ (getSlot s 0 0).st = .runnable ∧ (getSlot s 0 0).stopReq = false ∧
      (getSlot s 0 0).sys = false) := by decide +kernel

/-- Junction readings of core 0, at 106, and of the others of its bay, none of them cool. -/
def warm : State := readJunctions base ((0, 106) :: (List.range' 1 255).map (fun l => (l, 91)))

theorem witness_GearAndWearEvents_none : ventTargets warm 0 0 = [] := by
  unfold ventTargets
  refine List.filter_eq_nil_iff.2 (fun e he => ?_)
  have n : ∀ e ∈ ((getPart warm 0).bays.flatMap (fun b => (List.range 256).map (fun i => 256 * b + i))).map
      (fun l => (l, pcnOf warm l)), e.1 = 0 ∨ ¬ sget 0 warm.junction e.2 ≤ 90 := by decide +kernel
  rcases n e he with z | z <;> simp [z]

theorem gatewayCores_length (n : Nat) : (gatewayCores n).length = n := by
  induction n with
  | zero => rfl
  | succ n ih => simp [gatewayCores, ih]

/-- Junction readings of core 0, at 106, and of core 1, at 90; the others are at their reset reading. -/
def cooled : State := readJunctions base [(0, 106), (1, 90)]

/-- Cores 1 to 97 are cool: one of them is none of the 96 gateway cores, wherever those lie. -/
theorem witness_GearAndWearEvents_vent : ventTargets cooled 0 0 ≠ [] := by
  intro h
  have e : ∀ l ∈ List.range' 1 97,
      (l, l) ∈ ((getPart cooled 0).bays.flatMap
        (fun b => (List.range 256).map (fun i => 256 * b + i))).map
          (fun l => (l, pcnOf cooled l)) ∧
      (l != 0) = true ∧ (getCore cooled l).task.isNone = true ∧ cooled.barred.contains l = false ∧
      (getPart cooled 0).moves.any (fun m => m.2 == l) = false ∧
      decide (sget 0 cooled.junction l ≤ 90) = true := by decide +kernel
  have gate : ∀ l ∈ List.range' 1 97, l ∈ gatewayCores 96 := by
    intro l hl
    by_contra g
    have g2 : isGateway l = false := by unfold isGateway; simpa using g
    obtain ⟨e1, e2, e3, e4, e5, e6⟩ := e l hl
    have m : (l, l) ∈ ventTargets cooled 0 0 := by
      unfold ventTargets
      refine List.mem_filter.2 ⟨e1, ?_⟩
      dsimp only
      rw [g2, e2, e3, e4, e5, e6]
      rfl
    rw [h] at m
    cases m
  have n := (List.subperm_of_subset (List.nodup_range' (s := 1) (n := 97)) gate).length_le
  rw [gatewayCores_length, List.length_range'] at n
  omega

/-- A reload of palette slot 1 from 0x40. -/
def reload1 : DictReq := { addr := 0x40, slot := 1, core := 0, cslot := 0, after := 0 }

/-- An invalidation. -/
def inv1 : InvReq := { page := some 0, core := 0, cslot := 0 }

/-- Core 0 of a partition whose tables map the first GiB, saved at address 0, with its part of a launch. -/
def savedFor (l : Launch) : State :=
  onCore0 (modPart (walkable region1) 0 (fun t => { t with launches := [l] })) (fun k => { k with save := .saved, task := some task1 })

/-- The same for a node that runs. -/
def savedAt0 : State := savedFor (noded id)

/-- Tables whose leaf for the first GiB stands where `walkable` puts it. -/
theorem walk_gib (s : State) (r : bitOf (getPart s 0).conf.root 0 = true) (q : rootOf s 0 = 0x1000)
    (p3 : pteAt s 0 (0x1000 + 8 * 0) = 0x2001) (p2 : pteAt s 0 (0x2001 / 4096 % 2 ^ 40 * 4096 + 8 * 0) = 0xFD) (va : Nat)
    (h : va < 2 ^ 30) : walkTables s 0 va = .ok { gibLeaf with vbase := va / 2 ^ 30 * 2 ^ 30 } 0x2000 := by
  have i3 : va / 2 ^ (12 + 9 * 3) % 512 = 0 := by omega
  have i2 : va / 2 ^ (12 + 9 * 2) % 512 = 0 := by omega
  unfold walkTables
  rw [if_pos r, q]
  unfold walkLevels
  dsimp only
  rw [i3, p3, if_neg (by decide), if_neg (by decide), if_neg (by decide)]
  unfold walkLevels
  dsimp only
  rw [i2, p2, if_neg (by decide), if_neg (by decide), if_pos (by decide), if_neg (by decide), if_neg (by decide), if_neg (by simp)]
  rfl

theorem walk_saved (va : Nat) (h : va < 2 ^ 30) :
    walkTables savedAt0 0 va = .ok { gibLeaf with vbase := va / 2 ^ 30 * 2 ^ 30 } 0x2000 :=
  walk_gib _ (by decide +kernel) (by decide +kernel) (by decide +kernel) (by decide +kernel) va h

theorem lines_saved (n : Nat) : ∀ va, va + 64 * n ≤ 2 ^ 30 → (vreadLines savedAt0 0 va n).isSome = true := by
  induction n with
  | zero => intro va _; rfl
  | succ n ih =>
    intro va h
    have r := ih (va + 64) (by omega)
    obtain ⟨x, hx⟩ := Option.isSome_iff_exists.1 r
    have v : vread savedAt0 0 va 64 = some (homeRead savedAt0 0 .dev false false (va - va / 2 ^ 30 * 2 ^ 30) 64) := by
      have w : viewBit va = false := by unfold viewBit; simp; omega
      have q : plainVa va = va := by unfold plainVa; rw [if_neg (by omega)]
      unfold vread vmap
      rw [if_neg (by omega), q, w, walk_saved va (by omega)]
      dsimp only
      rw [if_pos (by rfl)]
      simp only [Option.map_some, TlbEntry.phys, gibLeaf, gib, Nat.zero_add]
    unfold vreadLines
    rw [v, hx]
    rfl

/-- `base` in the DEBUG lifecycle. -/
def opened : State := { base with kaz := { base.kaz with life := .debug } }

/-- A partition whose reload and invalidation requests wait. -/
def reloading (s : State) : State := modPart s 0 (fun t => { t with dicts := [reload1], invs := [inv1] })

/-- `base` at a stage of a save. -/
def saveAt (v : SaveState) (s : State) : State := onCore0 s (fun k => { k with save := v })

/-- A save under way, drained and not; a saved core whose area no table maps, one that is restored, one whose node is over. -/
theorem witness_SaveReloadDebugEvents_save :
    (partOf base 0 = some 0 ∧ (getCore base 0).save = .no) ∧
    ((getCore (saveAt .saving base) 0).save = .saving ∧ saveDrained (saveAt .saving base) 0 = true ∧
      cancelled (saveAt .saving base) 0 = false ∧ saveDrained (saveAt .saving (posting (posted1 .dev 0))) 0 = false) ∧
    ((getCore (saveAt .saved base) 0).save = .saved ∧
      vreadLines (saveAt .saved base) 0 (saveAreaOf (getPart (saveAt .saved base) 0) 0) (0x1B800 / 64) = none) ∧
    ((getCore savedAt0 0).save = .saved ∧ partOf savedAt0 0 = some 0 ∧ cancelled savedAt0 0 = false ∧
      ∃ d, vreadLines savedAt0 0 (saveAreaOf (getPart savedAt0 0) 0) (0x1B800 / 64) = some d) ∧
    (let s := savedFor (noded (fun n => { n with st := .faulted }));
      (getCore s 0).save = .saved ∧ (getCore s 0).save ≠ .no ∧ partOf s 0 = some 0 ∧ cancelled s 0 = true) ∧
    nodeRuns tasked1 0 = true := by
  refine ⟨by decide +kernel, by decide +kernel, ⟨by decide +kernel, by decide +kernel⟩,
    ⟨by decide +kernel, by decide +kernel, by decide +kernel, Option.isSome_iff_exists.1 (lines_saved _ _ ?_)⟩, by decide +kernel,
    by decide +kernel⟩
  decide +kernel

/-- `walkable` with compressed pages, a range that slot 0 fences, and a store to its line 1. -/
def dcfencing (es : List Posted) : State :=
  onCore0 (in0 (memWrite (walkable region1) .dev 0x2000 (toBytes 8 (2 ^ 63 + 0xFD))) (fun l => { l with dcf := [(0, 256, 9)] }))
    (fun k => { k with psb := es })

/-- A reload that reads its palette and one that cannot; an invalidation; a range with and without a store before it. -/
theorem witness_SaveReloadDebugEvents_reload :
    (nextReload (reloading (walkable region1)) (getPart (reloading (walkable region1)) 0) = some (0, reload1) ∧
      reloadRead (reloading (walkable region1)) 0 0x40 = .ok (toBytes 16 0)) ∧
    (nextReload (reloading base) (getPart (reloading base) 0) = some (0, reload1) ∧ reloadRead (reloading base) 0 0x40 = .error 4) ∧
    ((getPart (reloading base) 0).invs = inv1 :: [] ∧ (getPart (reloading base) 0).owns 0 = true) ∧
    ((getSlot (dcfencing []) 0 0).dcf = (0, 256, 9) :: [] ∧ (getCore (dcfencing []) 0).psb = []) ∧
    ((getCore (dcfencing [posted1 .dev 0x40]) 0).psb = [posted1 .dev 0x40] ∧ (posted1 .dev 0x40).slot = 0 ∧ (posted1 .dev 0x40).id < 9 ∧
      fencedLine (dcfencing [posted1 .dev 0x40]) ((partOf (dcfencing [posted1 .dev 0x40]) 0).getD 0) 0 256 (0x40 / 64) = true) :=
  ⟨⟨by decide +kernel, rfl⟩, ⟨by decide +kernel, rfl⟩, by decide +kernel, by decide +kernel, by decide +kernel⟩

/-- The debugger's turns at a stopped slot and an idle accumulator, and at a slot that runs; an open and a closed port. -/
theorem witness_SaveReloadDebugEvents_debug :
    (let s := { atSlot (fun l => { l with st := .stopped none }) with agenda := [.debugWrite 0 1 (0x800 * 0 + 8 * 5) (toBytes 8 7)] };
      s.agenda = .debugWrite 0 1 (0x800 * 0 + 8 * 5) (toBytes 8 7) :: [] ∧ (getSlot s 0 0).st = .stopped none ∧
      s.kaz.life = .manufacture ∧ (getCore s 0).save = .no ∧ (toBytes 8 7).length = 8) ∧
    (let s := { base with agenda := [.debugWrite 0 2 (4 * 8191) (toBytes 4 7)] };
      s.agenda = .debugWrite 0 2 (4 * 8191) (toBytes 4 7) :: [] ∧ (getCore s 0).accBusy (8191 / 1024) = false ∧
      (toBytes 4 7).length = 4) ∧
    (let s := { base with agenda := [.debugWrite 0 1 8 (toBytes 8 7)] };
      s.agenda = .debugWrite 0 1 8 (toBytes 8 7) :: [] ∧ debugReaches s 0 1 8 8 = false ∧ debugStores s 0 1 8 8 = false) ∧
    { base with agenda := [.debugRead 0 2 0 4] }.agenda = .debugRead 0 2 0 4 :: [] ∧
    (base.kaz.life = .manufacture ∧ { base.kaz with life := .deployed }.life ≠ .manufacture ∧
      { base.kaz with life := .deployed }.life ≠ .debug ∧ opened.kaz.life = .debug) ∧
    (getSlot (atSlot (fun l => { l with st := .stopped none })) 0 0).st = .stopped none := by decide +kernel

/-- The debugger's store to accumulator 0 of core 0 in a state. -/
def debugging (s : State) : State := { s with agenda := [.debugWrite 0 2 0x40 (toBytes 4 7)] }

/-- Core 0 saved, its partition's hamper full. -/
def brim : State := modPart (saveAt .saved base) 0 (fun t => { t with
  hamper := List.replicate (max 1 (Config.hamperEntries 0)) (pk (.notice 0 7 0 6)) })

/-- A debugger's store behind an earlier one, at a busy accumulator, and at a saved core whose hamper has room, or none. -/
theorem witness_SaveReloadDebugEvents_debug_stores :
    (∀ s ∈ [base, seamed base, saveAt .saved base, posting { posted1 (.win 0 2) 0 with slot := 8 }],
      (debugging s).agenda = .debugWrite 0 2 0x40 (toBytes 4 7) :: [] ∧ debugStores (debugging s) 0 2 0x40 4 = true) ∧
    (∃ e ∈ (getCore (debugging (posting { posted1 (.win 0 2) 0 with slot := 8 })) 0).psb, e.slot = 8 ∧ e.sp = .win 0 2) ∧
    ((getCore base 0).psb = [] ∧ (getCore (seamed base) 0).save = .no ∧ (getCore (seamed base) 0).winBusy 2 0x40 4 = true ∧
      (getCore (saveAt .saved base) 0).save ≠ .no ∧ (getCore (saveAt .saved base) 0).psb = []) ∧
    hamperFull (saveAt .saved base) ((partOf (saveAt .saved base) 0).getD 0) = false ∧
    hamperFull brim 0 = true ∧ (getCore brim 0).save = .saved := by
  refine ⟨by decide +kernel, ⟨_, List.mem_cons_self, rfl, rfl⟩, by decide +kernel, ?_, ?_, rfl⟩
  · rw [show (partOf (saveAt .saved base) 0).getD 0 = 0 from by decide +kernel]
    unfold hamperFull
    rw [show (getPart (saveAt .saved base) 0).hamper = [] from by decide +kernel]
    simp
  · unfold hamperFull
    rw [show (getPart brim 0).hamper = List.replicate (max 1 (Config.hamperEntries 0)) (pk (.notice 0 7 0 6)) from rfl,
      show bitsOf (getPart brim 0).conf.hamper 63 48 = 0 from by decide +kernel]
    simp

/-- The tables' leaf is walked by the fence of `dcfencing`, outside poison and under the partition's key. -/
theorem witness_SaveReloadDebugEvents_walked :
    let s := dcfencing []
    0 / 4096 ≤ 0 ∧ 4096 * 0 < 0 + 256 ∧ walkTables s ((partOf s 0).getD 0) (4096 * 0) = .ok { gibLeaf with comp := true, dslot := 0 } 0x2000 ∧
      lineBad s .dev 0x2000 = false ∧ holdsKey s ((partOf s 0).getD 0) .dev 0x2000 = true := by decide +kernel

/-- A window of 64 KiB at 0, open for reading and writing. -/
def window0 : WinReg := BitVec.ofNat 128 (2 ^ 64 + 3)

/-- The device that `walkable` gives, with that window, and Salden port 0 with a landing ring of one slot at 0x400 of its gateway
core 0 and `n` credits. -/
def hosting (n : Nat) : State :=
  let u := gatewayCore 0 0
  let port : Port := { Port.reset with rings := [(0, (0x400, 1))], credits := [{ tgt := u, ch := 7, n := n }] }
  let s := modPart (walkable region1) 0 (fun t => { t with
    launches := [], wins := [(0, window0)], ports := [0],
    chans := [pairOf 64],
    bays := [], staged := { t.conf with root := 0x1001, hamper := 0x4000000000000 } })
  { s with ports := [(0, port)], cores := [] }

/-- The same with a ring of no slot. -/
def ringless : State := { hosting 1 with ports := [] }

theorem ring_free (n : Nat) : ringNext (hosting n) 0 0 (lcnAt (hosting n) (gatewayCore 0 (0 % 4))) = some 0 := rfl

theorem witness_HostPortEvents_windows :
    (getPart (hosting 1) 0).live = true ∧
    ((0 : Nat) < 4 ∧ 1 ≤ 64 ∧ ((sget 0 (getPart (hosting 1) 0).wins 0).toNat / 2 ^ 16 % 2 ^ 32 * 65536 + 0xFFC0) % 64 + 64 ≤ 64) ∧
    ((toBytes 64 7).length = 64 ∧ windowCheck (hosting 1) 0 0 0xFFC0 64 true = .ok gibLeaf ∧ gibLeaf.comp = false ∧
      lineBad (hosting 1) .dev (gibLeaf.phys 0xFFC0) = false) ∧
    (windowCheck (hosting 1) 0 0 0xFFC0 64 false = .ok gibLeaf ∧
      (sget 0 (getPart (hosting 1) 0).wins 0).toNat / 2 ^ 16 % 2 ^ 32 * 65536 + 0xFFC0 < 2 ^ 46) ∧
    (windowCheck (hosting 1) 0 0 0x10000 64 false = .error 1 ∧ windowCheck (hosting 1) 0 0 0x10000 64 true = .error 1) :=
  ⟨rfl, by decide +kernel, ⟨by decide, by decide +kernel, rfl, by decide +kernel⟩, ⟨by decide +kernel, by decide +kernel⟩, by decide +kernel⟩

/-- `walkable` with window 0 at `base`, of four 64 KiB blocks and with the bits `b`. -/
def windowed (base b : Nat) (s : State) : State :=
  modPart s 0 (fun t => { t with wins := [(0, BitVec.ofNat 128 (4 * 2 ^ 64 + base + b))] })

/-- A closed window, an offset at its end, the compressed view, an unmapped page, the compressed view of a plain page, a window without
the write right, a line of a region, and a poisoned line; the page of the last four. -/
theorem witness_HostPortEvents_causes :
    (let s := walkable region1;
      windowCheck (windowed 0 2 s) 0 0 0 64 false = .error 1 ∧ windowCheck (windowed 0 3 s) 0 0 0x40000 64 false = .error 1 ∧
      windowCheck (windowed (2 ^ 46) 3 s) 0 0 0 64 true = .error 5 ∧ windowCheck (windowed (2 ^ 30) 3 s) 0 0 0 64 true = .error 2 ∧
      windowCheck (windowed (2 ^ 46) 3 s) 0 0 0 64 false = .error 2 ∧ windowCheck (windowed 0 1 s) 0 0 0x20000 64 true = .error 3 ∧
      windowCheck (windowed 0 3 s) 0 0 0x20000 64 true = .error 4 ∧
      windowCheck (windowed 0 3 { s with badLines := [(.dev, 0x800)] }) 0 0 0x20000 64 false = .error 6) ∧
    walkTables (walkable region1) 0 0x20000 = .ok gibLeaf 0x2000 ∧ gibLeaf.tgt = .dev ∧ gibLeaf.r = true ∧ gibLeaf.w = true ∧
    walkTables (walkable region1) 0 (2 ^ 30) = .invalid ∧ viewBit (2 ^ 46) = true ∧ gibLeaf.comp = false := by
  decide +kernel

theorem witness_HostPortEvents_registers :
    (getPart (hosting 1) 0).intake.length < 64 ∧
    64 ≤ (getPart (atPart (fun t => { t with intake := List.replicate 64 (IntakeEnt.mk 0 0 0 none) })) 0).intake.length ∧
    commitRefusal base 0 ≠ 0 ∧ (opened.kaz.life = .debug ∧ (0 : Nat) < 40960 ∧ 0 < 8 ∧ 3 < 4) := by decide +kernel

theorem witness_HostPortEvents_commit : commitRefusal (hosting 1) 0 = 0 := by
  have c : ((getPart (hosting 1) 0).chans.contains (pairOf 64)) = true := by
    rw [show (getPart (hosting 1) 0).chans = [pairOf 64] from rfl]; simp
  have r : rootOf (modPart (hosting 1) 0 (fun t => { t with conf := (getPart (hosting 1) 0).staged })) 0 / 64 = 64 := by decide +kernel
  unfold commitRefusal
  dsimp only
  rw [r, c, if_neg (by decide +kernel), if_neg (by decide +kernel), if_neg (by decide), if_neg (by decide +kernel)]

/-- `hosting` as a commit of its staged block sees it. -/
def staging : State := modPart (hosting 1) 0 (fun t => { t with conf := (getPart (hosting 1) 0).staged })

/-- A live launch and a saved core; a misaligned trap vector; a handle table on an unmapped page; ranges of the first GiB, which are
mapped; a root on no channel of the partition, and on one; three hamper windows and four. -/
theorem witness_HostPortEvents_refusals :
    ((∃ l ∈ (getPart tasked1 0).launches, l.live = true) ∧ (∃ e ∈ savedAt0.cores, (getPart savedAt0 0).owns e.1 = true ∧ e.2.save = .saved) ∧
      (getPart (hosting 1) 0).launches = [] ∧ (hosting 1).cores = []) ∧
    ((1 : BitVec 48).toNat % 4 ≠ 0 ∧ ((getPart staging 0).conf.trap.toNat % 4 = 0 ∧ (getPart staging 0).conf.handles.toNat % 64 = 0 ∧
      (getPart staging 0).conf.save.toNat % 65536 = 0)) ∧
    (∀ e pte, walkTables staging 0 (2 ^ 30) ≠ .ok e pte) ∧
    (∀ x, x < 2 ^ 30 → viewBit (4096 * (x / 4096)) = false ∧ ∃ e pte, walkTables staging 0 (4096 * (x / 4096)) = .ok e pte ∧
      e.tgt = .dev ∧ e.r = true ∧ e.w = true) ∧
    (∀ z ∈ [((getPart staging 0).conf.handles.toNat % 2 ^ 48, 65536),
        ((getPart staging 0).conf.save.toNat % 2 ^ 48, 0x1C000 * (256 * (getPart staging 0).bays.length)),
        ((getPart staging 0).conf.hamper.toNat / 2 ^ 16 % 2 ^ 32 * 65536, (getPart staging 0).conf.hamper.toNat / 2 ^ 48 * 65536),
        ((getPart staging 0).conf.trace.toNat / 2 ^ 5 % 2 ^ 43 * 32, (getPart staging 0).conf.trace.toNat / 2 ^ 48 * 32)],
      z.1 + z.2 ≤ 2 ^ 30) ∧
    (pairOf ((getPart staging 0).conf.root.toNat / 2 ^ 12 % 2 ^ 40 * 4096 / 64) ∈ (getPart staging 0).chans ∧
      pairOf 64 ∉ ([] : List Nat)) ∧
    (0x3000000000000 / 2 ^ 48 < 4 ∧ 4 ≤ (getPart staging 0).conf.hamper.toNat / 2 ^ 48) := by
  refine ⟨⟨⟨_, List.mem_cons_self, rfl⟩, ⟨_, List.mem_cons_self, by decide +kernel, by decide +kernel⟩, rfl, rfl⟩, by decide +kernel, ?_, ?_,
    by decide +kernel, ⟨?_, by simp⟩, by decide +kernel⟩
  · intro e pte h
    rw [show walkTables staging 0 (2 ^ 30) = .invalid from by decide +kernel] at h
    cases h
  · intro x h
    exact ⟨by unfold viewBit; simp; omega,
      _, _, walk_gib staging (by decide +kernel) (by decide +kernel) (by decide +kernel) (by decide +kernel) _ (by omega), rfl, rfl, rfl⟩
  · rw [show (getPart staging 0).conf.root.toNat / 2 ^ 12 % 2 ^ 40 * 4096 / 64 = 64 from by decide +kernel]
    exact List.mem_cons_self

theorem witness_HostPortEvents_ports :
    (portPart (hosting 1) 0 = some 0 ∧ (getPort (hosting 1) 0).held ++ [(0, 0, 9)] = (0, 0, 9) :: [] ∧
      (getPort ringless 0).held ++ [(0, 0, 9)] = (0, 0, 9) :: [] ∧ portPart ringless 0 = some 0) ∧
    ringNext ringless 0 0 (lcnAt ringless (gatewayCore 0 (0 % 4))) = none ∧
    ringNext (hosting 1) 0 0 (lcnAt (hosting 1) (gatewayCore 0 (0 % 4))) = some 0 ∧
    creditsIn (getPort (hosting 1) 0).credits (lcnAt (hosting 1) (gatewayCore 0 (0 % 4))) 7 ≠ 0 ∧
    (getCore (hosting 1) (lcnAt (hosting 1) (gatewayCore 0 (0 % 4)))).save = .no := by
  refine ⟨⟨rfl, rfl, rfl, rfl⟩, rfl, rfl, ?_, rfl⟩
  have h : lcnAt (hosting 1) (gatewayCore 0 (0 % 4)) = gatewayCore 0 0 := rfl
  have c : (getPort (hosting 1) 0).credits = [{ tgt := gatewayCore 0 0, ch := 7, n := 1 }] := rfl
  rw [h, c]
  simp [creditsIn]

/-- A device that runs partitions: booted, deployed. -/
def deployed : State := { base with kaz := { base.kaz with life := .deployed, booted := true } }

theorem witness_ControllerEvents :
    ((1 : Nat) < 16 ∧ (getPart deployed 1).live = false ∧ partitionsRun deployed = true ∧
      partitionOk deployed [1] [4] [1] [] [(0, 50)] = true ∧ (∃ l ∈ [[1, 1], [4], [1], [], []], ¬ List.Nodup (α := Nat) l) ∧ partitionOk deployed [0] [] [] [] [] = false) ∧
    ((0 : Nat) ≠ 1 ∧ (getPart deployed 0).keyNo ≠ deployed.keys + 1) ∧
    { base with agenda := [.keyProvision] }.agenda = .keyProvision :: [] ∧
    (getPart base 0).live = true ∧ base.kaz.booted = false ∧
    (base.kaz.life = .manufacture ∧ { base.kaz with life := .provisioned }.life = .provisioned) ∧ base.kaz.life ≠ .retired ∧
    (base.kaz.attKey = true ∧ { base.kaz with attKey := false }.attKey = false) ∧
    (base.kaz.life ≠ .deployed ∧ deployed.kaz.life = .deployed) ∧
    partitionOk deployed [1, 1] [4] [1] [] [(0, 50)] = false ∧ memHolds .dev 0 = true ∧
    partitionOk deployed [1] [4] [] [] [(0, 50)] = true ∧ pairOf 0 ∉ ([] : List Nat) := by decide +kernel

end Sys2Proof.Tests
end

section
/-! PROOFS. Words of major 0x01: a field that a row of the opcode map lacks is zero in every word the decoder accepts (R72, R78). -/

namespace Sys2Proof

/-- A field is the low bits of the word up to its top, without those below it. -/
theorem fld_eq_mod_div {hi lo : Nat} (h : lo ≤ hi) (w : Nat) : fld w hi lo = w % 2 ^ (hi + 1) / 2 ^ lo := by
  have hpow : 2 ^ (hi + 1) = 2 ^ lo * 2 ^ (hi + 1 - lo) := by rw [← Nat.pow_add, Nat.add_sub_cancel' (by omega)]
  rw [fld, hpow, Nat.mod_mul_right_div_self]

/-- A field below the start of every packed value is that of the fixed bits. -/
theorem fld_pack_of_below {hi lo : Nat} (hlo : lo ≤ hi) {b : Nat} {fs : List (Nat × Nat)} (h : ∀ f ∈ fs, hi < f.2) :
    fld (pack b fs) hi lo = fld b hi lo := by
  induction fs generalizing b with
  | nil => rfl
  | cons f fs ih =>
    obtain ⟨hf, hfs⟩ := List.forall_mem_cons.mp h
    have hdvd : 2 ^ (hi + 1) ∣ f.1 * 2 ^ f.2 := Dvd.dvd.mul_left (Nat.pow_dvd_pow 2 hf) _
    calc fld (pack b (f :: fs)) hi lo = fld (b + f.1 * 2 ^ f.2) hi lo := ih hfs
      _ = fld b hi lo := by
        rw [fld_eq_mod_div hlo, fld_eq_mod_div hlo, Nat.add_mod, Nat.mod_eq_zero_of_dvd hdvd, Nat.add_zero, Nat.mod_mod]

/-- A decoded word is its row's instruction, encoded. -/
theorem encNat_of_decode {w : BitVec 32} {i : Instr} (h : decode w = some i) :
    candidate w.toNat = some i ∧ encNat i = w.toNat := by
  unfold decode decodeWord at h
  split at h
  case h_1 => cases h
  case h_2 j hj =>
    split_ifs at h with hacc
    · obtain rfl : j = i := Option.some.inj h
      exact ⟨hj, eq_of_beq (Bool.and_eq_true_iff.mp hacc).2⟩
    · cases h

/-- The row of a word of major 0x01. -/
theorem candidate_major_01 {w : BitVec 32} (h : fld w.toNat 31 26 = 1) : candidate w.toNat = cand01 w.toNat := by
  have hmajor : w.toNat / 2 ^ 26 = 1 := by
    have hw : w.toNat < 2 ^ 32 := w.isLt
    unfold fld at h
    omega
  rw [candidate, hmajor]
  rfl

/-- What holds of a row's instruction and of every later row's holds of the rows together. -/
theorem forall_mem_row {c : Prop} [Decidable c] {P : Instr → Prop} {i : Instr} {rows : Option Instr} (hrow : c → P i)
    (hrows : ∀ j ∈ rows, P j) : ∀ j ∈ (if c then some i else rows), P j := by
  split
  case isTrue hc => exact fun j hj => Option.mem_some.mp hj ▸ hrow hc
  case isFalse => exact hrows

/-- Every row of major 0x01 but SEL's has bits 10:6 zero. -/
theorem fld_e_of_cand01 {w : Nat} (hsel : fld w 5 0 ≠ 35) : ∀ i ∈ cand01 w, fld (encNat i) 10 6 = 0 := by
  rw [cand01, if_neg hsel]
  repeat' refine forall_mem_row (fun _ => fld_pack_of_below (by decide) (by simp)) ?_
  exact fun _ hnone => absurd hnone (Option.not_mem_none _)

/-- The rows of CLZ and POPC have bits 15:11 zero. -/
theorem fld_b_of_cand01 {w : Nat} (hfn : fld w 5 0 = 40 ∨ fld w 5 0 = 41) : ∀ i ∈ cand01 w, fld (encNat i) 15 11 = 0 := by
  rcases hfn with hfn | hfn <;> simp only [cand01, hfn] <;>
    exact fun i hi => Option.mem_some.mp hi ▸ fld_pack_of_below (by decide) (by simp)

end Sys2Proof

namespace Sys2Proof.Machine

open Sys2Proof.Safety

/-- A field that is zero in the words of a function's row is ILLEGAL otherwise (R72). -/
theorem illegalFields_of_cand01 {fn hi lo : Nat}
    (h : ∀ w, fld w 5 0 = fn → ∀ i ∈ cand01 w, fld (encNat i) hi lo = 0) : IllegalFields fn hi lo := by
  intro w hmajor hfn hfield
  by_contra hlegal
  obtain ⟨i, hdec⟩ := Option.ne_none_iff_exists'.mp hlegal
  obtain ⟨hrow, henc⟩ := encNat_of_decode hdec
  rw [candidate_major_01 hmajor] at hrow
  exact hfield (henc ▸ h w.toNat hfn i hrow)

/-- A non-zero e field is ILLEGAL for every function of major 0x01 but SEL (R72). -/
theorem illegalFields_e {fn : Nat} (h : fn ≠ 35) : IllegalFields fn 10 6 :=
  illegalFields_of_cand01 fun _ hfn => fld_e_of_cand01 (hfn ▸ h)

/-- A non-zero b field of CLZ and POPC is ILLEGAL (R288, R337). -/
theorem illegalFields_b {fn : Nat} (h : fn = 40 ∨ fn = 41) : IllegalFields fn 15 11 :=
  illegalFields_of_cand01 fun _ hfn => fld_b_of_cand01 (hfn ▸ h)

end Sys2Proof.Machine
end

section
/-! PROOFS. Scalar arithmetic, logic and multiplication (R275, R280, R327, R329, R365, R376). -/

namespace Sys2Proof.Machine

open Sys2Proof.Safety

/-- Bits 127:64 of an integer at 128 bits are the integer divided by 2^64, rounded down. -/
theorem extractLsb'_ofInt_high (p : Int) : (BitVec.ofInt 128 p).extractLsb' 64 64 = BitVec.ofInt 64 (p / 2 ^ 64) := by
  apply BitVec.eq_of_toNat_eq
  rw [BitVec.extractLsb'_toNat, BitVec.toNat_ofInt, BitVec.toNat_ofInt, Nat.shiftRight_eq_div_pow]
  omega

/-- The high half of the signed product is that of the 128-bit product of the sign-extended factors (R178). -/
theorem mulHigh_eq_extractLsb' (x y : W64) : mulHigh x y = (x.signExtend 128 * y.signExtend 128).extractLsb' 64 64 := by
  unfold mulHigh BitVec.signExtend
  rw [← BitVec.ofInt_mul, extractLsb'_ofInt_high]

/-- The high half of the unsigned product is that of the 128-bit product of the zero-extended factors (R178). -/
theorem mulHighZ_eq_extractLsb' (x y : W64) : mulHighZ x y = (x.setWidth 128 * y.setWidth 128).extractLsb' 64 64 := by
  have hprod : (x.setWidth 128 * y.setWidth 128 : BitVec 128).toNat = x.toNat * y.toNat := by
    have hlt : x.toNat * y.toNat < 2 ^ 64 * 2 ^ 64 := Nat.mul_lt_mul'' x.isLt y.isLt
    have hwide (z : W64) : (z.setWidth 128).toNat = z.toNat := BitVec.toNat_setWidth_of_le (by decide)
    rw [BitVec.toNat_mul, hwide, hwide]
    exact Nat.mod_eq_of_lt hlt
  apply BitVec.eq_of_toNat_eq
  rw [mulHighZ, BitVec.extractLsb'_toNat, BitVec.toNat_ofNat, hprod, Nat.shiftRight_eq_div_pow]

/-- MULH's result. -/
theorem scalarEffect_mulh (s : State) (d a b : SReg) :
    ScalarEffect (.mulh d a b) s d (((rdS s a).signExtend 128 * (rdS s b).signExtend 128).extractLsb' 64 64) :=
  mulHigh_eq_extractLsb' _ _ ▸ scalarEffect_of rfl

/-- MULHZ's result. -/
theorem scalarEffect_mulhz (s : State) (d a b : SReg) :
    ScalarEffect (.mulhz d a b) s d (((rdS s a).setWidth 128 * (rdS s b).setWidth 128).extractLsb' 64 64) :=
  mulHighZ_eq_extractLsb' _ _ ▸ scalarEffect_of rfl

/-- Settles O1: each instruction ends with the one scalar result, and the rows of its functions have no e field. -/
theorem scalarArithmeticResults : Obligations.ScalarArithmeticResults := by
  refine ⟨fun s d a b imm => ?_, by decide, fun fn hfn => illegalFields_e ?_⟩
  · exact ⟨scalarEffect_of rfl, scalarEffect_of rfl, scalarEffect_of rfl, scalarEffect_of rfl, scalarEffect_of rfl,
      scalarEffect_of rfl, scalarEffect_of rfl, scalarEffect_of rfl, scalarEffect_of rfl, scalarEffect_of rfl,
      scalarEffect_of rfl, scalarEffect_mulh s d a b, scalarEffect_mulhz s d a b⟩
  · rintro rfl
    exact absurd hfn (by decide)

end Sys2Proof.Machine
end

section
/-! PROOFS. Counting bits: CLZ and POPC (R288, R337). -/

namespace Sys2Proof.Machine

open Sys2Proof.Safety

/-! ## Leading zeros -/

theorem leadZeros_succ (v n : Nat) : leadZeros v (n + 1) = if v.testBit n then 0 else 1 + leadZeros v n := by
  simp [leadZeros, Nat.testBit_eq_decide_div_mod_eq]

theorem leadZeros_le (v n : Nat) : leadZeros v n ≤ n := by
  induction n with
  | zero => exact Nat.le_refl 0
  | succ n ih => rw [leadZeros_succ]; split <;> omega

/-- The counted bits are zero. -/
theorem testBit_of_lt_leadZeros {v n j : Nat} (h : j < leadZeros v n) : v.testBit (n - 1 - j) = false := by
  induction n generalizing j with
  | zero => exact absurd h (Nat.not_lt_zero j)
  | succ n ih =>
    rw [leadZeros_succ] at h
    split at h
    case isTrue => exact absurd h (Nat.not_lt_zero j)
    case isFalse htop =>
      cases j with
      | zero => simpa using htop
      | succ j =>
        rw [show n + 1 - 1 - (j + 1) = n - 1 - j by omega]
        exact ih (by omega)

/-- The bit below the counted ones is set. -/
theorem testBit_leadZeros {v n : Nat} (h : leadZeros v n < n) : v.testBit (n - 1 - leadZeros v n) = true := by
  induction n with
  | zero => exact absurd h (Nat.not_lt_zero _)
  | succ n ih =>
    rw [leadZeros_succ] at h ⊢
    split
    case isTrue htop => simpa using htop
    case isFalse htop =>
      rw [if_neg htop] at h
      rw [show n + 1 - 1 - (1 + leadZeros v n) = n - 1 - leadZeros v n by omega]
      exact ih (by omega)

/-- All `n` low bits are counted exactly when they are zero. -/
theorem leadZeros_eq_self_iff {v n : Nat} : leadZeros v n = n ↔ ∀ k, k < n → v.testBit k = false := by
  constructor
  · intro hall k hk
    have hbit := testBit_of_lt_leadZeros (v := v) (n := n) (j := n - 1 - k) (by omega)
    rwa [show n - 1 - (n - 1 - k) = k by omega] at hbit
  · intro hzero
    by_contra hne
    have hlt : leadZeros v n < n := Nat.lt_of_le_of_ne (leadZeros_le v n) hne
    exact Bool.false_ne_true ((hzero _ (by omega)).symm.trans (testBit_leadZeros hlt))

/-- CLZ counts all 64 bits for zero alone. -/
theorem leadZeros_toNat_eq_64_iff (x : W64) : leadZeros x.toNat 64 = 64 ↔ x = 0 := by
  rw [leadZeros_eq_self_iff]
  constructor
  · exact fun hzero => BitVec.eq_of_getLsbD_eq fun k hk => (hzero k hk).trans BitVec.getLsbD_zero.symm
  · rintro rfl k -
    exact Nat.zero_testBit k

/-! ## Set bits -/

/-- The population count is the number of places below `n` whose bit is set. -/
theorem popCount_eq_length_filter (v n : Nat) : popCount v n = ((List.range n).filter (fun j => v.testBit j)).length := by
  induction n generalizing v with
  | zero => rfl
  | succ n ih =>
    have hrest : ((List.range n).map Nat.succ).filter (fun j => v.testBit j) =
        ((List.range n).filter (fun j => (v / 2).testBit j)).map Nat.succ := by
      simp [List.filter_map, Function.comp_def, Nat.testBit_succ]
    rw [popCount, ih, List.range_succ_eq_map, List.filter_cons, hrest]
    rcases Nat.mod_two_eq_zero_or_one v with hlow | hlow <;> simp [Nat.testBit_zero, hlow, Nat.add_comm]

/-- POPC's result. -/
theorem scalarEffect_popc (s : State) (d a : SReg) : ScalarEffect (.popc d a) s d
    (BitVec.ofNat 64 ((List.range 64).filter (fun j => (rdS s a).getLsbD j)).length) :=
  scalarEffect_of (congrArg (fun n => scalarResult s d (BitVec.ofNat 64 n)) (popCount_eq_length_filter (rdS s a).toNat 64))

/-- Settles O4: the count of leading zeros by its own lemmas, the population count by induction on the number of bits. -/
theorem bitCountResults : Obligations.BitCountResults := by
  refine ⟨fun s d a => ?_, scalarEffect_popc, by decide, fun fn hfn => ?_⟩
  · exact ⟨leadZeros (rdS s a).toNat 64, scalarEffect_of rfl, leadZeros_le _ _, leadZeros_toNat_eq_64_iff _,
      fun _ => testBit_of_lt_leadZeros, testBit_leadZeros⟩
  · have hfn : fn = 40 ∨ fn = 41 := by simpa using hfn
    exact ⟨illegalFields_b hfn, illegalFields_e (by omega)⟩

end Sys2Proof.Machine
end

section
/-! PROOFS. Shifts, LUI, division and remainder (R295, R322, R344, R355). -/

namespace Sys2Proof

/-- Nothing stands above the major of a word. -/
theorem div_eq_of_fld_major {w : BitVec 32} {m : Nat} (h : fld w.toNat 31 26 = m) : w.toNat / 2 ^ 26 = m := by
  have hw : w.toNat < 2 ^ 32 := w.isLt
  unfold fld at h
  omega

/-- The row of a word of major 0x06. -/
theorem candidate_major_06 {w : BitVec 32} (h : fld w.toNat 31 26 = 6) : candidate w.toNat = cand06 w.toNat := by
  rw [candidate, div_eq_of_fld_major h]
  rfl

/-- Major 0x06 holds SHI alone. -/
theorem eq_shi_of_cand06 {w : Nat} {i : Instr} (h : cand06 w = some i) : ∃ d a k n, i = .shi d a k n := by
  obtain ⟨k, -, hi⟩ := Option.bind_eq_some_iff.mp h
  exact ⟨_, _, k, _, (Option.some.inj hi).symm⟩

/-- A kind of shift has one of the codes 0, 1 and 2. -/
theorem shKind_code_lt (k : Machine.ShKind) : k.code < 3 := by cases k <;> decide

/-- The word of an SHI has its kind in bits 15:14 and zeros in bits 13:6 (R355). -/
theorem fld_encNat_shi (d a : SReg) (k : Machine.ShKind) (n : BitVec 6) :
    fld (encNat (.shi d a k n)) 15 14 = k.code ∧ fld (encNat (.shi d a k n)) 13 6 = 0 := by
  have hkind := shKind_code_lt k
  have hamount : n.toNat < 2 ^ 6 := n.isLt
  simp only [encNat, pack, fld]
  omega

/-- A word of major 0x06 with a kind of 11 or a non-zero bit of 13:6 is ILLEGAL (R355). -/
theorem decode_shi_eq_none {w : BitVec 32} (hmajor : fld w.toNat 31 26 = 6)
    (hbad : fld w.toNat 15 14 = 3 ∨ fld w.toNat 13 6 ≠ 0) : decode w = none := by
  by_contra hlegal
  obtain ⟨i, hdec⟩ := Option.ne_none_iff_exists'.mp hlegal
  obtain ⟨hrow, henc⟩ := encNat_of_decode hdec
  rw [candidate_major_06 hmajor] at hrow
  obtain ⟨d, a, k, n, rfl⟩ := eq_shi_of_cand06 hrow
  obtain ⟨hkind, hzero⟩ := fld_encNat_shi d a k n
  rw [henc] at hkind hzero
  rcases hbad with hkind3 | hnonzero
  · exact absurd (hkind.symm.trans hkind3) (shKind_code_lt k).ne
  · exact hnonzero hzero

end Sys2Proof

namespace Sys2Proof.Machine

open Sys2Proof.Safety

/-- Shifting the sign-extended immediate by 16 places multiplies it by 2^16 (R322). -/
theorem signExtend_shiftLeft_16 (up : BitVec 21) : up.signExtend 64 <<< 16 = BitVec.ofInt 64 (up.toInt * 2 ^ 16) := by
  rw [BitVec.shiftLeft_eq_mul_twoPow, BitVec.ofInt_mul]
  rfl

/-- The signed quotient of Table 12.1 is the bit vector's, but for a divisor of 0. -/
theorem divS_eq_sdiv (x y : W64) : divS x y = if y = 0 then BitVec.allOnes 64 else x.sdiv y := by
  have hquot : BitVec.ofInt 64 (x.toInt.tdiv y.toInt) = x.sdiv y :=
    BitVec.eq_of_toInt_eq (by rw [BitVec.toInt_ofInt, BitVec.toInt_sdiv])
  rw [divS, hquot]

/-- The signed remainder of Table 12.1 is the bit vector's, but for a divisor of 0. -/
theorem remS_eq_srem (x y : W64) : remS x y = if y = 0 then x else x.srem y := by
  rw [remS, ← BitVec.toInt_srem, BitVec.ofInt_toInt]

/-- The unsigned quotient of Table 12.1 is the bit vector's, but for a divisor of 0. -/
theorem divZ_eq_udiv (x y : W64) : divZ x y = if y = 0 then BitVec.allOnes 64 else x.udiv y := by
  rw [divZ, BitVec.udiv_eq, BitVec.udiv_def]

/-- The unsigned remainder of Table 12.1 is the bit vector's, but for a divisor of 0. -/
theorem remZ_eq_umod (x y : W64) : remZ x y = if y = 0 then x else x.umod y := by
  rw [remZ, BitVec.umod_eq, BitVec.umod_def]

/-- LUI's result. -/
theorem scalarEffect_lui (s : State) (d : SReg) (up : BitVec 21) :
    ScalarEffect (.lui d up) s d (BitVec.ofInt 64 (up.toInt * 2 ^ 16)) :=
  signExtend_shiftLeft_16 up ▸ scalarEffect_of rfl

/-- DIV's result. -/
theorem scalarEffect_div (s : State) (d a b : SReg) :
    ScalarEffect (.div d a b) s d (if rdS s b = 0 then BitVec.allOnes 64 else (rdS s a).sdiv (rdS s b)) :=
  divS_eq_sdiv _ _ ▸ scalarEffect_of rfl

/-- DIVZ's result. -/
theorem scalarEffect_divz (s : State) (d a b : SReg) :
    ScalarEffect (.divz d a b) s d (if rdS s b = 0 then BitVec.allOnes 64 else (rdS s a).udiv (rdS s b)) :=
  divZ_eq_udiv _ _ ▸ scalarEffect_of rfl

/-- REM's result. -/
theorem scalarEffect_rem (s : State) (d a b : SReg) :
    ScalarEffect (.rem d a b) s d (if rdS s b = 0 then rdS s a else (rdS s a).srem (rdS s b)) :=
  remS_eq_srem _ _ ▸ scalarEffect_of rfl

/-- REMZ's result. -/
theorem scalarEffect_remz (s : State) (d a b : SReg) :
    ScalarEffect (.remz d a b) s d (if rdS s b = 0 then rdS s a else (rdS s a).umod (rdS s b)) :=
  remZ_eq_umod _ _ ▸ scalarEffect_of rfl

/-- −2^63 divided by −1 gives −2^63, remainder 0 (Table 12.1). -/
theorem scalarEffect_divRem_overflow {s : State} {a b : SReg} (d : SReg) (hb : rdS s b = BitVec.allOnes 64)
    (ha : rdS s a = BitVec.intMin 64) :
    ScalarEffect (.div d a b) s d (BitVec.intMin 64) ∧ ScalarEffect (.rem d a b) s d 0 := by
  have hdiv := scalarEffect_div s d a b
  have hrem := scalarEffect_rem s d a b
  have hnonzero : BitVec.allOnes 64 ≠ 0 := by decide
  have hquot : (BitVec.intMin 64).sdiv (BitVec.allOnes 64) = BitVec.intMin 64 :=
    BitVec.neg_one_eq_allOnes ▸ BitVec.intMin_sdiv_neg_one
  have hrest : (BitVec.intMin 64).srem (BitVec.allOnes 64) = 0 := by decide
  rw [ha, hb, if_neg hnonzero, hquot] at hdiv
  rw [ha, hb, if_neg hnonzero, hrest] at hrem
  exact ⟨hdiv, hrem⟩

/-- Settles O2: each instruction ends with the one scalar result, the quotients and remainders are the bit vectors' own, and the
words of a row hold zeros where it has no field. -/
theorem scalarShiftAndDivision : Obligations.ScalarShiftAndDivision := by
  refine ⟨fun s d a b n up => ?_, fun fn hfn => illegalFields_e ?_, fun w => decode_shi_eq_none⟩
  · exact ⟨scalarEffect_of rfl, scalarEffect_of rfl, scalarEffect_of rfl, scalarEffect_of rfl, scalarEffect_of rfl,
      scalarEffect_of rfl, scalarEffect_lui s d up, scalarEffect_div s d a b, scalarEffect_divz s d a b,
      scalarEffect_rem s d a b, scalarEffect_remz s d a b, scalarEffect_divRem_overflow d⟩
  · rintro rfl
    exact absurd hfn (by decide)

end Sys2Proof.Machine
end

section
/-! PROOFS. Return from a trap, and a fetch that faults (R29, R60, R298). -/

namespace Sys2Proof.Machine

open Sys2Proof.Safety

/-- ERET in user mode raises PRIV. -/
theorem exec_eret_user {s : State} (h : (slot s).sys = false) : exec .eret s = .next (raise s .priv) :=
  congrArg Host.Outcome.next (if_neg (ne_true_of_eq_false h))

/-- ERET in system mode returns from the trap. -/
theorem exec_eret_system {s : State} (h : (slot s).sys = true) : exec .eret s = .next (trapReturn s) :=
  congrArg Host.Outcome.next (if_pos h)

/-- A fetch at a misaligned PC raises ALIGN before anything else (R60). -/
theorem fetchAt_misaligned (s : State) (p : Nat) {pc : VA} (h : pc.toNat % 4 ≠ 0) : fetchAt s p pc = .error .align :=
  if_pos h

/-- Outside repeat frames a slot issues the word at its PC, and a fault of that fetch has `epc` there. -/
theorem fetchNow_error_of_no_frame {s : State} {e : TrapCause} (hframe : (slot s).frame = none)
    (h : fetchAt s (curPart s) (slot s).pc = .error e) : fetchNow s = .error (e, (slot s).pc) := by
  simp only [fetchNow, hframe, h]

/-- A runnable slot whose fetch faults takes the trap of the fetch. -/
theorem exec_fetchFault {s : State} {e : TrapCause} {epc : VA} (hrun : (slot s).st = .runnable)
    (h : fetchNow s = .error (e, epc)) : exec .fetchFault s = .next (takeTrap s s.curCore s.curSlot e 0 epc) := by
  have hissues : runnableNow s = true := beq_iff_eq.mpr hrun
  change execFetchFault s = _
  rw [execFetchFault, if_pos hissues, h]

/-- Settles O13: ERET by the mode of its slot, the fetch by the order of its checks. (The model has a function
`trapReturn`, so the theorem has a longer name.) -/
theorem trapReturn_holds : Obligations.TrapReturn := by
  refine ⟨fun s huser => ?_, fun s hsys => ?_, fun s p _ => fetchAt_misaligned s p, fun s e hrun hframe huser hfault => ?_⟩
  · exact traps_of huser (exec_eret_user huser)
  · exact ⟨trapReturn s, exec_eret_system hsys, rfl⟩
  · exact traps_of huser (exec_fetchFault hrun (fetchNow_error_of_no_frame hframe hfault))

end Sys2Proof.Machine
end

section
/-! PROOFS. Minimum, maximum, comparisons and SEL (R72, R324, R352, R354, R357). -/

namespace Sys2Proof.Machine

open Sys2Proof.Safety

/-! ## The chosen operand -/

/-- A choice by `<` is the choice by `≤` when both operands of it are the same at equality. -/
theorem ite_lt_eq_ite_le {α β : Type} [PartialOrder β] {m n : β} [Decidable (m < n)] [Decidable (m ≤ n)] {u v : α}
    (h : m = n → u = v) : (if m < n then u else v) = if m ≤ n then u else v := by
  rcases eq_or_ne m n with heq | hne
  · rw [h heq, ite_self, ite_self]
  · simp only [hne.le_iff_lt]

theorem minS_eq_ite_le (x y : W64) : minS x y = if x.toInt ≤ y.toInt then x else y := by
  simp only [minS, BitVec.slt_iff_toInt_lt]
  exact ite_lt_eq_ite_le BitVec.eq_of_toInt_eq

theorem maxS_eq_ite_le (x y : W64) : maxS x y = if x.toInt ≤ y.toInt then y else x := by
  simp only [maxS, BitVec.slt_iff_toInt_lt]
  exact ite_lt_eq_ite_le fun h => (BitVec.eq_of_toInt_eq h).symm

theorem minU_eq_ite_le (x y : W64) : minU x y = if x.toNat ≤ y.toNat then x else y := by
  simp only [minU, BitVec.ult_iff_toNat_lt]
  exact ite_lt_eq_ite_le BitVec.eq_of_toNat_eq

theorem maxU_eq_ite_le (x y : W64) : maxU x y = if x.toNat ≤ y.toNat then y else x := by
  simp only [maxU, BitVec.ult_iff_toNat_lt]
  exact ite_lt_eq_ite_le fun h => (BitVec.eq_of_toNat_eq h).symm

/-! ## The result of a comparison -/

theorem boolWord_slt (x y : W64) : boolWord (x.slt y) = if x.toInt < y.toInt then 1 else 0 := by
  simp only [boolWord, BitVec.slt_iff_toInt_lt]

theorem boolWord_ult (x y : W64) : boolWord (x.ult y) = if x.toNat < y.toNat then 1 else 0 := by
  simp only [boolWord, BitVec.ult_iff_toNat_lt]

theorem boolWord_beq (x y : W64) : boolWord (x == y) = if x = y then 1 else 0 := by
  simp only [boolWord, beq_iff_eq]

/-- SLTI's immediate keeps its value when it is sign-extended (R357). -/
theorem boolWord_slt_sext16 (x : W64) (imm : BitVec 16) :
    boolWord (x.slt (sext16 imm)) = if x.toInt < imm.toInt then 1 else 0 := by
  have himm : (sext16 imm).toInt = imm.toInt := BitVec.toInt_signExtend_of_le (by decide)
  rw [boolWord_slt, himm]

/-! ## The statement -/

/-- What a scalar result does, its value given in another form. -/
theorem scalarEffect_of_eq {i : Instr} {s : State} {d : SReg} {v w : W64} (h : exec i s = scalarResult s d w) (hvalue : w = v) :
    ScalarEffect i s d v :=
  hvalue ▸ scalarEffect_of h

/-- Settles O3: the strict comparisons of the model choose as the statement's do, since operands of equal value are equal; of
the rows with these functions SEL's alone has an e field. -/
theorem scalarChoiceResults : Obligations.ScalarChoiceResults := by
  refine ⟨fun s d a b e imm => ?_, by decide, by decide, fun fn hfn => illegalFields_e ?_⟩
  · exact ⟨scalarEffect_of_eq rfl (minS_eq_ite_le _ _), scalarEffect_of_eq rfl (maxS_eq_ite_le _ _),
      scalarEffect_of_eq rfl (minU_eq_ite_le _ _), scalarEffect_of_eq rfl (maxU_eq_ite_le _ _),
      scalarEffect_of_eq rfl (boolWord_slt _ _), scalarEffect_of_eq rfl (boolWord_slt_sext16 _ _),
      scalarEffect_of_eq rfl (boolWord_ult _ _), scalarEffect_of_eq rfl (boolWord_beq _ _),
      scalarEffect_of_eq rfl (ite_not _ _ _)⟩
  · rintro rfl
    exact absurd hfn (by decide)

end Sys2Proof.Machine
end
